-- ==== Sys2Proof/Word.lean ====
section
/-! DEFINITION. The words of the JS-8: a byte of the Cell Link, a record's tag, a head's number, and a bank of
eight like things, one for each head. -/

namespace Sys2Proof

/-- One byte of a frame on the Cell Link (R152). -/
abbrev Byte := BitVec 8

/-- The workstation's name for a record, two bytes of its header (R166). -/
abbrev Tag := BitVec 16

/-- A head's number, 0..7 (R59). -/
abbrev HeadNo := Fin 8

/-- Eight like things, one for each head. -/
abbrev PerHead (α : Type) := Vector α 8

end Sys2Proof
end

