-- ==== Sys2Proof/Syntax.lean ====
section
/-! DEFINITION. The commands of the JS-8: one constructor for each row of spec/opcode_table.json, in the table's
order. A row that is a control record carries the record's header and its parameter bytes as the link carries
them (R166, R186), so that every form of the record, the refused ones too, can be written. -/

namespace Sys2Proof

/-- The header of a record less its kind byte, which the command's own name gives (R166): the notify byte as sent
(a value other than 0 and 1 is refused under R169) and the tag. -/
structure Header where
  notify : Byte
  tag : Tag
  deriving DecidableEq, Repr

/-- What brings a position of the cylinder to the Encoder Monitor (R1): the TICK line, the INDEX line, or the
internal tick generator. STALL and MARK_STOP come about inside such a position; their operand says which. -/
inductive PositionEvent where
  | tick
  | index
  | generator
  deriving DecidableEq, Repr

/-- The commands: events on the part's lines, steps of its own blocks, and control records. -/
inductive Instr where
  /-- POWER_ON_RESET, R2: power is applied or POWER_RESET is asserted. -/
  | powerOnReset
  /-- TICK, R5: the TICK line gives one encoder step. -/
  | tick
  /-- INDEX, R6: the INDEX line gives the once-per-revolution mark. -/
  | index
  /-- INTERNAL_TICK_GENERATOR, R11: a period of the internal tick generator expires. -/
  | internalTickGenerator
  /-- INDEX_LOST, R8: the TICK that brings the ticks-since-index count to 2E. -/
  | indexLost
  /-- STALL, R121: the index position at which the consecutive idle count reaches the stall limit. -/
  | stall (p : PositionEvent)
  /-- MARK_STOP, R139: the position whose marked strike wraps the mark counter. -/
  | markStop (p : PositionEvent)
  /-- ALARM_LINE_CHANGE, R73: a head's ALARM line goes to the level given. -/
  | alarmLineChange (h : HeadNo) (high : Bool)
  /-- READY_LINE_CHANGE, R74: a head's READY line goes to the level given. -/
  | readyLineChange (h : HeadNo) (high : Bool)
  /-- LINK_SYNC_LOST, R159: downstream receive synchronization is lost. -/
  | linkSyncLost
  /-- LINK_SYNC_GAINED, R159: downstream receive synchronization is regained. -/
  | linkSyncGained
  /-- FRAME_RECEIVED, R154: the bytes of one downstream frame have been received whole. -/
  | frameReceived (bytes : List Byte)
  /-- CELL_FRAME, R84: a CELL frame of this body is handed to the Track Assembler. -/
  | cellFrame (body : List Byte)
  /-- CTRL_FRAME_NO_HEADER, R166: a CTRL frame of this short body is handed to the Interpreter. -/
  | ctrlFrameNoHeader (body : List Byte)
  /-- UNKNOWN_KIND, R169: a record of a kind that is not in the catalogue. -/
  | unknownKind (kind : Byte) (hdr : Header) (params : List Byte)
  /-- LOAD_CURVE, R28: the record LOAD CURVE. -/
  | loadCurve (hdr : Header) (params : List Byte)
  /-- EXPANSION_COMPLETE, R32: the computation of the expansion in work has finished. -/
  | expansionComplete
  /-- LOAD_TABLE, R33: the record LOAD TABLE. -/
  | loadTable (hdr : Header) (params : List Byte)
  /-- READ_TABLE, R34: the record READ TABLE. -/
  | readTable (hdr : Header) (params : List Byte)
  /-- CLEAR_TABLE, R35: the record CLEAR TABLE. -/
  | clearTable (hdr : Header) (params : List Byte)
  /-- SET_SCREEN, R14: the record SET SCREEN. -/
  | setScreen (hdr : Header) (params : List Byte)
  /-- CLEAR_SCREEN, R15: the record CLEAR SCREEN. -/
  | clearScreen (hdr : Header) (params : List Byte)
  /-- SET_HEAD, R61: the record SET HEAD. -/
  | setHead (hdr : Header) (params : List Byte)
  /-- READ_HEAD, R63: the record READ HEAD. -/
  | readHead (hdr : Header) (params : List Byte)
  /-- STYLUS_CHANGE, R65: the record STYLUS CHANGE. -/
  | stylusChange (hdr : Header) (params : List Byte)
  /-- CLEAR_FAULT, R78: the record CLEAR FAULT. -/
  | clearFault (hdr : Header) (params : List Byte)
  /-- SET_JOB, R104: the record SET JOB. -/
  | setJob (hdr : Header) (params : List Byte)
  /-- PLAN_HEAD, R106: the record PLAN HEAD. -/
  | planHead (hdr : Header) (params : List Byte)
  /-- CLEAR_PLAN, R107: the record CLEAR PLAN. -/
  | clearPlan (hdr : Header) (params : List Byte)
  /-- ARM, R111: the record ARM. -/
  | arm (hdr : Header) (params : List Byte)
  /-- START, R112: the record START. -/
  | start (hdr : Header) (params : List Byte)
  /-- HOLD, R126: the record HOLD. -/
  | hold (hdr : Header) (params : List Byte)
  /-- RESUME, R127: the record RESUME. -/
  | resume (hdr : Header) (params : List Byte)
  /-- ABORT, R130: the record ABORT. -/
  | abort (hdr : Header) (params : List Byte)
  /-- SET_MARK_COUNT, R140: the record SET MARK COUNT. -/
  | setMarkCount (hdr : Header) (params : List Byte)
  /-- READ_TALLY, R137: the record READ TALLY. -/
  | readTally (hdr : Header) (params : List Byte)
  /-- DEFINE_CAPTURE, R143: the record DEFINE CAPTURE. -/
  | defineCapture (hdr : Header) (params : List Byte)
  /-- DELETE_CAPTURE, R149: the record DELETE CAPTURE. -/
  | deleteCapture (hdr : Header) (params : List Byte)
  /-- LIST_CAPTURES, R150: the record LIST CAPTURES. -/
  | listCaptures (hdr : Header) (params : List Byte)
  /-- READ_CAPTURE, R151: the record READ CAPTURE. -/
  | readCapture (hdr : Header) (params : List Byte)
  /-- CAPTURE_DATA_PLACED, R151: a readback places its next CAPTURE_DATA frame or its RESULT. -/
  | captureDataPlaced
  /-- READ_STATUS, R182: the record READ STATUS. -/
  | readStatus (hdr : Header) (params : List Byte)
  /-- SET_ENABLE, R182: the record SET ENABLE. -/
  | setEnable (hdr : Header) (params : List Byte)
  /-- READ_ERROR, R184: the record READ ERROR. -/
  | readError (hdr : Header) (params : List Byte)
  /-- SET_FLOW, R158: the record SET FLOW. -/
  | setFlow (hdr : Header) (params : List Byte)
  /-- SYNC, R173: the record SYNC. -/
  | sync (hdr : Header) (params : List Byte)
  /-- SYNC_ANSWER_PLACED, R174: a due SYNC answer is placed at the freeing of an Upstream Queue entry. -/
  | syncAnswerPlaced
  /-- RESET, R175: the record RESET. -/
  | reset (hdr : Header) (params : List Byte)
  /-- RESULT_PLACED, R172: the WAITING Interpreter's RESULT is placed at the freeing of an Upstream Queue entry. -/
  | resultPlaced
  /-- UPSTREAM_SEND_BEGIN, R163: the Transmitter chooses a frame and begins to send it. -/
  | upstreamSendBegin
  /-- UPSTREAM_SEND_END, R163: the frame being sent ends. -/
  | upstreamSendEnd
  deriving DecidableEq, Repr

end Sys2Proof
end

