-- ==== Sys2Proof/Decode.lean ====
section
/-! DEFINITION. Decoding of the opcode table's words. The commands of the JS-8 are events of a block, not words: no row of
spec/opcode_table.json gives bits (each row's list of fields is empty and none has a fixed part), so no word spells a
command. The bytes of records and frames are read in Machine/Wire.lean and Machine/Operands.lean. -/

namespace Sys2Proof

/-- The command that a word spells by the table's bits: none, since no row gives bits. -/
def decodeTableWord (_nbits _w : Nat) : Option Instr := none

end Sys2Proof
end

