-- ==== Sys2Proof/Config.lean ====
section
/-! DEFINITION. The capacities and limits that the manual fixes for the JS-8.
There is no free value here: the manual leaves no value open that a command of the table needs. -/

namespace Sys2Proof.Config

/-- Bytes the Intake FIFO holds (R155). -/
abbrev intakeCapacity : Nat := 32768
/-- Largest number of body bytes of a frame (R152). -/
abbrev maxBody : Nat := 4096
/-- Frames the Upstream Queue holds (R162). -/
abbrev upstreamCapacity : Nat := 64
/-- Loads the Expansion Queue holds (R27, R29). -/
abbrev expansionCapacity : Nat := 4
/-- Entries the outstanding SYNC set holds (R173). -/
abbrev syncCapacity : Nat := 16
/-- Entries the Error Queue holds (R183). -/
abbrev errorCapacity : Nat := 32
/-- Entries of Capture Memory (R142). -/
abbrev captureMemory : Nat := 16384
/-- Captured entries that one CAPTURE_DATA frame carries at most (R151). -/
abbrev captureFrameEntries : Nat := 500
/-- Deepest depth a table entry may hold, in 0.1 µm (R23). -/
abbrev maxDepth : Nat := 1000
/-- Largest value of a 32-bit count. -/
abbrev max32 : Nat := 4294967295
/-- Largest value of a 48-bit sum (R133). -/
abbrev max48 : Nat := 281474976710655
/-- High watermark after power-on reset (R156). -/
abbrev highDefault : Nat := 24576
/-- Low watermark after power-on reset (R156). -/
abbrev lowDefault : Nat := 8192
/-- E of the default job record (R103) and of the Monitor at reset (R2). -/
abbrev eDefault : Nat := 65536
/-- Internal tick period of the default job record (R103) and of the Monitor at reset (R2). -/
abbrev periodDefault : Nat := 100

end Sys2Proof.Config
end

