-- ==== Sys2Proof/Machine/State.lean ====
section
/-! DEFINITION. The state of the JS-8, block by block, as plain data, and the state after power-on reset.
Each structure is one block of 00_scope.md; each field cites the rule that names it. -/

namespace Sys2Proof.Machine

open Sys2Proof

/-! ## Encoder Monitor and screen slots (chapter 1) -/

/-- Sync state of the Encoder Monitor (R2). -/
inductive SyncState where
  | unsynced
  | synced
  deriving DecidableEq, Repr

/-- Encoder source (R2, R103). -/
inductive Source where
  | external
  | internal
  deriving DecidableEq, Repr

/-- The Encoder Monitor's record (R2) and the internal tick generator's place in its revolution (R11).
The generator runs exactly while the source in force is INTERNAL (R11), so that is not held twice. -/
structure Monitor where
  sync : SyncState
  /-- ticks-since-index count -/
  count : Nat
  /-- last revolution length -/
  lastLength : Nat
  /-- revolution counter, wrapping at 2^32 -/
  revolutions : Nat
  /-- source in force -/
  source : Source
  /-- E in force -/
  e : Nat
  /-- generator period in force, in 0.1 µs -/
  period : Nat
  /-- number, in its revolution of E positions, of the next position the internal generator produces -/
  genNext : Nat
  deriving DecidableEq, Repr

/-- A screen record (R13): cells per revolution N, stagger step, minimum depth. -/
structure Screen where
  cells : Nat
  stagger : Nat
  minDepth : Nat
  deriving DecidableEq, Repr

/-- A screen slot (R13): READY with its record, or EMPTY with none; and its bind count (R16). -/
structure ScreenSlot where
  screen : Option Screen
  binds : Nat
  deriving DecidableEq, Repr

/-! ## Gradation slots and the Expander (chapter 2) -/

/-- State and table of a gradation slot (R23). -/
inductive Table where
  | empty
  | expanding
  | ready (depths : List Nat)
  deriving DecidableEq, Repr

/-- A gradation slot (R23) with its bind count (R24). -/
structure GradSlot where
  table : Table
  binds : Nat
  deriving DecidableEq, Repr

/-- One breakpoint of a curve (R26). -/
structure Breakpoint where
  tone : Nat
  depth : Nat
  deriving DecidableEq, Repr

/-- A load entry of the Expansion Queue (R28). -/
structure Load where
  slot : Fin 16
  points : List Breakpoint
  notify : Bool
  tag : Tag
  deriving DecidableEq, Repr

/-- The Expander: the Expansion Queue, oldest first (R29), whose head is the load in work (R30), and whether that
load's computation has finished and its completion waits for an Upstream Queue entry (R32). -/
structure Expander where
  queue : List Load
  finished : Bool
  deriving DecidableEq, Repr

/-! ## Head Ports (chapter 4) -/

/-- Polarity of a READY or ALARM line (R60). -/
inductive Polarity where
  | normal
  | inverted
  deriving DecidableEq, Repr

/-- A head's calibration record (R60). -/
structure Calibration where
  gain : Nat
  offset : Int
  rest : Nat
  maxDepth : Nat
  wearRate : Nat
  wearCap : Nat
  readyPolarity : Polarity
  alarmPolarity : Polarity
  deriving DecidableEq, Repr

/-- Lift state of a Head Port (R68). An ENGAGED head's DRIVE line holds a code; a LIFTED head's DRIVE line follows
the rest code in force, so no code is held. -/
inductive LiftState where
  | lifted
  | engaged (code : Nat)
  deriving DecidableEq, Repr

/-- A Head Port (R59), with the levels of its READY and ALARM lines (true is high) that the normalized inputs are
read from (R66). `strokeCode` and `strokeCount` are the model's own: the code that the DRIVE line presented at the
latest strike taken while ENGAGED, and how many strikes it has presented since power-on (R55, R70). They keep the
stroke of a track's last cell, which DRIVE presents before the head lifts within the one strike event (R71). -/
structure HeadPort where
  cal : Calibration
  calibrated : Bool
  /-- strike counter S -/
  strikes : Nat
  lift : LiftState
  strokeCode : Nat
  strokeCount : Nat
  readyLine : Bool
  alarmLine : Bool
  /-- normalized READY -/
  ready : Bool
  /-- normalized ALARM -/
  alarm : Bool
  deriving DecidableEq, Repr

/-! ## Lanes (chapter 5) -/

/-- One cell as a track slot stores it (R82): tone and the two flags; the other flag bits are stored as zero (R84). -/
structure Cell where
  tone : Byte
  mark : Bool
  nocut : Bool
  deriving DecidableEq, Repr

/-- The states of a track slot that holds a track (R82). -/
inductive SlotUse where
  | assembling
  | complete
  | cutting
  | retained
  | interrupted
  deriving DecidableEq, Repr

/-- A track slot (R82). -/
inductive TrackSlot where
  | free
  | held (use : SlotUse) (track : Nat) (cells : List Cell)
  deriving DecidableEq, Repr

/-- An OPEN lane buffer (R79). A CLOSED lane buffer holds nothing, and is `none` in the state. -/
structure Lane where
  tag : Byte
  /-- pattern length P -/
  pattern : Nat
  /-- track count -/
  tracks : Nat
  /-- next track to assemble -/
  next : Nat
  slot0 : TrackSlot
  slot1 : TrackSlot
  deriving DecidableEq, Repr

/-! ## Job record, plan and Track Sequencer (chapter 6) -/

/-- Mode of a job (R103). -/
inductive Mode where
  | cut
  | dry
  deriving DecidableEq, Repr

/-- Fault policy of a job (R103); `carryOn` is the manual's CONTINUE. -/
inductive FaultPolicy where
  | carryOn
  | holdAll
  deriving DecidableEq, Repr

/-- Tally source of a job (R103). -/
inductive TallySource where
  | tone
  | depth
  deriving DecidableEq, Repr

/-- The job record (R103). -/
structure JobRecord where
  mode : Mode
  source : Source
  e : Nat
  period : Nat
  policy : FaultPolicy
  stallLimit : Nat
  tallySource : TallySource
  markStop : Bool
  deriving DecidableEq, Repr

/-- Fields of a planned plan entry (R105). An entry whose planned flag is clear is `none` in the plan. -/
structure PlanEntry where
  tag : Byte
  screen : Fin 8
  grad : Fin 16
  repeats : Nat
  tracks : Nat
  deriving DecidableEq, Repr

/-- Outcome of a job (R108); `part` is the manual's PARTIAL. -/
inductive JobOutcome where
  | complete
  | part
  | aborted
  deriving DecidableEq, Repr

/-- Job state, with the outcome that is present in ENDED (R108). -/
inductive JobState where
  | idle
  | armed
  | running
  | holding
  | ended (outcome : JobOutcome)
  deriving DecidableEq, Repr

/-- Head state, with the next cell that is present while CUTTING (R109). -/
inductive HeadState where
  | out
  | armed
  | waiting
  | cutting (nextCell : Nat)
  | faulted
  | finished
  deriving DecidableEq, Repr

/-- The Track Sequencer's items of one head (R109). -/
structure HeadItems where
  state : HeadState
  /-- next track to cut -/
  next : Nat
  interrupted : Bool
  faultPosition : Bool
  /-- track just cut -/
  justCut : Option Nat
  deriving DecidableEq, Repr

/-- The Track Sequencer: job record, plan, job items (R108) and head items (R109). `stalled` is the state behind the
STALLED condition (R121). `pulses` is the model's own: how many pulses the ADVANCE line has given since power-on. -/
structure Sequencer where
  job : JobRecord
  plan : PerHead (Option PlanEntry)
  state : JobState
  hold : Bool
  advances : Nat
  idle : Nat
  consecutiveIdle : Nat
  retained : Bool
  stalled : Bool
  heads : PerHead HeadItems
  pulses : Nat
  deriving DecidableEq, Repr

/-! ## Tally Unit and Capture Unit (chapter 7) -/

/-- A head's tally (R133). -/
structure Tally where
  currentTrack : Nat
  lastTrack : Nat
  job : Nat
  cut : Nat
  uncut : Nat
  depthClamps : Nat
  driveClamps : Nat
  deriving DecidableEq, Repr

/-- One entry of a capture (R145). -/
structure CaptureEntry where
  tone : Byte
  mark : Bool
  nocut : Bool
  depth : Nat
  code : Nat
  depthClamped : Bool
  driveClamped : Bool
  deriving DecidableEq, Repr

/-- State of a capture (R142). -/
inductive CaptureState where
  | waiting
  | filling
  | full
  deriving DecidableEq, Repr

/-- A capture (R142); its count is the number of its entries. -/
structure Capture where
  id : Nat
  head : HeadNo
  track : Nat
  first : Nat
  length : Nat
  state : CaptureState
  entries : List CaptureEntry
  deriving DecidableEq, Repr

/-! ## The Cell Link (chapter 8) -/

/-- The two downstream frame kinds (R152). -/
inductive DownKind where
  | cell
  | ctrl
  deriving DecidableEq, Repr

/-- A good downstream frame as the Intake FIFO holds it (R155): its kind and body. The flags byte is disregarded
(R152) and the check has been used up (R154). -/
structure Frame where
  kind : DownKind
  body : List Byte
  deriving DecidableEq, Repr

/-- Flow state (R156). -/
inductive FlowState where
  | flowing
  | paused
  deriving DecidableEq, Repr

/-- The Link Receiver: Intake FIFO, oldest first (R155), flow state and watermarks (R156), LINK_DOWN (R159). -/
structure LinkReceiver where
  fifo : List Frame
  flow : FlowState
  high : Nat
  low : Nat
  down : Bool
  deriving DecidableEq, Repr

/-- The four upstream frame kinds (R152). -/
inductive UpKind where
  | result
  | notice
  | mark
  | captureData
  deriving DecidableEq, Repr

/-- An upstream frame: its kind and body; the envelope's other parts follow from them (R152, R153). -/
structure UpFrame where
  kind : UpKind
  body : List Byte
  deriving DecidableEq, Repr

/-- The Upstream Transmitter: the Upstream Queue, oldest first (R162), the pending flow mark and last announced state
(R157), the pending ROOM marks (R101), the pending STATUS notice (R181), and the frame being sent (R163). -/
structure Transmitter where
  queue : List UpFrame
  flowMark : Option FlowState
  announced : FlowState
  room : PerHead Bool
  notice : Bool
  sending : Option UpFrame
  deriving DecidableEq, Repr

/-! ## Record Interpreter (chapter 9) -/

/-- The items of a readback (R151, R167): the capture's id, the record's tag, the number n of entries fixed at its
start, and the next entry to send. -/
structure Readback where
  id : Nat
  tag : Tag
  n : Nat
  next : Nat
  deriving DecidableEq, Repr

/-- The Record Interpreter's state (R167). WAITING holds a RESULT, or a readback whose next frame waits: that frame
follows from the readback's items and the capture, and is formed when it is placed (R151). -/
inductive InterpState where
  | free
  | waiting (result : UpFrame)
  | waitingReadback (rb : Readback)
  | streaming (rb : Readback)
  deriving DecidableEq, Repr

/-- An entry of the outstanding SYNC set (R173): its tag and the load it names, which its slot identifies because no
slot has two loads (R29); `none` once the load has completed and the entry is due (R174). -/
structure SyncEntry where
  tag : Tag
  load : Option (Fin 16)
  deriving DecidableEq, Repr

/-- The Record Interpreter: its state (R167) and the outstanding SYNC set, in order of arrival (R173). -/
structure Interpreter where
  state : InterpState
  syncs : List SyncEntry
  deriving DecidableEq, Repr

/-! ## Status Unit (chapter 10) -/

/-- The asynchronous error codes (R187); NO_ERROR is said by the absence of an entry. -/
inductive ErrorCode where
  | frameCheck
  | unknownFrame
  | intakeOverrun
  | unknownLane
  | trackSequence
  | segmentGap
  | trackSeam
  | trackOverlong
  | laneNoRoom
  | headAlarm
  | headNotReady
  | encoderSlip
  | indexLost
  | stall
  | queueOverflow
  deriving DecidableEq, Repr

/-- An Error Queue entry (R183). -/
structure ErrorEntry where
  code : ErrorCode
  revolution : Nat
  head : Option HeadNo
  lane : Option Byte
  track : Option Nat
  cell : Option Nat
  deriving DecidableEq, Repr

/-- The Status Unit: event register (R180), enable mask (R181) and Error Queue, oldest first (R183). The condition
bits mirror other blocks (R179) and the summary follows from the register and the mask (R181); neither is held. -/
structure Status where
  events : BitVec 14
  enable : BitVec 14
  errors : List ErrorEntry
  deriving DecidableEq, Repr

/-! ## The whole part -/

/-- The state of the JS-8. `pending` is the model's own: the commands that wait, first in, first out. -/
structure State where
  pending : List Instr
  rx : LinkReceiver
  tx : Transmitter
  interp : Interpreter
  screens : Vector ScreenSlot 8
  grads : Vector GradSlot 16
  expander : Expander
  lanes : PerHead (Option Lane)
  monitor : Monitor
  seq : Sequencer
  ports : PerHead HeadPort
  tallies : PerHead Tally
  markCounter : Nat
  captures : List Capture
  status : Status
  deriving DecidableEq, Repr

/-- Why a step would stop with a fault. The manual gives every command an effect in every state, and the model
stops on none, so there is no such reason. -/
inductive Fault where
  deriving DecidableEq, Repr

/-- Why a command would be refused by the model. -/
inductive Refusal where
  /-- Raised by `exec` for a command whose meaning is not written yet; safe, because the machine stops. No arm of
  `exec` raises it now. -/
  | notModelled (mnemonic : String)
  deriving DecidableEq, Repr

/-! ## Reset values -/

/-- The job record's defaults (R103). -/
def JobRecord.default : JobRecord :=
  { mode := .cut, source := .external, e := Config.eDefault, period := Config.periodDefault, policy := .carryOn,
    stallLimit := 0, tallySource := .depth, markStop := false }

/-- The calibration record after power-on reset (R59). -/
def Calibration.default : Calibration :=
  { gain := 4096, offset := 0, rest := 0, maxDepth := 1000, wearRate := 0, wearCap := 0,
    readyPolarity := .normal, alarmPolarity := .normal }

/-- A Head Port after power-on reset (R59), its normalized inputs read from the lines under normal polarity (R66). -/
def HeadPort.powerOn (readyLine alarmLine : Bool) : HeadPort :=
  { cal := .default, calibrated := false, strikes := 0, lift := .lifted, strokeCode := 0, strokeCount := 0,
    readyLine := readyLine, alarmLine := alarmLine, ready := readyLine, alarm := alarmLine }

/-- The head items after power-on reset (R109). -/
def HeadItems.powerOn : HeadItems :=
  { state := .out, next := 0, interrupted := false, faultPosition := false, justCut := none }

/-- A tally cleared (R133). -/
def Tally.clear : Tally :=
  { currentTrack := 0, lastTrack := 0, job := 0, cut := 0, uncut := 0, depthClamps := 0, driveClamps := 0 }

/-- The Encoder Monitor after power-on reset (R2). -/
def Monitor.powerOn : Monitor :=
  { sync := .unsynced, count := 0, lastLength := 0, revolutions := 0, source := .external,
    e := Config.eDefault, period := Config.periodDefault, genNext := 0 }

/-- The Track Sequencer after power-on reset (R103, R105, R108, R109, R131). -/
def Sequencer.powerOn : Sequencer :=
  { job := .default, plan := Vector.replicate 8 none, state := .idle, hold := false, advances := 0, idle := 0,
    consecutiveIdle := 0, retained := false, stalled := false, heads := Vector.replicate 8 .powerOn, pulses := 0 }

/-- The whole part after power-on reset, given the levels that stand on its READY and ALARM lines and the
commands that wait (R2, R13, R37, R59, R79, R103 to R109, R133, R138, R142, R155 to R159, R162, R163, R167,
R180 to R183). -/
def State.powerOn (readyLines alarmLines : PerHead Bool) (pending : List Instr) : State :=
  { pending := pending
    rx := { fifo := [], flow := .flowing, high := Config.highDefault, low := Config.lowDefault, down := true }
    tx := { queue := [], flowMark := none, announced := .flowing, room := Vector.replicate 8 false,
            notice := false, sending := none }
    interp := { state := .free, syncs := [] }
    screens := Vector.replicate 8 { screen := none, binds := 0 }
    grads := Vector.replicate 16 { table := .empty, binds := 0 }
    expander := { queue := [], finished := false }
    lanes := Vector.replicate 8 none
    monitor := .powerOn
    seq := .powerOn
    ports := Vector.ofFn fun h => .powerOn readyLines[h] alarmLines[h]
    tallies := Vector.replicate 8 .clear
    markCounter := 0
    captures := []
    status := { events := 0, enable := 0, errors := [] } }

/-- The machine right after power-on reset, with no command waiting. The READY and ALARM lines are inputs, whose
levels the manual does not give; here they are low (DESIGN CHOICE, log entry 8). -/
def State.reset : State :=
  .powerOn (Vector.replicate 8 false) (Vector.replicate 8 false) []

end Sys2Proof.Machine
end

