-- ==== Sys2Proof/Machine/Wire.lean ====
section
/-! DEFINITION. Bytes on the Cell Link: byte order, the cyclic check, and the envelope of a frame
(R152, R153, R154, R186). -/

namespace Sys2Proof.Machine

/-! ## Byte order -/

/-- The unsigned byte at offset `i` of a run of bytes. -/
def u8At (p : List Byte) (i : Nat) : Nat := (p.getD i 0).toNat

/-- The little-endian 16-bit field at offset `i` (R186). -/
def u16At (p : List Byte) (i : Nat) : Nat := u8At p i + 256 * u8At p (i + 1)

/-- The little-endian 32-bit field at offset `i` (R186). -/
def u32At (p : List Byte) (i : Nat) : Nat := u16At p i + 65536 * u16At p (i + 2)

/-- The two's complement 16-bit field at offset `i` (R186). -/
def s16At (p : List Byte) (i : Nat) : Int :=
  if u16At p i < 32768 then (u16At p i : Int) else (u16At p i : Int) - 65536

/-- A number as `n` bytes, least significant first. -/
def leBytes : Nat → Nat → List Byte
  | 0, _ => []
  | n + 1, v => BitVec.ofNat 8 v :: leBytes n (v / 256)

/-- A signed number as two bytes in two's complement, least significant first (R186). -/
def leBytesSigned (v : Int) : List Byte := leBytes 2 (v % 65536).toNat

/-- A flag or level as one byte: 1 when set or asserted (R187). -/
def flagByte (b : Bool) : Byte := if b then 1 else 0

/-! ## The cyclic check (R153) -/

/-- One bit of the check's computation. -/
def crcBit (r : BitVec 32) (b : Bool) : BitVec 32 :=
  if xor b (r.getLsbD 31) then (r <<< 1) ^^^ 0x04C11DB7#32 else r <<< 1

/-- The eight bits of a byte, least significant first. -/
def bitsOfByte (b : Byte) : List Bool := (List.range 8).map b.getLsbD

/-- The check register after the bytes of a frame, before it is complemented. -/
def crcRegister (bytes : List Byte) : BitVec 32 :=
  (bytes.flatMap bitsOfByte).foldl crcBit 0xFFFFFFFF#32

/-- The check field of a frame over its bytes from the kind through the last body byte: the complemented register
with its bit order reversed. -/
def checkField (bytes : List Byte) : Nat := ((~~~ crcRegister bytes).reverse).toNat

/-! ## The envelope (R152, R186) -/

/-- The kind code of a downstream frame. -/
def DownKind.code : DownKind → Byte
  | .cell => 0x01
  | .ctrl => 0x02

/-- The kind code of an upstream frame. -/
def UpKind.code : UpKind → Byte
  | .result => 0x81
  | .notice => 0x82
  | .mark => 0x83
  | .captureData => 0x84

/-- The bytes from the kind through the last body byte. -/
def envelopeHead (kind flags : Byte) (body : List Byte) : List Byte :=
  kind :: flags :: leBytes 2 body.length ++ body

/-- A whole frame on the link: kind, flags, body length, body and check. -/
def envelope (kind flags : Byte) (body : List Byte) : List Byte :=
  envelopeHead kind flags body ++ leBytes 4 (checkField (envelopeHead kind flags body))

/-- The bytes the part sends for an upstream frame; its flags byte is 0. -/
def UpFrame.bytes (f : UpFrame) : List Byte := envelope f.kind.code 0 f.body

/-- Bytes that a downstream frame occupies on the link and in the Intake FIFO (R152, R155). -/
def Frame.size (f : Frame) : Nat := 8 + f.body.length

/-- What the Link Receiver's first three tests say of the bytes of a frame (R154): the error code of the first that
fails, or the good frame. The flags byte is disregarded. -/
def judgeBytes (bytes : List Byte) : Except ErrorCode Frame :=
  let len := u16At bytes 2
  if bytes.length < 8 ∨ Config.maxBody < len ∨ bytes.length ≠ 8 + len then .error .frameCheck
  else if checkField (bytes.take (4 + len)) ≠ u32At bytes (4 + len) then .error .frameCheck
  else
    let body := (bytes.drop 4).take len
    if bytes.getD 0 0 = DownKind.cell.code then .ok { kind := .cell, body := body }
    else if bytes.getD 0 0 = DownKind.ctrl.code then .ok { kind := .ctrl, body := body }
    else .error .unknownFrame

end Sys2Proof.Machine
end

