-- ==== Sys2Proof/Machine/Operands.lean ====
section
/-! DEFINITION. The operands of the commands: the kinds of control record with their codes, lengths and answering
(R170, R186), the parameter layouts with the ranges whose breach is BAD_VALUE (R169, R186, R187), the segment a CELL
frame carries (R84), and the code tables of R187. -/

namespace Sys2Proof.Machine

/-! ## The record catalogue (9.7, R186) -/

/-- The kinds of control record in the catalogue. -/
inductive RecordKind where
  | loadCurve
  | loadTable
  | readTable
  | clearTable
  | setScreen
  | clearScreen
  | setHead
  | readHead
  | stylusChange
  | clearFault
  | setJob
  | planHead
  | clearPlan
  | arm
  | start
  | hold
  | resume
  | abort
  | setMarkCount
  | readTally
  | defineCapture
  | deleteCapture
  | listCaptures
  | readCapture
  | readStatus
  | setEnable
  | readError
  | setFlow
  | sync
  | reset
  deriving DecidableEq, Repr

/-- The kind byte of a record (R186). -/
def RecordKind.code : RecordKind → Byte
  | .loadCurve => 0x01
  | .loadTable => 0x02
  | .readTable => 0x03
  | .clearTable => 0x04
  | .setScreen => 0x08
  | .clearScreen => 0x09
  | .setHead => 0x10
  | .readHead => 0x11
  | .stylusChange => 0x12
  | .clearFault => 0x13
  | .setJob => 0x20
  | .planHead => 0x21
  | .clearPlan => 0x22
  | .arm => 0x23
  | .start => 0x24
  | .hold => 0x25
  | .resume => 0x26
  | .abort => 0x27
  | .setMarkCount => 0x30
  | .readTally => 0x31
  | .defineCapture => 0x32
  | .deleteCapture => 0x33
  | .listCaptures => 0x34
  | .readCapture => 0x35
  | .readStatus => 0x40
  | .setEnable => 0x41
  | .readError => 0x42
  | .setFlow => 0x48
  | .sync => 0x50
  | .reset => 0x5F

/-- Every kind of the catalogue. -/
def RecordKind.all : List RecordKind :=
  [.loadCurve, .loadTable, .readTable, .clearTable, .setScreen, .clearScreen,
   .setHead, .readHead, .stylusChange, .clearFault, .setJob, .planHead,
   .clearPlan, .arm, .start, .hold, .resume, .abort,
   .setMarkCount, .readTally, .defineCapture, .deleteCapture, .listCaptures, .readCapture,
   .readStatus, .setEnable, .readError, .setFlow, .sync, .reset]

/-- The kind that a kind byte names, if the catalogue has it (R169 check 1). -/
def RecordKind.ofCode (b : Byte) : Option RecordKind := RecordKind.all.find? fun k => k.code = b

/-- Whether the parameters of a record have the length of its kind's layout (R169 check 2, R186). The length of a LOAD
CURVE follows from its count byte; RESET's parameters are not checked (R175). -/
def RecordKind.lengthOk (k : RecordKind) (p : List Byte) : Bool :=
  match k with
  | .loadCurve => 2 ≤ p.length ∧ p.length = 2 + 3 * u8At p 1
  | .loadTable => p.length = 513
  | .readTable => p.length = 1
  | .clearTable => p.length = 1
  | .setScreen => p.length = 6
  | .clearScreen => p.length = 1
  | .setHead => p.length = 13
  | .readHead => p.length = 1
  | .stylusChange => p.length = 1
  | .clearFault => p.length = 1
  | .setJob => p.length = 12
  | .planHead => p.length = 7
  | .clearPlan => p.length = 1
  | .arm => p.length = 0
  | .start => p.length = 0
  | .hold => p.length = 0
  | .resume => p.length = 1
  | .abort => p.length = 0
  | .setMarkCount => p.length = 5
  | .readTally => p.length = 1
  | .defineCapture => p.length = 8
  | .deleteCapture => p.length = 1
  | .listCaptures => p.length = 0
  | .readCapture => p.length = 1
  | .readStatus => p.length = 0
  | .setEnable => p.length = 2
  | .readError => p.length = 0
  | .setFlow => p.length = 4
  | .sync => p.length = 0
  | .reset => true

/-- Whether a successful record of the kind is answered whatever its notify byte (R170, 9.7). -/
def RecordKind.alwaysAnswered : RecordKind → Bool
  | .loadCurve => false
  | .loadTable => false
  | .readTable => true
  | .clearTable => false
  | .setScreen => false
  | .clearScreen => false
  | .setHead => false
  | .readHead => true
  | .stylusChange => false
  | .clearFault => false
  | .setJob => false
  | .planHead => false
  | .clearPlan => false
  | .arm => false
  | .start => false
  | .hold => false
  | .resume => false
  | .abort => false
  | .setMarkCount => false
  | .readTally => true
  | .defineCapture => false
  | .deleteCapture => false
  | .listCaptures => true
  | .readCapture => true
  | .readStatus => true
  | .setEnable => false
  | .readError => true
  | .setFlow => false
  | .sync => true
  | .reset => true

/-! ## Numbers in range -/

/-- The number as an index below `n`, if it is one. -/
def finOf (n v : Nat) : Option (Fin n) := if h : v < n then some ⟨v, h⟩ else none

/-- The value, if the test holds of it. -/
def guardIn {α : Type} (ok : Bool) (v : α) : Option α := if ok then some v else none

/-- Two cases by a code byte: 0 the first, 1 the second, any other value BAD_VALUE (R186, R187). -/
def codeOf {α : Type} (zero one : α) (v : Nat) : Option α :=
  match v with
  | 0 => some zero
  | 1 => some one
  | _ => none

/-! ## Code tables (R187) -/

/-- Code of a polarity. -/
def Polarity.code : Polarity → Nat
  | .normal => 0
  | .inverted => 1

/-- Code of a mode. -/
def Mode.code : Mode → Nat
  | .cut => 0
  | .dry => 1

/-- Code of an encoder source. -/
def Source.code : Source → Nat
  | .external => 0
  | .internal => 1

/-- Code of a fault policy. -/
def FaultPolicy.code : FaultPolicy → Nat
  | .carryOn => 0
  | .holdAll => 1

/-- Code of a tally source. -/
def TallySource.code : TallySource → Nat
  | .tone => 0
  | .depth => 1

/-- Code of a job state. -/
def JobState.code : JobState → Nat
  | .idle => 0
  | .armed => 1
  | .running => 2
  | .holding => 3
  | .ended _ => 4

/-- Code of a job's outcome; 0 while there is none. -/
def JobState.outcomeCode : JobState → Nat
  | .ended .complete => 1
  | .ended .part => 2
  | .ended .aborted => 3
  | _ => 0

/-- Code of a head state. -/
def HeadState.code : HeadState → Nat
  | .out => 0
  | .armed => 1
  | .waiting => 2
  | .cutting _ => 3
  | .faulted => 4
  | .finished => 5

/-- Code of a capture state. -/
def CaptureState.code : CaptureState → Nat
  | .waiting => 0
  | .filling => 1
  | .full => 2

/-- Code of the sync state. -/
def SyncState.code : SyncState → Nat
  | .unsynced => 0
  | .synced => 1

/-- Code of an asynchronous error. -/
def ErrorCode.number : ErrorCode → Nat
  | .frameCheck => 1
  | .unknownFrame => 2
  | .intakeOverrun => 3
  | .unknownLane => 4
  | .trackSequence => 5
  | .segmentGap => 6
  | .trackSeam => 7
  | .trackOverlong => 8
  | .laneNoRoom => 9
  | .headAlarm => 10
  | .headNotReady => 11
  | .encoderSlip => 12
  | .indexLost => 13
  | .stall => 14
  | .queueOverflow => 15

/-- The completion codes of a RESULT (R170). -/
inductive Completion where
  | done
  | doneClamped
  | unknownKind
  | badLength
  | badValue
  | slotBound
  | slotBusy
  | expanderFull
  | notReady
  | wrongState
  | noSpace
  | planInvalid
  deriving DecidableEq, Repr

/-- The byte of a completion code (R187). -/
def Completion.code : Completion → Byte
  | .done => 0x00
  | .doneClamped => 0x01
  | .unknownKind => 0x10
  | .badLength => 0x11
  | .badValue => 0x12
  | .slotBound => 0x13
  | .slotBusy => 0x14
  | .expanderFull => 0x15
  | .notReady => 0x16
  | .wrongState => 0x17
  | .noSpace => 0x18
  | .planInvalid => 0x19

/-- The reasons of a PLAN_INVALID (R110). -/
inductive PlanFault where
  | noHead
  | internalCut
  | duplicateTag
  | notCalibrated
  | screenNotReady
  | tableNotReady
  | screenTooDense
  | repeatMismatch
  | alarmAsserted
  deriving DecidableEq, Repr

/-- The code of a PLAN_INVALID reason (R187). -/
def PlanFault.code : PlanFault → Nat
  | .noHead => 1
  | .internalCut => 2
  | .duplicateTag => 3
  | .notCalibrated => 4
  | .screenNotReady => 5
  | .tableNotReady => 6
  | .screenTooDense => 7
  | .repeatMismatch => 8
  | .alarmAsserted => 9

/-! ## The parameters of each record, with their ranges; `none` is BAD_VALUE -/

/-- The breakpoints of a LOAD CURVE: tone (1), depth (2) each (R186). -/
def breakpointsOf : List Byte → List Breakpoint
  | t :: d0 :: d1 :: rest => { tone := t.toNat, depth := u16At [d0, d1] 0 } :: breakpointsOf rest
  | _ => []

/-- Whether the tones of the breakpoints rise strictly. -/
def tonesRise : List Breakpoint → Bool
  | a :: b :: rest => a.tone < b.tone && tonesRise (b :: rest)
  | _ => true

/-- The conditions of R26 on the breakpoints of a curve. -/
def curveOk (points : List Breakpoint) : Bool :=
  2 ≤ points.length ∧ points.length ≤ 17 ∧ (points.head?.map Breakpoint.tone = some 0) ∧
    (points.getLast?.map Breakpoint.tone = some 255) ∧ tonesRise points = true ∧
    points.all (fun b => b.depth ≤ Config.maxDepth) = true

/-- LOAD CURVE: slot (1), count (1), breakpoints (R26). -/
def loadCurveOperands (p : List Byte) : Option (Fin 16 × List Breakpoint) := do
  let slot ← finOf 16 (u8At p 0)
  let points := breakpointsOf (p.drop 2)
  guardIn (curveOk points) (slot, points)

/-- The 16-bit fields of a run of bytes. -/
def wordsOf : List Byte → List Nat
  | lo :: hi :: rest => u16At [lo, hi] 0 :: wordsOf rest
  | _ => []

/-- LOAD TABLE: slot (1), 256 depths (2 each), each 0..65,535 (R33). -/
def loadTableOperands (p : List Byte) : Option (Fin 16 × List Nat) := do
  let slot ← finOf 16 (u8At p 0)
  some (slot, wordsOf (p.drop 1))

/-- READ TABLE and CLEAR TABLE: slot (1) (R34, R35). -/
def tableSlotOperand (p : List Byte) : Option (Fin 16) := finOf 16 (u8At p 0)

/-- SET SCREEN: slot (1), N (2), stagger step (1), minimum depth (2) (R13, R14). -/
def setScreenOperands (p : List Byte) : Option (Fin 8 × Screen) := do
  let slot ← finOf 8 (u8At p 0)
  let cells ← guardIn (256 ≤ u16At p 1 ∧ u16At p 1 ≤ 32768) (u16At p 1)
  let minDepth ← guardIn (u16At p 4 ≤ 1000) (u16At p 4)
  some (slot, { cells := cells, stagger := u8At p 3, minDepth := minDepth })

/-- CLEAR SCREEN: slot (1) (R15). -/
def screenSlotOperand (p : List Byte) : Option (Fin 8) := finOf 8 (u8At p 0)

/-- SET HEAD: head (1), gain (2), offset (2, signed), rest code (2), maximum depth (2), wear rate (1), wear cap (1),
READY polarity (1, code), ALARM polarity (1, code) (R60, R61). -/
def setHeadOperands (p : List Byte) : Option (HeadNo × Calibration) := do
  let head ← finOf 8 (u8At p 0)
  let gain ← guardIn (1 ≤ u16At p 1) (u16At p 1)
  let offset ← guardIn (-2048 ≤ s16At p 3 ∧ s16At p 3 ≤ 2047) (s16At p 3)
  let rest ← guardIn (u16At p 5 ≤ 4095) (u16At p 5)
  let maxDepth ← guardIn (1 ≤ u16At p 7 ∧ u16At p 7 ≤ 1000) (u16At p 7)
  let wearCap ← guardIn (u8At p 10 ≤ 200) (u8At p 10)
  let readyPolarity ← codeOf Polarity.normal Polarity.inverted (u8At p 11)
  let alarmPolarity ← codeOf Polarity.normal Polarity.inverted (u8At p 12)
  some (head, { gain := gain, offset := offset, rest := rest, maxDepth := maxDepth, wearRate := u8At p 9,
                wearCap := wearCap, readyPolarity := readyPolarity, alarmPolarity := alarmPolarity })

/-- READ HEAD, STYLUS CHANGE and CLEAR FAULT: head (1) (R63, R65, R78). -/
def headOperand (p : List Byte) : Option HeadNo := finOf 8 (u8At p 0)

/-- SET JOB: mode (1, code), encoder source (1, code), E (4), internal tick period (2), fault policy (1, code), stall
limit (1), tally source (1, code), mark-stop (1, code) (R103, R104). -/
def setJobOperands (p : List Byte) : Option JobRecord := do
  let mode ← codeOf Mode.cut Mode.dry (u8At p 0)
  let source ← codeOf Source.external Source.internal (u8At p 1)
  let e ← guardIn (1024 ≤ u32At p 2 ∧ u32At p 2 ≤ 1048576) (u32At p 2)
  let period ← guardIn (1 ≤ u16At p 6) (u16At p 6)
  let policy ← codeOf FaultPolicy.carryOn FaultPolicy.holdAll (u8At p 8)
  let tallySource ← codeOf TallySource.tone TallySource.depth (u8At p 10)
  let markStop ← codeOf false true (u8At p 11)
  some { mode := mode, source := source, e := e, period := period, policy := policy, stallLimit := u8At p 9,
         tallySource := tallySource, markStop := markStop }

/-- PLAN HEAD: head (1), lane tag (1), screen slot (1), gradation slot (1), repeat factor (1), track count (2)
(R105, R106). -/
def planHeadOperands (p : List Byte) : Option (HeadNo × PlanEntry) := do
  let head ← finOf 8 (u8At p 0)
  let screen ← finOf 8 (u8At p 2)
  let grad ← finOf 16 (u8At p 3)
  let repeats ← guardIn (1 ≤ u8At p 4 ∧ u8At p 4 ≤ 16) (u8At p 4)
  let tracks ← guardIn (1 ≤ u16At p 5) (u16At p 5)
  some (head, { tag := p.getD 1 0, screen := screen, grad := grad, repeats := repeats, tracks := tracks })

/-- A head selector: one head, or all heads (R107, R137). -/
inductive HeadSelector where
  | one (h : HeadNo)
  | all
  deriving DecidableEq, Repr

/-- CLEAR PLAN and READ TALLY: head selector (1), 0..7 or 0xFF for all heads. -/
def selectorOperand (p : List Byte) : Option HeadSelector :=
  if u8At p 0 = 255 then some .all else (finOf 8 (u8At p 0)).map .one

/-- The option of a RESUME (R127). -/
inductive ResumeOption where
  | repair
  | discard
  deriving DecidableEq, Repr

/-- RESUME: option (1, code). -/
def resumeOperand (p : List Byte) : Option ResumeOption := codeOf .repair .discard (u8At p 0)

/-- SET MARK COUNT: count (4), mark-stop (1, code) (R140). -/
def setMarkCountOperands (p : List Byte) : Option (Nat × Bool) := do
  let markStop ← codeOf false true (u8At p 4)
  some (u32At p 0, markStop)

/-- DEFINE CAPTURE: id (1), head (1), track number (2), first cell (2), length (2), as a WAITING capture with no entry
(R142, R143). -/
def defineCaptureOperands (p : List Byte) : Option Capture := do
  let id ← guardIn (1 ≤ u8At p 0 ∧ u8At p 0 ≤ 8) (u8At p 0)
  let head ← finOf 8 (u8At p 1)
  let track ← guardIn (u16At p 2 ≤ 65534) (u16At p 2)
  let first ← guardIn (u16At p 4 ≤ 32767) (u16At p 4)
  let length ← guardIn (1 ≤ u16At p 6 ∧ u16At p 6 ≤ 16384) (u16At p 6)
  some { id := id, head := head, track := track, first := first, length := length, state := .waiting, entries := [] }

/-- SET ENABLE: a mask of sixteen bits whose two highest bits are clear (R182). -/
def setEnableOperand (p : List Byte) : Option (BitVec 14) :=
  guardIn (u16At p 0 < 16384) (BitVec.ofNat 14 (u16At p 0))

/-- SET FLOW: high watermark (2), low watermark (2) (R158). -/
def setFlowOperands (p : List Byte) : Option (Nat × Nat) :=
  let high := u16At p 0
  let low := u16At p 2
  guardIn (1024 ≤ high ∧ high ≤ 32768 ∧ low ≤ 32512 ∧ high % 256 = 0 ∧ low % 256 = 0 ∧ low < high) (high, low)

/-! ## The segment of a CELL frame (R84, R186) -/

/-- The fields of a well-formed CELL body. -/
structure Segment where
  tag : Byte
  first : Bool
  last : Bool
  track : Nat
  firstCell : Nat
  cells : List Cell
  deriving DecidableEq, Repr

/-- The cells of a CELL body; the flag bits other than MARK and NOCUT are dropped. -/
def cellsOf : List Byte → List Cell
  | tone :: flags :: rest => { tone := tone, mark := flags.getLsbD 0, nocut := flags.getLsbD 1 } :: cellsOf rest
  | _ => []

/-- The segment that a CELL body carries, or none if the body is malformed (R84). -/
def segmentOf (body : List Byte) : Option Segment :=
  let count := u16At body 6
  if 8 ≤ body.length ∧ 1 ≤ count ∧ count ≤ 2000 ∧ body.length = 8 + 2 * count then
    some { tag := body.getD 0 0, first := (body.getD 1 0).getLsbD 0, last := (body.getD 1 0).getLsbD 1,
           track := u16At body 2, firstCell := u16At body 4, cells := cellsOf (body.drop 8) }
  else none

/-! ## What the workstation writes: the same layouts the other way (R84, R166, R186) -/

/-- The body of a CTRL frame: kind, notify, tag, parameters (R166). -/
def recordBody (kind : Byte) (h : Header) (params : List Byte) : List Byte :=
  kind :: h.notify :: h.tag.setWidth 8 :: (h.tag >>> 8).setWidth 8 :: params

/-- The parameters of a SET SCREEN. -/
def setScreenParams (slot : Fin 8) (x : Screen) : List Byte :=
  leBytes 1 slot.val ++ leBytes 2 x.cells ++ leBytes 1 x.stagger ++ leBytes 2 x.minDepth

/-- The parameters of a SET HEAD. -/
def setHeadParams (h : HeadNo) (c : Calibration) : List Byte :=
  leBytes 1 h.val ++ leBytes 2 c.gain ++ leBytesSigned c.offset ++ leBytes 2 c.rest ++ leBytes 2 c.maxDepth ++
    leBytes 1 c.wearRate ++ leBytes 1 c.wearCap ++ leBytes 1 c.readyPolarity.code ++ leBytes 1 c.alarmPolarity.code

/-- The parameters of a SET JOB. -/
def setJobParams (j : JobRecord) : List Byte :=
  leBytes 1 j.mode.code ++ leBytes 1 j.source.code ++ leBytes 4 j.e ++ leBytes 2 j.period ++ leBytes 1 j.policy.code ++
    leBytes 1 j.stallLimit ++ leBytes 1 j.tallySource.code ++ [flagByte j.markStop]

/-- The parameters of a PLAN HEAD. -/
def planHeadParams (h : HeadNo) (e : PlanEntry) : List Byte :=
  leBytes 1 h.val ++ [e.tag] ++ leBytes 1 e.screen.val ++ leBytes 1 e.grad.val ++ leBytes 1 e.repeats ++ leBytes 2 e.tracks

/-- The parameters of a LOAD CURVE. -/
def loadCurveParams (slot : Fin 16) (points : List Breakpoint) : List Byte :=
  leBytes 1 slot.val ++ leBytes 1 points.length ++ points.flatMap fun b => leBytes 1 b.tone ++ leBytes 2 b.depth

/-- The parameters of a LOAD TABLE. -/
def loadTableParams (slot : Fin 16) (depths : List Nat) : List Byte :=
  leBytes 1 slot.val ++ depths.flatMap (leBytes 2)

/-- The parameters of a DEFINE CAPTURE. -/
def defineCaptureParams (id : Nat) (h : HeadNo) (track first length : Nat) : List Byte :=
  leBytes 1 id ++ leBytes 1 h.val ++ leBytes 2 track ++ leBytes 2 first ++ leBytes 2 length

/-- The flags byte of a cell: bit 0 MARK, bit 1 NOCUT. -/
def Cell.flags (c : Cell) : Byte := (if c.mark then 1 else 0) ||| (if c.nocut then 2 else 0)

/-- The body of a CELL frame that carries a segment. -/
def segmentBody (g : Segment) : List Byte :=
  g.tag :: ((if g.first then 1 else 0) ||| (if g.last then 2 else 0)) :: (leBytes 2 g.track ++ leBytes 2 g.firstCell ++
    leBytes 2 g.cells.length ++ g.cells.flatMap fun c => [c.tone, c.flags])

/-- The frame in which a record reaches the part. -/
def recordFrame (k : RecordKind) (h : Header) (params : List Byte) : Frame :=
  { kind := .ctrl, body := recordBody k.code h params }

/-! ## Commands and frames -/

/-- The command of a record. -/
def RecordKind.command (k : RecordKind) (h : Header) (p : List Byte) : Instr :=
  match k with
  | .loadCurve => .loadCurve h p
  | .loadTable => .loadTable h p
  | .readTable => .readTable h p
  | .clearTable => .clearTable h p
  | .setScreen => .setScreen h p
  | .clearScreen => .clearScreen h p
  | .setHead => .setHead h p
  | .readHead => .readHead h p
  | .stylusChange => .stylusChange h p
  | .clearFault => .clearFault h p
  | .setJob => .setJob h p
  | .planHead => .planHead h p
  | .clearPlan => .clearPlan h p
  | .arm => .arm h p
  | .start => .start h p
  | .hold => .hold h p
  | .resume => .resume h p
  | .abort => .abort h p
  | .setMarkCount => .setMarkCount h p
  | .readTally => .readTally h p
  | .defineCapture => .defineCapture h p
  | .deleteCapture => .deleteCapture h p
  | .listCaptures => .listCaptures h p
  | .readCapture => .readCapture h p
  | .readStatus => .readStatus h p
  | .setEnable => .setEnable h p
  | .readError => .readError h p
  | .setFlow => .setFlow h p
  | .sync => .sync h p
  | .reset => .reset h p

/-- The frame that a command hands on, for the commands that hand one on (R160). -/
def handedFrame : Instr → Option Frame
  | .cellFrame body => some { kind := .cell, body := body }
  | .ctrlFrameNoHeader body => some { kind := .ctrl, body := body }
  | .unknownKind kind h p => some { kind := .ctrl, body := recordBody kind h p }
  | .loadCurve h p => some (recordFrame .loadCurve h p)
  | .loadTable h p => some (recordFrame .loadTable h p)
  | .readTable h p => some (recordFrame .readTable h p)
  | .clearTable h p => some (recordFrame .clearTable h p)
  | .setScreen h p => some (recordFrame .setScreen h p)
  | .clearScreen h p => some (recordFrame .clearScreen h p)
  | .setHead h p => some (recordFrame .setHead h p)
  | .readHead h p => some (recordFrame .readHead h p)
  | .stylusChange h p => some (recordFrame .stylusChange h p)
  | .clearFault h p => some (recordFrame .clearFault h p)
  | .setJob h p => some (recordFrame .setJob h p)
  | .planHead h p => some (recordFrame .planHead h p)
  | .clearPlan h p => some (recordFrame .clearPlan h p)
  | .arm h p => some (recordFrame .arm h p)
  | .start h p => some (recordFrame .start h p)
  | .hold h p => some (recordFrame .hold h p)
  | .resume h p => some (recordFrame .resume h p)
  | .abort h p => some (recordFrame .abort h p)
  | .setMarkCount h p => some (recordFrame .setMarkCount h p)
  | .readTally h p => some (recordFrame .readTally h p)
  | .defineCapture h p => some (recordFrame .defineCapture h p)
  | .deleteCapture h p => some (recordFrame .deleteCapture h p)
  | .listCaptures h p => some (recordFrame .listCaptures h p)
  | .readCapture h p => some (recordFrame .readCapture h p)
  | .readStatus h p => some (recordFrame .readStatus h p)
  | .setEnable h p => some (recordFrame .setEnable h p)
  | .readError h p => some (recordFrame .readError h p)
  | .setFlow h p => some (recordFrame .setFlow h p)
  | .sync h p => some (recordFrame .sync h p)
  | .reset h p => some (recordFrame .reset h p)
  | .powerOnReset => none
  | .tick => none
  | .index => none
  | .internalTickGenerator => none
  | .indexLost => none
  | .stall _ => none
  | .markStop _ => none
  | .alarmLineChange _ _ => none
  | .readyLineChange _ _ => none
  | .linkSyncLost => none
  | .linkSyncGained => none
  | .frameReceived _ => none
  | .expansionComplete => none
  | .captureDataPlaced => none
  | .syncAnswerPlaced => none
  | .resultPlaced => none
  | .upstreamSendBegin => none
  | .upstreamSendEnd => none

/-- The command that names the handing on of a frame: the other way from `handedFrame`. -/
def commandOfFrame (f : Frame) : Instr :=
  match f.kind with
  | .cell => .cellFrame f.body
  | .ctrl =>
    match f.body with
    | kind :: notify :: t0 :: t1 :: params =>
      let h : Header := { notify := notify, tag := t1 ++ t0 }
      match RecordKind.ofCode kind with
      | some k => k.command h params
      | none => .unknownKind kind h params
    | short => .ctrlFrameNoHeader short

end Sys2Proof.Machine
end

