-- ==== Sys2Proof/Machine/Flags.lean ====
section
/-! DEFINITION. The Status Unit's bits: the condition bits that mirror the other blocks (R179), the event bits (R180)
and the summary (R181). -/

namespace Sys2Proof.Machine

/-- A job that is RUNNING or HOLDING. -/
def JobState.runningOrHolding : JobState → Bool
  | .running => true
  | .holding => true
  | _ => false

/-- A job that is ARMED, RUNNING or HOLDING: one that has been armed and has not ended. -/
def JobState.active : JobState → Bool
  | .armed => true
  | .running => true
  | .holding => true
  | _ => false

/-- Whether a condition is set, by its bit number (R179). -/
def State.condition (s : State) : Fin 8 → Bool
  | 0 => s.seq.state = .running
  | 1 => s.seq.state = .holding
  | 2 => (List.finRange 8).any fun h => s.seq.heads[h].state = .faulted
  | 3 => s.seq.stalled
  | 4 => s.rx.flow = .paused
  | 5 => s.rx.down
  | 6 => !s.expander.queue.isEmpty
  | 7 => s.monitor.sync = .unsynced

/-- One bit of a word of eight. -/
def bitAt (b : Bool) (i : Nat) : BitVec 8 := if b then 1#8 <<< i else 0#8

/-- The eight condition bits (R179). -/
def State.conditions (s : State) : BitVec 8 :=
  (List.finRange 8).foldl (fun w i => w ||| bitAt (s.condition i) i.val) 0#8

/-- The one-shot events of the event register (R180). -/
inductive OneShot where
  | jobEnded
  | recordRefused
  | errorQueued
  | markStop
  | captureFull
  | driveClamped
  deriving DecidableEq, Repr

/-- The bit number of a one-shot event (R180). -/
def OneShot.number : OneShot → Nat
  | .jobEnded => 8
  | .recordRefused => 9
  | .errorQueued => 10
  | .markStop => 11
  | .captureFull => 12
  | .driveClamped => 13

/-- The event register's word with only this event's bit set. -/
def OneShot.bit (e : OneShot) : BitVec 14 := 1#14 <<< e.number

/-- The summary bit for a register and a mask (R181). -/
def summaryOf (events enable : BitVec 14) : Bool := events &&& enable ≠ 0

/-- The summary bit (R181). -/
def State.summary (s : State) : Bool := summaryOf s.status.events s.status.enable

/-- The edge bits that latch when the conditions go from `before` to `after`: those that went from clear to set (R180). -/
def risingEdges (before after : BitVec 8) : BitVec 14 := (after &&& ~~~ before).setWidth 14

end Sys2Proof.Machine
end

