-- ==== Sys2Proof/Machine/Ops.lean ====
section
/-! DEFINITION. The named operations over the state that every family of commands shares: replacing a block,
reading and writing one head's items, counts that wrap or saturate, the status register and the error queue,
the Upstream Queue, and the Intake FIFO with its flow state. -/

namespace Sys2Proof.Machine

/-! ## Replacing a block -/

/-- The state with its `pending` replaced. -/
def State.setPending (s : State) (x : List Instr) : State := { s with pending := x }

/-- The state with its `rx` replaced. -/
def State.setRx (s : State) (x : LinkReceiver) : State := { s with rx := x }

/-- The state with its `tx` replaced. -/
def State.setTx (s : State) (x : Transmitter) : State := { s with tx := x }

/-- The state with its `interp` replaced. -/
def State.setInterp (s : State) (x : Interpreter) : State := { s with interp := x }

/-- The state with its `screens` replaced. -/
def State.setScreens (s : State) (x : Vector ScreenSlot 8) : State := { s with screens := x }

/-- The state with its `grads` replaced. -/
def State.setGrads (s : State) (x : Vector GradSlot 16) : State := { s with grads := x }

/-- The state with its `expander` replaced. -/
def State.setExpander (s : State) (x : Expander) : State := { s with expander := x }

/-- The state with its `lanes` replaced. -/
def State.setLanes (s : State) (x : PerHead (Option Lane)) : State := { s with lanes := x }

/-- The state with its `monitor` replaced. -/
def State.setMonitor (s : State) (x : Monitor) : State := { s with monitor := x }

/-- The state with its `seq` replaced. -/
def State.setSeq (s : State) (x : Sequencer) : State := { s with seq := x }

/-- The state with its `ports` replaced. -/
def State.setPorts (s : State) (x : PerHead HeadPort) : State := { s with ports := x }

/-- The state with its `tallies` replaced. -/
def State.setTallies (s : State) (x : PerHead Tally) : State := { s with tallies := x }

/-- The state with its `markCounter` replaced. -/
def State.setMarkCounter (s : State) (x : Nat) : State := { s with markCounter := x }

/-- The state with its `captures` replaced. -/
def State.setCaptures (s : State) (x : List Capture) : State := { s with captures := x }

/-- The state with its `status` replaced. -/
def State.setStatus (s : State) (x : Status) : State := { s with status := x }

/-! ## Banks -/

/-- A bank with its entry `i` changed by `f`. -/
def updAt {α : Type} {n : Nat} (v : Vector α n) (i : Fin n) (f : α → α) : Vector α n :=
  v.set i.val (f v[i]) i.isLt

/-- A bank with every entry changed by `f`, which is given the entry's number. -/
def mapAll {α β : Type} {n : Nat} (f : Fin n → α → β) (v : Vector α n) : Vector β n :=
  Vector.ofFn fun i => f i v[i]

/-- The heads, in ascending head number. -/
def allHeads : List HeadNo := List.finRange 8

/-- Changes one head's items of the Track Sequencer. -/
def State.updHead (s : State) (h : HeadNo) (f : HeadItems → HeadItems) : State :=
  s.setSeq { s.seq with heads := updAt s.seq.heads h f }

/-- Changes one Head Port. -/
def State.updPort (s : State) (h : HeadNo) (f : HeadPort → HeadPort) : State :=
  s.setPorts (updAt s.ports h f)

/-- Changes one lane buffer, if it is OPEN. -/
def State.updLane (s : State) (h : HeadNo) (f : Lane → Lane) : State :=
  s.setLanes (updAt s.lanes h (Option.map f))

/-- Changes one head's tally. -/
def State.updTally (s : State) (h : HeadNo) (f : Tally → Tally) : State :=
  s.setTallies (updAt s.tallies h f)

/-! ## Counts -/

/-- The sum of a count and a rise, stopping at `top`. -/
def satAdd (top n k : Nat) : Nat := min top (n + k)

/-- A 32-bit count raised by one, wrapping to 0 after its largest value. -/
def wrapSucc32 (n : Nat) : Nat := (n + 1) % 4294967296

/-! ## The status register (R180, R181) -/

/-- Writes the event register and the enable mask, and acts on the pending STATUS notice as the summary rises or
falls (R181). -/
def State.writeStatus (s : State) (events enable : BitVec 14) : State :=
  let was := s.summary
  let now := summaryOf events enable
  let notice := if now && !was then true else if was && !now then false else s.tx.notice
  (s.setStatus { s.status with events := events, enable := enable }).setTx { s.tx with notice := notice }

/-- Raises a one-shot event (R180). -/
def State.raise (s : State) (e : OneShot) : State :=
  s.writeStatus (s.status.events ||| e.bit) s.status.enable

/-- Ends an event that began in the state `before`: every condition that it changed from clear to set latches its
event bit (R180). -/
def State.latch (before after : State) : State :=
  after.writeStatus (after.status.events ||| risingEdges before.conditions after.conditions) after.status.enable

/-- An event of the part: its action, and then the latching of the conditions that rose in it. -/
def State.event (s : State) (action : State → State) : State := s.latch (action s)

/-! ## The Error Queue (R183) -/

/-- The queue after a post of `e`. A full queue's newest entry gives way to QUEUE_OVERFLOW, and a queue whose newest
entry is QUEUE_OVERFLOW loses the post. -/
def postTo (q : List ErrorEntry) (e : ErrorEntry) : List ErrorEntry :=
  if q.getLast?.map ErrorEntry.code = some .queueOverflow then q
  else if q.length < Config.errorCapacity then q ++ [e]
  else q.dropLast ++ [{ code := .queueOverflow, revolution := e.revolution, head := none, lane := none,
                        track := none, cell := none }]

/-- Posts an entry with the optional fields given and the revolution counter's value (R10); every post raises
ERROR_QUEUED. -/
def State.post (s : State) (code : ErrorCode) (head : Option HeadNo := none) (lane : Option Byte := none)
    (track : Option Nat := none) (cell : Option Nat := none) : State :=
  let e : ErrorEntry :=
    { code := code, revolution := s.monitor.revolutions, head := head, lane := lane, track := track, cell := cell }
  (s.setStatus { s.status with errors := postTo s.status.errors e }).raise .errorQueued

/-! ## The Upstream Queue (R162) -/

/-- Whether the Upstream Queue has a free entry. -/
def State.upstreamRoom (s : State) : Bool := s.tx.queue.length < Config.upstreamCapacity

/-- Places a frame at the tail of the Upstream Queue. Callers have made sure of a free entry. -/
def State.place (s : State) (f : UpFrame) : State :=
  s.setTx { s.tx with queue := s.tx.queue ++ [f] }

/-- Places the Interpreter's RESULT, or makes the Interpreter WAITING with it when the queue is full (R172). -/
def State.answer (s : State) (f : UpFrame) : State :=
  if s.upstreamRoom then s.place f else s.setInterp { s.interp with state := .waiting f }

/-! ## The Intake FIFO and its flow state (R155, R156, R157) -/

/-- Bytes that the frames of a FIFO take up. -/
def fillOf (fifo : List Frame) : Nat := (fifo.map Frame.size).sum

/-- The fill of the Intake FIFO (R155). -/
def State.fill (s : State) : Nat := fillOf s.rx.fifo

/-- Changes the flow state, and sets or withdraws the pending flow mark (R157). -/
def State.changeFlow (s : State) (f : FlowState) : State :=
  (s.setRx { s.rx with flow := f }).setTx
    { s.tx with flowMark := if f = s.tx.announced then none else some f }

/-- Judges the flow state after the fill has risen (R156). -/
def State.judgeRise (s : State) : State :=
  if s.rx.flow = .flowing ∧ s.rx.high ≤ s.fill then s.changeFlow .paused else s

/-- Judges the flow state after the fill has fallen (R156). -/
def State.judgeFall (s : State) : State :=
  if s.rx.flow = .paused ∧ s.fill ≤ s.rx.low then s.changeFlow .flowing else s

/-- A good frame joins the tail of the Intake FIFO if it fits, and is dropped with INTAKE_OVERRUN if it does not
(R154 test 4, R155). -/
def State.joinIntake (s : State) (f : Frame) : State :=
  if f.size ≤ Config.intakeCapacity - s.fill then
    (s.setRx { s.rx with fifo := s.rx.fifo ++ [f] }).judgeRise
  else s.post .intakeOverrun

/-- The frame at the head of the Intake FIFO leaves it, because it is handed on (R155, R160). -/
def State.leaveIntake (s : State) : State :=
  (s.setRx { s.rx with fifo := s.rx.fifo.tail }).judgeFall

/-! ## What a Head Port shows (R66, R68) -/

/-- A normalized input, from the level of its line and its polarity (R66). -/
def normalized (p : Polarity) (high : Bool) : Bool :=
  match p with
  | .normal => high
  | .inverted => !high

/-- The Head Port re-reads its READY and ALARM lines under the polarities in force (R66). -/
def HeadPort.reread (p : HeadPort) : HeadPort :=
  { p with ready := normalized p.cal.readyPolarity p.readyLine,
           alarm := normalized p.cal.alarmPolarity p.alarmLine }

/-- The LIFT line: asserted while LIFTED (R68). -/
def HeadPort.liftLine (p : HeadPort) : Bool :=
  match p.lift with
  | .lifted => true
  | .engaged _ => false

/-- The code that the DRIVE line presents (R68): the rest code in force while LIFTED. -/
def HeadPort.driveLine (p : HeadPort) : Nat :=
  match p.lift with
  | .lifted => p.cal.rest
  | .engaged code => code

/-- The DRIVE line of an ENGAGED head presents a code at a strike, and the amplifier makes its stroke from it (R55,
R70); a LIFTED head's DRIVE line presents nothing of a strike (R56). -/
def HeadPort.present (p : HeadPort) (code : Nat) : HeadPort :=
  match p.lift with
  | .engaged _ => { p with lift := .engaged code, strokeCode := code, strokeCount := p.strokeCount + 1 }
  | .lifted => p

end Sys2Proof.Machine
end

