-- ==== Sys2Proof/Machine/Lanes.lean ====
section
/-! DEFINITION. Lane buffers: the moves of a track slot that the Track Sequencer asks for (R93 to R99) and the Track
Assembler's acceptance of CELL frames (R84 to R92). -/

namespace Sys2Proof.Machine

/-! ## Moves of a slot -/

/-- The move of a slot from one use to another, if it is in the first use and holds the track asked for. -/
def TrackSlot.move (src dst : SlotUse) (ok : Nat → Bool) : TrackSlot → TrackSlot
  | .held u k cells => if u = src ∧ ok k then .held dst k cells else .held u k cells
  | .free => .free

/-- Whether a slot is in a use, with a track of which `ok` holds. -/
def TrackSlot.isIn (u : SlotUse) (ok : Nat → Bool) : TrackSlot → Bool
  | .held v k _ => v = u ∧ ok k
  | .free => false

/-- Whether a slot is FREE. -/
def TrackSlot.isFree : TrackSlot → Bool
  | .free => true
  | .held _ _ _ => false

/-- The lane with each slot changed. -/
def Lane.mapSlots (l : Lane) (f : TrackSlot → TrackSlot) : Lane :=
  { l with slot0 := f l.slot0, slot1 := f l.slot1 }

/-- Whether one of the lane's slots is in a use, with a track of which `ok` holds. -/
def Lane.holds (l : Lane) (u : SlotUse) (ok : Nat → Bool) : Bool := l.slot0.isIn u ok || l.slot1.isIn u ok

/-- The number of FREE slots of a lane (R102). -/
def Lane.freeSlots (l : Lane) : Nat := (if l.slot0.isFree then 1 else 0) + (if l.slot1.isFree then 1 else 0)

/-- Starts a new track: its slot goes from COMPLETE to CUTTING (R93). -/
def Lane.startTrack (l : Lane) (k : Nat) : Lane := l.mapSlots (TrackSlot.move .complete .cutting (· = k))

/-- Starts a recut: the slot holding the interrupted track goes from INTERRUPTED to CUTTING (R93). -/
def Lane.startRecut (l : Lane) (k : Nat) : Lane := l.mapSlots (TrackSlot.move .interrupted .cutting (· = k))

/-- Completes a cut: the CUTTING slot goes to RETAINED (R94). -/
def Lane.retain (l : Lane) : Lane := l.mapSlots (TrackSlot.move .cutting .retained fun _ => true)

/-- Stops a cut: the CUTTING slot goes to INTERRUPTED (R95). -/
def Lane.interrupt (l : Lane) : Lane := l.mapSlots (TrackSlot.move .cutting .interrupted fun _ => true)

/-- Turns back a track: the RETAINED slot that holds it goes to INTERRUPTED (R96). -/
def Lane.turnBack (l : Lane) (k : Nat) : Lane := l.mapSlots (TrackSlot.move .retained .interrupted (· = k))

/-- Abandons the interrupted track: its slot goes from INTERRUPTED to RETAINED (R97). -/
def Lane.discard (l : Lane) : Lane := l.mapSlots (TrackSlot.move .interrupted .retained fun _ => true)

/-- A slot after a carriage advance: a RETAINED slot is FREE and its cells are gone (R99). -/
def TrackSlot.release : TrackSlot → TrackSlot
  | .held .retained _ _ => .free
  | t => t

/-- A lane after a carriage advance (R99). -/
def Lane.release (l : Lane) : Lane := l.mapSlots TrackSlot.release

/-- The track that the lane's CUTTING slot holds, and its cells (R83). -/
def Lane.cuttingTrack (l : Lane) : Option (Nat × List Cell) :=
  match l.slot0, l.slot1 with
  | .held .cutting k cells, _ => some (k, cells)
  | _, .held .cutting k cells => some (k, cells)
  | _, _ => none

/-! ## CELL frames -/

/-- One of a lane's two slots. -/
inductive Side where
  | s0
  | s1
  deriving DecidableEq, Repr

/-- The slot on a side. -/
def Lane.slot (l : Lane) : Side → TrackSlot
  | .s0 => l.slot0
  | .s1 => l.slot1

/-- The lane with the slot on a side replaced. -/
def Lane.setSlot (l : Lane) (s : Side) (t : TrackSlot) : Lane :=
  match s with
  | .s0 => { l with slot0 := t }
  | .s1 => { l with slot1 := t }

/-- The side whose slot is ASSEMBLING the track (R87). -/
def Lane.assemblingSide (l : Lane) (k : Nat) : Option Side :=
  if l.slot0.isIn .assembling (· = k) then some .s0
  else if l.slot1.isIn .assembling (· = k) then some .s1 else none

/-- The FREE slot that a new track takes: slot 0 before slot 1 (R87). -/
def Lane.freeSide (l : Lane) : Option Side :=
  if l.slot0.isFree then some .s0 else if l.slot1.isFree then some .s1 else none

/-- The cells a slot holds. -/
def TrackSlot.cells : TrackSlot → List Cell
  | .held _ _ cells => cells
  | .free => []

/-- What the Track Assembler makes of a well-formed segment for a lane: the refusal, if it is refused, and the lane
afterwards (R86 to R91, checks 2 to 7 in their order). -/
def takeSegment (l : Lane) (g : Segment) : Option ErrorCode × Lane :=
  if g.track ≠ l.next ∨ l.tracks ≤ l.next then (some .trackSequence, l)
  else
    let assembling := l.assemblingSide g.track
    match assembling.or l.freeSide with
    | none => (some .laneNoRoom, l)
    | some side =>
      let held := if g.first then [] else (l.slot side).cells
      let total := held.length + g.cells.length
      -- the slot that was ASSEMBLING the track is FREE once its partial assembly is discarded
      let dropped := match assembling with
        | some a => l.setSlot a .free
        | none => l
      if !g.first && assembling.isNone then (some .segmentGap, l)
      else if g.firstCell ≠ held.length then (some .segmentGap, l)
      else if l.pattern < total then (some .trackOverlong, dropped)
      else if g.last then
        if total = l.pattern then
          (none, { l.setSlot side (.held .complete g.track (held ++ g.cells)) with next := l.next + 1 })
        else (some .trackSeam, dropped)
      else (none, l.setSlot side (.held .assembling g.track (held ++ g.cells)))

/-- The head whose OPEN lane carries a lane tag, with the lane (R85). -/
def State.laneOf (s : State) (tag : Byte) : Option (HeadNo × Lane) :=
  allHeads.findSome? fun h =>
    match s.lanes[h] with
    | some l => if l.tag = tag then some (h, l) else none
    | none => none

/-- The Track Assembler takes a CELL frame's body: malformed, refused with one post, or accepted whole
(R84 to R92). -/
def State.takeCells (s : State) (body : List Byte) : State :=
  match segmentOf body with
  | none => s.post .unknownFrame
  | some g =>
    match s.laneOf g.tag with
    | none => s.post .unknownLane none (some g.tag) (some g.track)
    | some (h, l) =>
      match takeSegment l g with
      | (refusal, l') =>
        let placed := s.updLane h fun _ => l'
        match refusal with
        | some code => placed.post code (some h) (some g.tag) (some g.track)
        | none => placed

end Sys2Proof.Machine
end

