-- ==== Sys2Proof/Machine/Depth.lean ====
section
/-! DEFINITION. The strike geometry (R17, R18), the expansion of a curve (R31) and the Depth Unit's computation of one
strike (chapter 3). All of it is arithmetic on exact integers. -/

namespace Sys2Proof.Machine

/-! ## Strike geometry -/

/-- The stagger phase of track `k`, in 1/256 of a cell (R17). -/
def staggerPhase (stagger k : Nat) : Nat := (k * stagger) % 256

/-- The tick t_j on which cell `j` of track `k` is struck, for E ticks a revolution (R18). -/
def strikeTick (e : Nat) (screen : Screen) (k j : Nat) : Nat :=
  ((256 * j + staggerPhase screen.stagger k) * e) / (256 * screen.cells)

/-! ## Expansion of a curve (R31) -/

/-- The entry for tone `t` on the segment between two breakpoints. Lean's division of integers by a positive number
rounds toward minus infinity, as the manual's floor does. -/
def segmentEntry (a b : Breakpoint) (t : Nat) : Nat :=
  let n : Int := ((b.depth : Int) - a.depth) * ((t : Int) - a.tone)
  let den : Int := (b.tone : Int) - a.tone
  ((a.depth : Int) + (2 * n + den) / (2 * den)).toNat

/-- The entry for tone `t`: on the first segment that `t` lies below the end of, and the last depth at the end. -/
def curveEntry : List Breakpoint → Nat → Nat
  | a :: b :: rest, t => if t < b.tone then segmentEntry a b t else curveEntry (b :: rest) t
  | [a], _ => a.depth
  | [], _ => 0

/-- The 256 entries of an expanded curve. -/
def expandCurve (points : List Breakpoint) : List Nat := (List.range 256).map (curveEntry points)

/-! ## The Depth Unit -/

/-- The inputs of one strike (R43). -/
structure StrikeInput where
  head : HeadNo
  track : Nat
  index : Nat
  cell : Cell
  /-- table depth g -/
  depth : Nat
  /-- the screen's minimum depth m -/
  minDepth : Nat
  cal : Calibration
  /-- strike counter S before the strike -/
  strikes : Nat
  mode : Mode
  deriving DecidableEq, Repr

/-- The strike result (R53). -/
structure StrikeResult where
  head : HeadNo
  track : Nat
  index : Nat
  cell : Cell
  blank : Bool
  cut : Bool
  depth : Nat
  code : Nat
  depthClamped : Bool
  driveClamped : Bool
  deriving DecidableEq, Repr

/-- The blank test (R46). -/
def isBlank (cell : Cell) (depth minDepth : Nat) : Bool := cell.nocut ∨ depth = 0 ∨ depth < minDepth

/-- The wear w (R48). -/
def wearOf (cal : Calibration) (strikes : Nat) : Nat := min cal.wearCap (strikes * cal.wearRate / 16777216)

/-- The drive code before its clamp (R51). -/
def rawCode (cal : Calibration) (depth : Nat) : Int := cal.offset + ((2 * depth * cal.gain + 4096) / 8192 : Nat)

/-- The drive code brought into 0..4095 (R52). -/
def clampCode (code : Int) : Nat := (min (max code 0) 4095).toNat

/-- The strike result of one strike (R45 to R53, R56). -/
def computeStrike (i : StrikeInput) : StrikeResult :=
  let blank := isBlank i.cell i.depth i.minDepth
  let full := i.depth + wearOf i.cal i.strikes
  let d := min full i.cal.maxDepth
  let raw := rawCode i.cal d
  if blank then
    { head := i.head, track := i.track, index := i.index, cell := i.cell, blank := true, cut := false, depth := 0,
      code := i.cal.rest, depthClamped := false, driveClamped := false }
  else
    { head := i.head, track := i.track, index := i.index, cell := i.cell, blank := false, cut := i.mode = .cut,
      depth := d, code := clampCode raw, depthClamped := i.cal.maxDepth < full,
      driveClamped := raw < 0 ∨ 4095 < raw }

end Sys2Proof.Machine
end

