-- ==== Sys2Proof/Machine/Tallies.lean ====
section
/-! DEFINITION. What the Tally Unit and the Capture Unit make of a strike result (R134 to R136, R139, R144 to R147). -/

namespace Sys2Proof.Machine

/-! ## Tallies -/

/-- What a strike adds to the two sums (R134): the tone at every strike under source TONE, the depth under source
DEPTH (0 for a blank strike). -/
def tallyAmount (source : TallySource) (r : StrikeResult) : Nat :=
  match source with
  | .tone => r.cell.tone.toNat
  | .depth => if r.blank then 0 else r.depth

/-- A tally after a strike (R134). -/
def Tally.add (t : Tally) (source : TallySource) (r : StrikeResult) : Tally :=
  let n := tallyAmount source r
  { t with
    currentTrack := t.currentTrack + n
    job := satAdd Config.max48 t.job n
    cut := satAdd Config.max32 t.cut (if r.blank then 0 else 1)
    uncut := satAdd Config.max32 t.uncut (if r.blank then 1 else 0)
    depthClamps := satAdd Config.max32 t.depthClamps (if r.depthClamped then 1 else 0)
    driveClamps := satAdd Config.max32 t.driveClamps (if r.driveClamped then 1 else 0) }

/-- Whether no head has a drive clamp in its tally, which makes a drive-clamped strike the first of its job (R136). -/
def State.noDriveClamps (s : State) : Bool := allHeads.all fun h => s.tallies[h].driveClamps = 0

/-- The Tally Unit takes a strike result: the DRIVE_CLAMPED event of a job's first drive clamp (R136), and the
striking head's sums and counts (R134). -/
def State.tallyStrike (s : State) (r : StrikeResult) : State :=
  let raised := if r.driveClamped && s.noDriveClamps then s.raise .driveClamped else s
  raised.updTally r.head fun t => t.add s.seq.job.tallySource r

/-- The mark counter takes a strike result (R139): a non-blank strike of a MARK cell counts, and a wrap with mark-stop
on sets the hold request and raises MARK_STOP. -/
def State.countMark (s : State) (r : StrikeResult) : State :=
  if r.cell.mark && !r.blank then
    let counted := s.setMarkCounter (wrapSucc32 s.markCounter)
    if counted.markCounter = 0 ∧ s.seq.job.markStop then
      (counted.setSeq { counted.seq with hold := true }).raise .markStop
    else counted
  else s

/-! ## Captures -/

/-- The entry that a strike result makes (R145). -/
def StrikeResult.entry (r : StrikeResult) : CaptureEntry :=
  { tone := r.cell.tone, mark := r.cell.mark, nocut := r.cell.nocut, depth := r.depth, code := r.code,
    depthClamped := r.depthClamped, driveClamped := r.driveClamped }

/-- Whether a capture records a strike (R144). -/
def Capture.records (c : Capture) (r : StrikeResult) : Bool :=
  decide (c.head = r.head) && decide (c.track = r.track) &&
    (match c.state with
     | .waiting => decide (r.index = c.first)
     | .filling => decide (r.index = c.first + c.entries.length)
     | .full => false)

/-- A capture after a strike of a track of `cells` cells (R144, R146). -/
def Capture.strike (c : Capture) (r : StrikeResult) (cells : Nat) : Capture :=
  if c.records r then
    let entries := c.entries ++ [r.entry]
    { c with entries := entries,
             state := if c.length ≤ entries.length ∨ r.index + 1 = cells then .full else .filling }
  else c

/-- Whether a capture that was not FULL has become FULL. -/
def becameFull (before after : Capture) : Bool := before.state ≠ .full ∧ after.state = .full

/-- Changes every capture, and raises CAPTURE_FULL if one became FULL by it (R146). -/
def State.changeCaptures (s : State) (f : Capture → Capture) : State :=
  let changed := s.setCaptures (s.captures.map f)
  if s.captures.any fun c => becameFull c (f c) then changed.raise .captureFull else changed

/-- The Capture Unit takes a strike result (R144 to R146). -/
def State.captureStrike (s : State) (r : StrikeResult) (cells : Nat) : State :=
  s.changeCaptures fun c => c.strike r cells

/-- The FILLING captures of the heads chosen become FULL, because their cutting revolution has ended (R147). -/
def State.endCaptures (s : State) (heads : HeadNo → Bool) : State :=
  s.changeCaptures fun c => if c.state = .filling ∧ heads c.head then { c with state := .full } else c

end Sys2Proof.Machine
end

