-- ==== Sys2Proof/Machine/Sequencer.lean ====
section
/-! DEFINITION. The Track Sequencer: strikes and completion (R122, R123), the index of a running job in its fixed
steps (R114 to R121), the lost index (R124), head faults (R73 to R76) and the end of a job (R129). -/

namespace Sys2Proof.Machine

/-! ## Changing every head -/

/-- Changes every head's items of the Track Sequencer. -/
def State.mapHeads (s : State) (f : HeadNo → HeadItems → HeadItems) : State :=
  s.setSeq { s.seq with heads := mapAll f s.seq.heads }

/-- Changes every OPEN lane. -/
def State.mapLanes (s : State) (f : HeadNo → Lane → Lane) : State :=
  s.setLanes (mapAll (fun h => Option.map (f h)) s.lanes)

/-- Changes every Head Port. -/
def State.mapPorts (s : State) (f : HeadNo → HeadPort → HeadPort) : State :=
  s.setPorts (mapAll f s.ports)

/-- Lifts the heads chosen (R72). -/
def State.liftHeads (s : State) (heads : HeadNo → Bool) : State :=
  s.mapPorts fun h p => if heads h then { p with lift := .lifted } else p

/-- Sets the job state. -/
def State.setJobState (s : State) (j : JobState) : State := s.setSeq { s.seq with state := j }

/-- Sets or clears the hold request. -/
def State.setHold (s : State) (b : Bool) : State := s.setSeq { s.seq with hold := b }

/-- Whether a head is CUTTING. -/
def HeadItems.isCutting (i : HeadItems) : Bool :=
  match i.state with
  | .cutting _ => true
  | _ => false

/-- Whether a head is CUTTING in the state. -/
def State.cutting (s : State) (h : HeadNo) : Bool := s.seq.heads[h].isCutting

/-! ## Strikes -/

/-- Everything a strike of a head reads: the cell index, the slot's track and cell, and the bound slots' contents. -/
structure StrikeContext where
  entry : PlanEntry
  screen : Screen
  table : List Nat
  track : Nat
  index : Nat
  cell : Cell
  deriving DecidableEq, Repr

/-- What the next strike of a CUTTING head would read (R83, R122). It is none for a head that is not CUTTING. The
other cases of none, a CUTTING head without plan entry, READY slots or a CUTTING track slot with its cell, are
states that no run reaches, and there nothing is struck (log entry 15). -/
def State.strikeContext (s : State) (h : HeadNo) : Option StrikeContext :=
  match s.seq.heads[h].state with
  | .cutting j => do
    let entry ← s.seq.plan[h]
    let screen ← s.screens[entry.screen].screen
    let lane ← s.lanes[h]
    let (track, cells) ← lane.cuttingTrack
    let cell ← cells[j % lane.pattern]?
    match s.grads[entry.grad].table with
    | .ready depths => some { entry := entry, screen := screen, table := depths, track := track, index := j, cell := cell }
    | _ => none
  | _ => none

/-- The tick on which the strike falls (R18). -/
def StrikeContext.tick (c : StrikeContext) (e : Nat) : Nat := strikeTick e c.screen c.track c.index

/-- The Depth Unit's inputs of the strike (R43). -/
def State.strikeInput (s : State) (h : HeadNo) (c : StrikeContext) : StrikeInput :=
  { head := h, track := c.track, index := c.index, cell := c.cell, depth := c.table.getD c.cell.tone.toNat 0,
    minDepth := c.screen.minDepth, cal := s.ports[h].cal, strikes := s.ports[h].strikes, mode := s.seq.job.mode }

/-- The Head Port takes a strike result (R54 to R56, R64, R70): an ENGAGED head presents its code, and a cut advances
the strike counter. -/
def HeadPort.strike (p : HeadPort) (r : StrikeResult) : HeadPort :=
  { p.present r.code with strikes := if r.cut then satAdd Config.max32 p.strikes 1 else p.strikes }

/-- The strike of a track's last cell completes it (R71, R94, R123, R135). The head lifts after DRIVE has presented the
strike's code, which `HeadPort.strokeCode` keeps. -/
def State.completeTrack (s : State) (h : HeadNo) (c : StrikeContext) : State :=
  let items := s.updHead h fun i =>
    { i with next := i.next + 1, justCut := some c.track,
             state := if i.next + 1 = c.entry.tracks then .finished else .waiting }
  ((((items.setSeq { items.seq with retained := true }).updLane h Lane.retain).updPort h
      fun p => { p with lift := .lifted }).updTally h fun t => { t with lastTrack := t.currentTrack })

/-- One strike of a head, as one event: the cell is computed and the result delivered (R54, R122), and the track is
completed at its last cell (R123). -/
def State.strikeCell (s : State) (h : HeadNo) (c : StrikeContext) : State :=
  let r := computeStrike (s.strikeInput h c)
  let advanced := s.updHead h fun i => { i with state := .cutting (c.index + 1) }
  let delivered := (((advanced.updPort h fun p => p.strike r).tallyStrike r).countMark r).captureStrike r c.screen.cells
  if c.index + 1 = c.screen.cells then delivered.completeTrack h c else delivered

/-- The head strikes its next cell if that cell falls on this tick (R18, R122). -/
def State.strikeHead (s : State) (tick : Nat) (h : HeadNo) : State :=
  match s.strikeContext h with
  | some c => if c.tick s.seq.job.e = tick then s.strikeCell h c else s
  | none => s

/-- Every head strikes the cell that falls on this tick, in ascending head number (R57, log entry 10). -/
def State.strikeAll (s : State) (tick : Nat) : State := allHeads.foldl (fun s h => s.strikeHead tick h) s

/-- The Sequencer takes a tick event (R113, R122). -/
def State.seqTick (s : State) (tick : Nat) : State :=
  if s.seq.state = .running then s.strikeAll tick else s

/-! ## Cuts that are stopped, and tracks turned back -/

/-- Items of a head whose cut has been stopped: its interrupted flag is set and it is WAITING (R115, R124). -/
def HeadItems.stopCut (i : HeadItems) : HeadItems :=
  if i.isCutting then { i with state := .waiting, interrupted := true } else i

/-- Items of a head whose track just cut is turned back (R115, R124): the track just cut becomes absent in the same
event (R114). -/
def HeadItems.turnBack (i : HeadItems) : HeadItems :=
  match i.justCut with
  | some _ =>
    { i with interrupted := true, next := i.next - 1, justCut := none,
             state := if i.state = .finished then .waiting else i.state }
  | none => i

/-- The lane of a head whose revolution is suspect: the slot being cut is INTERRUPTED (R95), and the track just cut
is turned back (R96). -/
def Lane.suspect (i : HeadItems) (l : Lane) : Lane :=
  let stopped := if i.isCutting then l.interrupt else l
  match i.justCut with
  | some k => stopped.turnBack k
  | none => stopped

/-- The tracks of the revolution are suspect, at a slip or a lost index (R115, R124): cuts under way are stopped,
tracks just cut are turned back, and the job goes to HOLDING. -/
def State.suspectRevolution (s : State) : State :=
  let lanes := s.mapLanes fun h => Lane.suspect s.seq.heads[h]
  let lifted := (lanes.liftHeads s.cutting).endCaptures s.cutting
  let heads := lifted.mapHeads fun _ i => i.turnBack.stopCut
  heads.setSeq { heads.seq with state := .holding, hold := false }

/-- The Sequencer takes the index-lost event (R113, R124). -/
def State.seqIndexLost (s : State) : State :=
  if s.seq.state = .running then s.suspectRevolution else s

/-! ## The end of a job -/

/-- Ends the job with an outcome (R129): every head LIFTED and OUT, every lane CLOSED with its ROOM mark withdrawn
(R81, R102), every bind released (R16, R24), FILLING captures FULL (R147), and JOB_ENDED raised. -/
def State.endJob (s : State) (o : JobOutcome) : State :=
  let ended := (s.liftHeads fun _ => true).endCaptures fun _ => true
  let heads := ended.mapHeads fun _ i =>
    { i with state := .out, interrupted := false, faultPosition := false, justCut := none }
  let items := heads.setSeq { heads.seq with state := .ended o, hold := false, stalled := false }
  let lanes := (items.setLanes (mapAll (fun _ _ => none) items.lanes)).setTx
    { items.tx with room := mapAll (fun _ _ => false) items.tx.room }
  let binds := (lanes.setScreens (mapAll (fun _ x => { x with binds := 0 }) lanes.screens)).setGrads
    (mapAll (fun _ x => { x with binds := 0 }) lanes.grads)
  binds.raise .jobEnded

/-! ## Starting tracks at an index -/

/-- Head items of a head that starts a track (R118, R120). -/
def HeadItems.begin (i : HeadItems) : HeadItems := { i with state := .cutting 0, interrupted := false }

/-- The heads chosen start their tracks at an index (R69, R93, R118, R120, R135): the slot is CUTTING, the head is
CUTTING with next cell 0, ENGAGED in a CUT job, and its current-track sum is 0. A cell at tick 0 is struck in the
same event. `recut` says which of the two moves of R93 the slots make. -/
def State.startHeads (s : State) (heads : HeadNo → Bool) (recut : Bool) : State :=
  let lanes := s.mapLanes fun h l =>
    if heads h then
      (if recut then l.startRecut s.seq.heads[h].next else l.startTrack s.seq.heads[h].next)
    else l
  let items := lanes.mapHeads fun h i => if heads h then i.begin else i
  let ports := items.mapPorts fun h p =>
    if heads h ∧ s.seq.job.mode = .cut then { p with lift := .engaged p.cal.rest } else p
  let tallies := ports.setTallies (mapAll (fun h t => if heads h then { t with currentTrack := 0 } else t) ports.tallies)
  tallies.strikeAll 0

/-- Whether a head is WAITING. -/
def State.waiting (s : State) (h : HeadNo) : Bool := s.seq.heads[h].state = .waiting

/-- Whether a head awaits a recut: WAITING with its interrupted flag set (R118). -/
def State.awaitsRecut (s : State) (h : HeadNo) : Bool := s.waiting h && s.seq.heads[h].interrupted

/-- Whether a head's next track is COMPLETE in its lane (R119). -/
def State.nextComplete (s : State) (h : HeadNo) : Bool :=
  match s.lanes[h] with
  | some l => l.holds .complete (· = s.seq.heads[h].next)
  | none => false

/-- Whether a WAITING head holds the gate back (R119). -/
def State.holdsGate (s : State) (h : HeadNo) : Bool :=
  s.waiting h && !(s.nextComplete h && s.ports[h].ready)

/-- Whether the gate passes (R119). -/
def State.gatePasses (s : State) : Bool := allHeads.all fun h => !s.holdsGate h

/-- The carriage advance of a passing gate (R99, R101, R120): it is due once a track has been retained. -/
def State.advance (s : State) : State :=
  if s.seq.retained then
    let counted := s.setSeq { s.seq with
      advances := s.seq.advances + 1
      pulses := if s.seq.job.mode = .cut then s.seq.pulses + 1 else s.seq.pulses
      heads := mapAll (fun _ i => { i with faultPosition := false }) s.seq.heads }
    let rooms := counted.setTx { counted.tx with
      room := mapAll (fun h b => b || (match s.lanes[h] with
        | some l => l.holds .retained fun _ => true
        | none => false)) counted.tx.room }
    rooms.mapLanes fun _ => Lane.release
  else s

/-- A passing gate (R120): the advance when due, the start of every WAITING head, and the consecutive idle count and
STALLED cleared. -/
def State.passGate (s : State) : State :=
  let started := s.advance.startHeads s.waiting false
  started.setSeq { started.seq with consecutiveIdle := 0, stalled := false }

/-- An idle revolution (R121). `back` says which heads held the revolution back; the STALL entry names the
lowest-numbered of them. -/
def State.idleRevolution (s : State) (back : HeadNo → Bool) : State :=
  let consecutive := satAdd Config.max32 s.seq.consecutiveIdle 1
  let counted := s.setSeq { s.seq with idle := satAdd Config.max32 s.seq.idle 1, consecutiveIdle := consecutive }
  if s.seq.job.stallLimit ≠ 0 ∧ consecutive = s.seq.job.stallLimit then
    let stalled := counted.setSeq { counted.seq with stalled := true }
    match allHeads.find? back with
    | some h => stalled.post .stall (some h) (s.seq.plan[h].map PlanEntry.tag) (some s.seq.heads[h].next)
    | none => stalled.post .stall
  else counted

/-- The repair step (R118): every head that awaits a recut and has READY asserted starts it, and the revolution is
idle if none does. -/
def State.repairStep (s : State) : State :=
  let starts : HeadNo → Bool := fun h => s.awaitsRecut h && s.ports[h].ready
  if allHeads.any starts then s.startHeads starts true else s.idleRevolution s.awaitsRecut

/-- Whether some head is WAITING or CUTTING, so that the index does not close the job (R117). -/
def State.headAtWork (s : State) : Bool := allHeads.any fun h => s.waiting h || s.cutting h

/-- Steps 2 to 5 of the index of a running job (R114, R116 to R121). -/
def State.indexSteps (s : State) : State :=
  if s.seq.hold then s.setSeq { s.seq with state := .holding, hold := false }
  else if !s.headAtWork then
    s.endJob (if allHeads.any fun h => s.seq.heads[h].state = .faulted then .part else .complete)
  else if allHeads.any s.awaitsRecut then s.repairStep
  else if s.gatePasses then s.passGate
  else s.idleRevolution s.holdsGate

/-- Each head's track just cut becomes absent (R114). -/
def State.clearJustCut (s : State) : State := s.mapHeads fun _ i => { i with justCut := none }

/-- The Sequencer takes an index event (R113, R114): a slip first (R115), and otherwise the steps after it. -/
def State.seqIndex (s : State) (slip : Bool) : State :=
  if s.seq.state = .running then
    if slip then s.suspectRevolution else s.clearJustCut.indexSteps
  else s

/-! ## Head faults -/

/-- The lane tag of a planned head. -/
def State.laneTag (s : State) (h : HeadNo) : Option Byte := s.seq.plan[h].map PlanEntry.tag

/-- A head going to FAULTED sets the hold request in a running job under HOLD_ALL (R76). -/
def State.faultPolicy (s : State) : State :=
  if s.seq.state = .running ∧ s.seq.job.policy = .holdAll then s.setHold true else s

/-- A fault that interrupts a cut (R73, R74): the report names the track and the first cell not struck (R75). -/
def State.faultCut (s : State) (h : HeadNo) (code : ErrorCode) (cell : Nat) : State :=
  let posted := s.post code (some h) (s.laneTag h) (some s.seq.heads[h].next) (some cell)
  let stopped := ((posted.updPort h fun p => { p with lift := .lifted }).updLane h Lane.interrupt).endCaptures (· = h)
  (stopped.updHead h fun i => { i with state := .faulted, interrupted := true, faultPosition := true }).faultPolicy

/-- An ALARM assertion edge at a head (R67, R73). -/
def State.alarmEdge (s : State) (h : HeadNo) : State :=
  match s.seq.heads[h].state with
  | .cutting j => s.faultCut h .headAlarm j
  | .waiting | .armed =>
    let posted := s.post .headAlarm (some h) (s.laneTag h) (some s.seq.heads[h].next)
    (posted.updHead h fun i => { i with state := .faulted, faultPosition := true }).faultPolicy
  | .faulted | .finished => s.post .headAlarm (some h) (s.laneTag h)
  | .out => s

/-- A READY deassertion edge at a head (R67, R74). -/
def State.readyLossEdge (s : State) (h : HeadNo) : State :=
  match s.seq.heads[h].state with
  | .cutting j => s.faultCut h .headNotReady j
  | _ => s

end Sys2Proof.Machine
end

