-- ==== Sys2Proof/Machine/Encoder.lean ====
section
/-! DEFINITION. The Encoder Monitor (R1 to R12): the positions it takes from the lines or from the internal tick
generator, and the commands that bring a position about: TICK, INDEX, INTERNAL_TICK_GENERATOR, and INDEX_LOST, STALL
and MARK_STOP, which name what comes about inside one (log entry 4). -/

namespace Sys2Proof.Machine

/-! ## Positions -/

/-- The index is lost (R8): the Monitor goes UNSYNCED, posts INDEX_LOST for a RUNNING or HOLDING job, and hands on the
index-lost event. -/
def State.loseIndex (s : State) : State :=
  let lost := s.setMonitor { s.monitor with sync := .unsynced, count := 0 }
  (if s.seq.state.runningOrHolding then lost.post .indexLost else lost).seqIndexLost

/-- The Monitor takes a TICK position (R4, R5). -/
def State.takeTick (s : State) : State :=
  match s.monitor.sync with
  | .unsynced => s
  | .synced =>
    let count := s.monitor.count + 1
    if count = 2 * s.monitor.e then s.loseIndex
    else (s.setMonitor { s.monitor with count := count }).seqTick count

/-- The Monitor takes an INDEX position (R4, R6, R7). -/
def State.takeIndex (s : State) : State :=
  match s.monitor.sync with
  | .unsynced => (s.setMonitor { s.monitor with sync := .synced, count := 0 }).seqIndex false
  | .synced =>
    let length := s.monitor.count + 1
    let slip : Bool := length ≠ s.monitor.e
    let counted := s.setMonitor { s.monitor with
      lastLength := length, revolutions := wrapSucc32 s.monitor.revolutions, count := 0 }
    (if slip && s.seq.state.runningOrHolding then counted.post .encoderSlip else counted).seqIndex slip

/-- A TICK on the line: taken while the source in force is EXTERNAL, disregarded otherwise (R1). -/
def State.tickLine (s : State) : State :=
  if s.monitor.source = .external then s.event State.takeTick else s

/-- An INDEX on the line: taken while the source in force is EXTERNAL, disregarded otherwise (R1). -/
def State.indexLine (s : State) : State :=
  if s.monitor.source = .external then s.event State.takeIndex else s

/-- A period of the internal tick generator expires (R11): while the source in force is INTERNAL it produces its next
position, an index at place 0 of its revolution of E positions and a tick at every other; a stopped generator
produces none (R12). -/
def State.generatorPeriod (s : State) : State :=
  if s.monitor.source = .internal then
    let stepped := s.setMonitor { s.monitor with genNext := (s.monitor.genNext + 1) % s.monitor.e }
    s.latch (if s.monitor.genNext = 0 then stepped.takeIndex else stepped.takeTick)
  else s

/-- The position that a position event brings about. -/
def State.takePosition (s : State) : PositionEvent → State
  | .tick => s.tickLine
  | .index => s.indexLine
  | .generator => s.generatorPeriod

/-! ## What ARM makes of the Monitor -/

/-- The Monitor after an accepted ARM of a job record (R3, R11, R12). -/
def Monitor.arm (m : Monitor) (j : JobRecord) : Monitor :=
  if j.source = .external ∧ m.source = j.source ∧ m.e = j.e then m
  else { m with sync := .unsynced, count := 0, source := j.source, e := j.e, period := j.period, genNext := 0 }

/-- The Monitor after RESET (R2). -/
def Monitor.afterReset (m : Monitor) : Monitor :=
  { m with sync := .unsynced, count := 0, source := .external, e := Config.eDefault, period := Config.periodDefault,
           genNext := 0 }

/-! ## The commands -/

/-- TICK (R1, R4, R5, R122). -/
def execTick (s : State) : Host.Outcome State Fault Refusal := .next s.tickLine

/-- INDEX (R1, R4, R6, R7, R114). -/
def execIndex (s : State) : Host.Outcome State Fault Refusal := .next s.indexLine

/-- INTERNAL_TICK_GENERATOR (R11, R12). -/
def execInternalTickGenerator (s : State) : Host.Outcome State Fault Refusal := .next s.generatorPeriod

/-- Whether the next TICK on the line brings the ticks-since-index count to 2E (R8). -/
def State.indexAboutToBeLost (s : State) : Bool :=
  s.monitor.source = .external ∧ s.monitor.sync = .synced ∧ s.monitor.count + 1 = 2 * s.monitor.e

/-- INDEX_LOST (R8, R124): the TICK that loses the index, in a state in which the next TICK does. -/
def execIndexLost (s : State) : Host.Outcome State Fault Refusal :=
  .next (if s.indexAboutToBeLost then s.tickLine else s)

/-- STALL (R121): the position at whose index the STALLED condition rises, in a state in which the position given
makes it rise. -/
def execStall (p : PositionEvent) (s : State) : Host.Outcome State Fault Refusal :=
  let t := s.takePosition p
  .next (if !s.seq.stalled && t.seq.stalled then t else s)

/-- MARK_STOP (R139): the position that holds the strike that wraps the mark counter, in a state in which the position
given holds one. The counter falls at no other strike. -/
def execMarkStop (p : PositionEvent) (s : State) : Host.Outcome State Fault Refusal :=
  let t := s.takePosition p
  .next (if t.markCounter < s.markCounter then t else s)

end Sys2Proof.Machine
end

