-- ==== Sys2Proof/Machine/Records.lean ====
section
/-! DEFINITION. What all control records share (R168 to R172): the verdict of a record's own rule, the RESULT that
answers it, and the checks that every record passes before its own. -/

namespace Sys2Proof.Machine

/-- What a record's own rule makes of it. -/
inductive Verdict where
  /-- refused, with the completion code and the payload of its RESULT; nothing has changed (R169) -/
  | refused (code : Completion) (payload : List Byte)
  /-- succeeded, with the state it leaves, the completion code and the payload -/
  | done (s : State) (code : Completion) (payload : List Byte)
  /-- taken, with the state it leaves; its answer comes at a later event (LOAD CURVE R28, READ CAPTURE R151, SYNC R173) -/
  | later (s : State)
  deriving DecidableEq, Repr

/-- The RESULT frame of a record: tag, echoed kind, completion code and payload (R171, R187). -/
def resultFrame (tag : Tag) (kind : Byte) (code : Completion) (payload : List Byte) : UpFrame :=
  { kind := .result,
    body := tag.setWidth 8 :: (tag >>> 8).setWidth 8 :: kind :: code.code :: payload }

/-- Answers a record as R170 settles: a refusal always, with RECORD_REFUSED raised; a success if its kind is always
answered or its notify byte is 1. -/
def Verdict.conclude (v : Verdict) (s : State) (kind : Byte) (always : Bool) (h : Header) : State :=
  match v with
  | .refused code payload => (s.raise .recordRefused).answer (resultFrame h.tag kind code payload)
  | .done t code payload => if always || h.notify = 1 then t.answer (resultFrame h.tag kind code payload) else t
  | .later t => t

/-- A success with completion code DONE and no payload. -/
def Verdict.ok (s : State) : Verdict := .done s .done []

/-- A refusal with no payload. -/
def Verdict.refuse (code : Completion) : Verdict := .refused code []

/-- Runs a record's own rule on its operands, refusing with BAD_VALUE if a field lies outside its range (R169). -/
def withOperands {α : Type} (operands : Option α) (rule : α → Verdict) : Verdict :=
  match operands with
  | some a => rule a
  | none => .refuse .badValue

/-- Whether the Interpreter is busy (R160, R167). -/
def State.busy (s : State) : Bool := s.interp.state ≠ .free

/-- Two bytes of a number, least significant first. -/
def le2 (v : Nat) : List Byte := leBytes 2 v

/-- Four bytes of a number, least significant first. -/
def le4 (v : Nat) : List Byte := leBytes 4 v

/-- One byte of a number. -/
def le1 (v : Nat) : List Byte := leBytes 1 v

end Sys2Proof.Machine
end

