-- ==== Sys2Proof/Machine/GatherRecords.lean ====
section
/-! DEFINITION. The records of the Tally Unit and the Capture Unit (chapter 7), and the frames of a readback
(R151, R188). -/

namespace Sys2Proof.Machine

/-! ## Mark counter and tallies -/

/-- SET MARK COUNT's own rule (R140). -/
def ruleSetMarkCount (p : List Byte) (s : State) : Verdict :=
  withOperands (setMarkCountOperands p) fun (count, markStop) =>
    .ok ((s.setMarkCounter count).setSeq { s.seq with job := { s.seq.job with markStop := markStop } })

/-- One head's part of READ TALLY's payload (R187). -/
def tallyPayload (h : HeadNo) (t : Tally) : List Byte :=
  le1 h.val ++ le4 t.currentTrack ++ le4 t.lastTrack ++ leBytes 6 t.job ++ le4 t.cut ++ le4 t.uncut ++
    le4 t.depthClamps ++ le4 t.driveClamps

/-- READ TALLY's own rule (R137). -/
def ruleReadTally (p : List Byte) (s : State) : Verdict :=
  withOperands (selectorOperand p) fun sel =>
    let heads := match sel with
      | .one h => [h]
      | .all => allHeads
    .done s .done (le1 s.seq.job.tallySource.code ++ le4 s.markCounter ++ [flagByte s.seq.job.markStop] ++
      heads.flatMap fun h => tallyPayload h s.tallies[h])

/-! ## Captures -/

/-- The capture of an id, if the list has one (R142). -/
def State.captureOf (s : State) (id : Nat) : Option Capture := s.captures.find? fun c => c.id = id

/-- The entries that the captures of a list reserve. -/
def reservedOf (captures : List Capture) : Nat := (captures.map Capture.length).sum

/-- The free entries of Capture Memory (R142). -/
def State.freeEntries (s : State) : Nat := Config.captureMemory - reservedOf s.captures

/-- DEFINE CAPTURE's own rule (R143). -/
def ruleDefineCapture (p : List Byte) (s : State) : Verdict :=
  withOperands (defineCaptureOperands p) fun c =>
    if (s.captureOf c.id).isSome then .refuse .badValue
    else if s.freeEntries < c.length then .refuse .noSpace
    else .ok (s.setCaptures (s.captures ++ [c]))

/-- DELETE CAPTURE's own rule (R149). -/
def ruleDeleteCapture (p : List Byte) (s : State) : Verdict :=
  if (s.captureOf (u8At p 0)).isSome then .ok (s.setCaptures (s.captures.filter fun c => c.id ≠ u8At p 0))
  else .refuse .badValue

/-- One capture's part of LIST CAPTURES' payload (R187). -/
def capturePayload (c : Capture) : List Byte :=
  le1 c.id ++ le1 c.head.val ++ le2 c.track ++ le2 c.first ++ le2 c.length ++ le1 c.state.code ++ le2 c.entries.length

/-- LIST CAPTURES' own rule (R150). -/
def ruleListCaptures (s : State) : Verdict :=
  .done s .done (le2 s.freeEntries ++ le1 s.captures.length ++ s.captures.flatMap capturePayload)

/-- READ CAPTURE's own rule (R151): the number of entries is fixed and the Interpreter is STREAMING. -/
def ruleReadCapture (h : Header) (p : List Byte) (s : State) : Verdict :=
  match s.captureOf (u8At p 0) with
  | some c =>
    .later (s.setInterp { s.interp with
      state := .streaming { id := c.id, tag := h.tag, n := c.entries.length, next := 0 } })
  | none => .refuse .badValue

/-! ## The frames of a readback -/

/-- A captured entry on the link (R188). -/
def entryBytes (e : CaptureEntry) : List Byte :=
  e.tone :: ((if e.mark then 1 else 0) ||| (if e.nocut then 2 else 0) ||| (if e.depthClamped then 4 else 0) |||
    (if e.driveClamped then 8 else 0)) :: (le2 e.depth ++ le2 e.code)

/-- How many entries the next data frame of a readback carries (R151). -/
def Readback.frameEntries (rb : Readback) : Nat := min Config.captureFrameEntries (rb.n - rb.next)

/-- The entries and the state of the capture that is read back. The capture stands on the list for the whole of its
readback (R151); were it not there, nothing of it would be sent (log entry 15). -/
def State.readbackCapture (s : State) (rb : Readback) : List CaptureEntry × CaptureState :=
  match s.captureOf rb.id with
  | some c => (c.entries, c.state)
  | none => ([], .waiting)

/-- The next frame of a readback (R151, R188): a CAPTURE_DATA frame while entries remain, and then the RESULT with the
capture's state as it now stands. -/
def State.readbackFrame (s : State) (rb : Readback) : UpFrame :=
  let (entries, state) := s.readbackCapture rb
  if rb.next < rb.n then
    let sent := (entries.drop rb.next).take rb.frameEntries
    { kind := .captureData, body := le1 rb.id ++ le2 rb.next ++ le2 rb.frameEntries ++ sent.flatMap entryBytes }
  else resultFrame rb.tag RecordKind.readCapture.code .done (le1 rb.id ++ le2 rb.n ++ le1 state.code)

/-- The Interpreter's state once the next frame of a readback is placed: STREAMING at the next entry to send after a
data frame, FREE after the RESULT (R151, R172). -/
def Readback.afterFrame (rb : Readback) : InterpState :=
  if rb.next < rb.n then .streaming { rb with next := rb.next + rb.frameEntries } else .free

/-- Places the next frame of a readback (R151). -/
def State.placeReadback (s : State) (rb : Readback) : State :=
  (s.place (s.readbackFrame rb)).setInterp { s.interp with state := rb.afterFrame }

end Sys2Proof.Machine
end

