-- ==== Sys2Proof/Machine/HeadRecords.lean ====
section
/-! DEFINITION. The records of the Head Ports (R61 to R65, R78), and the changes of the READY and ALARM lines
(R66, R67, R73, R74). -/

namespace Sys2Proof.Machine

/-- SET HEAD's own rule (R61, R62). The head is OUT, so an edge found by the re-read has no further effect. -/
def ruleSetHead (p : List Byte) (s : State) : Verdict :=
  withOperands (setHeadOperands p) fun (h, cal) =>
    if s.seq.heads[h].state ≠ .out then .refuse .wrongState
    else .ok (s.updPort h fun q => { q with cal := cal, calibrated := true }.reread)

/-- READ HEAD's payload (R63, R187). -/
def headPayload (q : HeadPort) (i : HeadItems) : List Byte :=
  le2 q.cal.gain ++ leBytesSigned q.cal.offset ++ le2 q.cal.rest ++ le2 q.cal.maxDepth ++ le1 q.cal.wearRate ++
    le1 q.cal.wearCap ++ le1 q.cal.readyPolarity.code ++ le1 q.cal.alarmPolarity.code ++
    [flagByte q.calibrated] ++ le4 q.strikes ++ [flagByte q.ready, flagByte q.alarm] ++ le1 i.state.code

/-- READ HEAD's own rule (R63). -/
def ruleReadHead (p : List Byte) (s : State) : Verdict :=
  withOperands (headOperand p) fun h => .done s .done (headPayload s.ports[h] s.seq.heads[h])

/-- STYLUS CHANGE's own rule (R65). -/
def ruleStylusChange (p : List Byte) (s : State) : Verdict :=
  withOperands (headOperand p) fun h =>
    if s.cutting h then .refuse .wrongState else .ok (s.updPort h fun q => { q with strikes := 0 })

/-- Whether CLEAR FAULT may clear a head (R78 check 2). -/
def State.mayClearFault (s : State) (h : HeadNo) : Bool :=
  s.seq.heads[h].state = .faulted ∧ s.ports[h].alarm = false ∧
    (s.seq.state = .armed ∨ (s.seq.state = .holding ∧ s.seq.heads[h].faultPosition = true))

/-- The state that a cleared head goes to (R78). -/
def State.clearedState (s : State) (h : HeadNo) : HeadState :=
  if s.seq.plan[h].map PlanEntry.tracks = some s.seq.heads[h].next then .finished
  else if s.seq.state = .armed then .armed else .waiting

/-- CLEAR FAULT's own rule (R78). -/
def ruleClearFault (p : List Byte) (s : State) : Verdict :=
  withOperands (headOperand p) fun h =>
    if s.mayClearFault h then .ok (s.updHead h fun i => { i with state := s.clearedState h })
    else .refuse .wrongState

/-! ## The lines -/

/-- A head's ALARM line stands at a level (R66); an assertion edge acts on the head (R67, R73). -/
def State.alarmLevel (s : State) (h : HeadNo) (high : Bool) : State :=
  let read := s.updPort h fun q => { q with alarmLine := high }.reread
  if !s.ports[h].alarm && read.ports[h].alarm then read.alarmEdge h else read

/-- A head's READY line stands at a level (R66); a deassertion edge acts on the head (R67, R74). -/
def State.readyLevel (s : State) (h : HeadNo) (high : Bool) : State :=
  let read := s.updPort h fun q => { q with readyLine := high }.reread
  if s.ports[h].ready && !read.ports[h].ready then read.readyLossEdge h else read

/-- ALARM_LINE_CHANGE (R66, R67, R73, R75, R76). -/
def execAlarmLineChange (h : HeadNo) (high : Bool) (s : State) : Host.Outcome State Fault Refusal :=
  .next (s.event fun t => t.alarmLevel h high)

/-- READY_LINE_CHANGE (R66, R67, R74, R75, R76). -/
def execReadyLineChange (h : HeadNo) (high : Bool) (s : State) : Host.Outcome State Fault Refusal :=
  .next (s.event fun t => t.readyLevel h high)

end Sys2Proof.Machine
end

