-- ==== Sys2Proof/Machine/JobRecords.lean ====
section
/-! DEFINITION. The records of the Track Sequencer: SET JOB, PLAN HEAD, CLEAR PLAN, ARM, START, HOLD, RESUME, ABORT
(chapter 6). -/

namespace Sys2Proof.Machine

/-- SET JOB's own rule (R104). -/
def ruleSetJob (p : List Byte) (s : State) : Verdict :=
  withOperands (setJobOperands p) fun j =>
    if s.seq.state.active then .refuse .wrongState else .ok (s.setSeq { s.seq with job := j })

/-- PLAN HEAD's own rule (R106). -/
def rulePlanHead (p : List Byte) (s : State) : Verdict :=
  withOperands (planHeadOperands p) fun (h, e) =>
    if s.seq.state.active then .refuse .wrongState
    else .ok (s.setSeq { s.seq with plan := updAt s.seq.plan h fun _ => some e })

/-- The plan with the entries that a selector names cleared (R107). -/
def clearedPlan (plan : PerHead (Option PlanEntry)) : HeadSelector → PerHead (Option PlanEntry)
  | .one h => updAt plan h fun _ => none
  | .all => mapAll (fun _ _ => none) plan

/-- CLEAR PLAN's own rule (R107). -/
def ruleClearPlan (p : List Byte) (s : State) : Verdict :=
  withOperands (selectorOperand p) fun sel =>
    if s.seq.state.active then .refuse .wrongState
    else .ok (s.setSeq { s.seq with plan := clearedPlan s.seq.plan sel })

/-! ## ARM -/

/-- Whether a planned head of lower number carries the same lane tag (R110, condition 3a). -/
def State.duplicateTag (s : State) (h : HeadNo) (e : PlanEntry) : Bool :=
  allHeads.any fun g => g < h ∧ s.seq.plan[g].map PlanEntry.tag = some e.tag

/-- The first of the conditions 3a to 3g of R110 that a planned head fails. -/
def State.headPlanFault (s : State) (h : HeadNo) (e : PlanEntry) : Option PlanFault :=
  if s.duplicateTag h e then some .duplicateTag
  else if !s.ports[h].calibrated then some .notCalibrated
  else match s.screens[e.screen].screen with
  | none => some .screenNotReady
  | some x =>
    match s.grads[e.grad].table with
    | .ready _ =>
      if s.seq.job.e < 2 * x.cells then some .screenTooDense
      else if x.cells % e.repeats ≠ 0 then some .repeatMismatch
      else if s.ports[h].alarm then some .alarmAsserted
      else none
    | _ => some .tableNotReady

/-- The first condition of R110 that fails, with the head it names. -/
def State.planFault (s : State) : Option (PlanFault × Option HeadNo) :=
  if allHeads.all fun h => s.seq.plan[h].isNone then some (.noHead, none)
  else if s.seq.job.source = .internal ∧ s.seq.job.mode ≠ .dry then some (.internalCut, none)
  else allHeads.findSome? fun h =>
    match s.seq.plan[h] with
    | some e => (s.headPlanFault h e).map fun f => (f, some h)
    | none => none

/-- The PLAN_INVALID payload: reason, and head or 0xFF (R187). -/
def planFaultPayload (f : PlanFault × Option HeadNo) : List Byte :=
  le1 f.1.code ++ le1 (match f.2 with
    | some h => h.val
    | none => 255)

/-- The number of planned heads of which a test of the plan entry holds. -/
def plannedHeads (plan : PerHead (Option PlanEntry)) (ok : PlanEntry → Bool) : Nat :=
  allHeads.countP fun h => match plan[h] with
    | some e => ok e
    | none => false

/-- The lane buffer that ARM opens for a plan entry (R80). -/
def openLane (e : PlanEntry) (x : Screen) : Lane :=
  { tag := e.tag, pattern := x.cells / e.repeats, tracks := e.tracks, next := 0, slot0 := .free, slot1 := .free }

/-- The lane buffer of a head at an accepted ARM (R80). -/
def State.laneAtArm (s : State) (h : HeadNo) : Option Lane :=
  match s.seq.plan[h] with
  | some e => (s.screens[e.screen].screen).map (openLane e)
  | none => none

/-- The items of a head at an accepted ARM (R109). -/
def State.itemsAtArm (s : State) (h : HeadNo) : HeadItems :=
  { state := if s.seq.plan[h].isSome then .armed else .out, next := 0, interrupted := false, faultPosition := false,
    justCut := none }

/-- An accepted ARM (R111): binds, tallies, lanes, the Monitor's settings, heads and job items. -/
def State.arm (s : State) : State :=
  let binds := (s.setScreens (mapAll (fun i x =>
      { x with binds := x.binds + plannedHeads s.seq.plan fun e => e.screen = i }) s.screens)).setGrads
    (mapAll (fun i x => { x with binds := x.binds + plannedHeads s.seq.plan fun e => e.grad = i }) s.grads)
  let tallies := binds.setTallies (mapAll (fun _ _ => Tally.clear) binds.tallies)
  let lanes := tallies.setLanes (mapAll (fun h _ => s.laneAtArm h) tallies.lanes)
  let monitor := lanes.setMonitor (lanes.monitor.arm s.seq.job)
  monitor.setSeq { monitor.seq with
    state := .armed, hold := false, advances := 0, idle := 0, consecutiveIdle := 0, retained := false,
    stalled := false, heads := mapAll (fun h _ => s.itemsAtArm h) monitor.seq.heads }

/-- ARM's own rule (R110, R111). -/
def ruleArm (s : State) : Verdict :=
  if s.seq.state.active then .refuse .wrongState
  else match s.planFault with
  | some f => .refused .planInvalid (planFaultPayload f)
  | none => .ok s.arm

/-! ## START, HOLD, RESUME, ABORT -/

/-- START's own rule (R112). -/
def ruleStart (s : State) : Verdict :=
  if s.seq.state ≠ .armed then .refuse .wrongState
  else .ok ((s.mapHeads fun _ i => { i with state := if i.state = .armed then .waiting else i.state }).setJobState .running)

/-- HOLD's own rule (R126). -/
def ruleHold (s : State) : Verdict :=
  match s.seq.state with
  | .running => .ok (s.setHold true)
  | .holding => .ok s
  | _ => .refuse .wrongState

/-- The items of a head whose interrupted track is discarded (R127). -/
def HeadItems.discard (i : HeadItems) (tracks : Option Nat) : HeadItems :=
  if i.interrupted then
    { i with interrupted := false, next := i.next + 1,
             state := if i.state = .waiting ∧ tracks = some (i.next + 1) then .finished else i.state }
  else i

/-- RESUME with DISCARD abandons every interrupted track (R97, R127). -/
def State.discardTracks (s : State) : State :=
  let flagged : HeadNo → Bool := fun h => s.seq.heads[h].interrupted
  let turned := allHeads.any fun h => flagged h && (match s.lanes[h] with
    | some l => l.holds .interrupted fun _ => true
    | none => false)
  let lanes := s.mapLanes fun h l => if flagged h then l.discard else l
  let items := lanes.mapHeads fun h i => i.discard (s.seq.plan[h].map PlanEntry.tracks)
  items.setSeq { items.seq with retained := items.seq.retained || turned }

/-- RESUME's effect on the job state and the hold request (R127). -/
def State.resumed (s : State) : State := s.setSeq { s.seq with state := .running, hold := false }

/-- RESUME's own rule (R127). -/
def ruleResume (p : List Byte) (s : State) : Verdict :=
  withOperands (resumeOperand p) fun o =>
    if s.seq.state.runningOrHolding then
      .ok (match o with
        | .repair => s.resumed
        | .discard => s.resumed.discardTracks)
    else .refuse .wrongState

/-- ABORT's own rule (R130). -/
def ruleAbort (s : State) : Verdict :=
  if s.seq.state.active then .ok (s.endJob .aborted) else .refuse .wrongState

end Sys2Proof.Machine
end

