-- ==== Sys2Proof/Machine/StatusRecords.lean ====
section
/-! DEFINITION. The records of the Status Unit (R182, R184), the Link Receiver's SET FLOW (R158), the Interpreter's SYNC
(R173) and RESET (R175 to R177), and POWER_ON_RESET. -/

namespace Sys2Proof.Machine

/-! ## Status -/

/-- A head's part of READ STATUS's payload (R187). -/
def headStatusPayload (i : HeadItems) : List Byte :=
  le1 i.state.code ++ le2 i.next ++ le1 ((if i.interrupted then 1 else 0) + (if i.faultPosition then 2 else 0))

/-- READ STATUS's payload (R10, R132, R182, R187). -/
def State.statusPayload (s : State) : List Byte :=
  [s.conditions] ++ le2 s.status.events.toNat ++ le2 s.status.enable.toNat ++ le1 s.status.errors.length ++
    le1 s.monitor.sync.code ++ le4 s.monitor.revolutions ++ le4 s.monitor.lastLength ++
    le1 s.seq.state.code ++ le1 s.seq.state.outcomeCode ++ le2 s.seq.advances ++ le4 s.seq.idle ++
    le4 s.seq.consecutiveIdle ++ [flagByte s.seq.hold] ++
    allHeads.flatMap fun h => headStatusPayload s.seq.heads[h]

/-- READ STATUS's own rule (R182): the payload is formed, and then the event register is cleared. -/
def ruleReadStatus (s : State) : Verdict := .done (s.writeStatus 0 s.status.enable) .done s.statusPayload

/-- SET ENABLE's own rule (R182). -/
def ruleSetEnable (p : List Byte) (s : State) : Verdict :=
  withOperands (setEnableOperand p) fun mask => .ok (s.writeStatus s.status.events mask)

/-- A field that may be absent, which is then sent as 0 (R187). -/
def optionField {α : Type} (f : α → Nat) (x : Option α) : Nat := (x.map f).getD 0

/-- READ ERROR's payload for the entry removed, or for an empty queue, with the number of entries left (R184, R187). -/
def errorPayload (e : Option ErrorEntry) (left : Nat) : List Byte :=
  match e with
  | none => le1 0 ++ le4 0 ++ le1 0 ++ le1 0 ++ le1 0 ++ le2 0 ++ le2 0 ++ le1 0
  | some e =>
    le1 e.code.number ++ le4 e.revolution ++
      le1 ((if e.head.isSome then 1 else 0) + (if e.lane.isSome then 2 else 0) + (if e.track.isSome then 4 else 0) +
        (if e.cell.isSome then 8 else 0)) ++
      le1 (optionField Fin.val e.head) ++ le1 (optionField BitVec.toNat e.lane) ++ le2 (optionField id e.track) ++
      le2 (optionField id e.cell) ++ le1 left

/-- READ ERROR's own rule (R184). -/
def ruleReadError (s : State) : Verdict :=
  match s.status.errors with
  | [] => .done s .done (errorPayload none 0)
  | e :: rest => .done (s.setStatus { s.status with errors := rest }) .done (errorPayload (some e) rest.length)

/-! ## Flow -/

/-- SET FLOW's own rule (R158): the watermarks are written and the flow state is judged at once against them. -/
def ruleSetFlow (p : List Byte) (s : State) : Verdict :=
  withOperands (setFlowOperands p) fun (high, low) =>
    let written := s.setRx { s.rx with high := high, low := low }
    .ok (match s.rx.flow with
      | .flowing => written.judgeRise
      | .paused => written.judgeFall)

/-! ## SYNC -/

/-- SYNC's own rule (R173). -/
def ruleSync (h : Header) (s : State) : Verdict :=
  match s.expander.queue.getLast? with
  | none => .ok s
  | some load =>
    if s.interp.syncs.length < Config.syncCapacity then
      .later (s.setInterp { s.interp with syncs := s.interp.syncs ++ [{ tag := h.tag, load := some load.slot }] })
    else .refuse .noSpace

/-! ## RESET -/

/-- The Track Sequencer after RESET (R131): any job is over, the plan is clear, the job record has its defaults; the
counts and each head's next track to cut are kept. -/
def Sequencer.afterReset (q : Sequencer) : Sequencer :=
  { q with
    job := .default
    plan := mapAll (fun _ _ => none) q.plan
    state := .idle, hold := false, retained := false, stalled := false
    heads := mapAll (fun _ i => { HeadItems.powerOn with next := i.next }) q.heads }

/-- A gradation slot after RESET (R36): EMPTY if it was EXPANDING, not bound. -/
def GradSlot.afterReset (g : GradSlot) : GradSlot :=
  { table := if g.table = .expanding then .empty else g.table, binds := 0 }

/-- RESET's own RESULT, with the loads removed and the SYNC entries discarded (R177). -/
def resetResult (tag : Tag) (loads syncs : Nat) : UpFrame :=
  resultFrame tag RecordKind.reset.code .done (le1 loads ++ le1 syncs)

/-- RESET (R175 to R177), as one event: any job is aborted (R131), what R176 lists is cleared, the event register last,
and the RESULT is placed alone in the Upstream Queue. -/
def State.softReset (s : State) (tag : Tag) : State :=
  let stopped := if s.seq.state.active then s.endJob .aborted else s
  let table := ((stopped.setScreens (mapAll (fun _ x => { x with binds := 0 }) stopped.screens)).setGrads
    (mapAll (fun _ g => g.afterReset) stopped.grads)).setExpander { queue := [], finished := false }
  let job := ((table.setSeq table.seq.afterReset).setLanes (mapAll (fun _ _ => none) table.lanes)).setMonitor
    table.monitor.afterReset
  let heads := job.mapPorts fun _ q => { q with lift := .lifted }.reread
  let gathered := (heads.setMarkCounter 0).setCaptures []
  let link := gathered.setRx { gathered.rx with fifo := [], flow := .flowing }
  let interp := link.setInterp { state := .free, syncs := [] }
  let status := interp.setStatus { events := 0, enable := 0, errors := [] }
  status.setTx
    { queue := [resetResult tag s.expander.queue.length s.interp.syncs.length], flowMark := none,
      announced := .flowing, room := mapAll (fun _ _ => false) status.tx.room, notice := false,
      sending := status.tx.sending }

/-- POWER_ON_RESET (R2): every piece of state takes its power-on value. The levels of the READY and ALARM lines are
inputs and stand as they were; the commands that wait, wait on. -/
def execPowerOnReset (s : State) : Host.Outcome State Fault Refusal :=
  .next (.powerOn (mapAll (fun _ q => q.readyLine) s.ports) (mapAll (fun _ q => q.alarmLine) s.ports) s.pending)

end Sys2Proof.Machine
end

