-- ==== Sys2Proof/Machine/TableRecords.lean ====
section
/-! DEFINITION. The records of the Table Store and the Expander: LOAD CURVE, LOAD TABLE, READ TABLE, CLEAR TABLE
(chapter 2), SET SCREEN and CLEAR SCREEN (R14, R15); and the completion of an expansion (R30 to R32) with the SYNC
answers that become due by it (R174). -/

namespace Sys2Proof.Machine

/-- Writes a gradation slot's state and table. -/
def State.setTable (s : State) (slot : Fin 16) (t : Table) : State :=
  s.setGrads (updAt s.grads slot fun g => { g with table := t })

/-- LOAD CURVE's own rule (R26 to R28). -/
def ruleLoadCurve (h : Header) (p : List Byte) (s : State) : Verdict :=
  withOperands (loadCurveOperands p) fun (slot, points) =>
    if s.grads[slot].binds ≠ 0 then .refuse .slotBound
    else if s.grads[slot].table = .expanding then .refuse .slotBusy
    else if Config.expansionCapacity ≤ s.expander.queue.length then .refuse .expanderFull
    else
      let load : Load := { slot := slot, points := points, notify := h.notify = 1, tag := h.tag }
      .later ((s.setTable slot .expanding).setExpander { s.expander with queue := s.expander.queue ++ [load] })

/-- LOAD TABLE's own rule (R33): depths over 1000 are clamped. -/
def ruleLoadTable (p : List Byte) (s : State) : Verdict :=
  withOperands (loadTableOperands p) fun (slot, depths) =>
    if s.grads[slot].binds ≠ 0 then .refuse .slotBound
    else if s.grads[slot].table = .expanding then .refuse .slotBusy
    else
      let code : Completion := if depths.any (Config.maxDepth < ·) then .doneClamped else .done
      .done (s.setTable slot (.ready (depths.map (min Config.maxDepth)))) code []

/-- READ TABLE's own rule (R34). -/
def ruleReadTable (p : List Byte) (s : State) : Verdict :=
  withOperands (tableSlotOperand p) fun slot =>
    match s.grads[slot].table with
    | .ready depths => .done s .done (depths.flatMap le2)
    | _ => .refuse .notReady

/-- CLEAR TABLE's own rule (R35). -/
def ruleClearTable (p : List Byte) (s : State) : Verdict :=
  withOperands (tableSlotOperand p) fun slot =>
    if s.grads[slot].binds ≠ 0 then .refuse .slotBound
    else if s.grads[slot].table = .expanding then .refuse .slotBusy
    else .ok (s.setTable slot .empty)

/-- Writes a screen slot's state and record. -/
def State.setScreen (s : State) (slot : Fin 8) (x : Option Screen) : State :=
  s.setScreens (updAt s.screens slot fun g => { g with screen := x })

/-- SET SCREEN's own rule (R14). -/
def ruleSetScreen (p : List Byte) (s : State) : Verdict :=
  withOperands (setScreenOperands p) fun (slot, x) =>
    if s.screens[slot].binds ≠ 0 then .refuse .slotBound else .ok (s.setScreen slot (some x))

/-- CLEAR SCREEN's own rule (R15). -/
def ruleClearScreen (p : List Byte) (s : State) : Verdict :=
  withOperands (screenSlotOperand p) fun slot =>
    if s.screens[slot].binds ≠ 0 then .refuse .slotBound else .ok (s.setScreen slot none)

/-! ## SYNC answers and the completion of an expansion -/

/-- Whether an outstanding SYNC is due (R174). -/
def SyncEntry.due (e : SyncEntry) : Bool := e.load = none

/-- The entries that name the load of a slot become due (R174). -/
def markDue (slot : Fin 16) (syncs : List SyncEntry) : List SyncEntry :=
  syncs.map fun e => if e.load = some slot then { e with load := none } else e

/-- The set without its first `n` due entries. -/
def dropDue : Nat → List SyncEntry → List SyncEntry
  | _, [] => []
  | 0, es => es
  | n + 1, e :: es => if e.due then dropDue n es else e :: dropDue (n + 1) es

/-- The RESULT that answers a SYNC (R174). -/
def syncResult (tag : Tag) : UpFrame := resultFrame tag RecordKind.sync.code .done []

/-- Places the due SYNC answers in the order of their arrival, as far as free entries allow (R174). -/
def State.placeDueSyncs (s : State) : State :=
  let fit := (s.interp.syncs.filter SyncEntry.due).take (Config.upstreamCapacity - s.tx.queue.length)
  (s.setTx { s.tx with queue := s.tx.queue ++ fit.map fun e => syncResult e.tag }).setInterp
    { s.interp with syncs := dropDue fit.length s.interp.syncs }

/-- The completion of the expansion in work (R31, R32): its slot is READY with the 256 entries, its DONE is placed if
its notify is set, and the SYNC entries that name it become due. The next load is in work by standing at the head. -/
def State.completeExpansion (s : State) : State :=
  match s.expander.queue with
  | [] => s
  | load :: rest =>
    let ready := (s.setTable load.slot (.ready (expandCurve load.points))).setExpander
      { queue := rest, finished := false }
    let answered :=
      if load.notify then ready.place (resultFrame load.tag RecordKind.loadCurve.code .done []) else ready
    answered.setInterp { answered.interp with syncs := markDue load.slot answered.interp.syncs }

/-- The computation of the expansion in work has finished (R32): the load completes, unless its notify is set and the
Upstream Queue is full; then the Expander waits. With no load in work nothing finishes. -/
def State.finishExpansion (s : State) : State :=
  match s.expander.queue with
  | [] => s
  | load :: _ =>
    if load.notify && !s.upstreamRoom then s.setExpander { s.expander with finished := true }
    else s.completeExpansion.placeDueSyncs

/-- EXPANSION_COMPLETE (R30 to R32, R174). -/
def execExpansionComplete (s : State) : Host.Outcome State Fault Refusal := .next (s.event State.finishExpansion)

end Sys2Proof.Machine
end

