-- ==== Sys2Proof/Machine/Interpreter.lean ====
section
/-! DEFINITION. The Record Interpreter's taking of a CTRL frame (R166 to R170), and the Frame Router that hands frames
on (R160). -/

namespace Sys2Proof.Machine

/-- A record's own rule, by its kind. RESET has none here: it is taken by `State.softReset` whatever the checks say
(R169, R175). -/
def ruleOf (k : RecordKind) (h : Header) (p : List Byte) (s : State) : Verdict :=
  match k with
  | .loadCurve => ruleLoadCurve h p s
  | .loadTable => ruleLoadTable p s
  | .readTable => ruleReadTable p s
  | .clearTable => ruleClearTable p s
  | .setScreen => ruleSetScreen p s
  | .clearScreen => ruleClearScreen p s
  | .setHead => ruleSetHead p s
  | .readHead => ruleReadHead p s
  | .stylusChange => ruleStylusChange p s
  | .clearFault => ruleClearFault p s
  | .setJob => ruleSetJob p s
  | .planHead => rulePlanHead p s
  | .clearPlan => ruleClearPlan p s
  | .arm => ruleArm s
  | .start => ruleStart s
  | .hold => ruleHold s
  | .resume => ruleResume p s
  | .abort => ruleAbort s
  | .setMarkCount => ruleSetMarkCount p s
  | .readTally => ruleReadTally p s
  | .defineCapture => ruleDefineCapture p s
  | .deleteCapture => ruleDeleteCapture p s
  | .listCaptures => ruleListCaptures s
  | .readCapture => ruleReadCapture h p s
  | .readStatus => ruleReadStatus s
  | .setEnable => ruleSetEnable p s
  | .readError => ruleReadError s
  | .setFlow => ruleSetFlow p s
  | .sync => ruleSync h s
  | .reset => .ok (s.softReset h.tag)

/-- The checks of R169 that every record passes before its own: length, then notify byte. -/
def checkedRule (k : RecordKind) (h : Header) (p : List Byte) (s : State) : Verdict :=
  if !k.lengthOk p then .refuse .badLength
  else if 1 < h.notify.toNat then .refuse .badValue
  else ruleOf k h p s

/-- A record other than RESET is executed and answered (R168 to R170). -/
def State.execute (s : State) (k : RecordKind) (h : Header) (p : List Byte) : State :=
  (checkedRule k h p s).conclude s k.code k.alwaysAnswered h

/-- The Interpreter takes a CTRL frame's body, in the event of its handing on. A body without a header posts
UNKNOWN_FRAME (R166), a kind outside the catalogue is refused with UNKNOWN_KIND (R169), RESET acts (R175), and any
other record is executed. The conditions that rose latch their events, but for RESET, which clears the register after
its other actions (R176). -/
def State.interpret (s : State) (before : State) (body : List Byte) : State :=
  match body with
  | kind :: notify :: t0 :: t1 :: params =>
    let h : Header := { notify := notify, tag := t1 ++ t0 }
    match RecordKind.ofCode kind with
    | none => before.latch ((Verdict.refuse .unknownKind).conclude s kind false h)
    | some .reset => s.softReset h.tag
    | some k => before.latch (s.execute k h params)
  | _ => before.latch (s.post .unknownFrame)

/-! ## The Frame Router -/

/-- Whether a frame counts as a RESET for the Router: it holds a whole header with the RESET kind (R160). -/
def Frame.isReset (f : Frame) : Bool :=
  f.kind = .ctrl ∧ 4 ≤ f.body.length ∧ f.body.head? = some RecordKind.reset.code

/-- Whether the Router may hand a frame on from the head of the FIFO (R160): a CELL frame at once, a CTRL frame when
the Interpreter is not busy, a RESET always. -/
def State.mayHandOn (s : State) (f : Frame) : Bool := f.kind = .cell || !s.busy || f.isReset

/-- The frame at the head of the FIFO is handed on, as one event (R160): it leaves the FIFO, and the block that its kind
names takes it. -/
def State.handOn (s : State) (f : Frame) : State :=
  match f.kind with
  | .cell => s.latch (s.leaveIntake.takeCells f.body)
  | .ctrl => s.leaveIntake.interpret s f.body

/-- Hands on frames from the head of the FIFO, in order, at most `n` of them and until one has to wait. -/
def State.handOnUpTo : Nat → State → State
  | 0, s => s
  | n + 1, s =>
    match s.rx.fifo with
    | [] => s
    | f :: _ => if s.mayHandOn f then State.handOnUpTo n (s.handOn f) else s

/-- The event at which the Interpreter ceases to be busy hands on the CTRL frame that waits at the head (R160).
`before` is the state before the event. -/
def State.handOnIfFreed (s before : State) : State :=
  match s.rx.fifo with
  | f :: _ => if before.busy && !s.busy && decide (f.kind = .ctrl) then s.handOn f else s
  | [] => s

/-- The frame that a command names is handed on. If it stands at the head of the FIFO, this is its handing on, or its
waiting there while it may not be handed on; the link's being down does not hinder it (R159). If it does not, it is
received now, whole and good, as a frame of its bytes would be (R154, R155), and the Router hands on the frames before
it and then it, in order, until one has to wait (R160; log entry 2). While LINK_DOWN is set nothing is received, and
nothing changes (R159; log entry 6). -/
def State.deliver (s : State) (f : Frame) : State :=
  if s.rx.fifo.head? = some f then State.handOnUpTo 1 s
  else if s.rx.down then s
  else if Config.maxBody < f.body.length then s.event fun t => t.post .frameCheck
  else
    let joined := s.event fun t => t.joinIntake f
    if f.size ≤ Config.intakeCapacity - s.fill then State.handOnUpTo joined.rx.fifo.length joined else joined

end Sys2Proof.Machine
end

