-- ==== Sys2Proof/Machine/RecordCommands.lean ====
section
/-! DEFINITION. The commands that hand a frame on (R160): CELL_FRAME, CTRL_FRAME_NO_HEADER, UNKNOWN_KIND and one for each
control record. Each names its frame; the record's own rule stands with its family, and `State.interpret` runs it. -/

namespace Sys2Proof.Machine

/-- CELL_FRAME (R84 to R92, R160). -/
def execCellFrame (body : List Byte) (s : State) : Host.Outcome State Fault Refusal :=
  .next (s.deliver { kind := .cell, body := body })

/-- CTRL_FRAME_NO_HEADER (R160, R166). -/
def execCtrlFrameNoHeader (body : List Byte) (s : State) : Host.Outcome State Fault Refusal :=
  .next (s.deliver { kind := .ctrl, body := body })

/-- UNKNOWN_KIND (R169, R170). -/
def execUnknownKind (kind : Byte) (h : Header) (p : List Byte) (s : State) : Host.Outcome State Fault Refusal :=
  .next (s.deliver { kind := .ctrl, body := recordBody kind h p })

/-- LOAD_CURVE (R26 to R28). -/
def execLoadCurve (h : Header) (p : List Byte) (s : State) : Host.Outcome State Fault Refusal :=
  .next (s.deliver (recordFrame .loadCurve h p))

/-- LOAD_TABLE (R33). -/
def execLoadTable (h : Header) (p : List Byte) (s : State) : Host.Outcome State Fault Refusal :=
  .next (s.deliver (recordFrame .loadTable h p))

/-- READ_TABLE (R34). -/
def execReadTable (h : Header) (p : List Byte) (s : State) : Host.Outcome State Fault Refusal :=
  .next (s.deliver (recordFrame .readTable h p))

/-- CLEAR_TABLE (R35). -/
def execClearTable (h : Header) (p : List Byte) (s : State) : Host.Outcome State Fault Refusal :=
  .next (s.deliver (recordFrame .clearTable h p))

/-- SET_SCREEN (R14). -/
def execSetScreen (h : Header) (p : List Byte) (s : State) : Host.Outcome State Fault Refusal :=
  .next (s.deliver (recordFrame .setScreen h p))

/-- CLEAR_SCREEN (R15). -/
def execClearScreen (h : Header) (p : List Byte) (s : State) : Host.Outcome State Fault Refusal :=
  .next (s.deliver (recordFrame .clearScreen h p))

/-- SET_HEAD (R61, R62). -/
def execSetHead (h : Header) (p : List Byte) (s : State) : Host.Outcome State Fault Refusal :=
  .next (s.deliver (recordFrame .setHead h p))

/-- READ_HEAD (R63). -/
def execReadHead (h : Header) (p : List Byte) (s : State) : Host.Outcome State Fault Refusal :=
  .next (s.deliver (recordFrame .readHead h p))

/-- STYLUS_CHANGE (R65). -/
def execStylusChange (h : Header) (p : List Byte) (s : State) : Host.Outcome State Fault Refusal :=
  .next (s.deliver (recordFrame .stylusChange h p))

/-- CLEAR_FAULT (R78). -/
def execClearFault (h : Header) (p : List Byte) (s : State) : Host.Outcome State Fault Refusal :=
  .next (s.deliver (recordFrame .clearFault h p))

/-- SET_JOB (R104). -/
def execSetJob (h : Header) (p : List Byte) (s : State) : Host.Outcome State Fault Refusal :=
  .next (s.deliver (recordFrame .setJob h p))

/-- PLAN_HEAD (R106). -/
def execPlanHead (h : Header) (p : List Byte) (s : State) : Host.Outcome State Fault Refusal :=
  .next (s.deliver (recordFrame .planHead h p))

/-- CLEAR_PLAN (R107). -/
def execClearPlan (h : Header) (p : List Byte) (s : State) : Host.Outcome State Fault Refusal :=
  .next (s.deliver (recordFrame .clearPlan h p))

/-- ARM (R110, R111). -/
def execArm (h : Header) (p : List Byte) (s : State) : Host.Outcome State Fault Refusal :=
  .next (s.deliver (recordFrame .arm h p))

/-- START (R112). -/
def execStart (h : Header) (p : List Byte) (s : State) : Host.Outcome State Fault Refusal :=
  .next (s.deliver (recordFrame .start h p))

/-- HOLD (R126). -/
def execHold (h : Header) (p : List Byte) (s : State) : Host.Outcome State Fault Refusal :=
  .next (s.deliver (recordFrame .hold h p))

/-- RESUME (R127). -/
def execResume (h : Header) (p : List Byte) (s : State) : Host.Outcome State Fault Refusal :=
  .next (s.deliver (recordFrame .resume h p))

/-- ABORT (R130). -/
def execAbort (h : Header) (p : List Byte) (s : State) : Host.Outcome State Fault Refusal :=
  .next (s.deliver (recordFrame .abort h p))

/-- SET_MARK_COUNT (R140). -/
def execSetMarkCount (h : Header) (p : List Byte) (s : State) : Host.Outcome State Fault Refusal :=
  .next (s.deliver (recordFrame .setMarkCount h p))

/-- READ_TALLY (R137). -/
def execReadTally (h : Header) (p : List Byte) (s : State) : Host.Outcome State Fault Refusal :=
  .next (s.deliver (recordFrame .readTally h p))

/-- DEFINE_CAPTURE (R143). -/
def execDefineCapture (h : Header) (p : List Byte) (s : State) : Host.Outcome State Fault Refusal :=
  .next (s.deliver (recordFrame .defineCapture h p))

/-- DELETE_CAPTURE (R149). -/
def execDeleteCapture (h : Header) (p : List Byte) (s : State) : Host.Outcome State Fault Refusal :=
  .next (s.deliver (recordFrame .deleteCapture h p))

/-- LIST_CAPTURES (R150). -/
def execListCaptures (h : Header) (p : List Byte) (s : State) : Host.Outcome State Fault Refusal :=
  .next (s.deliver (recordFrame .listCaptures h p))

/-- READ_CAPTURE (R151). -/
def execReadCapture (h : Header) (p : List Byte) (s : State) : Host.Outcome State Fault Refusal :=
  .next (s.deliver (recordFrame .readCapture h p))

/-- READ_STATUS (R182). -/
def execReadStatus (h : Header) (p : List Byte) (s : State) : Host.Outcome State Fault Refusal :=
  .next (s.deliver (recordFrame .readStatus h p))

/-- SET_ENABLE (R182). -/
def execSetEnable (h : Header) (p : List Byte) (s : State) : Host.Outcome State Fault Refusal :=
  .next (s.deliver (recordFrame .setEnable h p))

/-- READ_ERROR (R184). -/
def execReadError (h : Header) (p : List Byte) (s : State) : Host.Outcome State Fault Refusal :=
  .next (s.deliver (recordFrame .readError h p))

/-- SET_FLOW (R158). -/
def execSetFlow (h : Header) (p : List Byte) (s : State) : Host.Outcome State Fault Refusal :=
  .next (s.deliver (recordFrame .setFlow h p))

/-- SYNC (R173). -/
def execSync (h : Header) (p : List Byte) (s : State) : Host.Outcome State Fault Refusal :=
  .next (s.deliver (recordFrame .sync h p))

/-- RESET (R175 to R177). -/
def execReset (h : Header) (p : List Byte) (s : State) : Host.Outcome State Fault Refusal :=
  .next (s.deliver (recordFrame .reset h p))

end Sys2Proof.Machine
end

