-- ==== Sys2Proof/Machine/Upstream.lean ====
section
/-! DEFINITION. The Cell Link's own steps: frames received whole (R154), loss and return of synchronization (R159), the
Upstream Transmitter's choice and the claims on a freed entry of its queue (R162, R163, R172), and the commands
FRAME_RECEIVED, LINK_SYNC_LOST, LINK_SYNC_GAINED, UPSTREAM_SEND_BEGIN, UPSTREAM_SEND_END, RESULT_PLACED,
SYNC_ANSWER_PLACED and CAPTURE_DATA_PLACED. -/

namespace Sys2Proof.Machine

/-! ## The Link Receiver -/

/-- The Link Receiver judges a frame received whole, and queues or drops it (R154). -/
def State.receive (s : State) (bytes : List Byte) : State :=
  match judgeBytes bytes with
  | .ok f => s.joinIntake f
  | .error code => s.post code

/-- FRAME_RECEIVED (R152 to R156). While LINK_DOWN is set no frame is received whole: one under way is abandoned,
joins no queue and posts no error (R159). -/
def execFrameReceived (bytes : List Byte) (s : State) : Host.Outcome State Fault Refusal :=
  .next (if s.rx.down then s else s.event fun t => t.receive bytes)

/-- LINK_SYNC_LOST (R159). -/
def execLinkSyncLost (s : State) : Host.Outcome State Fault Refusal :=
  .next (s.event fun t => t.setRx { t.rx with down := true })

/-- LINK_SYNC_GAINED (R159). -/
def execLinkSyncGained (s : State) : Host.Outcome State Fault Refusal :=
  .next (s.event fun t => t.setRx { t.rx with down := false })

/-! ## The Upstream Transmitter's choice (R163) -/

/-- A flow mark's body (R157, R188). -/
def flowMarkBody : FlowState → List Byte
  | .paused => [0, 1, 0]
  | .flowing => [0, 2, 0]

/-- A ROOM mark's body for a lane, with its FREE slots as they stand (R102, R188). -/
def roomMarkBody (l : Lane) : List Byte := [1, l.tag] ++ le1 l.freeSlots

/-- A NOTICE body: the conditions and the event register as they stand (R163, R181, R188). -/
def State.noticeBody (s : State) : List Byte := [s.conditions] ++ le2 s.status.events.toNat

/-- The lowest-numbered head with a pending ROOM mark, with its lane (R163). A mark is pending only while its lane is
OPEN (R102). -/
def State.roomChoice (s : State) : Option (HeadNo × Lane) :=
  allHeads.findSome? fun h => if s.tx.room[h] then s.lanes[h].map fun l => (h, l) else none

/-- The frame that the Transmitter chooses, with the state once that frame has left its source; none if no source has
anything (R157, R102, R181, R162, R163). -/
def State.chooseFrame (s : State) : Option (UpFrame × State) :=
  match s.tx.flowMark with
  | some f => some ({ kind := .mark, body := flowMarkBody f }, s.setTx { s.tx with flowMark := none, announced := f })
  | none =>
    match s.roomChoice with
    | some (h, l) =>
      some ({ kind := .mark, body := roomMarkBody l }, s.setTx { s.tx with room := updAt s.tx.room h fun _ => false })
    | none =>
      if s.tx.notice then
        some ({ kind := .notice, body := s.noticeBody }, s.setTx { s.tx with notice := false })
      else match s.tx.queue with
      | f :: rest => some (f, s.setTx { s.tx with queue := rest })
      | [] => none

/-! ## Claims on a freed entry (R162, R172) -/

/-- The Expander's waiting completion takes place if an entry is free (R32). -/
def State.claimExpansion (s : State) : State :=
  if s.expander.finished && s.upstreamRoom then s.completeExpansion else s

/-- The Interpreter's waiting frame is placed if an entry is free (R172). -/
def State.claimInterpreter (s : State) : State :=
  if s.upstreamRoom then
    match s.interp.state with
    | .waiting f => (s.place f).setInterp { s.interp with state := .free }
    | .waitingReadback rb => s.placeReadback rb
    | _ => s
  else s

/-- The claims on the free entries, in the order of R172: the Expander's completion, the due SYNC answers, the
Interpreter's frame. -/
def State.grantEntries (s : State) : State := s.claimExpansion.placeDueSyncs.claimInterpreter

/-- The action of a choice of the Transmitter, in the state in which the link is free: the chosen frame is being sent,
and claims that wait take the entry that it freed. -/
def State.beginSending (s : State) : State :=
  match s.chooseFrame with
  | some (f, t) => (t.setTx { t.tx with sending := some f }).grantEntries
  | none => s

/-- Whether the link is free (R163). -/
def State.linkFree (s : State) : Bool := s.tx.sending.isNone && !s.rx.down

/-- The event at which the Transmitter begins to send, less the handing on that the freeing of the Interpreter brings. -/
def State.sendEvent (s : State) : State := if s.linkFree then s.event State.beginSending else s

/-- The event at which the Transmitter begins to send (R163); if it frees the Interpreter, the CTRL frame that waits is
handed on (R160). -/
def State.sendBegin (s : State) : State := s.sendEvent.handOnIfFreed s

/-- UPSTREAM_SEND_BEGIN (R162, R163, R172). -/
def execUpstreamSendBegin (s : State) : Host.Outcome State Fault Refusal := .next s.sendBegin

/-- UPSTREAM_SEND_END (R163). -/
def execUpstreamSendEnd (s : State) : Host.Outcome State Fault Refusal :=
  .next (s.setTx { s.tx with sending := none })

/-- Whether the Interpreter waits with the RESULT of a record (R167). -/
def InterpState.holdsResult : InterpState → Bool
  | .waiting _ => true
  | _ => false

/-- Whether the Interpreter waits with a frame of a readback (R167). -/
def InterpState.holdsReadback : InterpState → Bool
  | .waitingReadback _ => true
  | _ => false

/-- RESULT_PLACED (R172): the choice of the Transmitter that frees the entry for the RESULT of a WAITING Interpreter, in
a state in which its next choice does. -/
def execResultPlaced (s : State) : Host.Outcome State Fault Refusal :=
  .next (if s.interp.state.holdsResult && !s.sendEvent.interp.state.holdsResult then s.sendBegin else s)

/-- SYNC_ANSWER_PLACED (R174): the choice of the Transmitter that frees the entry for a due SYNC answer, in a state in
which one is due and the next choice does. -/
def execSyncAnswerPlaced (s : State) : Host.Outcome State Fault Refusal :=
  .next (if s.interp.syncs.any SyncEntry.due && decide (s.sendEvent.interp.syncs.length < s.interp.syncs.length)
    then s.sendBegin else s)

/-- A STREAMING readback comes to its next frame (R151, R172): it is placed if an entry is free, and otherwise the
Interpreter is WAITING with it. -/
def State.streamFrame (s : State) (rb : Readback) : State :=
  if s.upstreamRoom then s.placeReadback rb else s.setInterp { s.interp with state := .waitingReadback rb }

/-- CAPTURE_DATA_PLACED (R151, R160, R172): a STREAMING readback comes to its next frame; one that waits at a full
queue has its frame placed by the choice of the Transmitter that frees its entry. The placing of its RESULT frees the
Interpreter, and the CTRL frame that waits is handed on. -/
def execCaptureDataPlaced (s : State) : Host.Outcome State Fault Refusal :=
  .next (match s.interp.state with
    | .streaming rb => (s.event fun t => t.streamFrame rb).handOnIfFreed s
    | .waitingReadback _ => if !s.sendEvent.interp.state.holdsReadback then s.sendBegin else s
    | _ => s)

end Sys2Proof.Machine
end

