-- ==== Sys2Proof/Machine/Dispatch.lean ====
section
/-! DEFINITION. The dispatch: one arm for each command. -/

namespace Sys2Proof.Machine

open Sys2Proof

def exec (i : Instr) (s : State) : Host.Outcome State Fault Refusal :=
  match i with
  | .powerOnReset => Sys2Proof.Machine.execPowerOnReset s
  | .tick => Sys2Proof.Machine.execTick s
  | .index => Sys2Proof.Machine.execIndex s
  | .internalTickGenerator => Sys2Proof.Machine.execInternalTickGenerator s
  | .indexLost => Sys2Proof.Machine.execIndexLost s
  | .stall p => Sys2Proof.Machine.execStall p s
  | .markStop p => Sys2Proof.Machine.execMarkStop p s
  | .alarmLineChange h high => Sys2Proof.Machine.execAlarmLineChange h high s
  | .readyLineChange h high => Sys2Proof.Machine.execReadyLineChange h high s
  | .linkSyncLost => Sys2Proof.Machine.execLinkSyncLost s
  | .linkSyncGained => Sys2Proof.Machine.execLinkSyncGained s
  | .frameReceived bytes => Sys2Proof.Machine.execFrameReceived bytes s
  | .cellFrame body => Sys2Proof.Machine.execCellFrame body s
  | .ctrlFrameNoHeader body => Sys2Proof.Machine.execCtrlFrameNoHeader body s
  | .unknownKind kind hdr params => Sys2Proof.Machine.execUnknownKind kind hdr params s
  | .loadCurve hdr params => Sys2Proof.Machine.execLoadCurve hdr params s
  | .expansionComplete => Sys2Proof.Machine.execExpansionComplete s
  | .loadTable hdr params => Sys2Proof.Machine.execLoadTable hdr params s
  | .readTable hdr params => Sys2Proof.Machine.execReadTable hdr params s
  | .clearTable hdr params => Sys2Proof.Machine.execClearTable hdr params s
  | .setScreen hdr params => Sys2Proof.Machine.execSetScreen hdr params s
  | .clearScreen hdr params => Sys2Proof.Machine.execClearScreen hdr params s
  | .setHead hdr params => Sys2Proof.Machine.execSetHead hdr params s
  | .readHead hdr params => Sys2Proof.Machine.execReadHead hdr params s
  | .stylusChange hdr params => Sys2Proof.Machine.execStylusChange hdr params s
  | .clearFault hdr params => Sys2Proof.Machine.execClearFault hdr params s
  | .setJob hdr params => Sys2Proof.Machine.execSetJob hdr params s
  | .planHead hdr params => Sys2Proof.Machine.execPlanHead hdr params s
  | .clearPlan hdr params => Sys2Proof.Machine.execClearPlan hdr params s
  | .arm hdr params => Sys2Proof.Machine.execArm hdr params s
  | .start hdr params => Sys2Proof.Machine.execStart hdr params s
  | .hold hdr params => Sys2Proof.Machine.execHold hdr params s
  | .resume hdr params => Sys2Proof.Machine.execResume hdr params s
  | .abort hdr params => Sys2Proof.Machine.execAbort hdr params s
  | .setMarkCount hdr params => Sys2Proof.Machine.execSetMarkCount hdr params s
  | .readTally hdr params => Sys2Proof.Machine.execReadTally hdr params s
  | .defineCapture hdr params => Sys2Proof.Machine.execDefineCapture hdr params s
  | .deleteCapture hdr params => Sys2Proof.Machine.execDeleteCapture hdr params s
  | .listCaptures hdr params => Sys2Proof.Machine.execListCaptures hdr params s
  | .readCapture hdr params => Sys2Proof.Machine.execReadCapture hdr params s
  | .captureDataPlaced => Sys2Proof.Machine.execCaptureDataPlaced s
  | .readStatus hdr params => Sys2Proof.Machine.execReadStatus hdr params s
  | .setEnable hdr params => Sys2Proof.Machine.execSetEnable hdr params s
  | .readError hdr params => Sys2Proof.Machine.execReadError hdr params s
  | .setFlow hdr params => Sys2Proof.Machine.execSetFlow hdr params s
  | .sync hdr params => Sys2Proof.Machine.execSync hdr params s
  | .syncAnswerPlaced => Sys2Proof.Machine.execSyncAnswerPlaced s
  | .reset hdr params => Sys2Proof.Machine.execReset hdr params s
  | .resultPlaced => Sys2Proof.Machine.execResultPlaced s
  | .upstreamSendBegin => Sys2Proof.Machine.execUpstreamSendBegin s
  | .upstreamSendEnd => Sys2Proof.Machine.execUpstreamSendEnd s

end Sys2Proof.Machine
end

