-- ==== Sys2Proof/Safety.lean ====
section
/-! DEFINITION. What a sound state of the JS-8 is: the laws that the manual says hold at all times, each as a predicate on
states that every step keeps. -/

namespace Sys2Proof.Machine

/-- The capacities of the part's queues are kept (R29, R142, R155, R162, R173). -/
def State.QueuesBounded (s : State) : Prop :=
  s.tx.queue.length ≤ Config.upstreamCapacity ∧ s.expander.queue.length ≤ Config.expansionCapacity ∧
  s.interp.syncs.length ≤ Config.syncCapacity ∧ s.fill ≤ Config.intakeCapacity ∧
  reservedOf s.captures ≤ Config.captureMemory

/-- The Error Queue holds at most 32 entries, and no entry before its newest is QUEUE_OVERFLOW (R183). -/
def State.ErrorsFormed (s : State) : Prop :=
  s.status.errors.length ≤ Config.errorCapacity ∧
  ∀ e ∈ s.status.errors.dropLast, e.code ≠ .queueOverflow

/-- A STATUS notice is pending only while the summary is 1 (R181). -/
def State.NoticeBacked (s : State) : Prop := s.tx.notice = true → s.summary = true

/-- The pending flow mark is present exactly when the flow state is not the one last announced, and names the current
flow state (R157). -/
def State.FlowMarkExact (s : State) : Prop :=
  s.tx.flowMark = if s.rx.flow = s.tx.announced then none else some s.rx.flow

/-- Each normalized input is what its line and polarity give (R66). -/
def State.InputsNormalized (s : State) : Prop :=
  ∀ h : HeadNo, s.ports[h].ready = normalized s.ports[h].cal.readyPolarity s.ports[h].readyLine ∧
    s.ports[h].alarm = normalized s.ports[h].cal.alarmPolarity s.ports[h].alarmLine

/-- The Monitor's count lies below 2E and is 0 while it is UNSYNCED, and E lies in its range in the Monitor and in the
job record (R2, R5, R8, R103). -/
def State.CountInRange (s : State) : Prop :=
  s.monitor.count < 2 * s.monitor.e ∧ (s.monitor.sync = .unsynced → s.monitor.count = 0) ∧
  (1024 ≤ s.monitor.e ∧ s.monitor.e ≤ 1048576) ∧ (1024 ≤ s.seq.job.e ∧ s.seq.job.e ≤ 1048576) ∧
  s.monitor.genNext < s.monitor.e

/-- Every slot's bind count is the number of planned heads of the armed job that name it, and 0 while no job is armed,
running or holding (R16, R24). -/
def State.BindsExact (s : State) : Prop :=
  (∀ i : Fin 8, s.screens[i].binds =
    if s.seq.state.active then plannedHeads s.seq.plan (fun e => e.screen = i) else 0) ∧
  (∀ i : Fin 16, s.grads[i].binds =
    if s.seq.state.active then plannedHeads s.seq.plan (fun e => e.grad = i) else 0)

/-- A bound slot is READY (R16, R24). -/
def State.BoundReady (s : State) : Prop :=
  (∀ i : Fin 8, s.screens[i].binds ≠ 0 → s.screens[i].screen.isSome = true) ∧
  (∀ i : Fin 16, s.grads[i].binds ≠ 0 → ∃ depths, s.grads[i].table = .ready depths)

/-- A gradation slot is EXPANDING exactly when the Expansion Queue has a load for it, no slot has two loads, and every
outstanding SYNC that is not due names a load of the queue (R29, R173). -/
def State.ExpansionExact (s : State) : Prop :=
  (∀ i : Fin 16, s.grads[i].table = .expanding ↔ i ∈ s.expander.queue.map Load.slot) ∧
  (s.expander.queue.map Load.slot).Nodup ∧
  ∀ e ∈ s.interp.syncs, ∀ i, e.load = some i → i ∈ s.expander.queue.map Load.slot

/-- Outside an armed, running or holding job every head is OUT, and a head is ENGAGED only while CUTTING in a CUT job
(R68, R109, R129). -/
def State.EngagedOnlyCutting (s : State) : Prop :=
  (s.seq.state.active = false → ∀ h : HeadNo, s.seq.heads[h].state = .out) ∧
  ∀ h : HeadNo, s.ports[h].lift ≠ .lifted → s.cutting h = true ∧ s.seq.job.mode = .cut

/-- Every rest code, every code an ENGAGED head presents and every code presented for a stroke lies in 0..4095, so every
value that DRIVE presents does (R52, R60, R70, R71). -/
def State.DriveInRange (s : State) : Prop :=
  ∀ h : HeadNo, s.ports[h].cal.rest ≤ 4095 ∧ s.ports[h].driveLine ≤ 4095 ∧ s.ports[h].strokeCode ≤ 4095

/-- The captures of the list have distinct ids, each holds no more entries than it reserves, and one that is not FULL
has room for its next entry (R142, R146). -/
def State.CapturesFormed (s : State) : Prop :=
  (s.captures.map Capture.id).Nodup ∧
  ∀ c ∈ s.captures, (1 ≤ c.id ∧ c.id ≤ 8) ∧ c.entries.length ≤ c.length ∧
    (c.state ≠ .full → c.entries.length < c.length)

/-- A hold request stands only in a running job (R125). -/
def State.HoldOnlyRunning (s : State) : Prop := s.seq.hold = true → s.seq.state = .running

/-- A lane is OPEN only for a planned head of an armed, running or holding job, carries that head's lane tag and track
count, and a ROOM mark is pending only for an OPEN lane (R79 to R81, R101, R102). -/
def State.LanesPlanned (s : State) : Prop :=
  ∀ h : HeadNo,
    (∀ l, s.lanes[h] = some l → s.seq.state.active = true ∧
      (s.seq.plan[h]).map (fun e => (e.tag, e.tracks)) = some (l.tag, l.tracks)) ∧
    (s.tx.room[h] = true → s.lanes[h].isSome = true)

/-- The saturating and wrapping counts stay within their widths: the revolution counter (R2), the strike counters (R64), the
two idle counts (R108), the tallies' job sums and counts (R133) and the mark counter (R138). The carriage-advance count
neither saturates nor wraps, and is not among them (log entry 25). -/
def State.CountsInRange (s : State) : Prop :=
  s.markCounter ≤ Config.max32 ∧ s.monitor.revolutions ≤ Config.max32 ∧ s.seq.idle ≤ Config.max32 ∧
  s.seq.consecutiveIdle ≤ Config.max32 ∧
  ∀ h : HeadNo, s.ports[h].strikes ≤ Config.max32 ∧ s.tallies[h].job ≤ Config.max48 ∧
    s.tallies[h].cut ≤ Config.max32 ∧ s.tallies[h].uncut ≤ Config.max32 ∧
    s.tallies[h].depthClamps ≤ Config.max32 ∧ s.tallies[h].driveClamps ≤ Config.max32

/-- How far each head of a job in hand has come (R105, R109): it is planned unless it is OUT, its next track to cut is at most
its track count, and below it while it has a track to cut; only a WAITING or FAULTED head has an interrupted track, a
track just cut is one that the head has passed and that no repair waits for, and an ARMED job has cut nothing. -/
def State.TracksInRange (s : State) : Prop :=
  ∀ h : HeadNo, let i := s.seq.heads[h]
    i.next ≤ 65535 ∧ (∀ e, s.seq.plan[h] = some e → 1 ≤ e.tracks ∧ e.tracks ≤ 65535) ∧
    (s.seq.state.active = true →
      (i.state ≠ .out → ∃ e, s.seq.plan[h] = some e ∧ i.next ≤ e.tracks ∧
        (i.state = .armed ∨ i.state = .waiting ∨ i.isCutting = true ∨ i.interrupted = true → i.next < e.tracks)) ∧
      (i.interrupted = true → i.state = .waiting ∨ i.state = .faulted) ∧
      (i.justCut.isSome = true → 1 ≤ i.next ∧ i.interrupted = false ∧
        (i.state = .waiting ∨ i.state = .finished ∨ i.state = .faulted)) ∧
      (s.seq.state = .armed → i.interrupted = false ∧ i.justCut = none ∧ i.isCutting = false))

/-- The two track sums lie in 0..32,768,000 (R133), because a track has at most 32,768 cells (R13), each adds at most 1000
(R50, R60), and a CUTTING head has struck the cells below its next cell and no other (R122, R135). -/
def State.TrackSumsInRange (s : State) : Prop :=
  (∀ (i : Fin 8) (x : Screen), s.screens[i].screen = some x → 1 ≤ x.cells ∧ x.cells ≤ 32768) ∧
  ∀ h : HeadNo, s.ports[h].cal.maxDepth ≤ 1000 ∧
    s.tallies[h].currentTrack ≤ 32768000 ∧ s.tallies[h].lastTrack ≤ 32768000 ∧
    ∀ j, s.seq.heads[h].state = .cutting j →
      s.tallies[h].currentTrack ≤ 1000 * j ∧
      ∀ e x, s.seq.plan[h] = some e → s.screens[e.screen].screen = some x → j < x.cells

/-- A claim on an entry of the Upstream Queue waits only while the queue is full: a completion of the Expander, whose load
is still queued, a RESULT or readback frame of the Interpreter, and a due SYNC answer (R32, R162, R172, R174). -/
def State.ClaimsWait (s : State) : Prop :=
  (s.expander.finished = true → s.expander.queue ≠ [] ∧ Config.upstreamCapacity ≤ s.tx.queue.length) ∧
  (s.interp.state.holdsResult = true ∨ s.interp.state.holdsReadback = true →
    Config.upstreamCapacity ≤ s.tx.queue.length) ∧
  ∀ e ∈ s.interp.syncs, e.load = none → Config.upstreamCapacity ≤ s.tx.queue.length

/-- The laws of the link, the Interpreter, the Expander and the Status Unit together. -/
def LinkLaws (s : State) : Prop :=
  s.QueuesBounded ∧ s.ErrorsFormed ∧ s.NoticeBacked ∧ s.FlowMarkExact ∧ s.ClaimsWait ∧ s.ExpansionExact

/-- The laws of the job, its binds, heads and lanes, and of the Encoder Monitor together. -/
def JobLaws (s : State) : Prop :=
  s.BindsExact ∧ s.BoundReady ∧ s.EngagedOnlyCutting ∧ s.HoldOnlyRunning ∧ s.LanesPlanned ∧ s.CountInRange

/-- The laws of the inputs, the DRIVE codes, the captures and the counts together. -/
def RangeLaws (s : State) : Prop :=
  s.InputsNormalized ∧ s.DriveInRange ∧ s.CapturesFormed ∧ s.CountsInRange

/-- The laws of how far the cylinder, the heads and their tracks have come, which rest on the job's laws: the last revolution
length is at most twice the greatest E, which was in force at some ARM (R2), and the tracks and track sums are in range. -/
def TrackLaws (s : State) : Prop :=
  s.monitor.lastLength ≤ 2 * 1048576 ∧ s.TracksInRange ∧ s.TrackSumsInRange

end Sys2Proof.Machine
end

