-- ==== Sys2Proof/WellFormed.lean ====
section
/-! DEFINITION. When the operands of a command are those of the event that its row names. `exec` gives every command a
meaning, the ill-formed ones too: a frame that is too long is dropped (R154), and a frame that is another record's
is taken as that record. -/

namespace Sys2Proof

open Sys2Proof.Machine

/-- Largest number of parameter bytes of a record: the largest body less the header (R152, R166). -/
abbrev maxParams : Nat := 4092

/-- Whether the operands of a command are those of its row. A STALL comes about at an index, so not at a TICK (R121). A
CTRL frame without a header has fewer than four bytes (R166). An unknown kind is in no row of the catalogue (R169). A
body has at most 4,096 bytes (R152). -/
def Instr.wellFormed : Instr → Bool
  | .powerOnReset => true
  | .tick => true
  | .index => true
  | .internalTickGenerator => true
  | .indexLost => true
  | .stall p => p ≠ .tick
  | .markStop _ => true
  | .alarmLineChange _ _ => true
  | .readyLineChange _ _ => true
  | .linkSyncLost => true
  | .linkSyncGained => true
  | .frameReceived _ => true
  | .cellFrame body => body.length ≤ Config.maxBody
  | .ctrlFrameNoHeader body => body.length < 4
  | .unknownKind kind _ p => (RecordKind.ofCode kind).isNone && decide (p.length ≤ maxParams)
  | .loadCurve _ p => p.length ≤ maxParams
  | .expansionComplete => true
  | .loadTable _ p => p.length ≤ maxParams
  | .readTable _ p => p.length ≤ maxParams
  | .clearTable _ p => p.length ≤ maxParams
  | .setScreen _ p => p.length ≤ maxParams
  | .clearScreen _ p => p.length ≤ maxParams
  | .setHead _ p => p.length ≤ maxParams
  | .readHead _ p => p.length ≤ maxParams
  | .stylusChange _ p => p.length ≤ maxParams
  | .clearFault _ p => p.length ≤ maxParams
  | .setJob _ p => p.length ≤ maxParams
  | .planHead _ p => p.length ≤ maxParams
  | .clearPlan _ p => p.length ≤ maxParams
  | .arm _ p => p.length ≤ maxParams
  | .start _ p => p.length ≤ maxParams
  | .hold _ p => p.length ≤ maxParams
  | .resume _ p => p.length ≤ maxParams
  | .abort _ p => p.length ≤ maxParams
  | .setMarkCount _ p => p.length ≤ maxParams
  | .readTally _ p => p.length ≤ maxParams
  | .defineCapture _ p => p.length ≤ maxParams
  | .deleteCapture _ p => p.length ≤ maxParams
  | .listCaptures _ p => p.length ≤ maxParams
  | .readCapture _ p => p.length ≤ maxParams
  | .captureDataPlaced => true
  | .readStatus _ p => p.length ≤ maxParams
  | .setEnable _ p => p.length ≤ maxParams
  | .readError _ p => p.length ≤ maxParams
  | .setFlow _ p => p.length ≤ maxParams
  | .sync _ p => p.length ≤ maxParams
  | .syncAnswerPlaced => true
  | .reset _ p => p.length ≤ maxParams
  | .resultPlaced => true
  | .upstreamSendBegin => true
  | .upstreamSendEnd => true

end Sys2Proof
end

