-- ==== Sys2Proof/Certificates/Slice0/Obligations.lean ====
section
/-! DEFINITION. The statements for the provers. The first part says in the manual's terms what an event leaves behind;
the second part states the obligations. -/

namespace Sys2Proof.Claims

open Sys2Proof.Machine

/-! ## What an event leaves behind -/

/-- A command completes: it answers a next state, of which `post` holds. -/
def Completes (i : Instr) (s : State) (post : State → Prop) : Prop := ∃ t, exec i s = .next t ∧ post t

/-- What the blocks hold that engrave, store and gather, and the pending ROOM marks: everything but the Cell Link's
queues and marks, the Interpreter and the Status Unit. -/
structure Works where
  screens : Vector ScreenSlot 8
  grads : Vector GradSlot 16
  expander : Expander
  lanes : PerHead (Option Lane)
  monitor : Monitor
  seq : Sequencer
  ports : PerHead HeadPort
  tallies : PerHead Tally
  markCounter : Nat
  captures : List Capture
  room : PerHead Bool
  deriving DecidableEq, Repr

/-- The works of a state. -/
def worksOf (s : State) : Works :=
  { screens := s.screens, grads := s.grads, expander := s.expander, lanes := s.lanes, monitor := s.monitor,
    seq := s.seq, ports := s.ports, tallies := s.tallies, markCounter := s.markCounter, captures := s.captures,
    room := s.tx.room }

/-- The pending STATUS notice after an event that takes the summary from its value in `s` to its value in `t`
(R181). -/
def noticeAfter (s t : State) : Bool :=
  if t.summary && !s.summary then true else if s.summary && !t.summary then false else s.tx.notice

/-- A one-shot event's bit, if it is raised. -/
def bitIf (b : Bool) (e : OneShot) : BitVec 14 := if b then e.bit else 0

/-- The event register after an event that raises the one-shot bits `raised`: those and the edges of the conditions
that rose are set, and no bit is cleared; the mask is unchanged (R180, R181). -/
def Latches (s t : State) (raised : BitVec 14) : Prop :=
  t.status.events = s.status.events ||| raised ||| risingEdges s.conditions t.conditions ∧
  t.status.enable = s.status.enable ∧ t.tx.notice = noticeAfter s t

/-- The Error Queue after the posts of an event, with ERROR_QUEUED raised if there is one (R183). -/
def Posts (s t : State) (raised : BitVec 14) (posts : List ErrorEntry) : Prop :=
  t.status.errors = posts.foldl postTo s.status.errors ∧ Latches s t (raised ||| bitIf (!posts.isEmpty) .errorQueued)

/-- An event that leaves the link's queues and marks and the Interpreter as they were. -/
def Event (s t : State) (works : Works) (raised : BitVec 14) (posts : List ErrorEntry) : Prop :=
  worksOf t = works ∧ t.pending = s.pending ∧ t.rx = s.rx ∧ t.interp = s.interp ∧ t.tx.queue = s.tx.queue ∧
  t.tx.flowMark = s.tx.flowMark ∧ t.tx.announced = s.tx.announced ∧ t.tx.sending = s.tx.sending ∧
  Posts s t raised posts

/-- An Error Queue entry of this state's revolution. -/
def entry (s : State) (code : ErrorCode) (head : Option HeadNo := none) (lane : Option Byte := none)
    (track : Option Nat := none) (cell : Option Nat := none) : ErrorEntry :=
  { code := code, revolution := s.monitor.revolutions, head := head, lane := lane, track := track, cell := cell }

/-! ## Frames joining and leaving the Intake FIFO -/

/-- The pending flow mark once the flow state is `f` (R157). -/
def markAfter (s : State) (f : FlowState) : Option FlowState :=
  if f = s.rx.flow then s.tx.flowMark else if f = s.tx.announced then none else some f

/-- The flow state after the fill has risen to `fill` (R156). -/
def flowAfterRise (s : State) (fill : Nat) : FlowState :=
  if s.rx.flow = .flowing ∧ s.rx.high ≤ fill then .paused else s.rx.flow

/-- The flow state after the fill has fallen to `fill` (R156). -/
def flowAfterFall (s : State) (fill : Nat) : FlowState :=
  if s.rx.flow = .paused ∧ fill ≤ s.rx.low then .flowing else s.rx.flow

/-- A good frame has joined the tail of the FIFO, and nothing else has changed but what the flow state brings
(R154 to R157). -/
def Joins (s t : State) (f : Frame) : Prop :=
  worksOf t = worksOf s ∧ t.pending = s.pending ∧
  t.rx = { s.rx with fifo := s.rx.fifo ++ [f], flow := flowAfterRise s (s.fill + f.size) } ∧
  t.tx.flowMark = markAfter s (flowAfterRise s (s.fill + f.size)) ∧ t.tx.announced = s.tx.announced ∧
  t.tx.queue = s.tx.queue ∧ t.tx.sending = s.tx.sending ∧ t.interp = s.interp ∧ Posts s t 0 []

/-- What the taking of a frame owes the workstation. -/
inductive Reply where
  /-- nothing -/
  | silent
  /-- a RESULT -/
  | result (f : UpFrame)
  /-- the frames of a readback -/
  | streams (rb : Readback)
  deriving DecidableEq, Repr

/-- The Upstream Queue after a reply (R172). -/
def queueAfter (s : State) : Reply → List UpFrame
  | .result f => if s.tx.queue.length < 64 then s.tx.queue ++ [f] else s.tx.queue
  | _ => s.tx.queue

/-- The Interpreter's state after a reply (R151, R172). -/
def interpAfter (s : State) : Reply → InterpState
  | .silent => s.interp.state
  | .result f => if s.tx.queue.length < 64 then s.interp.state else .waiting f
  | .streams rb => .streaming rb

/-- The link's side of the taking of the frame at the head of the FIFO: the frame leaves it, the flow state is judged
(R155, R156, R160), the reply is placed or waits (R172), and the outstanding SYNC set becomes `syncs`. -/
def LeavesAndReplies (s t : State) (reply : Reply) (syncs : List SyncEntry) : Prop :=
  t.pending = s.pending ∧
  t.rx = { s.rx with fifo := s.rx.fifo.tail, flow := flowAfterFall s (fillOf s.rx.fifo.tail) } ∧
  t.tx.flowMark = markAfter s (flowAfterFall s (fillOf s.rx.fifo.tail)) ∧ t.tx.announced = s.tx.announced ∧
  t.tx.sending = s.tx.sending ∧ t.tx.queue = queueAfter s reply ∧
  t.interp = { state := interpAfter s reply, syncs := syncs }

/-- The frame at the head of the FIFO is handed on and taken: its effect on the works, its posts and its reply, and
nothing else. -/
def Takes (s t : State) (works : Works) (raised : BitVec 14) (posts : List ErrorEntry) (reply : Reply)
    (syncs : List SyncEntry) : Prop :=
  worksOf t = works ∧ LeavesAndReplies s t reply syncs ∧ Posts s t raised posts

/-- A record stands at the head of the FIFO with a notify byte of 0 or 1, and the Interpreter is FREE. -/
def AtHead (s : State) (k : RecordKind) (h : Header) (p : List Byte) : Prop :=
  s.rx.fifo.head? = some (recordFrame k h p) ∧ s.interp.state = .free ∧ h.notify.toNat ≤ 1

/-- The reply to a success with the completion code and payload given (R170). -/
def successReply (k : RecordKind) (h : Header) (code : Completion := .done) (payload : List Byte := []) : Reply :=
  if k.alwaysAnswered || h.notify = 1 then .result (resultFrame h.tag k.code code payload) else .silent

/-- The record is refused: nothing in any block changes, RECORD_REFUSED is raised, and the refusal is answered
(R169, R170). -/
def Refused (s t : State) (kind : Byte) (h : Header) (code : Completion) (payload : List Byte := []) : Prop :=
  Takes s t (worksOf s) OneShot.recordRefused.bit [] (.result (resultFrame h.tag kind code payload)) s.interp.syncs

/-- The record succeeds, leaves the works given, and is answered as R170 says; it raises no one-shot event. -/
def Succeeds (s t : State) (works : Works) (k : RecordKind) (h : Header) (code : Completion := .done)
    (payload : List Byte := []) : Prop :=
  Takes s t works 0 [] (successReply k h code payload) s.interp.syncs

/-! ## Strikes -/

/-- The strike of a head that falls on a tick, with its result (R18, R43, R122). -/
def dueStrike (u : State) (tick : Nat) (h : HeadNo) : Option (StrikeContext × StrikeResult) :=
  match u.strikeContext h with
  | some c =>
    if strikeTick u.seq.job.e c.screen c.track c.index = tick then some (c, computeStrike (u.strikeInput h c)) else none
  | none => none

/-- Whether a strike is that of cell N-1. -/
def lastCell (c : StrikeContext) : Bool := c.index + 1 = c.screen.cells

/-- The Head Port after the strikes of a tick: an ENGAGED head presents the strike's code, that of its last cell too,
after which it lifts (R55, R70, R71). -/
def portAfter (u : State) (tick : Nat) (h : HeadNo) : HeadPort :=
  match dueStrike u tick h with
  | none => u.ports[h]
  | some (c, r) =>
    let engaged : Bool := u.ports[h].lift ≠ .lifted
    { u.ports[h] with
      lift := if engaged && !lastCell c then .engaged r.code else .lifted
      strokeCode := if engaged then r.code else u.ports[h].strokeCode
      strokeCount := if engaged then u.ports[h].strokeCount + 1 else u.ports[h].strokeCount
      strikes := if r.cut then min 4294967295 (u.ports[h].strikes + 1) else u.ports[h].strikes }

/-- The head's items after the strikes of a tick (R122, R123). -/
def itemsAfter (u : State) (tick : Nat) (h : HeadNo) : HeadItems :=
  match dueStrike u tick h with
  | none => u.seq.heads[h]
  | some (c, _) =>
    if lastCell c then
      { u.seq.heads[h] with
        state := if u.seq.heads[h].next + 1 = c.entry.tracks then .finished else .waiting
        next := u.seq.heads[h].next + 1
        justCut := some c.track }
    else { u.seq.heads[h] with state := .cutting (c.index + 1) }

/-- A slot that goes from one use to another. -/
def slotTo (src dst : SlotUse) (ok : Nat → Bool) : TrackSlot → TrackSlot
  | .held use k cells => .held (if use = src ∧ ok k then dst else use) k cells
  | .free => .free

/-- Both slots of a lane changed by one function. -/
def bothSlots (f : TrackSlot → TrackSlot) (l : Lane) : Lane := { l with slot0 := f l.slot0, slot1 := f l.slot1 }

/-- The lane after the strikes of a tick (R94). -/
def laneAfter (u : State) (tick : Nat) (h : HeadNo) : Option Lane :=
  match dueStrike u tick h with
  | none => u.lanes[h]
  | some (c, _) =>
    if lastCell c then u.lanes[h].map (bothSlots (slotTo .cutting .retained fun _ => true)) else u.lanes[h]

/-- The tally after the strikes of a tick (R134, R135). -/
def tallyAfter (u : State) (tick : Nat) (h : HeadNo) : Tally :=
  match dueStrike u tick h with
  | none => u.tallies[h]
  | some (c, r) =>
    let t := u.tallies[h]
    let n := match u.seq.job.tallySource with
      | .tone => r.cell.tone.toNat
      | .depth => r.depth
    { currentTrack := t.currentTrack + n
      lastTrack := if lastCell c then t.currentTrack + n else t.lastTrack
      job := min 281474976710655 (t.job + n)
      cut := if r.blank then min 4294967295 t.cut else min 4294967295 (t.cut + 1)
      uncut := if r.blank then min 4294967295 (t.uncut + 1) else min 4294967295 t.uncut
      depthClamps := min 4294967295 (t.depthClamps + if r.depthClamped then 1 else 0)
      driveClamps := min 4294967295 (t.driveClamps + if r.driveClamped then 1 else 0) }

/-- A capture after the strikes of a tick (R144 to R146). -/
def captureAfter (u : State) (tick : Nat) (c : Capture) : Capture :=
  match dueStrike u tick c.head with
  | none => c
  | some (x, r) =>
    if c.track = x.track ∧ c.state ≠ .full ∧
        x.index = (if c.state = .waiting then c.first else c.first + c.entries.length) then
      { c with
        entries := c.entries ++ [{ tone := x.cell.tone, mark := x.cell.mark, nocut := x.cell.nocut, depth := r.depth,
                                   code := r.code, depthClamped := r.depthClamped, driveClamped := r.driveClamped }]
        state := if c.length ≤ c.entries.length + 1 ∨ lastCell x then .full else .filling }
    else c

/-- How many of the strikes of a tick count on the mark counter (R139). -/
def marksStruck (u : State) (tick : Nat) : Nat :=
  allHeads.countP fun h => match dueStrike u tick h with
    | some (_, r) => r.cell.mark && !r.blank
    | none => false

/-- Whether the strikes of a tick wrap the mark counter (R139). -/
def wraps (u : State) (tick : Nat) : Bool := 4294967296 ≤ u.markCounter + marksStruck u tick

/-- The works after the strikes of a tick, all heads at once (R54, R57, R122, R123, R134 to R146). -/
def struckWorks (u : State) (tick : Nat) : Works :=
  { worksOf u with
    ports := Vector.ofFn (portAfter u tick)
    lanes := Vector.ofFn (laneAfter u tick)
    tallies := Vector.ofFn (tallyAfter u tick)
    markCounter := (u.markCounter + marksStruck u tick) % 4294967296
    captures := u.captures.map (captureAfter u tick)
    seq := { u.seq with
      heads := Vector.ofFn (itemsAfter u tick)
      retained := u.seq.retained || allHeads.any fun h => (dueStrike u tick h).any fun x => lastCell x.1
      hold := u.seq.hold || (wraps u tick && u.seq.job.markStop) } }

/-- A capture that was not FULL and is FULL after a change (R146). -/
def someFull (captures : List Capture) (f : Capture → Capture) : Bool :=
  captures.any fun c => c.state ≠ .full ∧ (f c).state = .full

/-- The one-shot events that the strikes of a tick raise (R136, R139, R146). -/
def struckRaised (u : State) (tick : Nat) : BitVec 14 :=
  bitIf ((allHeads.any fun h => (dueStrike u tick h).any fun x => x.2.driveClamped) &&
      allHeads.all fun h => u.tallies[h].driveClamps = 0) .driveClamped |||
    bitIf (wraps u tick && u.seq.job.markStop) .markStop |||
    bitIf (someFull u.captures (captureAfter u tick)) .captureFull

/-! ## What stops a cut, a revolution or a job -/

/-- A FILLING capture of the heads chosen becomes FULL (R147). -/
def endCapture (heads : HeadNo → Bool) (c : Capture) : Capture :=
  if c.state = .filling ∧ heads c.head then { c with state := .full } else c

/-- Head items after a slip or a lost index (R115, R124). -/
def suspectItems (i : HeadItems) : HeadItems :=
  { i with
    state := if i.isCutting || (i.justCut.isSome && decide (i.state = .finished)) then .waiting else i.state
    next := if i.justCut.isSome then i.next - 1 else i.next
    interrupted := i.interrupted || i.isCutting || i.justCut.isSome
    justCut := none }

/-- A slot after a slip or a lost index, given its head's items before it (R95, R96). -/
def suspectSlot (i : HeadItems) : TrackSlot → TrackSlot
  | .held .cutting k cells => .held (if i.isCutting then .interrupted else .cutting) k cells
  | .held .retained k cells => .held (if i.justCut = some k then .interrupted else .retained) k cells
  | t => t

/-- The works after a slip or a lost index of a running job (R72, R95, R96, R115, R124, R147). -/
def suspectWorks (s : State) : Works :=
  { worksOf s with
    ports := mapAll (fun h q => if s.cutting h then { q with lift := .lifted } else q) s.ports
    lanes := mapAll (fun h => Option.map (bothSlots (suspectSlot s.seq.heads[h]))) s.lanes
    captures := s.captures.map (endCapture s.cutting)
    seq := { s.seq with state := .holding, hold := false, heads := mapAll (fun _ i => suspectItems i) s.seq.heads } }

/-- The works after the end of a job (R129, R81, R102, R147, R16, R24). -/
def endedWorks (w : Works) (o : JobOutcome) : Works :=
  { w with
    ports := mapAll (fun _ q => { q with lift := .lifted }) w.ports
    lanes := Vector.replicate 8 none
    room := Vector.replicate 8 false
    screens := mapAll (fun _ x => { x with binds := 0 }) w.screens
    grads := mapAll (fun _ x => { x with binds := 0 }) w.grads
    captures := w.captures.map (endCapture fun _ => true)
    seq := { w.seq with
      state := .ended o, hold := false, stalled := false
      heads := mapAll (fun _ i => { state := .out, next := i.next, interrupted := false, faultPosition := false,
                                    justCut := none }) w.seq.heads } }

/-- The one-shot events that the end of a job raises (R129, R147). -/
def endedRaised (s : State) : BitVec 14 :=
  OneShot.jobEnded.bit ||| bitIf (someFull s.captures (endCapture fun _ => true)) .captureFull

/-! ## The index -/

/-- The Monitor after it has taken an INDEX (R4, R6). -/
def indexMonitor (m : Monitor) : Monitor :=
  match m.sync with
  | .unsynced => { m with sync := .synced, count := 0 }
  | .synced => { m with lastLength := m.count + 1, revolutions := (m.revolutions + 1) % 4294967296, count := 0 }

/-- Whether an INDEX taken now is a slip (R6). -/
def slips (m : Monitor) : Bool := m.sync = .synced ∧ m.count + 1 ≠ m.e

/-- The entry that reports a slip (R7). -/
def slipEntry (m : Monitor) : ErrorEntry :=
  { code := .encoderSlip, revolution := (indexMonitor m).revolutions, head := none, lane := none, track := none,
    cell := none }

/-- An INDEX taken in a running job with no slip (R114 from step 2 on): the state once the Monitor has taken it and
each head's track just cut has become absent. -/
def indexed (s : State) : State :=
  { s with
    monitor := indexMonitor s.monitor
    seq := { s.seq with heads := mapAll (fun _ i => { i with justCut := none }) s.seq.heads } }

/-- The INDEX line is taken by a running job, and it is no slip. -/
def RunningIndex (s : State) : Prop :=
  s.monitor.source = .external ∧ s.seq.state = .running ∧ slips s.monitor = false ∧ s.markCounter ≤ 4294967295

/-- A WAITING head. -/
def isWaiting (s : State) (h : HeadNo) : Bool := s.seq.heads[h].state = .waiting

/-- A WAITING head with its interrupted flag set (R118). -/
def wantsRecut (s : State) (h : HeadNo) : Bool := isWaiting s h && s.seq.heads[h].interrupted

/-- Whether a lane holds a track COMPLETE. -/
def holdsComplete (l : Option Lane) (k : Nat) : Bool :=
  l.any fun l => [l.slot0, l.slot1].any fun t => match t with
    | .held .complete n _ => n = k
    | _ => false

/-- Whether a WAITING head fails the gate (R119). -/
def gateFails (s : State) (h : HeadNo) : Bool :=
  isWaiting s h && !(holdsComplete s.lanes[h] s.seq.heads[h].next && s.ports[h].ready)

/-- The heads chosen start their tracks (R69, R93, R118, R120, R135), from the slot use given. -/
def startsFrom (u : State) (src : SlotUse) (heads : HeadNo → Bool) : State :=
  { u with
    lanes := mapAll (fun h => Option.map fun l =>
      if heads h then bothSlots (slotTo src .cutting (· = u.seq.heads[h].next)) l else l) u.lanes
    ports := mapAll (fun h q =>
      if heads h && decide (u.seq.job.mode = .cut) then { q with lift := .engaged q.cal.rest } else q) u.ports
    tallies := mapAll (fun h t => if heads h then { t with currentTrack := 0 } else t) u.tallies
    seq := { u.seq with heads := mapAll (fun h i =>
      if heads h then { i with state := .cutting 0, interrupted := false } else i) u.seq.heads } }

/-- A slot at a carriage advance (R99). -/
def releaseSlot : TrackSlot → TrackSlot
  | .held .retained _ _ => .free
  | t => t

/-- Whether a lane holds a RETAINED slot. -/
def holdsRetained (l : Option Lane) : Bool :=
  l.any fun l => [l.slot0, l.slot1].any fun t => match t with
    | .held .retained _ _ => true
    | _ => false

/-- The carriage advance, made when the track-retained flag is set (R99, R101, R120). -/
def advanced (u : State) : State :=
  if u.seq.retained then
    { u with
      lanes := mapAll (fun _ => Option.map (bothSlots releaseSlot)) u.lanes
      tx := { u.tx with room := mapAll (fun h b => b || holdsRetained u.lanes[h]) u.tx.room }
      seq := { u.seq with
        advances := u.seq.advances + 1
        pulses := if u.seq.job.mode = .cut then u.seq.pulses + 1 else u.seq.pulses
        heads := mapAll (fun _ i => { i with faultPosition := false }) u.seq.heads } }
  else u

/-- The start of the recuts of a repair revolution: every head that wants one and has READY asserted (R118). -/
def repairStart (s : State) : State :=
  startsFrom (indexed s) .interrupted fun h => wantsRecut s h && s.ports[h].ready

/-- The start of a passing gate: the advance if it is due, every WAITING head's start, and the consecutive idle count and
STALLED cleared (R120). -/
def gateStart (s : State) : State :=
  let started := startsFrom (advanced (indexed s)) .complete (isWaiting s)
  { started with seq := { started.seq with consecutiveIdle := 0, stalled := false } }

/-- Some head starts a recut at the index (R118). -/
def Repairs (s : State) : Prop := ∃ h : HeadNo, wantsRecut s h = true ∧ s.ports[h].ready = true

/-- The gate is tested at the index and passes (R118, R119). -/
def GatePasses (s : State) : Prop :=
  (∃ h : HeadNo, isWaiting s h = true) ∧ ∀ h : HeadNo, wantsRecut s h = false ∧ gateFails s h = false

/-- The works after an idle revolution (R121). -/
def idleWorks (u : State) : Works :=
  let n := min 4294967295 (u.seq.consecutiveIdle + 1)
  { worksOf u with seq := { u.seq with
      idle := min 4294967295 (u.seq.idle + 1), consecutiveIdle := n
      stalled := u.seq.stalled || decide (u.seq.job.stallLimit ≠ 0 ∧ n = u.seq.job.stallLimit) } }

/-- Whether an idle revolution reaches the stall limit (R121). -/
def reachesStall (s : State) : Bool :=
  s.seq.job.stallLimit ≠ 0 ∧ min 4294967295 (s.seq.consecutiveIdle + 1) = s.seq.job.stallLimit

/-- The STALL entry for a head, in the state the Monitor has left (R121). -/
def stallEntry (u : State) (h : HeadNo) : ErrorEntry :=
  entry u .stall (some h) (u.seq.plan[h].map PlanEntry.tag) (some u.seq.heads[h].next)

/-! ## Head faults -/

/-- A head that goes to FAULTED in a running job under HOLD_ALL sets the hold request (R76). -/
def faultHold (s : State) : Bool := s.seq.hold || decide (s.seq.state = .running ∧ s.seq.job.policy = .holdAll)

/-- The works after a fault of a head, given its port as the line change has left it. `cut` says whether the head was
CUTTING (R73, R74). -/
def faultedWorks (s : State) (h : HeadNo) (port : HeadPort) (cut : Bool) : Works :=
  { worksOf s with
    ports := updAt s.ports h fun _ => if cut then { port with lift := .lifted } else port
    lanes := updAt s.lanes h fun l => if cut then l.map (bothSlots (slotTo .cutting .interrupted fun _ => true)) else l
    captures := if cut then s.captures.map (endCapture (· = h)) else s.captures
    seq := { s.seq with
      hold := faultHold s
      heads := updAt s.seq.heads h fun i =>
        { i with state := .faulted, faultPosition := true, interrupted := i.interrupted || cut } } }

/-- The lane tag of a head's plan entry. -/
def tagOf (s : State) (h : HeadNo) : Option Byte := s.seq.plan[h].map PlanEntry.tag

/-- The normalized input of a line level (R66). -/
def normal (p : Polarity) (high : Bool) : Bool := if p = .normal then high else !high

/-- The port after its ALARM line stands at a level (R66). -/
def alarmPort (q : HeadPort) (high : Bool) : HeadPort :=
  { q with alarmLine := high, alarm := normal q.cal.alarmPolarity high,
           ready := normal q.cal.readyPolarity q.readyLine }

/-- The port after its READY line stands at a level (R66). -/
def readyPort (q : HeadPort) (high : Bool) : HeadPort :=
  { q with readyLine := high, ready := normal q.cal.readyPolarity high,
           alarm := normal q.cal.alarmPolarity q.alarmLine }

/-- An event in which only one Head Port changes. -/
def PortOnly (s t : State) (h : HeadNo) (q : HeadPort) (posts : List ErrorEntry) : Prop :=
  Event s t { worksOf s with ports := updAt s.ports h fun _ => q } 0 posts

end Sys2Proof.Claims

open Sys2Proof Sys2Proof.Machine Sys2Proof.Claims

/-! ## The machine's step and its reset values -/

/-- A step runs the command at the front of the queue with the queue's rest; with no command waiting the part idles (the
queue and the idling are the model's own, log entry 1). -/
def Obligations.StepRunsFrontCommand : Prop :=
  ∀ s : State,
    (∀ c rest, s.pending = c :: rest → step s = exec c { s with pending := rest }) ∧
    (s.pending = [] → step s = .next s)

namespace Sys2Proof.Claims

/-- The power-on values of R2, R13, R23, R59, R79, R103, R105, R108, R109, R133, R138, R142, R155 to R157, R159, R162,
R163, R167, R180, R181 and R183, but for the normalized inputs, which follow the lines. -/
def PowerOnValues (t : State) : Prop :=
  (t.rx.fifo = [] ∧ t.rx.flow = .flowing ∧ t.rx.high = 24576 ∧ t.rx.low = 8192 ∧ t.rx.down = true) ∧
  (t.tx.queue = [] ∧ t.tx.flowMark = none ∧ t.tx.announced = .flowing ∧ (∀ h : HeadNo, t.tx.room[h] = false) ∧
    t.tx.notice = false ∧ t.tx.sending = none) ∧
  (t.interp.state = .free ∧ t.interp.syncs = []) ∧
  (∀ i : Fin 8, t.screens[i] = { screen := none, binds := 0 }) ∧
  (∀ i : Fin 16, t.grads[i] = { table := .empty, binds := 0 }) ∧
  (t.expander.queue = [] ∧ ∀ h : HeadNo, t.lanes[h] = none) ∧
  (t.monitor.sync = .unsynced ∧ t.monitor.count = 0 ∧ t.monitor.lastLength = 0 ∧ t.monitor.revolutions = 0 ∧
    t.monitor.source = .external ∧ t.monitor.e = 65536 ∧ t.monitor.period = 100) ∧
  (t.seq.job = { mode := .cut, source := .external, e := 65536, period := 100, policy := .carryOn, stallLimit := 0,
                 tallySource := .depth, markStop := false }) ∧
  ((∀ h : HeadNo, t.seq.plan[h] = none) ∧ t.seq.state = .idle ∧ t.seq.hold = false ∧ t.seq.advances = 0 ∧
    t.seq.idle = 0 ∧ t.seq.consecutiveIdle = 0 ∧ t.seq.retained = false ∧ t.seq.stalled = false) ∧
  (∀ h : HeadNo, t.seq.heads[h] =
    { state := .out, next := 0, interrupted := false, faultPosition := false, justCut := none }) ∧
  (∀ h : HeadNo, t.ports[h].cal =
      { gain := 4096, offset := 0, rest := 0, maxDepth := 1000, wearRate := 0, wearCap := 0,
        readyPolarity := .normal, alarmPolarity := .normal } ∧
    t.ports[h].calibrated = false ∧ t.ports[h].strikes = 0 ∧ t.ports[h].lift = .lifted) ∧
  (∀ h : HeadNo, t.tallies[h] = { currentTrack := 0, lastTrack := 0, job := 0, cut := 0, uncut := 0, depthClamps := 0,
                                  driveClamps := 0 }) ∧
  (t.markCounter = 0 ∧ t.captures = [] ∧ t.status.events = 0 ∧ t.status.enable = 0 ∧ t.status.errors = [])

/-- The power-on values of what the model adds: the generator's place, the count of ADVANCE pulses, the waiting
completion, and each head's latest stroke and count of strokes (log entries 9, 11, 19 and 24). -/
def OwnPowerOnValues (t : State) : Prop :=
  t.monitor.genNext = 0 ∧ t.seq.pulses = 0 ∧ t.expander.finished = false ∧
  ∀ h : HeadNo, t.ports[h].strokeCode = 0 ∧ t.ports[h].strokeCount = 0

end Sys2Proof.Claims

/-- The state after reset holds the power-on values. That its READY and ALARM lines are low, that its generator place,
pulse and stroke counts and waiting completion are 0 and false, that no upstream frame is being sent, and that no command
waits, are the model's choices (log entries 1, 8, 9, 11, 13, 19 and 24). -/
def Obligations.ResetHoldsPowerOnValues : Prop :=
  PowerOnValues State.reset ∧
  (∀ h : HeadNo, State.reset.ports[h].readyLine = false ∧ State.reset.ports[h].alarmLine = false ∧
    State.reset.ports[h].ready = false ∧ State.reset.ports[h].alarm = false) ∧
  State.reset.pending = [] ∧ OwnPowerOnValues State.reset

/-- POWER_ON_RESET in any state leaves the power-on values; each normalized input takes its line's level under normal
polarity, and no event is latched for it. It is the model's choice that the levels of the lines and the queue of commands
are inputs and stand (log entries 1 and 8), that a frame being sent is dropped, so that none is being sent after it (log
entries 13 and 19), and that what the model adds starts again from 0 (log entries 9, 11, 19 and 24). -/
def Obligations.PowerOnResetRestoresEverything : Prop :=
  ∀ s : State, Completes .powerOnReset s fun t =>
    PowerOnValues t ∧ OwnPowerOnValues t ∧ t.pending = s.pending ∧
    ∀ h : HeadNo, t.ports[h].readyLine = s.ports[h].readyLine ∧ t.ports[h].alarmLine = s.ports[h].alarmLine ∧
      t.ports[h].ready = s.ports[h].readyLine ∧ t.ports[h].alarm = s.ports[h].alarmLine

/-! ## Positions of the cylinder -/

/-- Positions that no running job meets. A TICK or INDEX line is disregarded under the INTERNAL source; a TICK is discarded
while UNSYNCED, and otherwise raises the count by one; an INDEX syncs the Monitor, or closes a revolution, with
ENCODER_SLIP posted for a slip in a HOLDING job. Nothing else changes. -/
def Obligations.PositionsOutsideARunningJob : Prop :=
  ∀ s : State,
    (s.monitor.source = .internal → exec .tick s = .next s ∧ exec .index s = .next s) ∧
    (s.monitor.source = .external → s.monitor.sync = .unsynced → Completes .tick s fun t => Event s t (worksOf s) 0 []) ∧
    (s.monitor.source = .external → s.monitor.sync = .synced → s.monitor.count + 1 ≠ 2 * s.monitor.e →
      s.seq.state ≠ .running → Completes .tick s fun t =>
        Event s t { worksOf s with monitor := { s.monitor with count := s.monitor.count + 1 } } 0 []) ∧
    (s.monitor.source = .external → s.seq.state ≠ .running → Completes .index s fun t =>
      Event s t { worksOf s with monitor := indexMonitor s.monitor } 0
        (if slips s.monitor ∧ s.seq.state = .holding then [slipEntry s.monitor] else []))

/-- A TICK of a running job strikes exactly the cells whose strike tick is the new count, on all heads at once: ports,
head items, lanes, tallies, the mark counter with its hold request, and the captures, and nothing else. That a port keeps the code
of its latest stroke, the last cell's too, and a count of strokes, is the model's choice (log entry 24). -/
def Obligations.TickStrikesTheDueCells : Prop :=
  ∀ s : State, s.monitor.source = .external → s.monitor.sync = .synced → s.monitor.count + 1 ≠ 2 * s.monitor.e →
    s.seq.state = .running → s.markCounter ≤ 4294967295 →
    let u := { s with monitor := { s.monitor with count := s.monitor.count + 1 } }
    Completes .tick s fun t =>
      Event s t (struckWorks u (s.monitor.count + 1)) (struckRaised u (s.monitor.count + 1)) []

namespace Sys2Proof.Claims

/-- The command that brings about a position by each of its ways (R1, R11). -/
def positionCommand : PositionEvent → Instr
  | .tick => .tick
  | .index => .index
  | .generator => .internalTickGenerator

/-- A TICK on the line that strikes in a running job: `u` is the state when the strikes fall, and `tick` their tick
(R5, R122). -/
def StrikesAtTick (s u : State) (tick : Nat) : Prop :=
  s.monitor.source = .external ∧ s.monitor.sync = .synced ∧ s.monitor.count + 1 ≠ 2 * s.monitor.e ∧
  s.seq.state = .running ∧ s.markCounter ≤ 4294967295 ∧ tick = s.monitor.count + 1 ∧
  u = { s with monitor := { s.monitor with count := s.monitor.count + 1 } }

/-- An INDEX on the line at which heads start, on a repair revolution or at a passing gate: `u` is the state when the cells
at tick 0 are struck (R118, R120, R122). -/
def StrikesAtIndex (s u : State) (tick : Nat) : Prop :=
  RunningIndex s ∧ s.seq.hold = false ∧ tick = 0 ∧ (Repairs s ∧ u = repairStart s ∨ GatePasses s ∧ u = gateStart s)

/-- A period of the internal generator, as the line that it stands for: the lines in force, and the generator's next place
(R11). -/
def asLine (s : State) : State :=
  { s with monitor := { s.monitor with source := .external, genNext := (s.monitor.genNext + 1) % s.monitor.e } }

/-- The wrap of the mark counter at a position, under the names of the position and of MARK_STOP: the hold request is set and
MARK_STOP raised exactly with mark-stop on, and the strikes have all their other effects (R139, R125). -/
def WrapHolds (p : PositionEvent) (s u : State) (tick : Nat) : Prop :=
  Completes (.markStop p) s fun t =>
    exec (positionCommand p) s = .next t ∧ t.seq.hold = (s.seq.hold || s.seq.job.markStop) ∧
    t.markCounter = s.markCounter + marksStruck u tick - 4294967296 ∧
    (s.seq.job.markStop = true → t.status.events &&& OneShot.markStop.bit ≠ 0) ∧ t.seq.state = .running ∧
    Event s t { struckWorks u tick with monitor := { u.monitor with source := s.monitor.source } } (struckRaised u tick) []

end Sys2Proof.Claims

/-- The position that holds the strike that wraps the mark counter: a TICK, an INDEX at which a marked cell at tick 0 is
struck (R141), or a position of the internal generator. The hold request is set, for the next index, and MARK_STOP raised
exactly with mark-stop on. That the command MARK_STOP names the whole position, and comes about with mark-stop off too, is
the model's choice (log entry 4). -/
def Obligations.MarkStopHoldsTheJob : Prop :=
  ∀ (s u : State) (tick : Nat), wraps u tick = true →
    (StrikesAtTick s u tick → WrapHolds .tick s u tick) ∧
    (StrikesAtIndex s u tick → WrapHolds .index s u tick) ∧
    (s.monitor.source = .internal →
      (if s.monitor.genNext = 0 then StrikesAtIndex (asLine s) u tick else StrikesAtTick (asLine s) u tick) →
      WrapHolds .generator s u tick)

/-- The TICK that brings the count to 2E loses the index, under the name INDEX_LOST too: the Monitor goes UNSYNCED, and a
running job holds with its tracks suspect; a RUNNING or HOLDING job has INDEX_LOST posted.
That the command INDEX_LOST is this TICK is the model's choice (log entry 4). -/
def Obligations.IndexLostHoldsTheJob : Prop :=
  ∀ s : State, s.monitor.source = .external → s.monitor.sync = .synced → s.monitor.count + 1 = 2 * s.monitor.e →
    Completes .indexLost s fun t => exec .tick s = .next t ∧
      let lost := { s.monitor with sync := .unsynced, count := 0 }
      if s.seq.state = .running then
        Event s t { suspectWorks s with monitor := lost } (bitIf (someFull s.captures (endCapture s.cutting)) .captureFull)
          [entry s .indexLost]
      else
        Event s t { worksOf s with monitor := lost } 0 (if s.seq.state = .holding then [entry s .indexLost] else [])

/-- A slip at an index of a running job is posted, turns back the tracks just cut, stops the cuts under way, and holds the
job. -/
def Obligations.SlipTurnsBackAndHolds : Prop :=
  ∀ s : State, s.monitor.source = .external → s.seq.state = .running → slips s.monitor = true →
    Completes .index s fun t =>
      Event s t { suspectWorks s with monitor := indexMonitor s.monitor }
        (bitIf (someFull s.captures (endCapture s.cutting)) .captureFull) [slipEntry s.monitor]

/-- An index of a running job at which the hold request is set and no slip is indicated holds the job, and starts and
moves nothing. -/
def Obligations.HoldRequestHoldsAtIndex : Prop :=
  ∀ s : State, RunningIndex s → s.seq.hold = true → Completes .index s fun t =>
    Event s t
      { worksOf (indexed s) with seq := { (indexed s).seq with state := .holding, hold := false } } 0 []

/-- The closing index, at which no head is WAITING or CUTTING, ends the job: PARTIAL if a head is FAULTED, and COMPLETE
otherwise. -/
def Obligations.ClosingIndexEndsTheJob : Prop :=
  ∀ s : State, RunningIndex s → s.seq.hold = false → (∀ h : HeadNo, isWaiting s h = false ∧ s.cutting h = false) →
    Completes .index s fun t =>
      Event s t
        (endedWorks (worksOf (indexed s))
          (if ∃ h : HeadNo, s.seq.heads[h].state = .faulted then .part else .complete))
        (endedRaised s) []

/-- An index at which a WAITING head has its interrupted flag set: every such head with READY asserted starts its recut,
and no other head; there is no advance and no idle revolution.
That a port keeps the code and count of its strokes is the model's choice (log entry 24). -/
def Obligations.RepairRevolutionStartsRecuts : Prop :=
  ∀ s : State, RunningIndex s → s.seq.hold = false → Repairs s → Completes .index s fun t =>
    Event s t (struckWorks (repairStart s) 0) (struckRaised (repairStart s) 0) []

/-- A passing gate: the carriage advances if a track has been retained, and every WAITING head starts its next track; the
consecutive idle count and STALLED clear.
That a port keeps the code and count of its strokes, and the Sequencer a count of ADVANCE pulses, is the model's choice
(log entries 24 and 9). -/
def Obligations.PassingGateAdvancesAndStarts : Prop :=
  ∀ s : State, RunningIndex s → s.seq.hold = false → GatePasses s → Completes .index s fun t =>
    Event s t (struckWorks (gateStart s) 0) (struckRaised (gateStart s) 0) []

/-- An idle revolution, when the gate fails or no head can start its recut: the two idle counts rise, and at the stall limit one
STALL entry names the lowest-numbered head that held the revolution back. It is the model's choice that at a repair step
that is the lowest-numbered WAITING head with its interrupted flag set (log entry 20), that the entry's lane tag and track
are those of the plan and of the head's next track (log entry 21), and that the command STALL is the INDEX at which STALLED
rises (log entry 4). -/
def Obligations.IdleRevolutionCountsAndStalls : Prop :=
  ∀ (s : State) (h : HeadNo), RunningIndex s → s.seq.hold = false →
    ((∀ g : HeadNo, wantsRecut s g = false) ∧ gateFails s h = true ∧ (∀ g : HeadNo, g < h → gateFails s g = false) ∨
      (∀ g : HeadNo, wantsRecut s g = true → s.ports[g].ready = false) ∧ wantsRecut s h = true ∧
        (∀ g : HeadNo, g < h → wantsRecut s g = false)) →
    (Completes .index s fun t =>
      Event s t (idleWorks (indexed s)) 0 (if reachesStall s then [stallEntry (indexed s) h] else [])) ∧
    (reachesStall s = true → s.seq.stalled = false → Completes (.stall .index) s fun t =>
      exec .index s = .next t ∧ t.seq.stalled = true ∧
      Event s t (idleWorks (indexed s)) 0 [stallEntry (indexed s) h])

/-- The internal tick generator's positions are taken as positions on the lines are: an index at place 0 of each run of E
positions, and a tick at the others.
That one command is one period, that the place is held in `genNext`, and that the command changes nothing while the
generator is stopped, are the model's choices (log entries 11 and 3). -/
def Obligations.GeneratorPositionsAreTakenAsLines : Prop :=
  ∀ s : State,
    (s.monitor.source = .external → exec .internalTickGenerator s = .next s) ∧
    (s.monitor.source = .internal →
      Completes (if s.monitor.genNext = 0 then .index else .tick) (asLine s) fun t =>
        exec .internalTickGenerator s = .next { t with monitor := { t.monitor with source := .internal } })

/-! ## READY and ALARM -/

/-- ALARM_LINE_CHANGE. The normalized input follows the line. An assertion edge faults a CUTTING, WAITING or ARMED head,
is only posted for a FAULTED or FINISHED one, and does nothing to a head that is OUT; any other change does no more. -/
def Obligations.AlarmEdgeFaultsTheHead : Prop :=
  ∀ (s : State) (h : HeadNo) (high : Bool),
    let q := alarmPort s.ports[h] high
    let edge := q.alarm = true ∧ s.ports[h].alarm = false
    Completes (.alarmLineChange h high) s fun t =>
      (¬ edge → PortOnly s t h q []) ∧
      (edge → match s.seq.heads[h].state with
        | .cutting j =>
          Event s t (faultedWorks s h q true) (bitIf (someFull s.captures (endCapture (· = h))) .captureFull)
            [entry s .headAlarm (some h) (tagOf s h) (some s.seq.heads[h].next) (some j)]
        | .waiting | .armed =>
          Event s t (faultedWorks s h q false) 0
            [entry s .headAlarm (some h) (tagOf s h) (some s.seq.heads[h].next)]
        | .faulted | .finished => PortOnly s t h q [entry s .headAlarm (some h) (tagOf s h)]
        | .out => PortOnly s t h q [])

/-- READY_LINE_CHANGE. The normalized input follows the line. A deassertion edge faults a CUTTING head with
HEAD_NOT_READY; any other change does no more. -/
def Obligations.ReadyLossFaultsACuttingHead : Prop :=
  ∀ (s : State) (h : HeadNo) (high : Bool),
    let q := readyPort s.ports[h] high
    let edge := q.ready = false ∧ s.ports[h].ready = true
    Completes (.readyLineChange h high) s fun t =>
      (¬ edge → PortOnly s t h q []) ∧
      (edge → match s.seq.heads[h].state with
        | .cutting j =>
          Event s t (faultedWorks s h q true) (bitIf (someFull s.captures (endCapture (· = h))) .captureFull)
            [entry s .headNotReady (some h) (tagOf s h) (some s.seq.heads[h].next) (some j)]
        | _ => PortOnly s t h q [])

/-! ## Frames received and handed on -/

namespace Sys2Proof.Claims

/-- Only LINK_DOWN has changed, to the value given, with the edge that it brings (R159). -/
def DownOnly (s t : State) (down : Bool) : Prop :=
  worksOf t = worksOf s ∧ t.pending = s.pending ∧ t.rx = { s.rx with down := down } ∧ t.interp = s.interp ∧
  t.tx.queue = s.tx.queue ∧ t.tx.flowMark = s.tx.flowMark ∧ t.tx.announced = s.tx.announced ∧
  t.tx.sending = s.tx.sending ∧ Posts s t 0 []

/-- The tests of R154 on the bytes of a frame, up to the frame's fitting: the error code of the first that fails. -/
def frameFault (bytes : List Byte) : Option ErrorCode :=
  if bytes.length < 8 ∨ 4096 < u16At bytes 2 ∨ bytes.length ≠ 8 + u16At bytes 2 then some .frameCheck
  else if checkField (bytes.take (bytes.length - 4)) ≠ u32At bytes (bytes.length - 4) then some .frameCheck
  else if bytes.head? ≠ some 0x01#8 ∧ bytes.head? ≠ some 0x02#8 then some .unknownFrame
  else none

/-- The frame that good bytes carry (R152). -/
def frameIn (bytes : List Byte) : Frame :=
  { kind := if bytes.head? = some 0x01#8 then .cell else .ctrl, body := (bytes.drop 4).take (u16At bytes 2) }

end Sys2Proof.Claims

/-- LINK_SYNC_LOST sets LINK_DOWN, and LINK_SYNC_GAINED clears it; each changes nothing else but what the edge latches. That
LINK_SYNC_GAINED changes nothing else is the model's choice: the Transmitter, which resumes its choosing there (R159), makes
its choice at the next UPSTREAM_SEND_BEGIN (log entry 13). -/
def Obligations.LinkSyncSetsAndClearsLinkDown : Prop :=
  ∀ s : State, (Completes .linkSyncLost s fun t => DownOnly s t true) ∧
    (Completes .linkSyncGained s fun t => DownOnly s t false)

/-- A frame received whole is judged by the four tests in order: the first that fails posts its error and drops the frame;
a frame that passes them joins the tail of the Intake FIFO. While LINK_DOWN is set nothing is received. That
FRAME_RECEIVED changes nothing then is the model's choice (log entry 6). -/
def Obligations.ReceivedFrameIsJudged : Prop :=
  ∀ (s : State) (bytes : List Byte),
    (s.rx.down = true → exec (.frameReceived bytes) s = .next s) ∧
    (s.rx.down = false → Completes (.frameReceived bytes) s fun t =>
      match frameFault bytes with
      | some code => Event s t (worksOf s) 0 [entry s code]
      | none =>
        if s.fill + bytes.length ≤ 32768 then Joins s t (frameIn bytes)
        else Event s t (worksOf s) 0 [entry s .intakeOverrun])

/-- The bytes of a frame, as the envelope lays them out, are judged good and carry the frame, whatever the flags byte. -/
def Obligations.EnvelopeCarriesTheFrame : Prop :=
  ∀ (kind : DownKind) (flags : Byte) (body : List Byte), body.length ≤ 4096 →
    judgeBytes (envelope kind.code flags body) = .ok { kind := kind, body := body } ∧
    (envelope kind.code flags body).length = 8 + body.length

/-- Every command that hands a frame on is read back from its frame, and every frame is the frame of the command read from
it: no bit of a record, its header or a segment is lost between the two. -/
def Obligations.CommandsAndFramesAgree : Prop :=
  (∀ (i : Instr) (f : Frame), i.wellFormed = true → handedFrame i = some f → commandOfFrame f = i) ∧
  ∀ f : Frame, handedFrame (commandOfFrame f) = some f

namespace Sys2Proof.Claims

/-- Whether the Router may hand a frame on from the head of the FIFO (R160): a CELL frame at once, a CTRL frame while the
Interpreter is FREE, and a whole header with the RESET kind always. -/
def mayLeave (s : State) (f : Frame) : Bool :=
  f.kind = .cell ∨ s.interp.state = .free ∨ (4 ≤ f.body.length ∧ f.body.head? = some 0x5F#8)

/-- The Router hands on frames from the head in order, each with the effect of its own command, until one has to wait or none
is left (R160). -/
inductive HandsOn : State → State → Prop
  | rest (s : State) : (∀ f, s.rx.fifo.head? = some f → mayLeave s f = false) → HandsOn s s
  | next (s t v : State) (f : Frame) : s.rx.fifo.head? = some f → mayLeave s f = true →
      exec (commandOfFrame f) s = .next t → HandsOn t v → HandsOn s v

end Sys2Proof.Claims

/-- A command whose frame does not stand at the head of the FIFO is its arrival. While LINK_DOWN is set nothing arrives.
Otherwise, too long, it is dropped with FRAME_CHECK; not fitting, with INTAKE_OVERRUN; and else it joins the FIFO, and the
Router hands on from the head, the frames before it first, until one has to wait or none is left: it stays behind a frame
that must wait, and an empty FIFO hands it on at once. That the command stands for its frame's arrival is the model's choice
(log entries 2, 3 and 6). -/
def Obligations.ArrivingFrameIsQueuedThenHandedOn : Prop :=
  ∀ (s : State) (i : Instr) (f : Frame), handedFrame i = some f → s.rx.fifo.head? ≠ some f →
    (s.rx.down = true → exec i s = .next s) ∧
    (s.rx.down = false →
      (4096 < f.body.length → Completes i s fun t => Event s t (worksOf s) 0 [entry s .frameCheck]) ∧
      (f.body.length ≤ 4096 → 32768 < s.fill + f.size → Completes i s fun t =>
        Event s t (worksOf s) 0 [entry s .intakeOverrun]) ∧
      (f.body.length ≤ 4096 → s.fill + f.size ≤ 32768 → ∃ u, Joins s u f ∧
        (Completes i s fun t => HandsOn u t) ∧ (s.rx.fifo = [] → exec i s = exec i u) ∧
        (∀ g rest, s.rx.fifo = g :: rest → mayLeave s g = false → exec i s = .next u)))

/-- A CTRL frame at the head of the FIFO waits while the Interpreter is busy, unless it holds a whole header with the RESET
kind. -/
def Obligations.BusyInterpreterHoldsCtrlFrames : Prop :=
  ∀ (s : State) (i : Instr) (body : List Byte), handedFrame i = some { kind := .ctrl, body := body } →
    s.rx.fifo.head? = some { kind := .ctrl, body := body } → s.interp.state ≠ .free →
    ¬ (4 ≤ body.length ∧ body.head? = some 0x5F#8) → exec i s = .next s

/-- What every record passes before its own checks. A CTRL frame of fewer than four bytes posts UNKNOWN_FRAME and is not
answered. A record whose kind is not in the catalogue is refused with UNKNOWN_KIND; of the others, but for RESET, one
whose parameters have another length than its layout gives with BAD_LENGTH, and one of the right length whose notify byte
is neither 0 nor 1 with BAD_VALUE. -/
def Obligations.FormChecksComeFirst : Prop :=
  ∀ s : State, s.interp.state = .free →
    (∀ body : List Byte, body.length < 4 → s.rx.fifo.head? = some { kind := .ctrl, body := body } →
      Completes (.ctrlFrameNoHeader body) s fun t =>
        Takes s t (worksOf s) 0 [entry s .unknownFrame] .silent s.interp.syncs) ∧
    (∀ (kind : Byte) (h : Header) (p : List Byte), RecordKind.ofCode kind = none →
      s.rx.fifo.head? = some { kind := .ctrl, body := recordBody kind h p } →
      Completes (.unknownKind kind h p) s fun t => Refused s t kind h .unknownKind) ∧
    (∀ (k : RecordKind) (h : Header) (p : List Byte), k ≠ .reset → s.rx.fifo.head? = some (recordFrame k h p) →
      (k.lengthOk p = false → Completes (k.command h p) s fun t => Refused s t k.code h .badLength) ∧
      (k.lengthOk p = true → 1 < h.notify.toNat → Completes (k.command h p) s fun t =>
        Refused s t k.code h .badValue))

/-! ## CELL frames -/

/-- The body of a CELL frame carries its segment as the layout gives it; a body of any other form is malformed. -/
def Obligations.SegmentLayoutIsReadBack : Prop :=
  (∀ g : Segment, 1 ≤ g.cells.length → g.cells.length ≤ 2000 → g.track < 65536 → g.firstCell < 65536 →
    segmentOf (segmentBody g) = some g) ∧
  ∀ body : List Byte, (body.length < 8 ∨ u16At body 6 = 0 ∨ 2000 < u16At body 6 ∨ body.length ≠ 8 + 2 * u16At body 6) →
    segmentOf body = none

namespace Sys2Proof.Claims

/-- The cells already held for a segment's track, and the side of the slot ASSEMBLING it: slot 0 is `false`. -/
def assembling (l : Lane) (k : Nat) : Option (Bool × List Cell) :=
  match l.slot0, l.slot1 with
  | .held .assembling n cells, other =>
    if n = k then some (false, cells) else match other with
      | .held .assembling m more => if m = k then some (true, more) else none
      | _ => none
  | _, .held .assembling m more => if m = k then some (true, more) else none
  | _, _ => none

/-- The FREE slot that a new track takes: slot 0 before slot 1 (R87). -/
def freeSlot (l : Lane) : Option Bool :=
  if l.slot0 = .free then some false else if l.slot1 = .free then some true else none

/-- The lane with the slot of one side replaced. -/
def putSlot (l : Lane) (side : Bool) (t : TrackSlot) : Lane :=
  if side then { l with slot1 := t } else { l with slot0 := t }

/-- The cells that count as held for a segment (R88). -/
def heldFor (l : Lane) (g : Segment) : List Cell :=
  if g.first then [] else ((assembling l g.track).map Prod.snd).getD []

/-- The lane once the partial assembly of a track is discarded (R89, R91). -/
def discarded (l : Lane) (k : Nat) : Lane :=
  match assembling l k with
  | some (side, _) => putSlot l side .free
  | none => l

/-- The first of checks 2 to 7 that a segment fails, and the lane after the refusal (R86 to R91). -/
def segmentRefusal (l : Lane) (g : Segment) : Option (ErrorCode × Lane) :=
  if g.track ≠ l.next ∨ l.tracks ≤ l.next then some (.trackSequence, l)
  else if assembling l g.track = none ∧ freeSlot l = none then some (.laneNoRoom, l)
  else if g.first = false ∧ assembling l g.track = none then some (.segmentGap, l)
  else if g.firstCell ≠ (heldFor l g).length then some (.segmentGap, l)
  else if l.pattern < (heldFor l g).length + g.cells.length then some (.trackOverlong, discarded l g.track)
  else if g.last = true ∧ (heldFor l g).length + g.cells.length ≠ l.pattern then
    some (.trackSeam, discarded l g.track)
  else none

/-- The lane after an accepted segment (R90, R91). -/
def accepted (l : Lane) (g : Segment) : Lane :=
  let side := match assembling l g.track with
    | some (side, _) => side
    | none => (freeSlot l).getD false
  let use : SlotUse := if g.last then .complete else .assembling
  let placed := putSlot l side (.held use g.track (heldFor l g ++ g.cells))
  if g.last then { placed with next := l.next + 1 } else placed

end Sys2Proof.Claims

/-- A CELL frame at the head is taken whatever the Interpreter does. A malformed body posts UNKNOWN_FRAME, and a tag that no
OPEN lane carries posts UNKNOWN_LANE; no lane changes. -/
def Obligations.CellFrameWithoutALaneIsRefused : Prop :=
  ∀ (s : State) (body : List Byte), s.rx.fifo.head? = some { kind := .cell, body := body } →
    (segmentOf body = none → Completes (.cellFrame body) s fun t =>
      Takes s t (worksOf s) 0 [entry s .unknownFrame] .silent s.interp.syncs) ∧
    (∀ g, segmentOf body = some g → (∀ h : HeadNo, ∀ l, s.lanes[h] = some l → l.tag ≠ g.tag) →
      Completes (.cellFrame body) s fun t =>
        Takes s t (worksOf s) 0 [entry s .unknownLane none (some g.tag) (some g.track)] .silent s.interp.syncs)

/-- A segment for the OPEN lane of a head meets checks 2 to 7 in their order. The first that fails refuses it whole with one
post; a segment that passes is stored whole, and a LAST one completes its track. -/
def Obligations.SegmentIsCheckedInOrder : Prop :=
  ∀ (s : State) (body : List Byte) (g : Segment) (h : HeadNo) (l : Lane),
    s.rx.fifo.head? = some { kind := .cell, body := body } → segmentOf body = some g → s.lanes[h] = some l →
    l.tag = g.tag → (∀ k : HeadNo, ∀ m, s.lanes[k] = some m → m.tag = g.tag → k = h) →
    Completes (.cellFrame body) s fun t =>
      match segmentRefusal l g with
      | some (code, after) =>
        Takes s t { worksOf s with lanes := updAt s.lanes h fun _ => some after } 0
          [entry s code (some h) (some g.tag) (some g.track)] .silent s.interp.syncs
      | none =>
        Takes s t { worksOf s with lanes := updAt s.lanes h fun _ => some (accepted l g) } 0 [] .silent s.interp.syncs

/-! ## Screens and gradation tables -/

/-- SET SCREEN and CLEAR SCREEN: BAD_VALUE for a field out of range, then SLOT_BOUND for a bound slot; otherwise the slot
takes the whole record, or becomes EMPTY. -/
def Obligations.ScreenRecordsWriteUnboundSlots : Prop :=
  ∀ (s : State) (h : Header) (p : List Byte),
    (p.length = 6 → AtHead s .setScreen h p →
      let ok := u8At p 0 < 8 ∧ 256 ≤ u16At p 1 ∧ u16At p 1 ≤ 32768 ∧ u16At p 4 ≤ 1000
      (¬ ok → Completes (.setScreen h p) s fun t => Refused s t 0x08 h .badValue) ∧
      (ok → ∀ slot : Fin 8, u8At p 0 = slot.val → Completes (.setScreen h p) s fun t =>
        if s.screens[slot].binds ≠ 0 then Refused s t 0x08 h .slotBound
        else Succeeds s t { worksOf s with screens := updAt s.screens slot fun g =>
          { g with screen := some { cells := u16At p 1, stagger := u8At p 3, minDepth := u16At p 4 } } } .setScreen h)) ∧
    (p.length = 1 → AtHead s .clearScreen h p →
      (8 ≤ u8At p 0 → Completes (.clearScreen h p) s fun t => Refused s t 0x09 h .badValue) ∧
      (∀ slot : Fin 8, u8At p 0 = slot.val → Completes (.clearScreen h p) s fun t =>
        if s.screens[slot].binds ≠ 0 then Refused s t 0x09 h .slotBound
        else Succeeds s t { worksOf s with screens := updAt s.screens slot fun g => { g with screen := none } }
          .clearScreen h))

namespace Sys2Proof.Claims

/-- The works with a gradation slot's state and table written. -/
def withTable (s : State) (slot : Fin 16) (t : Table) : Works :=
  { worksOf s with grads := updAt s.grads slot fun g => { g with table := t } }

/-- The breakpoints that a LOAD CURVE's parameters list. -/
def curvePoints (p : List Byte) : List Breakpoint :=
  (List.range (u8At p 1)).map fun i => { tone := u8At p (2 + 3 * i), depth := u16At p (3 + 3 * i) }

/-- The conditions of R26 on the breakpoints of a curve. -/
def curveValid (points : List Breakpoint) : Prop :=
  2 ≤ points.length ∧ points.length ≤ 17 ∧ points.head?.map Breakpoint.tone = some 0 ∧
  points.getLast?.map Breakpoint.tone = some 255 ∧ points.Pairwise (fun a b => a.tone < b.tone) ∧
  ∀ b ∈ points, b.depth ≤ 1000

end Sys2Proof.Claims

/-- LOAD CURVE: BAD_VALUE for a slot or a curve that R26 refuses; then SLOT_BOUND, SLOT_BUSY, EXPANDER_FULL in that order;
otherwise the slot is EXPANDING, the load joins the Expansion Queue with its notify and tag, and nothing is answered. -/
def Obligations.LoadCurveQueuesItsLoad : Prop :=
  ∀ (s : State) (h : Header) (p : List Byte), 2 ≤ p.length → p.length = 2 + 3 * u8At p 1 → AtHead s .loadCurve h p →
    ((¬ (u8At p 0 < 16 ∧ curveValid (curvePoints p))) → Completes (.loadCurve h p) s fun t =>
      Refused s t 0x01 h .badValue) ∧
    (curveValid (curvePoints p) → ∀ slot : Fin 16, u8At p 0 = slot.val → Completes (.loadCurve h p) s fun t =>
      if s.grads[slot].binds ≠ 0 then Refused s t 0x01 h .slotBound
      else if s.grads[slot].table = .expanding then Refused s t 0x01 h .slotBusy
      else if 4 ≤ s.expander.queue.length then Refused s t 0x01 h .expanderFull
      else Takes s t
        { withTable s slot .expanding with expander := { s.expander with queue := s.expander.queue ++
          [{ slot := slot, points := curvePoints p, notify := h.notify = 1, tag := h.tag }] } }
        0 [] .silent s.interp.syncs)

/-- LOAD TABLE: BAD_VALUE, SLOT_BOUND, SLOT_BUSY in that order; otherwise the slot is READY with the 256 depths, each clamped
to 1000, and the code says whether one was clamped. -/
def Obligations.LoadTableClampsDepths : Prop :=
  ∀ (s : State) (h : Header) (p : List Byte), p.length = 513 → AtHead s .loadTable h p →
    (16 ≤ u8At p 0 → Completes (.loadTable h p) s fun t => Refused s t 0x02 h .badValue) ∧
    (∀ slot : Fin 16, u8At p 0 = slot.val → Completes (.loadTable h p) s fun t =>
      let depths := (List.range 256).map fun i => u16At p (1 + 2 * i)
      if s.grads[slot].binds ≠ 0 then Refused s t 0x02 h .slotBound
      else if s.grads[slot].table = .expanding then Refused s t 0x02 h .slotBusy
      else Succeeds s t (withTable s slot (.ready (depths.map (min 1000)))) .loadTable h
        (if ∃ d ∈ depths, 1000 < d then .doneClamped else .done))

/-- READ TABLE answers with the slot's 256 depths, two bytes each, or refuses with BAD_VALUE or NOT_READY, and changes
nothing. CLEAR TABLE refuses with BAD_VALUE, SLOT_BOUND or SLOT_BUSY in that order, and otherwise empties the slot. -/
def Obligations.TablesAreReadAndCleared : Prop :=
  ∀ (s : State) (h : Header) (p : List Byte), p.length = 1 →
    (AtHead s .readTable h p →
      (16 ≤ u8At p 0 → Completes (.readTable h p) s fun t => Refused s t 0x03 h .badValue) ∧
      (∀ slot : Fin 16, u8At p 0 = slot.val → Completes (.readTable h p) s fun t =>
        match s.grads[slot].table with
        | .ready depths => Succeeds s t (worksOf s) .readTable h .done (depths.flatMap (leBytes 2))
        | _ => Refused s t 0x03 h .notReady)) ∧
    (AtHead s .clearTable h p →
      (16 ≤ u8At p 0 → Completes (.clearTable h p) s fun t => Refused s t 0x04 h .badValue) ∧
      (∀ slot : Fin 16, u8At p 0 = slot.val → Completes (.clearTable h p) s fun t =>
        if s.grads[slot].binds ≠ 0 then Refused s t 0x04 h .slotBound
        else if s.grads[slot].table = .expanding then Refused s t 0x04 h .slotBusy
        else Succeeds s t (withTable s slot .empty) .clearTable h))

/-- Every tone below 255 lies on exactly one pair of a curve's breakpoints, and its entry is the depth interpolated on that
pair, rounded with a half up, between the two depths, within 0..1000 and exact at a breakpoint; tone 255 has the last
depth. -/
def Obligations.ExpandedCurveInterpolates : Prop :=
  ∀ points : List Breakpoint, curveValid points →
    (expandCurve points).length = 256 ∧
    (expandCurve points)[255]? = points.getLast?.map Breakpoint.depth ∧
    (∀ t : Nat, t < 255 → ∃! i : Nat, ∃ a b : Breakpoint,
      points[i]? = some a ∧ points[i + 1]? = some b ∧ a.tone ≤ t ∧ t < b.tone) ∧
    ∀ (i t : Nat) (a b : Breakpoint), points[i]? = some a → points[i + 1]? = some b → a.tone ≤ t → t < b.tone →
      ∃ d : Nat, (expandCurve points)[t]? = some d ∧
        let n : Int := ((b.depth : Int) - a.depth) * ((t : Int) - a.tone)
        let den : Int := (b.tone : Int) - a.tone
        (d : Int) = a.depth + (2 * n + den) / (2 * den) ∧
        min a.depth b.depth ≤ d ∧ d ≤ max a.depth b.depth ∧ d ≤ 1000 ∧ (t = a.tone → d = a.depth)

namespace Sys2Proof.Claims

/-- The outstanding SYNC set once the entries that name a slot's load are due (R174). -/
def nowDue (slot : Fin 16) (syncs : List SyncEntry) : List SyncEntry :=
  syncs.map fun e => if e.load = some slot then { e with load := none } else e

/-- The due entries, in the order of their arrival. -/
def dueOf (syncs : List SyncEntry) : List SyncEntry := syncs.filter fun e => e.load = none

/-- The set without its first `n` due entries (R174). -/
def withoutDue (n : Nat) (syncs : List SyncEntry) : List SyncEntry :=
  (syncs.foldl (fun (acc : List SyncEntry × Nat) e =>
    if e.load = none ∧ acc.2 < n then (acc.1, acc.2 + 1) else (acc.1 ++ [e], acc.2)) ([], 0)).1

/-- The RESULT that answers a SYNC (R174). -/
def syncAnswer (e : SyncEntry) : UpFrame := resultFrame e.tag 0x50 .done []

/-- The works once the load at the head of the Expansion Queue has completed (R31, R32). -/
def completedWorks (s : State) (load : Load) (rest : List Load) : Works :=
  { withTable s load.slot (.ready (expandCurve load.points)) with expander := { queue := rest, finished := false } }

/-- The RESULT that a completed load owes (R32). -/
def loadAnswer (load : Load) : List UpFrame := if load.notify then [resultFrame load.tag 0x01 .done []] else []

end Sys2Proof.Claims

/-- EXPANSION_COMPLETE: the load at the head of the queue leaves it, its slot is READY with the expanded table, its DONE is
placed if its notify is set, and behind it the SYNC answers that are due, as far as entries are free. With notify set and
the Upstream Queue full the completion waits, and nothing else changes.
That a SYNC entry names its load by the load's slot, and is due when it names none, is the model's choice (log entry 17). -/
def Obligations.ExpansionCompletes : Prop :=
  ∀ (s : State) (load : Load) (rest : List Load), s.expander.queue = load :: rest → s.tx.queue.length ≤ 64 →
    Completes .expansionComplete s fun t =>
      if load.notify = true ∧ s.tx.queue.length = 64 then
        Event s t { worksOf s with expander := { s.expander with finished := true } } 0 []
      else
        let placed := s.tx.queue ++ loadAnswer load
        let answers := (dueOf (nowDue load.slot s.interp.syncs)).take (64 - placed.length)
        worksOf t = completedWorks s load rest ∧ t.pending = s.pending ∧ t.rx = s.rx ∧
        t.tx.queue = placed ++ answers.map syncAnswer ∧
        t.interp = { s.interp with syncs := withoutDue answers.length (nowDue load.slot s.interp.syncs) } ∧
        t.tx.flowMark = s.tx.flowMark ∧ t.tx.announced = s.tx.announced ∧ t.tx.sending = s.tx.sending ∧ Posts s t 0 []

/-! ## Strike geometry and the Depth Unit -/

/-- The stagger phase of a track is its number times the stagger step mod 256, and repeats every 256 / gcd(256, step)
tracks. -/
def Obligations.StaggerPhaseRepeats : Prop :=
  ∀ step k : Nat, staggerPhase step k = (k * step) % 256 ∧ staggerPhase step k < 256 ∧
    staggerPhase step (k + 256 / Nat.gcd 256 step) = staggerPhase step k ∧ staggerPhase 0 k = 0 ∧
    staggerPhase 128 (2 * k) = 0 ∧ staggerPhase 128 (2 * k + 1) = 128

/-- With 2N at most E, successive cells of a track are struck at least two ticks apart, and every cell falls inside the
revolution, at floor((256 j + ph) E / (256 N)). -/
def Obligations.StrikesFallInsideTheRevolution : Prop :=
  ∀ (e : Nat) (x : Screen) (k j : Nat), 0 < x.cells → 2 * x.cells ≤ e →
    strikeTick e x k j = ((256 * j + (k * x.stagger) % 256) * e) / (256 * x.cells) ∧
    strikeTick e x k j + 2 ≤ strikeTick e x k (j + 1) ∧
    (j < x.cells → strikeTick e x k j ≤ e - 1)

/-- The five stages of a strike: blank by NOCUT, by a depth of 0 or below the minimum; otherwise wear, the depth and its
clamp, the drive code and its clamp; a cut only in a CUT job. -/
def Obligations.DepthUnitComputesTheStrike : Prop :=
  ∀ i : StrikeInput, 1 ≤ i.cal.maxDepth →
    let r := computeStrike i
    let blank := i.cell.nocut = true ∨ i.depth = 0 ∨ i.depth < i.minDepth
    let w := min i.cal.wearCap (i.strikes * i.cal.wearRate / 16777216)
    let raw : Int := i.cal.offset + ((2 * r.depth * i.cal.gain + 4096) / 8192 : Nat)
    r.head = i.head ∧ r.track = i.track ∧ r.index = i.index ∧ r.cell = i.cell ∧
    (r.blank = true ↔ blank) ∧ (r.cut = true ↔ ¬ blank ∧ i.mode = .cut) ∧
    (blank → r.depth = 0 ∧ r.code = i.cal.rest ∧ r.depthClamped = false ∧ r.driveClamped = false) ∧
    (¬ blank →
      r.depth = min (i.depth + w) i.cal.maxDepth ∧ 1 ≤ r.depth ∧ r.depth ≤ i.cal.maxDepth ∧
      (r.depthClamped = true ↔ i.cal.maxDepth < i.depth + w) ∧
      (raw < 0 → r.code = 0 ∧ r.driveClamped = true) ∧ (4095 < raw → r.code = 4095 ∧ r.driveClamped = true) ∧
      (0 ≤ raw → raw ≤ 4095 → (r.code : Int) = raw ∧ r.driveClamped = false) ∧ r.code ≤ 4095)

/-! ## Heads -/

namespace Sys2Proof.Claims

/-- The calibration record that SET HEAD's parameters carry (R60, R186). -/
def calibrationIn (p : List Byte) : Calibration :=
  { gain := u16At p 1, offset := s16At p 3, rest := u16At p 5, maxDepth := u16At p 7, wearRate := u8At p 9,
    wearCap := u8At p 10, readyPolarity := if u8At p 11 = 0 then .normal else .inverted,
    alarmPolarity := if u8At p 12 = 0 then .normal else .inverted }

/-- Whether SET HEAD's parameters lie in the ranges of R60. -/
def calibrationOk (p : List Byte) : Prop :=
  u8At p 0 < 8 ∧ 1 ≤ u16At p 1 ∧ -2048 ≤ s16At p 3 ∧ s16At p 3 ≤ 2047 ∧ u16At p 5 ≤ 4095 ∧ 1 ≤ u16At p 7 ∧
  u16At p 7 ≤ 1000 ∧ u8At p 10 ≤ 200 ∧ u8At p 11 ≤ 1 ∧ u8At p 12 ≤ 1

/-- A code byte as one byte. -/
def code1 (n : Nat) : List Byte := [BitVec.ofNat 8 n]

end Sys2Proof.Claims

/-- SET HEAD: BAD_VALUE for a field out of range, then WRONG_STATE unless the head is OUT; otherwise the calibration is
replaced whole, the head is calibrated, and both lines are re-read under the new polarities. -/
def Obligations.SetHeadReplacesTheCalibration : Prop :=
  ∀ (s : State) (h : Header) (p : List Byte), p.length = 13 → AtHead s .setHead h p →
    (¬ calibrationOk p → Completes (.setHead h p) s fun t => Refused s t 0x10 h .badValue) ∧
    (calibrationOk p → ∀ head : HeadNo, u8At p 0 = head.val → Completes (.setHead h p) s fun t =>
      if s.seq.heads[head].state ≠ .out then Refused s t 0x10 h .wrongState
      else
        let c := calibrationIn p
        Succeeds s t { worksOf s with ports := updAt s.ports head fun q =>
          { q with cal := c, calibrated := true, ready := normal c.readyPolarity q.readyLine,
                   alarm := normal c.alarmPolarity q.alarmLine } } .setHead h)

/-- READ HEAD answers with the head's calibration, flags, strike counter, inputs and state, and changes nothing. STYLUS
CHANGE sets the strike counter to 0, but not of a CUTTING head. Both refuse a head number over 7. -/
def Obligations.ReadHeadAndStylusChange : Prop :=
  ∀ (s : State) (h : Header) (p : List Byte), p.length = 1 →
    (AtHead s .readHead h p →
      (8 ≤ u8At p 0 → Completes (.readHead h p) s fun t => Refused s t 0x11 h .badValue) ∧
      (∀ head : HeadNo, u8At p 0 = head.val → Completes (.readHead h p) s fun t =>
        let q := s.ports[head]
        Succeeds s t (worksOf s) .readHead h .done
          (leBytes 2 q.cal.gain ++ leBytes 2 (q.cal.offset % 65536).toNat ++ leBytes 2 q.cal.rest ++
            leBytes 2 q.cal.maxDepth ++ code1 q.cal.wearRate ++ code1 q.cal.wearCap ++
            [flagByte (q.cal.readyPolarity = .inverted), flagByte (q.cal.alarmPolarity = .inverted),
             flagByte q.calibrated] ++
            leBytes 4 q.strikes ++ [flagByte q.ready, flagByte q.alarm] ++ code1 s.seq.heads[head].state.code))) ∧
    (AtHead s .stylusChange h p →
      (8 ≤ u8At p 0 → Completes (.stylusChange h p) s fun t => Refused s t 0x12 h .badValue) ∧
      (∀ head : HeadNo, u8At p 0 = head.val → Completes (.stylusChange h p) s fun t =>
        if s.cutting head then Refused s t 0x12 h .wrongState
        else Succeeds s t { worksOf s with ports := updAt s.ports head fun q => { q with strikes := 0 } } .stylusChange h))

/-- CLEAR FAULT: BAD_VALUE for a head number over 7, then WRONG_STATE unless the head is FAULTED with ALARM deasserted and
the job ARMED, or HOLDING with the fault-position flag set; otherwise the head goes to ARMED or WAITING, or to FINISHED if
no track is left. -/
def Obligations.ClearFaultReturnsTheHead : Prop :=
  ∀ (s : State) (h : Header) (p : List Byte), p.length = 1 → AtHead s .clearFault h p →
    (8 ≤ u8At p 0 → Completes (.clearFault h p) s fun t => Refused s t 0x13 h .badValue) ∧
    (∀ head : HeadNo, u8At p 0 = head.val → Completes (.clearFault h p) s fun t =>
      let i := s.seq.heads[head]
      if i.state = .faulted ∧ s.ports[head].alarm = false ∧
          (s.seq.state = .armed ∨ s.seq.state = .holding ∧ i.faultPosition = true) then
        Succeeds s t { worksOf s with seq := { s.seq with heads := updAt s.seq.heads head fun i =>
          { i with state :=
              if s.seq.plan[head].map PlanEntry.tracks = some i.next then .finished
              else if s.seq.state = .armed then .armed else .waiting } } } .clearFault h
      else Refused s t 0x13 h .wrongState)

/-! ## Jobs -/

namespace Sys2Proof.Claims

/-- A job that is ARMED, RUNNING or HOLDING. -/
def jobInHand (s : State) : Prop := s.seq.state = .armed ∨ s.seq.state = .running ∨ s.seq.state = .holding

/-- The works with the Track Sequencer replaced. -/
def withSeq (s : State) (q : Sequencer) : Works := { worksOf s with seq := q }

/-- Whether SET JOB's parameters lie in the values of R103. -/
def jobOk (p : List Byte) : Prop :=
  u8At p 0 ≤ 1 ∧ u8At p 1 ≤ 1 ∧ 1024 ≤ u32At p 2 ∧ u32At p 2 ≤ 1048576 ∧ 1 ≤ u16At p 6 ∧ u8At p 8 ≤ 1 ∧
  u8At p 10 ≤ 1 ∧ u8At p 11 ≤ 1

/-- The job record that SET JOB's parameters carry (R103, R186, R187). -/
def jobIn (p : List Byte) : JobRecord :=
  { mode := if u8At p 0 = 0 then .cut else .dry, source := if u8At p 1 = 0 then .external else .internal,
    e := u32At p 2, period := u16At p 6, policy := if u8At p 8 = 0 then .carryOn else .holdAll,
    stallLimit := u8At p 9, tallySource := if u8At p 10 = 0 then .tone else .depth, markStop := u8At p 11 = 1 }

/-- Whether PLAN HEAD's parameters lie in the values of R105. -/
def planOk (p : List Byte) : Prop :=
  u8At p 0 < 8 ∧ u8At p 2 < 8 ∧ u8At p 3 < 16 ∧ 1 ≤ u8At p 4 ∧ u8At p 4 ≤ 16 ∧ 1 ≤ u16At p 5

end Sys2Proof.Claims

/-- SET JOB, PLAN HEAD and CLEAR PLAN: BAD_VALUE for a field out of range, then WRONG_STATE while a job is ARMED, RUNNING or
HOLDING; otherwise the job record, or the head's plan entry, is replaced whole, or the named entries are cleared. -/
def Obligations.JobAndPlanRecordsWriteWhole : Prop :=
  ∀ (s : State) (h : Header) (p : List Byte),
    (p.length = 12 → AtHead s .setJob h p →
      (¬ jobOk p → Completes (.setJob h p) s fun t => Refused s t 0x20 h .badValue) ∧
      (jobOk p → jobInHand s → Completes (.setJob h p) s fun t => Refused s t 0x20 h .wrongState) ∧
      (jobOk p → ¬ jobInHand s → Completes (.setJob h p) s fun t =>
        Succeeds s t (withSeq s { s.seq with job := jobIn p }) .setJob h)) ∧
    (p.length = 7 → AtHead s .planHead h p →
      (¬ planOk p → Completes (.planHead h p) s fun t => Refused s t 0x21 h .badValue) ∧
      (planOk p → jobInHand s → Completes (.planHead h p) s fun t => Refused s t 0x21 h .wrongState) ∧
      (planOk p → ¬ jobInHand s → ∀ (head screen : Fin 8) (grad : Fin 16), u8At p 0 = head.val →
        u8At p 2 = screen.val → u8At p 3 = grad.val →
        let e : PlanEntry :=
          { tag := p.getD 1 0, screen := screen, grad := grad, repeats := u8At p 4, tracks := u16At p 5 }
        Completes (.planHead h p) s fun t =>
          Succeeds s t (withSeq s { s.seq with plan := updAt s.seq.plan head fun _ => some e }) .planHead h)) ∧
    (p.length = 1 → AtHead s .clearPlan h p →
      (8 ≤ u8At p 0 → u8At p 0 ≠ 255 → Completes (.clearPlan h p) s fun t => Refused s t 0x22 h .badValue) ∧
      (u8At p 0 < 8 ∨ u8At p 0 = 255 → jobInHand s → Completes (.clearPlan h p) s fun t =>
        Refused s t 0x22 h .wrongState) ∧
      (u8At p 0 < 8 ∨ u8At p 0 = 255 → ¬ jobInHand s → Completes (.clearPlan h p) s fun t =>
        Succeeds s t (withSeq s { s.seq with plan := mapAll (fun g x =>
          if u8At p 0 = 255 ∨ u8At p 0 = g.val then none else x) s.seq.plan }) .clearPlan h))

namespace Sys2Proof.Claims

/-- Conditions 3a to 3g of R110 for a planned head, in order, each with the code of its reason (R187). -/
def armChecks (s : State) (h : HeadNo) (e : PlanEntry) : List (Bool × Nat) :=
  let cells := ((s.screens[e.screen].screen).map Screen.cells).getD 0
  [(allHeads.all fun g => !(decide (g < h) && decide (s.seq.plan[g].map PlanEntry.tag = some e.tag)), 3),
   (s.ports[h].calibrated, 4),
   ((s.screens[e.screen].screen).isSome, 5),
   (match s.grads[e.grad].table with
    | .ready _ => true
    | _ => false, 6),
   (2 * cells ≤ s.seq.job.e, 7),
   (cells % e.repeats = 0, 8),
   (!s.ports[h].alarm, 9)]

/-- Every condition of R110 in order, each with the code of its reason and the head it names, or 255. -/
def allArmChecks (s : State) : List (Bool × Nat × Nat) :=
  [(allHeads.any fun h => s.seq.plan[h].isSome, 1, 255),
   (decide (s.seq.job.source = .external) || decide (s.seq.job.mode = .dry), 2, 255)] ++
  allHeads.flatMap fun h => match s.seq.plan[h] with
    | some e => (armChecks s h e).map fun c => (c.1, c.2, h.val)
    | none => []

/-- The number of planned heads of which a test of the plan entry holds. -/
def planned (s : State) (ok : PlanEntry → Bool) : Nat := allHeads.countP fun h => s.seq.plan[h].any ok

/-- The Monitor after an accepted ARM (R3). -/
def armedMonitor (m : Monitor) (j : JobRecord) : Monitor :=
  if j.source = .internal ∨ m.source ≠ j.source ∨ m.e ≠ j.e then
    { m with sync := .unsynced, count := 0, source := j.source, e := j.e, period := j.period, genNext := 0 }
  else m

/-- The works after an accepted ARM (R111, R16, R24, R80, R108, R109, R133). -/
def armedWorks (s : State) : Works :=
  { worksOf s with
    screens := mapAll (fun i x => { x with binds := x.binds + planned s fun e => e.screen = i }) s.screens
    grads := mapAll (fun i x => { x with binds := x.binds + planned s fun e => e.grad = i }) s.grads
    tallies := Vector.replicate 8 Tally.clear
    lanes := mapAll (fun _ e => e.bind fun e => (s.screens[e.screen].screen).map fun x =>
      { tag := e.tag, pattern := x.cells / e.repeats, tracks := e.tracks, next := 0, slot0 := .free, slot1 := .free })
      s.seq.plan
    monitor := armedMonitor s.monitor s.seq.job
    seq := { s.seq with
      state := .armed, hold := false, advances := 0, idle := 0, consecutiveIdle := 0, retained := false,
      stalled := false
      heads := mapAll (fun _ e =>
        { state := if e.isSome then .armed else .out, next := 0, interrupted := false, faultPosition := false,
          justCut := none }) s.seq.plan } }

end Sys2Proof.Claims

/-- ARM: WRONG_STATE while a job is in hand; PLAN_INVALID with the reason and head of the first condition that fails, in the
order of the table of R110; otherwise the slots are bound, the tallies cleared, the lanes opened, the Monitor set, and the
planned heads and the job ARMED, as one event.
That the generator's place goes to 0 is the model's choice (log entry 11). -/
def Obligations.ArmTestsThePlanAndArms : Prop :=
  ∀ (s : State) (h : Header), AtHead s .arm h [] →
    (jobInHand s → Completes (.arm h []) s fun t => Refused s t 0x23 h .wrongState) ∧
    (¬ jobInHand s → Completes (.arm h []) s fun t =>
      match (allArmChecks s).find? fun c => !c.1 with
      | some (_, reason, head) => Refused s t 0x23 h .planInvalid (code1 reason ++ code1 head)
      | none => Succeeds s t (armedWorks s) .arm h)

/-- START runs an ARMED job with its ARMED heads WAITING, and HOLD sets the hold request of a RUNNING job and changes
nothing in a HOLDING one; in any other job state both are refused with WRONG_STATE. -/
def Obligations.StartAndHold : Prop :=
  ∀ (s : State) (h : Header),
    (AtHead s .start h [] → Completes (.start h []) s fun t =>
      if s.seq.state = .armed then
        Succeeds s t (withSeq s { s.seq with
          state := .running
          heads := mapAll (fun _ i => if i.state = .armed then { i with state := .waiting } else i) s.seq.heads })
          .start h
      else Refused s t 0x24 h .wrongState) ∧
    (AtHead s .hold h [] → Completes (.hold h []) s fun t =>
      if s.seq.state = .running then Succeeds s t (withSeq s { s.seq with hold := true }) .hold h
      else if s.seq.state = .holding then Succeeds s t (worksOf s) .hold h
      else Refused s t 0x25 h .wrongState)

namespace Sys2Proof.Claims

/-- Whether a lane holds an INTERRUPTED slot. -/
def holdsInterrupted (l : Option Lane) : Bool :=
  l.any fun l => [l.slot0, l.slot1].any fun t => match t with
    | .held .interrupted _ _ => true
    | _ => false

/-- The works after RESUME with DISCARD (R97, R127). -/
def discardedWorks (s : State) : Works :=
  { worksOf s with
    lanes := mapAll (fun h => Option.map fun l =>
      if s.seq.heads[h].interrupted then bothSlots (slotTo .interrupted .retained fun _ => true) l else l) s.lanes
    seq := { s.seq with
      state := .running
      hold := false
      retained := s.seq.retained || allHeads.any fun h => s.seq.heads[h].interrupted && holdsInterrupted s.lanes[h]
      heads := mapAll (fun h i =>
        if i.interrupted then
          { i with
            interrupted := false
            next := i.next + 1
            state := if i.state = .waiting ∧ s.seq.plan[h].map PlanEntry.tracks = some (i.next + 1) then .finished
              else i.state }
        else i) s.seq.heads } }

end Sys2Proof.Claims

/-- RESUME: BAD_VALUE for an option that is neither, then WRONG_STATE unless the job is RUNNING or HOLDING; otherwise the job
is RUNNING with no hold request, and DISCARD counts every interrupted track as cut. -/
def Obligations.ResumeRunsTheJobAgain : Prop :=
  ∀ (s : State) (h : Header) (p : List Byte), p.length = 1 → AtHead s .resume h p →
    (1 < u8At p 0 → Completes (.resume h p) s fun t => Refused s t 0x26 h .badValue) ∧
    (u8At p 0 ≤ 1 → Completes (.resume h p) s fun t =>
      if s.seq.state = .running ∨ s.seq.state = .holding then
        Succeeds s t
          (if u8At p 0 = 0 then withSeq s { s.seq with state := .running, hold := false } else discardedWorks s)
          .resume h
      else Refused s t 0x26 h .wrongState)

/-- ABORT ends an ARMED, RUNNING or HOLDING job with outcome ABORTED: every head LIFTED and OUT, every lane CLOSED, every
bind count 0, JOB_ENDED raised. In IDLE and ENDED it is refused with WRONG_STATE. -/
def Obligations.AbortEndsTheJob : Prop :=
  ∀ (s : State) (h : Header), AtHead s .abort h [] →
    (¬ jobInHand s → Completes (.abort h []) s fun t => Refused s t 0x27 h .wrongState) ∧
    (jobInHand s → Completes (.abort h []) s fun t =>
      Takes s t (endedWorks (worksOf s) .aborted) (endedRaised s) [] (successReply .abort h) s.interp.syncs)

/-! ## Mark counter, tallies and captures -/

namespace Sys2Proof.Claims

/-- One head's part of READ TALLY's payload (R187). -/
def tallyBytes (h : HeadNo) (t : Tally) : List Byte :=
  code1 h.val ++ leBytes 4 t.currentTrack ++ leBytes 4 t.lastTrack ++ leBytes 6 t.job ++ leBytes 4 t.cut ++
    leBytes 4 t.uncut ++ leBytes 4 t.depthClamps ++ leBytes 4 t.driveClamps

/-- READ TALLY's payload for the heads selected (R137, R187). -/
def tallyReply (s : State) (heads : List HeadNo) : List Byte :=
  code1 s.seq.job.tallySource.code ++ leBytes 4 s.markCounter ++ [flagByte s.seq.job.markStop] ++
    heads.flatMap fun h => tallyBytes h s.tallies[h]

end Sys2Proof.Claims

/-- SET MARK COUNT writes the mark counter and the mark-stop setting in any job state, or is refused with BAD_VALUE. READ
TALLY answers with the tally source, the mark counter, mark-stop and the tallies selected, and changes nothing. -/
def Obligations.MarkCountAndTallyRecords : Prop :=
  ∀ (s : State) (h : Header) (p : List Byte),
    (p.length = 5 → AtHead s .setMarkCount h p → Completes (.setMarkCount h p) s fun t =>
      if 1 < u8At p 4 then Refused s t 0x30 h .badValue
      else Succeeds s t { worksOf s with
        markCounter := u32At p 0
        seq := { s.seq with job := { s.seq.job with markStop := u8At p 4 = 1 } } } .setMarkCount h) ∧
    (p.length = 1 → AtHead s .readTally h p →
      (8 ≤ u8At p 0 → u8At p 0 ≠ 255 → Completes (.readTally h p) s fun t => Refused s t 0x31 h .badValue) ∧
      (u8At p 0 = 255 → Completes (.readTally h p) s fun t =>
        Succeeds s t (worksOf s) .readTally h .done (tallyReply s [0, 1, 2, 3, 4, 5, 6, 7])) ∧
      (∀ head : HeadNo, u8At p 0 = head.val → Completes (.readTally h p) s fun t =>
        Succeeds s t (worksOf s) .readTally h .done (tallyReply s [head])))

namespace Sys2Proof.Claims

/-- Whether DEFINE CAPTURE's parameters lie in the values of R142. -/
def captureOk (p : List Byte) : Prop :=
  1 ≤ u8At p 0 ∧ u8At p 0 ≤ 8 ∧ u8At p 1 < 8 ∧ u16At p 2 ≤ 65534 ∧ u16At p 4 ≤ 32767 ∧ 1 ≤ u16At p 6 ∧
  u16At p 6 ≤ 16384

/-- The entries that the captures of the list reserve (R142). -/
def reserved (s : State) : Nat := (s.captures.map fun c => c.length).sum

end Sys2Proof.Claims

/-- DEFINE CAPTURE: BAD_VALUE for a field out of range or an id in use, then NO_SPACE; otherwise a WAITING capture with no
entry joins the list. DELETE CAPTURE takes a capture off the list, or is refused with BAD_VALUE. LIST CAPTURES answers
with the free entries and the list. -/
def Obligations.CaptureListRecords : Prop :=
  ∀ (s : State) (h : Header) (p : List Byte),
    (p.length = 8 → AtHead s .defineCapture h p →
      (¬ captureOk p → Completes (.defineCapture h p) s fun t => Refused s t 0x32 h .badValue) ∧
      (captureOk p → ∀ head : HeadNo, u8At p 1 = head.val → Completes (.defineCapture h p) s fun t =>
        if ∃ c ∈ s.captures, c.id = u8At p 0 then Refused s t 0x32 h .badValue
        else if 16384 < reserved s + u16At p 6 then Refused s t 0x32 h .noSpace
        else Succeeds s t { worksOf s with captures := s.captures ++
          [{ id := u8At p 0, head := head, track := u16At p 2, first := u16At p 4, length := u16At p 6,
             state := .waiting, entries := [] }] } .defineCapture h)) ∧
    (p.length = 1 → AtHead s .deleteCapture h p → Completes (.deleteCapture h p) s fun t =>
      if ∃ c ∈ s.captures, c.id = u8At p 0 then
        Succeeds s t { worksOf s with captures := s.captures.filter fun c => c.id ≠ u8At p 0 } .deleteCapture h
      else Refused s t 0x33 h .badValue) ∧
    (AtHead s .listCaptures h [] → Completes (.listCaptures h []) s fun t =>
      Succeeds s t (worksOf s) .listCaptures h .done
        (leBytes 2 (16384 - reserved s) ++ code1 s.captures.length ++ s.captures.flatMap fun c =>
          code1 c.id ++ code1 c.head.val ++ leBytes 2 c.track ++ leBytes 2 c.first ++ leBytes 2 c.length ++
            code1 c.state.code ++ leBytes 2 c.entries.length))

namespace Sys2Proof.Claims

/-- A captured entry's six bytes (R188). -/
def captureEntryBytes (e : CaptureEntry) : List Byte :=
  e.tone :: code1 ((if e.mark then 1 else 0) + (if e.nocut then 2 else 0) + (if e.depthClamped then 4 else 0) +
    (if e.driveClamped then 8 else 0)) ++ leBytes 2 e.depth ++ leBytes 2 e.code

/-- The next frame of the readback of a capture, and the Interpreter's state once it is placed (R151, R188). -/
def nextFrame (c : Capture) (rb : Readback) : UpFrame × InterpState :=
  let n := min 500 (rb.n - rb.next)
  if rb.next < rb.n then
    ({ kind := .captureData, body := code1 c.id ++ leBytes 2 rb.next ++ leBytes 2 n ++
         ((c.entries.drop rb.next).take n).flatMap captureEntryBytes },
     .streaming { rb with next := rb.next + n })
  else (resultFrame rb.tag 0x35 .done (code1 c.id ++ leBytes 2 rb.n ++ code1 c.state.code), .free)

/-- A CTRL frame stands at the head of the FIFO. -/
def ctrlWaits (s : State) : Bool := s.rx.fifo.head?.any fun f => f.kind = .ctrl

/-- A command ends in the state `u`, and, if that has freed the Interpreter for a CTRL frame at the head of the FIFO, in the
handing on of that frame at the same event (R160). -/
def EndsThenHandsOn (i : Instr) (s : State) (post : State → Prop) : Prop :=
  ∃ u, post u ∧
    if s.interp.state ≠ .free ∧ u.interp.state = .free ∧ ctrlWaits u = true then
      ∀ f, u.rx.fifo.head? = some f → exec i s = exec (commandOfFrame f) u
    else exec i s = .next u

/-- An event of the link alone: its queue, the frame being sent and the Interpreter change as given, and nothing else. -/
def LinkOnly (s t : State) (queue : List UpFrame) (sending : Option UpFrame) (interp : Interpreter) : Prop :=
  worksOf t = worksOf s ∧ t.pending = s.pending ∧ t.rx = s.rx ∧ t.tx.queue = queue ∧ t.tx.sending = sending ∧
  t.interp = interp ∧ t.tx.flowMark = s.tx.flowMark ∧ t.tx.announced = s.tx.announced ∧ t.status = s.status ∧
  t.tx.notice = s.tx.notice

end Sys2Proof.Claims

/-- READ CAPTURE of a capture on the list makes the Interpreter STREAMING with the count fixed; an id that no capture has is
refused with BAD_VALUE. Each later frame of the readback is placed by CAPTURE_DATA_PLACED while an entry is free: up to
500 entries, and after the last the RESULT, which frees the Interpreter. At a full queue the readback becomes WAITING; that
it does so at its own CAPTURE_DATA_PLACED, and is STREAMING until then, and that one waiting CTRL frame is handed on
where the Interpreter is freed, are the model's choices (log entries 14 and 5). -/
def Obligations.CaptureIsStreamed : Prop :=
  ∀ s : State,
    (∀ (h : Header) (p : List Byte), p.length = 1 → AtHead s .readCapture h p →
      (∀ c, s.captureOf (u8At p 0) = some c → Completes (.readCapture h p) s fun t =>
        Takes s t (worksOf s) 0 [] (.streams { id := c.id, tag := h.tag, n := c.entries.length, next := 0 })
          s.interp.syncs) ∧
      (s.captureOf (u8At p 0) = none → Completes (.readCapture h p) s fun t => Refused s t 0x35 h .badValue)) ∧
    (∀ (rb : Readback) (c : Capture), s.interp.state = .streaming rb → s.captureOf rb.id = some c →
      if s.tx.queue.length < 64 then
        EndsThenHandsOn .captureDataPlaced s fun u =>
          LinkOnly s u (s.tx.queue ++ [(nextFrame c rb).1]) s.tx.sending { s.interp with state := (nextFrame c rb).2 }
      else
        Completes .captureDataPlaced s fun t =>
          LinkOnly s t s.tx.queue s.tx.sending { s.interp with state := .waitingReadback rb })

/-! ## Status, errors and flow -/

/-- Each condition bit mirrors the state of its owner; after reset LINK_DOWN and ENCODER_UNSYNCED are set and the others
clear. -/
def Obligations.ConditionBitsMirrorTheirOwners : Prop :=
  ∀ s : State,
    s.conditions.getLsbD 0 = decide (s.seq.state = .running) ∧
    s.conditions.getLsbD 1 = decide (s.seq.state = .holding) ∧
    (s.conditions.getLsbD 2 = true ↔ ∃ h : HeadNo, s.seq.heads[h].state = .faulted) ∧
    s.conditions.getLsbD 3 = s.seq.stalled ∧
    s.conditions.getLsbD 4 = decide (s.rx.flow = .paused) ∧
    s.conditions.getLsbD 5 = s.rx.down ∧
    (s.conditions.getLsbD 6 = true ↔ s.expander.queue ≠ []) ∧
    s.conditions.getLsbD 7 = decide (s.monitor.sync = .unsynced) ∧
    State.reset.conditions = 0xA0#8

/-- A post to the Error Queue: lost behind a QUEUE_OVERFLOW entry, at the tail below 32 entries, and otherwise the newest
entry gives way to QUEUE_OVERFLOW; ERROR_QUEUED is raised in each case, and the notice follows the summary. -/
def Obligations.PostsKeepTheErrorQueueBounded : Prop :=
  ∀ (s : State) (code : ErrorCode) (head : Option HeadNo) (lane : Option Byte) (track cell : Option Nat),
    let t := s.post code head lane track cell
    let e := entry s code head lane track cell
    (s.status.errors.getLast?.map ErrorEntry.code = some .queueOverflow → t.status.errors = s.status.errors) ∧
    (s.status.errors.getLast?.map ErrorEntry.code ≠ some .queueOverflow →
      (s.status.errors.length < 32 → t.status.errors = s.status.errors ++ [e]) ∧
      (32 ≤ s.status.errors.length → t.status.errors = s.status.errors.dropLast ++ [entry s .queueOverflow])) ∧
    t.status.events = s.status.events ||| OneShot.errorQueued.bit ∧ t.status.enable = s.status.enable ∧
    t.tx = { s.tx with notice := noticeAfter s t }

namespace Sys2Proof.Claims

/-- READ STATUS's payload (R10, R132, R182, R187). -/
def statusBytes (s : State) : List Byte :=
  [s.conditions] ++ leBytes 2 s.status.events.toNat ++ leBytes 2 s.status.enable.toNat ++
    code1 s.status.errors.length ++ code1 s.monitor.sync.code ++ leBytes 4 s.monitor.revolutions ++
    leBytes 4 s.monitor.lastLength ++ code1 s.seq.state.code ++ code1 s.seq.state.outcomeCode ++
    leBytes 2 s.seq.advances ++ leBytes 4 s.seq.idle ++ leBytes 4 s.seq.consecutiveIdle ++ [flagByte s.seq.hold] ++
    allHeads.flatMap fun h => code1 s.seq.heads[h].state.code ++ leBytes 2 s.seq.heads[h].next ++
      code1 ((if s.seq.heads[h].interrupted then 1 else 0) + (if s.seq.heads[h].faultPosition then 2 else 0))

/-- The state of which READ STATUS's payload is formed: as it stands once the record has left the FIFO, so that the flow
state shown is the one that the leaving brings (R156, R182). -/
def leftIntake (s : State) : State :=
  { s with rx := { s.rx with fifo := s.rx.fifo.tail, flow := flowAfterFall s (fillOf s.rx.fifo.tail) } }

end Sys2Proof.Claims

/-- READ STATUS answers with the status items, and then clears the event register, so that the summary falls and a pending
notice is withdrawn. It is the model's choice that the items are those of the state in which the record's own frame has left
the FIFO and the flow state has been judged (log entry 12). SET ENABLE refuses a mask with one of its two highest bits set,
and otherwise writes the mask and judges the summary again. -/
def Obligations.StatusIsReadAndEnabled : Prop :=
  ∀ (s : State) (h : Header) (p : List Byte),
    (AtHead s .readStatus h [] → Completes (.readStatus h []) s fun t =>
      worksOf t = worksOf s ∧
      LeavesAndReplies s t (.result (resultFrame h.tag 0x40 .done (statusBytes (leftIntake s)))) s.interp.syncs ∧
      t.status = { s.status with events := 0 } ∧ t.tx.notice = (s.tx.notice && !s.summary)) ∧
    (p.length = 2 → AtHead s .setEnable h p → Completes (.setEnable h p) s fun t =>
      if 16384 ≤ u16At p 0 then Refused s t 0x41 h .badValue
      else
        worksOf t = worksOf s ∧ LeavesAndReplies s t (successReply .setEnable h) s.interp.syncs ∧
        t.status = { s.status with enable := BitVec.ofNat 14 (u16At p 0) } ∧ t.tx.notice = noticeAfter s t)

namespace Sys2Proof.Claims

/-- READ ERROR's payload for an entry, with the number of entries left (R184, R187). -/
def errorBytes (e : ErrorEntry) (left : Nat) : List Byte :=
  code1 e.code.number ++ leBytes 4 e.revolution ++
    code1 ((if e.head.isSome then 1 else 0) + (if e.lane.isSome then 2 else 0) + (if e.track.isSome then 4 else 0) +
      (if e.cell.isSome then 8 else 0)) ++
    code1 ((e.head.map Fin.val).getD 0) ++ [e.lane.getD 0] ++ leBytes 2 (e.track.getD 0) ++
    leBytes 2 (e.cell.getD 0) ++ code1 left

end Sys2Proof.Claims

/-- READ ERROR removes the oldest entry and answers with it and the number left, or, for an empty queue, with thirteen
bytes of 0; it changes no event bit. -/
def Obligations.ErrorsAreReadOldestFirst : Prop :=
  ∀ (s : State) (h : Header), AtHead s .readError h [] → Completes (.readError h []) s fun t =>
    worksOf t = worksOf s ∧ t.status = { s.status with errors := s.status.errors.tail } ∧
    t.tx.notice = s.tx.notice ∧
    LeavesAndReplies s t (.result (resultFrame h.tag 0x42 .done (match s.status.errors with
      | [] => List.replicate 13 0
      | e :: rest => errorBytes e rest.length))) s.interp.syncs

/-- SET FLOW: BAD_VALUE for watermarks that R158 refuses; otherwise both are written and the flow state is judged at once
against them. It is the model's choice that the fill judged is the one without the record's own frame, whose leaving has
been judged under the old watermarks first (log entry 12). -/
def Obligations.SetFlowJudgesAtOnce : Prop :=
  ∀ (s : State) (h : Header) (p : List Byte), p.length = 4 → AtHead s .setFlow h p →
    let high := u16At p 0
    let low := u16At p 2
    let ok := 1024 ≤ high ∧ high ≤ 32768 ∧ low ≤ 32512 ∧ high % 256 = 0 ∧ low % 256 = 0 ∧ low < high
    let u := leftIntake s
    let flow := if u.rx.flow = .flowing ∧ high ≤ u.fill then FlowState.paused
      else if u.rx.flow = .paused ∧ u.fill ≤ low then .flowing else u.rx.flow
    (¬ ok → Completes (.setFlow h p) s fun t => Refused s t 0x48 h .badValue) ∧
    (ok → (s.tx.flowMark = if s.rx.flow = s.tx.announced then none else some s.rx.flow) →
      Completes (.setFlow h p) s fun t =>
        worksOf t = worksOf s ∧ t.pending = s.pending ∧
        t.rx = { s.rx with fifo := s.rx.fifo.tail, high := high, low := low, flow := flow } ∧
        t.tx.flowMark = (if flow = s.tx.announced then none else some flow) ∧ t.tx.announced = s.tx.announced ∧
        t.tx.sending = s.tx.sending ∧ t.tx.queue = queueAfter s (successReply .setFlow h) ∧
        t.interp = { s.interp with state := interpAfter s (successReply .setFlow h) } ∧ Posts s t 0 [])

/-! ## SYNC, RESET and the Upstream Transmitter -/

/-- SYNC is answered at once when the Expansion Queue is empty, joins the outstanding set naming the load at the queue's tail
while fewer than 16 are outstanding, and is refused with NO_SPACE otherwise.
That it names the load by the load's slot is the model's choice (log entry 17). -/
def Obligations.SyncWaitsForTheLastLoad : Prop :=
  ∀ (s : State) (h : Header), AtHead s .sync h [] → Completes (.sync h []) s fun t =>
    match s.expander.queue.getLast? with
    | none => Succeeds s t (worksOf s) .sync h
    | some load =>
      if s.interp.syncs.length < 16 then
        Takes s t (worksOf s) 0 [] .silent (s.interp.syncs ++ [{ tag := h.tag, load := some load.slot }])
      else Refused s t 0x50 h .noSpace

namespace Sys2Proof.Claims

/-- The works after RESET (R2, R36, R66, R81, R131, R138, R142, R176, R177). -/
def resetWorks (s : State) : Works :=
  { screens := mapAll (fun _ x => { x with binds := 0 }) s.screens
    grads := mapAll (fun _ g => { table := if g.table = .expanding then .empty else g.table, binds := 0 }) s.grads
    expander := { queue := [], finished := false }
    lanes := Vector.replicate 8 none
    monitor := { s.monitor with sync := .unsynced, count := 0, source := .external, e := 65536, period := 100, genNext := 0 }
    seq := { s.seq with
      job := JobRecord.default, plan := Vector.replicate 8 none, state := .idle, hold := false, retained := false,
      stalled := false
      heads := mapAll (fun _ i => { state := .out, next := i.next, interrupted := false, faultPosition := false,
                                    justCut := none }) s.seq.heads }
    ports := mapAll (fun _ q => { q with lift := .lifted, ready := normal q.cal.readyPolarity q.readyLine,
                                         alarm := normal q.cal.alarmPolarity q.alarmLine }) s.ports
    tallies := s.tallies
    markCounter := 0
    captures := []
    room := Vector.replicate 8 false }

end Sys2Proof.Claims

/-- RESET at the head of the FIFO is taken in every state of the Interpreter, whatever its notify byte and parameters: it
ends the job, empties the queues, keeps what R177 keeps, clears the event register last, and answers alone with the
loads removed and the SYNC entries discarded. It is the model's choice that the second number counts the SYNC entries that
are due and wait for room too (log entry 22), that the commands that wait stand (log entry 1), and that the generator's place
goes to 0 (log entry 11). -/
def Obligations.ResetClearsAndAnswersAlone : Prop :=
  ∀ (s : State) (h : Header) (p : List Byte), s.rx.fifo.head? = some (recordFrame .reset h p) →
    Completes (.reset h p) s fun t =>
      worksOf t = resetWorks s ∧ t.pending = s.pending ∧
      t.rx = { s.rx with fifo := [], flow := .flowing } ∧ t.interp = { state := .free, syncs := [] } ∧
      t.status = { events := 0, enable := 0, errors := [] } ∧ t.tx.flowMark = none ∧ t.tx.announced = .flowing ∧
      t.tx.notice = false ∧ t.tx.sending = s.tx.sending ∧
      t.tx.queue = [resultFrame h.tag 0x5F .done (code1 s.expander.queue.length ++ code1 s.interp.syncs.length)]

namespace Sys2Proof.Claims

/-- No claim on an entry of the Upstream Queue waits (R162). -/
def NoClaim (s : State) : Prop :=
  s.expander.finished = false ∧ dueOf s.interp.syncs = [] ∧ s.interp.state.holdsResult = false ∧
  s.interp.state.holdsReadback = false

/-- The link is free (R163). -/
def linkIsFree (s : State) : Prop := s.tx.sending = none ∧ s.rx.down = false

/-- A MARK frame (R188). -/
def markFrame (body : List Byte) : UpFrame := { kind := .mark, body := body }

/-- Nothing changes but the Transmitter, which becomes `tx`. -/
def TxOnly (s t : State) (tx : Transmitter) : Prop := t = { s with tx := tx }

/-- The Upstream Queue's oldest frame is the Transmitter's choice: the link is free and no mark and no notice is
pending (R163). -/
def queueIsNext (s : State) (f : UpFrame) (rest : List UpFrame) : Prop :=
  linkIsFree s ∧ s.tx.flowMark = none ∧ (∀ h : HeadNo, s.tx.room[h] = false) ∧ s.tx.notice = false ∧
  s.tx.queue = f :: rest

end Sys2Proof.Claims

/-- The Transmitter chooses the pending flow mark, then the ROOM mark of the lowest-numbered head, then the STATUS notice,
then the Upstream Queue's oldest frame; each leaves its source as it is sent. While a frame is being sent or the link is
down it chooses nothing, and UPSTREAM_SEND_END ends the frame being sent. It is the model's choice that the next choice comes
at a later UPSTREAM_SEND_BEGIN and not in the event that makes the link free (log entry 13), and that an UPSTREAM_SEND_BEGIN
at which nothing can be chosen changes nothing (log entry 3). -/
def Obligations.TransmitterChoosesInOrder : Prop :=
  ∀ s : State,
    (exec .upstreamSendEnd s = .next { s with tx := { s.tx with sending := none } }) ∧
    (¬ linkIsFree s → exec .upstreamSendBegin s = .next s) ∧
    (linkIsFree s → NoClaim s ∨ 64 ≤ s.tx.queue.length →
      (∀ f, s.tx.flowMark = some f → Completes .upstreamSendBegin s fun t => TxOnly s t
        { s.tx with
          flowMark := none
          announced := f
          sending := some (markFrame [0, if f = .paused then 1 else 2, 0]) }) ∧
      (s.tx.flowMark = none →
        (∀ (h : HeadNo) (l : Lane), s.lanes[h] = some l → s.tx.room[h] = true →
          (∀ g : HeadNo, g < h → s.tx.room[g] = false) → Completes .upstreamSendBegin s fun t => TxOnly s t
            { s.tx with
              room := updAt s.tx.room h fun _ => false
              sending := some (markFrame ([1, l.tag] ++
                code1 ((if l.slot0 = .free then 1 else 0) + (if l.slot1 = .free then 1 else 0)))) }) ∧
        ((∀ h : HeadNo, s.tx.room[h] = false) →
          (s.tx.notice = true → Completes .upstreamSendBegin s fun t => TxOnly s t
            { s.tx with
              notice := false
              sending := some { kind := .notice, body := [s.conditions] ++ leBytes 2 s.status.events.toNat } }) ∧
          (s.tx.notice = false →
            (s.tx.queue = [] → exec .upstreamSendBegin s = .next s) ∧
            (NoClaim s → ∀ f rest, s.tx.queue = f :: rest → Completes .upstreamSendBegin s fun t => TxOnly s t
              { s.tx with queue := rest, sending := some f })))))

/-- The entry that a frame of a full Upstream Queue frees is given first to the Expander's waiting completion, then to the
first due SYNC answer, then to the Interpreter's WAITING RESULT or readback frame; the Interpreter freed by it takes the
CTRL frame that waits. The events have the names SYNC_ANSWER_PLACED, RESULT_PLACED and CAPTURE_DATA_PLACED too.
That those commands are the sending that frees the entry, and that one frame is handed on in it, are the model's choices
(log entries 4 and 5). -/
def Obligations.FreedEntryGoesToTheFirstClaim : Prop :=
  ∀ (s : State) (f : UpFrame) (rest : List UpFrame), queueIsNext s f rest → rest.length = 63 →
    (∀ load loads, s.expander.finished = true → s.expander.queue = load :: loads → load.notify = true →
      Completes .upstreamSendBegin s fun t =>
        worksOf t = completedWorks s load loads ∧ t.pending = s.pending ∧ t.rx = s.rx ∧
        t.tx.queue = rest ++ loadAnswer load ∧ t.tx.sending = some f ∧
        t.interp = { s.interp with syncs := nowDue load.slot s.interp.syncs } ∧
        t.tx.flowMark = none ∧ t.tx.announced = s.tx.announced ∧ Posts s t 0 []) ∧
    (s.expander.finished = false →
      (∀ e more, dueOf s.interp.syncs = e :: more → Completes .syncAnswerPlaced s fun t =>
        exec .upstreamSendBegin s = .next t ∧
        LinkOnly s t (rest ++ [syncAnswer e]) (some f) { s.interp with syncs := withoutDue 1 s.interp.syncs }) ∧
      (dueOf s.interp.syncs = [] →
        (∀ r, s.interp.state = .waiting r →
          exec .resultPlaced s = exec .upstreamSendBegin s ∧
          EndsThenHandsOn .resultPlaced s fun u =>
            LinkOnly s u (rest ++ [r]) (some f) { s.interp with state := .free }) ∧
        (∀ rb c, s.interp.state = .waitingReadback rb → s.captureOf rb.id = some c →
          exec .captureDataPlaced s = exec .upstreamSendBegin s ∧
          EndsThenHandsOn .captureDataPlaced s fun u =>
            LinkOnly s u (rest ++ [(nextFrame c rb).1]) (some f) { s.interp with state := (nextFrame c rb).2 })))

/-! ## What every step keeps -/

/-- Every step keeps the link's laws: the queues within their capacities, the Error Queue's form, a notice only while the
summary is 1, the flow mark exactly the unannounced flow state, claims waiting only at a full queue, and a slot EXPANDING
exactly while it has a load. -/
def Obligations.StepKeepsTheLinkLaws : Prop :=
  ∀ s t : State, LinkLaws s → step s = .next t → LinkLaws t

/-- Every step keeps the job's laws: bind counts exact and bound slots READY, heads OUT and LIFTED outside a job and engaged
only while CUTTING in a CUT job, a hold request only while RUNNING, lanes OPEN only for planned heads, the Monitor's
count below 2E, E in its range, and the generator's place, the model's own (log entry 11), below E. -/
def Obligations.StepKeepsTheJobLaws : Prop :=
  ∀ s t : State, JobLaws s → step s = .next t → JobLaws t

/-- Every step keeps the ranges. Of every state: inputs normalized by their polarity, every DRIVE code in 0..4095, those kept
of the latest strokes (the model's own, log entry 24) among them, the revolution and mark counters, the idle counts, the
strike counters and the tallies' counts and job sums within their widths, and no capture over its length. With the job's
laws: the last revolution length within twice the greatest E, each next track to cut within the track count and 0..65,535,
and the two track sums in 0..32,768,000. The carriage-advance count is not among them (log entry 25). -/
def Obligations.StepKeepsTheRanges : Prop :=
  ∀ s t : State, step s = .next t → (RangeLaws s → RangeLaws t) ∧ (JobLaws s → TrackLaws s → TrackLaws t)

/-- The state after reset keeps all these laws. -/
def Obligations.ResetKeepsEveryLaw : Prop :=
  LinkLaws State.reset ∧ JobLaws State.reset ∧ RangeLaws State.reset ∧ TrackLaws State.reset

/-- A command that names what comes about inside another event is that event where it comes about, and changes nothing
where it cannot (the model's choice, log entries 3 and 4): STALL and MARK_STOP for each way a position is brought about,
INDEX_LOST, EXPANSION_COMPLETE and the three placings. -/
def Obligations.NamedEventsHappenOnlyWhereTheyCan : Prop :=
  ∀ s : State,
    (∀ (p : PositionEvent) (t : State), exec (positionCommand p) s = .next t →
      exec (.stall p) s = .next (if s.seq.stalled = false ∧ t.seq.stalled = true then t else s) ∧
      exec (.markStop p) s = .next (if t.markCounter < s.markCounter then t else s)) ∧
    (¬ (s.monitor.source = .external ∧ s.monitor.sync = .synced ∧ s.monitor.count + 1 = 2 * s.monitor.e) →
      exec .indexLost s = .next s) ∧
    (s.seq.state ≠ .running → ∀ p, exec (.stall p) s = .next s ∧ exec (.markStop p) s = .next s) ∧
    (s.expander.queue = [] → exec .expansionComplete s = .next s) ∧
    (s.interp.state = .free → exec .resultPlaced s = .next s ∧ exec .captureDataPlaced s = .next s) ∧
    (dueOf s.interp.syncs = [] → exec .syncAnswerPlaced s = .next s)
end

