-- ==== Sys2Proof/Laws/State.lean ====
section
/-! SUPPORT. One lemma for each field of State and each update of one of its blocks, so that no later proof unfolds a
record update. -/

namespace Sys2Proof.Machine

@[simp] theorem State.setPending_pending (s : State) (x : List Instr) : (s.setPending x).pending = x := rfl
@[simp] theorem State.setPending_rx (s : State) (x : List Instr) : (s.setPending x).rx = s.rx := rfl
@[simp] theorem State.setPending_tx (s : State) (x : List Instr) : (s.setPending x).tx = s.tx := rfl
@[simp] theorem State.setPending_interp (s : State) (x : List Instr) : (s.setPending x).interp = s.interp := rfl
@[simp] theorem State.setPending_screens (s : State) (x : List Instr) : (s.setPending x).screens = s.screens := rfl
@[simp] theorem State.setPending_grads (s : State) (x : List Instr) : (s.setPending x).grads = s.grads := rfl
@[simp] theorem State.setPending_expander (s : State) (x : List Instr) : (s.setPending x).expander = s.expander := rfl
@[simp] theorem State.setPending_lanes (s : State) (x : List Instr) : (s.setPending x).lanes = s.lanes := rfl
@[simp] theorem State.setPending_monitor (s : State) (x : List Instr) : (s.setPending x).monitor = s.monitor := rfl
@[simp] theorem State.setPending_seq (s : State) (x : List Instr) : (s.setPending x).seq = s.seq := rfl
@[simp] theorem State.setPending_ports (s : State) (x : List Instr) : (s.setPending x).ports = s.ports := rfl
@[simp] theorem State.setPending_tallies (s : State) (x : List Instr) : (s.setPending x).tallies = s.tallies := rfl
@[simp] theorem State.setPending_markCounter (s : State) (x : List Instr) : (s.setPending x).markCounter = s.markCounter := rfl
@[simp] theorem State.setPending_captures (s : State) (x : List Instr) : (s.setPending x).captures = s.captures := rfl
@[simp] theorem State.setPending_status (s : State) (x : List Instr) : (s.setPending x).status = s.status := rfl

@[simp] theorem State.setRx_pending (s : State) (x : LinkReceiver) : (s.setRx x).pending = s.pending := rfl
@[simp] theorem State.setRx_rx (s : State) (x : LinkReceiver) : (s.setRx x).rx = x := rfl
@[simp] theorem State.setRx_tx (s : State) (x : LinkReceiver) : (s.setRx x).tx = s.tx := rfl
@[simp] theorem State.setRx_interp (s : State) (x : LinkReceiver) : (s.setRx x).interp = s.interp := rfl
@[simp] theorem State.setRx_screens (s : State) (x : LinkReceiver) : (s.setRx x).screens = s.screens := rfl
@[simp] theorem State.setRx_grads (s : State) (x : LinkReceiver) : (s.setRx x).grads = s.grads := rfl
@[simp] theorem State.setRx_expander (s : State) (x : LinkReceiver) : (s.setRx x).expander = s.expander := rfl
@[simp] theorem State.setRx_lanes (s : State) (x : LinkReceiver) : (s.setRx x).lanes = s.lanes := rfl
@[simp] theorem State.setRx_monitor (s : State) (x : LinkReceiver) : (s.setRx x).monitor = s.monitor := rfl
@[simp] theorem State.setRx_seq (s : State) (x : LinkReceiver) : (s.setRx x).seq = s.seq := rfl
@[simp] theorem State.setRx_ports (s : State) (x : LinkReceiver) : (s.setRx x).ports = s.ports := rfl
@[simp] theorem State.setRx_tallies (s : State) (x : LinkReceiver) : (s.setRx x).tallies = s.tallies := rfl
@[simp] theorem State.setRx_markCounter (s : State) (x : LinkReceiver) : (s.setRx x).markCounter = s.markCounter := rfl
@[simp] theorem State.setRx_captures (s : State) (x : LinkReceiver) : (s.setRx x).captures = s.captures := rfl
@[simp] theorem State.setRx_status (s : State) (x : LinkReceiver) : (s.setRx x).status = s.status := rfl

@[simp] theorem State.setTx_pending (s : State) (x : Transmitter) : (s.setTx x).pending = s.pending := rfl
@[simp] theorem State.setTx_rx (s : State) (x : Transmitter) : (s.setTx x).rx = s.rx := rfl
@[simp] theorem State.setTx_tx (s : State) (x : Transmitter) : (s.setTx x).tx = x := rfl
@[simp] theorem State.setTx_interp (s : State) (x : Transmitter) : (s.setTx x).interp = s.interp := rfl
@[simp] theorem State.setTx_screens (s : State) (x : Transmitter) : (s.setTx x).screens = s.screens := rfl
@[simp] theorem State.setTx_grads (s : State) (x : Transmitter) : (s.setTx x).grads = s.grads := rfl
@[simp] theorem State.setTx_expander (s : State) (x : Transmitter) : (s.setTx x).expander = s.expander := rfl
@[simp] theorem State.setTx_lanes (s : State) (x : Transmitter) : (s.setTx x).lanes = s.lanes := rfl
@[simp] theorem State.setTx_monitor (s : State) (x : Transmitter) : (s.setTx x).monitor = s.monitor := rfl
@[simp] theorem State.setTx_seq (s : State) (x : Transmitter) : (s.setTx x).seq = s.seq := rfl
@[simp] theorem State.setTx_ports (s : State) (x : Transmitter) : (s.setTx x).ports = s.ports := rfl
@[simp] theorem State.setTx_tallies (s : State) (x : Transmitter) : (s.setTx x).tallies = s.tallies := rfl
@[simp] theorem State.setTx_markCounter (s : State) (x : Transmitter) : (s.setTx x).markCounter = s.markCounter := rfl
@[simp] theorem State.setTx_captures (s : State) (x : Transmitter) : (s.setTx x).captures = s.captures := rfl
@[simp] theorem State.setTx_status (s : State) (x : Transmitter) : (s.setTx x).status = s.status := rfl

@[simp] theorem State.setInterp_pending (s : State) (x : Interpreter) : (s.setInterp x).pending = s.pending := rfl
@[simp] theorem State.setInterp_rx (s : State) (x : Interpreter) : (s.setInterp x).rx = s.rx := rfl
@[simp] theorem State.setInterp_tx (s : State) (x : Interpreter) : (s.setInterp x).tx = s.tx := rfl
@[simp] theorem State.setInterp_interp (s : State) (x : Interpreter) : (s.setInterp x).interp = x := rfl
@[simp] theorem State.setInterp_screens (s : State) (x : Interpreter) : (s.setInterp x).screens = s.screens := rfl
@[simp] theorem State.setInterp_grads (s : State) (x : Interpreter) : (s.setInterp x).grads = s.grads := rfl
@[simp] theorem State.setInterp_expander (s : State) (x : Interpreter) : (s.setInterp x).expander = s.expander := rfl
@[simp] theorem State.setInterp_lanes (s : State) (x : Interpreter) : (s.setInterp x).lanes = s.lanes := rfl
@[simp] theorem State.setInterp_monitor (s : State) (x : Interpreter) : (s.setInterp x).monitor = s.monitor := rfl
@[simp] theorem State.setInterp_seq (s : State) (x : Interpreter) : (s.setInterp x).seq = s.seq := rfl
@[simp] theorem State.setInterp_ports (s : State) (x : Interpreter) : (s.setInterp x).ports = s.ports := rfl
@[simp] theorem State.setInterp_tallies (s : State) (x : Interpreter) : (s.setInterp x).tallies = s.tallies := rfl
@[simp] theorem State.setInterp_markCounter (s : State) (x : Interpreter) : (s.setInterp x).markCounter = s.markCounter := rfl
@[simp] theorem State.setInterp_captures (s : State) (x : Interpreter) : (s.setInterp x).captures = s.captures := rfl
@[simp] theorem State.setInterp_status (s : State) (x : Interpreter) : (s.setInterp x).status = s.status := rfl

@[simp] theorem State.setScreens_pending (s : State) (x : Vector ScreenSlot 8) : (s.setScreens x).pending = s.pending := rfl
@[simp] theorem State.setScreens_rx (s : State) (x : Vector ScreenSlot 8) : (s.setScreens x).rx = s.rx := rfl
@[simp] theorem State.setScreens_tx (s : State) (x : Vector ScreenSlot 8) : (s.setScreens x).tx = s.tx := rfl
@[simp] theorem State.setScreens_interp (s : State) (x : Vector ScreenSlot 8) : (s.setScreens x).interp = s.interp := rfl
@[simp] theorem State.setScreens_screens (s : State) (x : Vector ScreenSlot 8) : (s.setScreens x).screens = x := rfl
@[simp] theorem State.setScreens_grads (s : State) (x : Vector ScreenSlot 8) : (s.setScreens x).grads = s.grads := rfl
@[simp] theorem State.setScreens_expander (s : State) (x : Vector ScreenSlot 8) : (s.setScreens x).expander = s.expander := rfl
@[simp] theorem State.setScreens_lanes (s : State) (x : Vector ScreenSlot 8) : (s.setScreens x).lanes = s.lanes := rfl
@[simp] theorem State.setScreens_monitor (s : State) (x : Vector ScreenSlot 8) : (s.setScreens x).monitor = s.monitor := rfl
@[simp] theorem State.setScreens_seq (s : State) (x : Vector ScreenSlot 8) : (s.setScreens x).seq = s.seq := rfl
@[simp] theorem State.setScreens_ports (s : State) (x : Vector ScreenSlot 8) : (s.setScreens x).ports = s.ports := rfl
@[simp] theorem State.setScreens_tallies (s : State) (x : Vector ScreenSlot 8) : (s.setScreens x).tallies = s.tallies := rfl
@[simp] theorem State.setScreens_markCounter (s : State) (x : Vector ScreenSlot 8) : (s.setScreens x).markCounter = s.markCounter := rfl
@[simp] theorem State.setScreens_captures (s : State) (x : Vector ScreenSlot 8) : (s.setScreens x).captures = s.captures := rfl
@[simp] theorem State.setScreens_status (s : State) (x : Vector ScreenSlot 8) : (s.setScreens x).status = s.status := rfl

@[simp] theorem State.setGrads_pending (s : State) (x : Vector GradSlot 16) : (s.setGrads x).pending = s.pending := rfl
@[simp] theorem State.setGrads_rx (s : State) (x : Vector GradSlot 16) : (s.setGrads x).rx = s.rx := rfl
@[simp] theorem State.setGrads_tx (s : State) (x : Vector GradSlot 16) : (s.setGrads x).tx = s.tx := rfl
@[simp] theorem State.setGrads_interp (s : State) (x : Vector GradSlot 16) : (s.setGrads x).interp = s.interp := rfl
@[simp] theorem State.setGrads_screens (s : State) (x : Vector GradSlot 16) : (s.setGrads x).screens = s.screens := rfl
@[simp] theorem State.setGrads_grads (s : State) (x : Vector GradSlot 16) : (s.setGrads x).grads = x := rfl
@[simp] theorem State.setGrads_expander (s : State) (x : Vector GradSlot 16) : (s.setGrads x).expander = s.expander := rfl
@[simp] theorem State.setGrads_lanes (s : State) (x : Vector GradSlot 16) : (s.setGrads x).lanes = s.lanes := rfl
@[simp] theorem State.setGrads_monitor (s : State) (x : Vector GradSlot 16) : (s.setGrads x).monitor = s.monitor := rfl
@[simp] theorem State.setGrads_seq (s : State) (x : Vector GradSlot 16) : (s.setGrads x).seq = s.seq := rfl
@[simp] theorem State.setGrads_ports (s : State) (x : Vector GradSlot 16) : (s.setGrads x).ports = s.ports := rfl
@[simp] theorem State.setGrads_tallies (s : State) (x : Vector GradSlot 16) : (s.setGrads x).tallies = s.tallies := rfl
@[simp] theorem State.setGrads_markCounter (s : State) (x : Vector GradSlot 16) : (s.setGrads x).markCounter = s.markCounter := rfl
@[simp] theorem State.setGrads_captures (s : State) (x : Vector GradSlot 16) : (s.setGrads x).captures = s.captures := rfl
@[simp] theorem State.setGrads_status (s : State) (x : Vector GradSlot 16) : (s.setGrads x).status = s.status := rfl

@[simp] theorem State.setExpander_pending (s : State) (x : Expander) : (s.setExpander x).pending = s.pending := rfl
@[simp] theorem State.setExpander_rx (s : State) (x : Expander) : (s.setExpander x).rx = s.rx := rfl
@[simp] theorem State.setExpander_tx (s : State) (x : Expander) : (s.setExpander x).tx = s.tx := rfl
@[simp] theorem State.setExpander_interp (s : State) (x : Expander) : (s.setExpander x).interp = s.interp := rfl
@[simp] theorem State.setExpander_screens (s : State) (x : Expander) : (s.setExpander x).screens = s.screens := rfl
@[simp] theorem State.setExpander_grads (s : State) (x : Expander) : (s.setExpander x).grads = s.grads := rfl
@[simp] theorem State.setExpander_expander (s : State) (x : Expander) : (s.setExpander x).expander = x := rfl
@[simp] theorem State.setExpander_lanes (s : State) (x : Expander) : (s.setExpander x).lanes = s.lanes := rfl
@[simp] theorem State.setExpander_monitor (s : State) (x : Expander) : (s.setExpander x).monitor = s.monitor := rfl
@[simp] theorem State.setExpander_seq (s : State) (x : Expander) : (s.setExpander x).seq = s.seq := rfl
@[simp] theorem State.setExpander_ports (s : State) (x : Expander) : (s.setExpander x).ports = s.ports := rfl
@[simp] theorem State.setExpander_tallies (s : State) (x : Expander) : (s.setExpander x).tallies = s.tallies := rfl
@[simp] theorem State.setExpander_markCounter (s : State) (x : Expander) : (s.setExpander x).markCounter = s.markCounter := rfl
@[simp] theorem State.setExpander_captures (s : State) (x : Expander) : (s.setExpander x).captures = s.captures := rfl
@[simp] theorem State.setExpander_status (s : State) (x : Expander) : (s.setExpander x).status = s.status := rfl

@[simp] theorem State.setLanes_pending (s : State) (x : PerHead (Option Lane)) : (s.setLanes x).pending = s.pending := rfl
@[simp] theorem State.setLanes_rx (s : State) (x : PerHead (Option Lane)) : (s.setLanes x).rx = s.rx := rfl
@[simp] theorem State.setLanes_tx (s : State) (x : PerHead (Option Lane)) : (s.setLanes x).tx = s.tx := rfl
@[simp] theorem State.setLanes_interp (s : State) (x : PerHead (Option Lane)) : (s.setLanes x).interp = s.interp := rfl
@[simp] theorem State.setLanes_screens (s : State) (x : PerHead (Option Lane)) : (s.setLanes x).screens = s.screens := rfl
@[simp] theorem State.setLanes_grads (s : State) (x : PerHead (Option Lane)) : (s.setLanes x).grads = s.grads := rfl
@[simp] theorem State.setLanes_expander (s : State) (x : PerHead (Option Lane)) : (s.setLanes x).expander = s.expander := rfl
@[simp] theorem State.setLanes_lanes (s : State) (x : PerHead (Option Lane)) : (s.setLanes x).lanes = x := rfl
@[simp] theorem State.setLanes_monitor (s : State) (x : PerHead (Option Lane)) : (s.setLanes x).monitor = s.monitor := rfl
@[simp] theorem State.setLanes_seq (s : State) (x : PerHead (Option Lane)) : (s.setLanes x).seq = s.seq := rfl
@[simp] theorem State.setLanes_ports (s : State) (x : PerHead (Option Lane)) : (s.setLanes x).ports = s.ports := rfl
@[simp] theorem State.setLanes_tallies (s : State) (x : PerHead (Option Lane)) : (s.setLanes x).tallies = s.tallies := rfl
@[simp] theorem State.setLanes_markCounter (s : State) (x : PerHead (Option Lane)) : (s.setLanes x).markCounter = s.markCounter := rfl
@[simp] theorem State.setLanes_captures (s : State) (x : PerHead (Option Lane)) : (s.setLanes x).captures = s.captures := rfl
@[simp] theorem State.setLanes_status (s : State) (x : PerHead (Option Lane)) : (s.setLanes x).status = s.status := rfl

@[simp] theorem State.setMonitor_pending (s : State) (x : Monitor) : (s.setMonitor x).pending = s.pending := rfl
@[simp] theorem State.setMonitor_rx (s : State) (x : Monitor) : (s.setMonitor x).rx = s.rx := rfl
@[simp] theorem State.setMonitor_tx (s : State) (x : Monitor) : (s.setMonitor x).tx = s.tx := rfl
@[simp] theorem State.setMonitor_interp (s : State) (x : Monitor) : (s.setMonitor x).interp = s.interp := rfl
@[simp] theorem State.setMonitor_screens (s : State) (x : Monitor) : (s.setMonitor x).screens = s.screens := rfl
@[simp] theorem State.setMonitor_grads (s : State) (x : Monitor) : (s.setMonitor x).grads = s.grads := rfl
@[simp] theorem State.setMonitor_expander (s : State) (x : Monitor) : (s.setMonitor x).expander = s.expander := rfl
@[simp] theorem State.setMonitor_lanes (s : State) (x : Monitor) : (s.setMonitor x).lanes = s.lanes := rfl
@[simp] theorem State.setMonitor_monitor (s : State) (x : Monitor) : (s.setMonitor x).monitor = x := rfl
@[simp] theorem State.setMonitor_seq (s : State) (x : Monitor) : (s.setMonitor x).seq = s.seq := rfl
@[simp] theorem State.setMonitor_ports (s : State) (x : Monitor) : (s.setMonitor x).ports = s.ports := rfl
@[simp] theorem State.setMonitor_tallies (s : State) (x : Monitor) : (s.setMonitor x).tallies = s.tallies := rfl
@[simp] theorem State.setMonitor_markCounter (s : State) (x : Monitor) : (s.setMonitor x).markCounter = s.markCounter := rfl
@[simp] theorem State.setMonitor_captures (s : State) (x : Monitor) : (s.setMonitor x).captures = s.captures := rfl
@[simp] theorem State.setMonitor_status (s : State) (x : Monitor) : (s.setMonitor x).status = s.status := rfl

@[simp] theorem State.setSeq_pending (s : State) (x : Sequencer) : (s.setSeq x).pending = s.pending := rfl
@[simp] theorem State.setSeq_rx (s : State) (x : Sequencer) : (s.setSeq x).rx = s.rx := rfl
@[simp] theorem State.setSeq_tx (s : State) (x : Sequencer) : (s.setSeq x).tx = s.tx := rfl
@[simp] theorem State.setSeq_interp (s : State) (x : Sequencer) : (s.setSeq x).interp = s.interp := rfl
@[simp] theorem State.setSeq_screens (s : State) (x : Sequencer) : (s.setSeq x).screens = s.screens := rfl
@[simp] theorem State.setSeq_grads (s : State) (x : Sequencer) : (s.setSeq x).grads = s.grads := rfl
@[simp] theorem State.setSeq_expander (s : State) (x : Sequencer) : (s.setSeq x).expander = s.expander := rfl
@[simp] theorem State.setSeq_lanes (s : State) (x : Sequencer) : (s.setSeq x).lanes = s.lanes := rfl
@[simp] theorem State.setSeq_monitor (s : State) (x : Sequencer) : (s.setSeq x).monitor = s.monitor := rfl
@[simp] theorem State.setSeq_seq (s : State) (x : Sequencer) : (s.setSeq x).seq = x := rfl
@[simp] theorem State.setSeq_ports (s : State) (x : Sequencer) : (s.setSeq x).ports = s.ports := rfl
@[simp] theorem State.setSeq_tallies (s : State) (x : Sequencer) : (s.setSeq x).tallies = s.tallies := rfl
@[simp] theorem State.setSeq_markCounter (s : State) (x : Sequencer) : (s.setSeq x).markCounter = s.markCounter := rfl
@[simp] theorem State.setSeq_captures (s : State) (x : Sequencer) : (s.setSeq x).captures = s.captures := rfl
@[simp] theorem State.setSeq_status (s : State) (x : Sequencer) : (s.setSeq x).status = s.status := rfl

@[simp] theorem State.setPorts_pending (s : State) (x : PerHead HeadPort) : (s.setPorts x).pending = s.pending := rfl
@[simp] theorem State.setPorts_rx (s : State) (x : PerHead HeadPort) : (s.setPorts x).rx = s.rx := rfl
@[simp] theorem State.setPorts_tx (s : State) (x : PerHead HeadPort) : (s.setPorts x).tx = s.tx := rfl
@[simp] theorem State.setPorts_interp (s : State) (x : PerHead HeadPort) : (s.setPorts x).interp = s.interp := rfl
@[simp] theorem State.setPorts_screens (s : State) (x : PerHead HeadPort) : (s.setPorts x).screens = s.screens := rfl
@[simp] theorem State.setPorts_grads (s : State) (x : PerHead HeadPort) : (s.setPorts x).grads = s.grads := rfl
@[simp] theorem State.setPorts_expander (s : State) (x : PerHead HeadPort) : (s.setPorts x).expander = s.expander := rfl
@[simp] theorem State.setPorts_lanes (s : State) (x : PerHead HeadPort) : (s.setPorts x).lanes = s.lanes := rfl
@[simp] theorem State.setPorts_monitor (s : State) (x : PerHead HeadPort) : (s.setPorts x).monitor = s.monitor := rfl
@[simp] theorem State.setPorts_seq (s : State) (x : PerHead HeadPort) : (s.setPorts x).seq = s.seq := rfl
@[simp] theorem State.setPorts_ports (s : State) (x : PerHead HeadPort) : (s.setPorts x).ports = x := rfl
@[simp] theorem State.setPorts_tallies (s : State) (x : PerHead HeadPort) : (s.setPorts x).tallies = s.tallies := rfl
@[simp] theorem State.setPorts_markCounter (s : State) (x : PerHead HeadPort) : (s.setPorts x).markCounter = s.markCounter := rfl
@[simp] theorem State.setPorts_captures (s : State) (x : PerHead HeadPort) : (s.setPorts x).captures = s.captures := rfl
@[simp] theorem State.setPorts_status (s : State) (x : PerHead HeadPort) : (s.setPorts x).status = s.status := rfl

@[simp] theorem State.setTallies_pending (s : State) (x : PerHead Tally) : (s.setTallies x).pending = s.pending := rfl
@[simp] theorem State.setTallies_rx (s : State) (x : PerHead Tally) : (s.setTallies x).rx = s.rx := rfl
@[simp] theorem State.setTallies_tx (s : State) (x : PerHead Tally) : (s.setTallies x).tx = s.tx := rfl
@[simp] theorem State.setTallies_interp (s : State) (x : PerHead Tally) : (s.setTallies x).interp = s.interp := rfl
@[simp] theorem State.setTallies_screens (s : State) (x : PerHead Tally) : (s.setTallies x).screens = s.screens := rfl
@[simp] theorem State.setTallies_grads (s : State) (x : PerHead Tally) : (s.setTallies x).grads = s.grads := rfl
@[simp] theorem State.setTallies_expander (s : State) (x : PerHead Tally) : (s.setTallies x).expander = s.expander := rfl
@[simp] theorem State.setTallies_lanes (s : State) (x : PerHead Tally) : (s.setTallies x).lanes = s.lanes := rfl
@[simp] theorem State.setTallies_monitor (s : State) (x : PerHead Tally) : (s.setTallies x).monitor = s.monitor := rfl
@[simp] theorem State.setTallies_seq (s : State) (x : PerHead Tally) : (s.setTallies x).seq = s.seq := rfl
@[simp] theorem State.setTallies_ports (s : State) (x : PerHead Tally) : (s.setTallies x).ports = s.ports := rfl
@[simp] theorem State.setTallies_tallies (s : State) (x : PerHead Tally) : (s.setTallies x).tallies = x := rfl
@[simp] theorem State.setTallies_markCounter (s : State) (x : PerHead Tally) : (s.setTallies x).markCounter = s.markCounter := rfl
@[simp] theorem State.setTallies_captures (s : State) (x : PerHead Tally) : (s.setTallies x).captures = s.captures := rfl
@[simp] theorem State.setTallies_status (s : State) (x : PerHead Tally) : (s.setTallies x).status = s.status := rfl

@[simp] theorem State.setMarkCounter_pending (s : State) (x : Nat) : (s.setMarkCounter x).pending = s.pending := rfl
@[simp] theorem State.setMarkCounter_rx (s : State) (x : Nat) : (s.setMarkCounter x).rx = s.rx := rfl
@[simp] theorem State.setMarkCounter_tx (s : State) (x : Nat) : (s.setMarkCounter x).tx = s.tx := rfl
@[simp] theorem State.setMarkCounter_interp (s : State) (x : Nat) : (s.setMarkCounter x).interp = s.interp := rfl
@[simp] theorem State.setMarkCounter_screens (s : State) (x : Nat) : (s.setMarkCounter x).screens = s.screens := rfl
@[simp] theorem State.setMarkCounter_grads (s : State) (x : Nat) : (s.setMarkCounter x).grads = s.grads := rfl
@[simp] theorem State.setMarkCounter_expander (s : State) (x : Nat) : (s.setMarkCounter x).expander = s.expander := rfl
@[simp] theorem State.setMarkCounter_lanes (s : State) (x : Nat) : (s.setMarkCounter x).lanes = s.lanes := rfl
@[simp] theorem State.setMarkCounter_monitor (s : State) (x : Nat) : (s.setMarkCounter x).monitor = s.monitor := rfl
@[simp] theorem State.setMarkCounter_seq (s : State) (x : Nat) : (s.setMarkCounter x).seq = s.seq := rfl
@[simp] theorem State.setMarkCounter_ports (s : State) (x : Nat) : (s.setMarkCounter x).ports = s.ports := rfl
@[simp] theorem State.setMarkCounter_tallies (s : State) (x : Nat) : (s.setMarkCounter x).tallies = s.tallies := rfl
@[simp] theorem State.setMarkCounter_markCounter (s : State) (x : Nat) : (s.setMarkCounter x).markCounter = x := rfl
@[simp] theorem State.setMarkCounter_captures (s : State) (x : Nat) : (s.setMarkCounter x).captures = s.captures := rfl
@[simp] theorem State.setMarkCounter_status (s : State) (x : Nat) : (s.setMarkCounter x).status = s.status := rfl

@[simp] theorem State.setCaptures_pending (s : State) (x : List Capture) : (s.setCaptures x).pending = s.pending := rfl
@[simp] theorem State.setCaptures_rx (s : State) (x : List Capture) : (s.setCaptures x).rx = s.rx := rfl
@[simp] theorem State.setCaptures_tx (s : State) (x : List Capture) : (s.setCaptures x).tx = s.tx := rfl
@[simp] theorem State.setCaptures_interp (s : State) (x : List Capture) : (s.setCaptures x).interp = s.interp := rfl
@[simp] theorem State.setCaptures_screens (s : State) (x : List Capture) : (s.setCaptures x).screens = s.screens := rfl
@[simp] theorem State.setCaptures_grads (s : State) (x : List Capture) : (s.setCaptures x).grads = s.grads := rfl
@[simp] theorem State.setCaptures_expander (s : State) (x : List Capture) : (s.setCaptures x).expander = s.expander := rfl
@[simp] theorem State.setCaptures_lanes (s : State) (x : List Capture) : (s.setCaptures x).lanes = s.lanes := rfl
@[simp] theorem State.setCaptures_monitor (s : State) (x : List Capture) : (s.setCaptures x).monitor = s.monitor := rfl
@[simp] theorem State.setCaptures_seq (s : State) (x : List Capture) : (s.setCaptures x).seq = s.seq := rfl
@[simp] theorem State.setCaptures_ports (s : State) (x : List Capture) : (s.setCaptures x).ports = s.ports := rfl
@[simp] theorem State.setCaptures_tallies (s : State) (x : List Capture) : (s.setCaptures x).tallies = s.tallies := rfl
@[simp] theorem State.setCaptures_markCounter (s : State) (x : List Capture) : (s.setCaptures x).markCounter = s.markCounter := rfl
@[simp] theorem State.setCaptures_captures (s : State) (x : List Capture) : (s.setCaptures x).captures = x := rfl
@[simp] theorem State.setCaptures_status (s : State) (x : List Capture) : (s.setCaptures x).status = s.status := rfl

@[simp] theorem State.setStatus_pending (s : State) (x : Status) : (s.setStatus x).pending = s.pending := rfl
@[simp] theorem State.setStatus_rx (s : State) (x : Status) : (s.setStatus x).rx = s.rx := rfl
@[simp] theorem State.setStatus_tx (s : State) (x : Status) : (s.setStatus x).tx = s.tx := rfl
@[simp] theorem State.setStatus_interp (s : State) (x : Status) : (s.setStatus x).interp = s.interp := rfl
@[simp] theorem State.setStatus_screens (s : State) (x : Status) : (s.setStatus x).screens = s.screens := rfl
@[simp] theorem State.setStatus_grads (s : State) (x : Status) : (s.setStatus x).grads = s.grads := rfl
@[simp] theorem State.setStatus_expander (s : State) (x : Status) : (s.setStatus x).expander = s.expander := rfl
@[simp] theorem State.setStatus_lanes (s : State) (x : Status) : (s.setStatus x).lanes = s.lanes := rfl
@[simp] theorem State.setStatus_monitor (s : State) (x : Status) : (s.setStatus x).monitor = s.monitor := rfl
@[simp] theorem State.setStatus_seq (s : State) (x : Status) : (s.setStatus x).seq = s.seq := rfl
@[simp] theorem State.setStatus_ports (s : State) (x : Status) : (s.setStatus x).ports = s.ports := rfl
@[simp] theorem State.setStatus_tallies (s : State) (x : Status) : (s.setStatus x).tallies = s.tallies := rfl
@[simp] theorem State.setStatus_markCounter (s : State) (x : Status) : (s.setStatus x).markCounter = s.markCounter := rfl
@[simp] theorem State.setStatus_captures (s : State) (x : Status) : (s.setStatus x).captures = s.captures := rfl
@[simp] theorem State.setStatus_status (s : State) (x : Status) : (s.setStatus x).status = x := rfl

end Sys2Proof.Machine
end

