-- ==== Sys2Proof/Laws/Ops.lean ====
section
/-! SUPPORT. The shared operations: for each, one equation that says all it does, and the fields that it leaves, so that no
later proof unfolds it. -/

namespace Sys2Proof.Machine

/-! ## Banks -/

@[simp] theorem updAt_get {α : Type} {n : Nat} (v : Vector α n) (i j : Fin n) (f : α → α) :
    (updAt v i f)[j] = if j = i then f v[i] else v[j] := by
  simp only [updAt, Fin.getElem_fin, Vector.getElem_set]
  by_cases h : j = i
  · subst h; simp
  · have : i.val ≠ j.val := fun e => h (Fin.ext e.symm)
    simp [h, this]

@[simp] theorem mapAll_get {α β : Type} {n : Nat} (f : Fin n → α → β) (v : Vector α n) (i : Fin n) :
    (mapAll f v)[i] = f i v[i] := by
  simp [mapAll]

@[simp] theorem replicate_get {α : Type} {n : Nat} (a : α) (i : Fin n) : (Vector.replicate n a)[i] = a := by
  simp

@[simp] theorem ofFn_get {α : Type} {n : Nat} (f : Fin n → α) (i : Fin n) : (Vector.ofFn f)[i] = f i := by
  simp

/-- Two banks with equal entries are equal. -/
theorem bank_ext {α : Type} {n : Nat} {v w : Vector α n} (h : ∀ i : Fin n, v[i] = w[i]) : v = w := by
  ext i hi
  exact h ⟨i, hi⟩

@[simp] theorem mapAll_id {α : Type} {n : Nat} (v : Vector α n) : mapAll (fun _ a => a) v = v :=
  bank_ext fun i => mapAll_get _ v i

@[simp] theorem updAt_id {α : Type} {n : Nat} (v : Vector α n) (i : Fin n) : updAt v i (fun a => a) = v :=
  bank_ext fun j => by
    rw [updAt_get]
    split
    · subst_vars; rfl
    · rfl

theorem mem_allHeads (h : HeadNo) : h ∈ allHeads := List.mem_finRange h

/-- The eight heads, written out. -/
theorem allHeads_eq : allHeads = [0, 1, 2, 3, 4, 5, 6, 7] := by decide

theorem allHeads_any (p : HeadNo → Bool) : allHeads.any p = true ↔ ∃ h, p h = true := by
  simp [List.any_eq_true, mem_allHeads]

theorem allHeads_all (p : HeadNo → Bool) : allHeads.all p = true ↔ ∀ h, p h = true := by
  simp [List.all_eq_true, mem_allHeads]

/-! ## The status register -/

/-- The pending notice after the summary has gone from `was` to `now` (R181). -/
def noticeGoing (was now notice : Bool) : Bool := if now && !was then true else if was && !now then false else notice

@[simp] theorem noticeGoing_same (b notice : Bool) : noticeGoing b b notice = notice := by cases b <;> rfl

/-- Two rises of the summary, one after the other, leave the notice that the one rise they make together leaves. -/
theorem noticeGoing_trans (a b c n : Bool) (hab : a = true → b = true) (hbc : b = true → c = true) :
    noticeGoing b c (noticeGoing a b n) = noticeGoing a c n := by
  cases a <;> cases b <;> cases c <;> simp_all [noticeGoing]

theorem State.writeStatus_eq (s : State) (events enable : BitVec 14) :
    s.writeStatus events enable =
      { s with status := { s.status with events := events, enable := enable }
               tx := { s.tx with notice := noticeGoing s.summary (summaryOf events enable) s.tx.notice } } := rfl

theorem State.raise_eq (s : State) (e : OneShot) :
    s.raise e = s.writeStatus (s.status.events ||| e.bit) s.status.enable := rfl

theorem State.latch_eq (s t : State) :
    s.latch t = t.writeStatus (t.status.events ||| risingEdges s.conditions t.conditions) t.status.enable := rfl

theorem State.event_eq (s : State) (f : State → State) : s.event f = s.latch (f s) := rfl

@[simp] theorem risingEdges_self (c : BitVec 8) : risingEdges c c = 0 := by
  simp [risingEdges]

@[simp] theorem State.writeStatus_same (s : State) : s.writeStatus s.status.events s.status.enable = s := by
  simp [State.writeStatus_eq, State.summary]

/-- An event in which no condition changes latches nothing. -/
theorem State.latch_of_conditions (s t : State) (h : t.conditions = s.conditions) : s.latch t = t := by
  rw [State.latch_eq, h, risingEdges_self]
  simp

/-- Raising more bits never makes the summary fall. -/
theorem summaryOf_or (a b m : BitVec 14) (h : summaryOf a m = true) : summaryOf (a ||| b) m = true := by
  simp only [summaryOf, ne_eq, decide_eq_true_eq] at h ⊢
  intro hz
  apply h
  have hbit : ∀ i, ((a ||| b) &&& m).getLsbD i = false := by simp [hz]
  apply BitVec.eq_of_getLsbD_eq
  intro i _
  have := hbit i
  simp only [BitVec.getLsbD_and, BitVec.getLsbD_or] at this
  cases ha : a.getLsbD i <;> cases hm : m.getLsbD i <;> simp_all

/-- Raising bits twice is raising them together. -/
theorem State.writeStatus_twice (s : State) (x y : BitVec 14) :
    (s.writeStatus (s.status.events ||| x) s.status.enable).writeStatus
        (s.status.events ||| x ||| y) s.status.enable =
      s.writeStatus (s.status.events ||| x ||| y) s.status.enable := by
  simp only [State.writeStatus_eq, State.summary]
  rw [noticeGoing_trans]
  · exact summaryOf_or _ _ _
  · exact summaryOf_or _ _ _

@[simp] theorem State.writeStatus_pending (s : State) (x y : BitVec 14) : (s.writeStatus x y).pending = s.pending := rfl
@[simp] theorem State.writeStatus_rx (s : State) (x y : BitVec 14) : (s.writeStatus x y).rx = s.rx := rfl
@[simp] theorem State.writeStatus_interp (s : State) (x y : BitVec 14) : (s.writeStatus x y).interp = s.interp := rfl
@[simp] theorem State.writeStatus_screens (s : State) (x y : BitVec 14) : (s.writeStatus x y).screens = s.screens := rfl
@[simp] theorem State.writeStatus_grads (s : State) (x y : BitVec 14) : (s.writeStatus x y).grads = s.grads := rfl
@[simp] theorem State.writeStatus_expander (s : State) (x y : BitVec 14) : (s.writeStatus x y).expander = s.expander := rfl
@[simp] theorem State.writeStatus_lanes (s : State) (x y : BitVec 14) : (s.writeStatus x y).lanes = s.lanes := rfl
@[simp] theorem State.writeStatus_monitor (s : State) (x y : BitVec 14) : (s.writeStatus x y).monitor = s.monitor := rfl
@[simp] theorem State.writeStatus_seq (s : State) (x y : BitVec 14) : (s.writeStatus x y).seq = s.seq := rfl
@[simp] theorem State.writeStatus_ports (s : State) (x y : BitVec 14) : (s.writeStatus x y).ports = s.ports := rfl
@[simp] theorem State.writeStatus_tallies (s : State) (x y : BitVec 14) : (s.writeStatus x y).tallies = s.tallies := rfl
@[simp] theorem State.writeStatus_markCounter (s : State) (x y : BitVec 14) : (s.writeStatus x y).markCounter = s.markCounter := rfl
@[simp] theorem State.writeStatus_captures (s : State) (x y : BitVec 14) : (s.writeStatus x y).captures = s.captures := rfl

@[simp] theorem State.writeStatus_tx_queue (s : State) (x y : BitVec 14) : (s.writeStatus x y).tx.queue = s.tx.queue := rfl
@[simp] theorem State.writeStatus_tx_flowMark (s : State) (x y : BitVec 14) : (s.writeStatus x y).tx.flowMark = s.tx.flowMark := rfl
@[simp] theorem State.writeStatus_tx_announced (s : State) (x y : BitVec 14) : (s.writeStatus x y).tx.announced = s.tx.announced := rfl
@[simp] theorem State.writeStatus_tx_room (s : State) (x y : BitVec 14) : (s.writeStatus x y).tx.room = s.tx.room := rfl
@[simp] theorem State.writeStatus_tx_sending (s : State) (x y : BitVec 14) : (s.writeStatus x y).tx.sending = s.tx.sending := rfl
@[simp] theorem State.writeStatus_events (s : State) (x y : BitVec 14) : (s.writeStatus x y).status.events = x := rfl
@[simp] theorem State.writeStatus_enable (s : State) (x y : BitVec 14) : (s.writeStatus x y).status.enable = y := rfl
@[simp] theorem State.writeStatus_errors (s : State) (x y : BitVec 14) :
    (s.writeStatus x y).status.errors = s.status.errors := rfl
@[simp] theorem State.writeStatus_conditions (s : State) (x y : BitVec 14) :
    (s.writeStatus x y).conditions = s.conditions := rfl

@[simp] theorem State.raise_pending (s : State) (e : OneShot) : (s.raise e).pending = s.pending := rfl
@[simp] theorem State.raise_rx (s : State) (e : OneShot) : (s.raise e).rx = s.rx := rfl
@[simp] theorem State.raise_interp (s : State) (e : OneShot) : (s.raise e).interp = s.interp := rfl
@[simp] theorem State.raise_screens (s : State) (e : OneShot) : (s.raise e).screens = s.screens := rfl
@[simp] theorem State.raise_grads (s : State) (e : OneShot) : (s.raise e).grads = s.grads := rfl
@[simp] theorem State.raise_expander (s : State) (e : OneShot) : (s.raise e).expander = s.expander := rfl
@[simp] theorem State.raise_lanes (s : State) (e : OneShot) : (s.raise e).lanes = s.lanes := rfl
@[simp] theorem State.raise_monitor (s : State) (e : OneShot) : (s.raise e).monitor = s.monitor := rfl
@[simp] theorem State.raise_seq (s : State) (e : OneShot) : (s.raise e).seq = s.seq := rfl
@[simp] theorem State.raise_ports (s : State) (e : OneShot) : (s.raise e).ports = s.ports := rfl
@[simp] theorem State.raise_tallies (s : State) (e : OneShot) : (s.raise e).tallies = s.tallies := rfl
@[simp] theorem State.raise_markCounter (s : State) (e : OneShot) : (s.raise e).markCounter = s.markCounter := rfl
@[simp] theorem State.raise_captures (s : State) (e : OneShot) : (s.raise e).captures = s.captures := rfl

@[simp] theorem State.raise_tx_queue (s : State) (e : OneShot) : (s.raise e).tx.queue = s.tx.queue := rfl
@[simp] theorem State.raise_tx_flowMark (s : State) (e : OneShot) : (s.raise e).tx.flowMark = s.tx.flowMark := rfl
@[simp] theorem State.raise_tx_announced (s : State) (e : OneShot) : (s.raise e).tx.announced = s.tx.announced := rfl
@[simp] theorem State.raise_tx_room (s : State) (e : OneShot) : (s.raise e).tx.room = s.tx.room := rfl
@[simp] theorem State.raise_tx_sending (s : State) (e : OneShot) : (s.raise e).tx.sending = s.tx.sending := rfl
@[simp] theorem State.raise_events (s : State) (e : OneShot) : (s.raise e).status.events = s.status.events ||| e.bit := rfl
@[simp] theorem State.raise_enable (s : State) (e : OneShot) : (s.raise e).status.enable = s.status.enable := rfl
@[simp] theorem State.raise_errors (s : State) (e : OneShot) : (s.raise e).status.errors = s.status.errors := rfl
@[simp] theorem State.raise_conditions (s : State) (e : OneShot) : (s.raise e).conditions = s.conditions := rfl

@[simp] theorem State.latch_pending (s t : State) : (s.latch t).pending = t.pending := rfl
@[simp] theorem State.latch_rx (s t : State) : (s.latch t).rx = t.rx := rfl
@[simp] theorem State.latch_interp (s t : State) : (s.latch t).interp = t.interp := rfl
@[simp] theorem State.latch_screens (s t : State) : (s.latch t).screens = t.screens := rfl
@[simp] theorem State.latch_grads (s t : State) : (s.latch t).grads = t.grads := rfl
@[simp] theorem State.latch_expander (s t : State) : (s.latch t).expander = t.expander := rfl
@[simp] theorem State.latch_lanes (s t : State) : (s.latch t).lanes = t.lanes := rfl
@[simp] theorem State.latch_monitor (s t : State) : (s.latch t).monitor = t.monitor := rfl
@[simp] theorem State.latch_seq (s t : State) : (s.latch t).seq = t.seq := rfl
@[simp] theorem State.latch_ports (s t : State) : (s.latch t).ports = t.ports := rfl
@[simp] theorem State.latch_tallies (s t : State) : (s.latch t).tallies = t.tallies := rfl
@[simp] theorem State.latch_markCounter (s t : State) : (s.latch t).markCounter = t.markCounter := rfl
@[simp] theorem State.latch_captures (s t : State) : (s.latch t).captures = t.captures := rfl

@[simp] theorem State.latch_tx_queue (s t : State) : (s.latch t).tx.queue = t.tx.queue := rfl
@[simp] theorem State.latch_tx_flowMark (s t : State) : (s.latch t).tx.flowMark = t.tx.flowMark := rfl
@[simp] theorem State.latch_tx_announced (s t : State) : (s.latch t).tx.announced = t.tx.announced := rfl
@[simp] theorem State.latch_tx_room (s t : State) : (s.latch t).tx.room = t.tx.room := rfl
@[simp] theorem State.latch_tx_sending (s t : State) : (s.latch t).tx.sending = t.tx.sending := rfl
@[simp] theorem State.latch_events (s t : State) :
    (s.latch t).status.events = t.status.events ||| risingEdges s.conditions t.conditions := rfl
@[simp] theorem State.latch_enable (s t : State) : (s.latch t).status.enable = t.status.enable := rfl
@[simp] theorem State.latch_errors (s t : State) : (s.latch t).status.errors = t.status.errors := rfl
@[simp] theorem State.latch_conditions (s t : State) : (s.latch t).conditions = t.conditions := rfl


/-! ## The Error Queue -/

/-- A post: the queue and the two effects of raising ERROR_QUEUED, and nothing else (R183). -/
theorem State.post_eq (s : State) (code : ErrorCode) (head : Option HeadNo) (lane : Option Byte) (track cell : Option Nat) :
    s.post code head lane track cell =
      { s with
        status := { events := s.status.events ||| OneShot.errorQueued.bit
                    enable := s.status.enable
                    errors := postTo s.status.errors { code := code, revolution := s.monitor.revolutions, head := head,
                                                       lane := lane, track := track, cell := cell } }
        tx := { s.tx with
          notice := noticeGoing s.summary (summaryOf (s.status.events ||| OneShot.errorQueued.bit) s.status.enable)
            s.tx.notice } } := rfl

/-- A post never makes the queue longer than its capacity. -/
theorem postTo_length (q : List ErrorEntry) (e : ErrorEntry) (h : q.length ≤ Config.errorCapacity) :
    (postTo q e).length ≤ Config.errorCapacity := by
  unfold postTo
  split
  · exact h
  · split
    · simp only [List.length_append, List.length_cons, List.length_nil]; omega
    · simp only [List.length_append, List.length_dropLast, List.length_cons, List.length_nil]
      have : 0 < Config.errorCapacity := by decide
      omega

@[simp] theorem State.post_pending (s : State) (c : ErrorCode) (h : Option HeadNo) (l : Option Byte) (k j : Option Nat) :
    (s.post c h l k j).pending = s.pending := rfl
@[simp] theorem State.post_rx (s : State) (c : ErrorCode) (h : Option HeadNo) (l : Option Byte) (k j : Option Nat) :
    (s.post c h l k j).rx = s.rx := rfl
@[simp] theorem State.post_interp (s : State) (c : ErrorCode) (h : Option HeadNo) (l : Option Byte) (k j : Option Nat) :
    (s.post c h l k j).interp = s.interp := rfl
@[simp] theorem State.post_screens (s : State) (c : ErrorCode) (h : Option HeadNo) (l : Option Byte) (k j : Option Nat) :
    (s.post c h l k j).screens = s.screens := rfl
@[simp] theorem State.post_grads (s : State) (c : ErrorCode) (h : Option HeadNo) (l : Option Byte) (k j : Option Nat) :
    (s.post c h l k j).grads = s.grads := rfl
@[simp] theorem State.post_expander (s : State) (c : ErrorCode) (h : Option HeadNo) (l : Option Byte) (k j : Option Nat) :
    (s.post c h l k j).expander = s.expander := rfl
@[simp] theorem State.post_lanes (s : State) (c : ErrorCode) (h : Option HeadNo) (l : Option Byte) (k j : Option Nat) :
    (s.post c h l k j).lanes = s.lanes := rfl
@[simp] theorem State.post_monitor (s : State) (c : ErrorCode) (h : Option HeadNo) (l : Option Byte) (k j : Option Nat) :
    (s.post c h l k j).monitor = s.monitor := rfl
@[simp] theorem State.post_seq (s : State) (c : ErrorCode) (h : Option HeadNo) (l : Option Byte) (k j : Option Nat) :
    (s.post c h l k j).seq = s.seq := rfl
@[simp] theorem State.post_ports (s : State) (c : ErrorCode) (h : Option HeadNo) (l : Option Byte) (k j : Option Nat) :
    (s.post c h l k j).ports = s.ports := rfl
@[simp] theorem State.post_tallies (s : State) (c : ErrorCode) (h : Option HeadNo) (l : Option Byte) (k j : Option Nat) :
    (s.post c h l k j).tallies = s.tallies := rfl
@[simp] theorem State.post_markCounter (s : State) (c : ErrorCode) (h : Option HeadNo) (l : Option Byte) (k j : Option Nat) :
    (s.post c h l k j).markCounter = s.markCounter := rfl
@[simp] theorem State.post_captures (s : State) (c : ErrorCode) (h : Option HeadNo) (l : Option Byte) (k j : Option Nat) :
    (s.post c h l k j).captures = s.captures := rfl
@[simp] theorem State.post_tx_queue (s : State) (c : ErrorCode) (h : Option HeadNo) (l : Option Byte) (k j : Option Nat) :
    (s.post c h l k j).tx.queue = s.tx.queue := rfl
@[simp] theorem State.post_tx_flowMark (s : State) (c : ErrorCode) (h : Option HeadNo) (l : Option Byte) (k j : Option Nat) :
    (s.post c h l k j).tx.flowMark = s.tx.flowMark := rfl
@[simp] theorem State.post_tx_announced (s : State) (c : ErrorCode) (h : Option HeadNo) (l : Option Byte) (k j : Option Nat) :
    (s.post c h l k j).tx.announced = s.tx.announced := rfl
@[simp] theorem State.post_tx_room (s : State) (c : ErrorCode) (h : Option HeadNo) (l : Option Byte) (k j : Option Nat) :
    (s.post c h l k j).tx.room = s.tx.room := rfl
@[simp] theorem State.post_tx_sending (s : State) (c : ErrorCode) (h : Option HeadNo) (l : Option Byte) (k j : Option Nat) :
    (s.post c h l k j).tx.sending = s.tx.sending := rfl
@[simp] theorem State.post_conditions (s : State) (c : ErrorCode) (h : Option HeadNo) (l : Option Byte) (k j : Option Nat) :
    (s.post c h l k j).conditions = s.conditions := rfl


/-! ## The Upstream Queue -/

theorem State.place_eq (s : State) (f : UpFrame) : s.place f = { s with tx := { s.tx with queue := s.tx.queue ++ [f] } } := rfl

/-- The answer to a record: placed with an entry free, and otherwise the Interpreter waits with it (R172). -/
theorem State.answer_eq (s : State) (f : UpFrame) :
    s.answer f =
      { s with
        tx := { s.tx with queue := if s.tx.queue.length < 64 then s.tx.queue ++ [f] else s.tx.queue }
        interp := { s.interp with state := if s.tx.queue.length < 64 then s.interp.state else .waiting f } } := by
  unfold State.answer State.upstreamRoom
  by_cases h : s.tx.queue.length < 64 <;> simp [h, State.place, State.setTx, State.setInterp]

@[simp] theorem State.answer_pending (s : State) (f : UpFrame) : (s.answer f).pending = s.pending := by
  rw [State.answer_eq]
@[simp] theorem State.answer_rx (s : State) (f : UpFrame) : (s.answer f).rx = s.rx := by
  rw [State.answer_eq]
@[simp] theorem State.answer_screens (s : State) (f : UpFrame) : (s.answer f).screens = s.screens := by
  rw [State.answer_eq]
@[simp] theorem State.answer_grads (s : State) (f : UpFrame) : (s.answer f).grads = s.grads := by
  rw [State.answer_eq]
@[simp] theorem State.answer_expander (s : State) (f : UpFrame) : (s.answer f).expander = s.expander := by
  rw [State.answer_eq]
@[simp] theorem State.answer_lanes (s : State) (f : UpFrame) : (s.answer f).lanes = s.lanes := by
  rw [State.answer_eq]
@[simp] theorem State.answer_monitor (s : State) (f : UpFrame) : (s.answer f).monitor = s.monitor := by
  rw [State.answer_eq]
@[simp] theorem State.answer_seq (s : State) (f : UpFrame) : (s.answer f).seq = s.seq := by
  rw [State.answer_eq]
@[simp] theorem State.answer_ports (s : State) (f : UpFrame) : (s.answer f).ports = s.ports := by
  rw [State.answer_eq]
@[simp] theorem State.answer_tallies (s : State) (f : UpFrame) : (s.answer f).tallies = s.tallies := by
  rw [State.answer_eq]
@[simp] theorem State.answer_markCounter (s : State) (f : UpFrame) : (s.answer f).markCounter = s.markCounter := by
  rw [State.answer_eq]
@[simp] theorem State.answer_captures (s : State) (f : UpFrame) : (s.answer f).captures = s.captures := by
  rw [State.answer_eq]
@[simp] theorem State.answer_status (s : State) (f : UpFrame) : (s.answer f).status = s.status := by
  rw [State.answer_eq]

@[simp] theorem State.answer_conditions (s : State) (f : UpFrame) : (s.answer f).conditions = s.conditions := by
  rw [State.answer_eq]; rfl


/-! ## The Intake FIFO and its flow state -/

theorem State.changeFlow_eq (s : State) (f : FlowState) :
    s.changeFlow f =
      { s with rx := { s.rx with flow := f }
               tx := { s.tx with flowMark := if f = s.tx.announced then none else some f } } := rfl

theorem State.judgeRise_eq (s : State) :
    s.judgeRise = if s.rx.flow = .flowing ∧ s.rx.high ≤ s.fill then s.changeFlow .paused else s := rfl

theorem State.judgeFall_eq (s : State) :
    s.judgeFall = if s.rx.flow = .paused ∧ s.fill ≤ s.rx.low then s.changeFlow .flowing else s := rfl

@[simp] theorem State.judgeRise_pending (s : State) : s.judgeRise.pending = s.pending := by
  unfold State.judgeRise; split <;> rfl
@[simp] theorem State.judgeRise_interp (s : State) : s.judgeRise.interp = s.interp := by
  unfold State.judgeRise; split <;> rfl
@[simp] theorem State.judgeRise_screens (s : State) : s.judgeRise.screens = s.screens := by
  unfold State.judgeRise; split <;> rfl
@[simp] theorem State.judgeRise_grads (s : State) : s.judgeRise.grads = s.grads := by
  unfold State.judgeRise; split <;> rfl
@[simp] theorem State.judgeRise_expander (s : State) : s.judgeRise.expander = s.expander := by
  unfold State.judgeRise; split <;> rfl
@[simp] theorem State.judgeRise_lanes (s : State) : s.judgeRise.lanes = s.lanes := by
  unfold State.judgeRise; split <;> rfl
@[simp] theorem State.judgeRise_monitor (s : State) : s.judgeRise.monitor = s.monitor := by
  unfold State.judgeRise; split <;> rfl
@[simp] theorem State.judgeRise_seq (s : State) : s.judgeRise.seq = s.seq := by
  unfold State.judgeRise; split <;> rfl
@[simp] theorem State.judgeRise_ports (s : State) : s.judgeRise.ports = s.ports := by
  unfold State.judgeRise; split <;> rfl
@[simp] theorem State.judgeRise_tallies (s : State) : s.judgeRise.tallies = s.tallies := by
  unfold State.judgeRise; split <;> rfl
@[simp] theorem State.judgeRise_markCounter (s : State) : s.judgeRise.markCounter = s.markCounter := by
  unfold State.judgeRise; split <;> rfl
@[simp] theorem State.judgeRise_captures (s : State) : s.judgeRise.captures = s.captures := by
  unfold State.judgeRise; split <;> rfl
@[simp] theorem State.judgeRise_status (s : State) : s.judgeRise.status = s.status := by
  unfold State.judgeRise; split <;> rfl
@[simp] theorem State.judgeRise_rx_fifo (s : State) : s.judgeRise.rx.fifo = s.rx.fifo := by
  unfold State.judgeRise; split <;> rfl
@[simp] theorem State.judgeRise_rx_high (s : State) : s.judgeRise.rx.high = s.rx.high := by
  unfold State.judgeRise; split <;> rfl
@[simp] theorem State.judgeRise_rx_low (s : State) : s.judgeRise.rx.low = s.rx.low := by
  unfold State.judgeRise; split <;> rfl
@[simp] theorem State.judgeRise_rx_down (s : State) : s.judgeRise.rx.down = s.rx.down := by
  unfold State.judgeRise; split <;> rfl
@[simp] theorem State.judgeRise_tx_queue (s : State) : s.judgeRise.tx.queue = s.tx.queue := by
  unfold State.judgeRise; split <;> rfl
@[simp] theorem State.judgeRise_tx_announced (s : State) : s.judgeRise.tx.announced = s.tx.announced := by
  unfold State.judgeRise; split <;> rfl
@[simp] theorem State.judgeRise_tx_room (s : State) : s.judgeRise.tx.room = s.tx.room := by
  unfold State.judgeRise; split <;> rfl
@[simp] theorem State.judgeRise_tx_notice (s : State) : s.judgeRise.tx.notice = s.tx.notice := by
  unfold State.judgeRise; split <;> rfl
@[simp] theorem State.judgeRise_tx_sending (s : State) : s.judgeRise.tx.sending = s.tx.sending := by
  unfold State.judgeRise; split <;> rfl

@[simp] theorem State.judgeFall_pending (s : State) : s.judgeFall.pending = s.pending := by
  unfold State.judgeFall; split <;> rfl
@[simp] theorem State.judgeFall_interp (s : State) : s.judgeFall.interp = s.interp := by
  unfold State.judgeFall; split <;> rfl
@[simp] theorem State.judgeFall_screens (s : State) : s.judgeFall.screens = s.screens := by
  unfold State.judgeFall; split <;> rfl
@[simp] theorem State.judgeFall_grads (s : State) : s.judgeFall.grads = s.grads := by
  unfold State.judgeFall; split <;> rfl
@[simp] theorem State.judgeFall_expander (s : State) : s.judgeFall.expander = s.expander := by
  unfold State.judgeFall; split <;> rfl
@[simp] theorem State.judgeFall_lanes (s : State) : s.judgeFall.lanes = s.lanes := by
  unfold State.judgeFall; split <;> rfl
@[simp] theorem State.judgeFall_monitor (s : State) : s.judgeFall.monitor = s.monitor := by
  unfold State.judgeFall; split <;> rfl
@[simp] theorem State.judgeFall_seq (s : State) : s.judgeFall.seq = s.seq := by
  unfold State.judgeFall; split <;> rfl
@[simp] theorem State.judgeFall_ports (s : State) : s.judgeFall.ports = s.ports := by
  unfold State.judgeFall; split <;> rfl
@[simp] theorem State.judgeFall_tallies (s : State) : s.judgeFall.tallies = s.tallies := by
  unfold State.judgeFall; split <;> rfl
@[simp] theorem State.judgeFall_markCounter (s : State) : s.judgeFall.markCounter = s.markCounter := by
  unfold State.judgeFall; split <;> rfl
@[simp] theorem State.judgeFall_captures (s : State) : s.judgeFall.captures = s.captures := by
  unfold State.judgeFall; split <;> rfl
@[simp] theorem State.judgeFall_status (s : State) : s.judgeFall.status = s.status := by
  unfold State.judgeFall; split <;> rfl
@[simp] theorem State.judgeFall_rx_fifo (s : State) : s.judgeFall.rx.fifo = s.rx.fifo := by
  unfold State.judgeFall; split <;> rfl
@[simp] theorem State.judgeFall_rx_high (s : State) : s.judgeFall.rx.high = s.rx.high := by
  unfold State.judgeFall; split <;> rfl
@[simp] theorem State.judgeFall_rx_low (s : State) : s.judgeFall.rx.low = s.rx.low := by
  unfold State.judgeFall; split <;> rfl
@[simp] theorem State.judgeFall_rx_down (s : State) : s.judgeFall.rx.down = s.rx.down := by
  unfold State.judgeFall; split <;> rfl
@[simp] theorem State.judgeFall_tx_queue (s : State) : s.judgeFall.tx.queue = s.tx.queue := by
  unfold State.judgeFall; split <;> rfl
@[simp] theorem State.judgeFall_tx_announced (s : State) : s.judgeFall.tx.announced = s.tx.announced := by
  unfold State.judgeFall; split <;> rfl
@[simp] theorem State.judgeFall_tx_room (s : State) : s.judgeFall.tx.room = s.tx.room := by
  unfold State.judgeFall; split <;> rfl
@[simp] theorem State.judgeFall_tx_notice (s : State) : s.judgeFall.tx.notice = s.tx.notice := by
  unfold State.judgeFall; split <;> rfl
@[simp] theorem State.judgeFall_tx_sending (s : State) : s.judgeFall.tx.sending = s.tx.sending := by
  unfold State.judgeFall; split <;> rfl

@[simp] theorem State.leaveIntake_pending (s : State) : s.leaveIntake.pending = s.pending := by
  simp [State.leaveIntake]
@[simp] theorem State.leaveIntake_interp (s : State) : s.leaveIntake.interp = s.interp := by
  simp [State.leaveIntake]
@[simp] theorem State.leaveIntake_screens (s : State) : s.leaveIntake.screens = s.screens := by
  simp [State.leaveIntake]
@[simp] theorem State.leaveIntake_grads (s : State) : s.leaveIntake.grads = s.grads := by
  simp [State.leaveIntake]
@[simp] theorem State.leaveIntake_expander (s : State) : s.leaveIntake.expander = s.expander := by
  simp [State.leaveIntake]
@[simp] theorem State.leaveIntake_lanes (s : State) : s.leaveIntake.lanes = s.lanes := by
  simp [State.leaveIntake]
@[simp] theorem State.leaveIntake_monitor (s : State) : s.leaveIntake.monitor = s.monitor := by
  simp [State.leaveIntake]
@[simp] theorem State.leaveIntake_seq (s : State) : s.leaveIntake.seq = s.seq := by
  simp [State.leaveIntake]
@[simp] theorem State.leaveIntake_ports (s : State) : s.leaveIntake.ports = s.ports := by
  simp [State.leaveIntake]
@[simp] theorem State.leaveIntake_tallies (s : State) : s.leaveIntake.tallies = s.tallies := by
  simp [State.leaveIntake]
@[simp] theorem State.leaveIntake_markCounter (s : State) : s.leaveIntake.markCounter = s.markCounter := by
  simp [State.leaveIntake]
@[simp] theorem State.leaveIntake_captures (s : State) : s.leaveIntake.captures = s.captures := by
  simp [State.leaveIntake]
@[simp] theorem State.leaveIntake_status (s : State) : s.leaveIntake.status = s.status := by
  simp [State.leaveIntake]
@[simp] theorem State.leaveIntake_rx_high (s : State) : s.leaveIntake.rx.high = s.rx.high := by
  simp [State.leaveIntake]
@[simp] theorem State.leaveIntake_rx_low (s : State) : s.leaveIntake.rx.low = s.rx.low := by
  simp [State.leaveIntake]
@[simp] theorem State.leaveIntake_rx_down (s : State) : s.leaveIntake.rx.down = s.rx.down := by
  simp [State.leaveIntake]
@[simp] theorem State.leaveIntake_rx_fifo (s : State) : s.leaveIntake.rx.fifo = s.rx.fifo.tail := by
  simp [State.leaveIntake]
@[simp] theorem State.leaveIntake_tx_queue (s : State) : s.leaveIntake.tx.queue = s.tx.queue := by
  simp [State.leaveIntake]
@[simp] theorem State.leaveIntake_tx_announced (s : State) : s.leaveIntake.tx.announced = s.tx.announced := by
  simp [State.leaveIntake]
@[simp] theorem State.leaveIntake_tx_room (s : State) : s.leaveIntake.tx.room = s.tx.room := by
  simp [State.leaveIntake]
@[simp] theorem State.leaveIntake_tx_notice (s : State) : s.leaveIntake.tx.notice = s.tx.notice := by
  simp [State.leaveIntake]
@[simp] theorem State.leaveIntake_tx_sending (s : State) : s.leaveIntake.tx.sending = s.tx.sending := by
  simp [State.leaveIntake]

/-- The flow state and the pending flow mark once the frame at the head has left the FIFO (R156, R157). -/
theorem State.leaveIntake_eq (s : State) :
    s.leaveIntake =
      if s.rx.flow = .paused ∧ fillOf s.rx.fifo.tail ≤ s.rx.low then
        { s with rx := { s.rx with fifo := s.rx.fifo.tail, flow := .flowing }
                 tx := { s.tx with flowMark := if FlowState.flowing = s.tx.announced then none else some .flowing } }
      else { s with rx := { s.rx with fifo := s.rx.fifo.tail } } := rfl

/-- A frame that fits joins the tail, and the flow state is judged; one that does not is dropped (R154, R155). -/
theorem State.joinIntake_eq (s : State) (f : Frame) :
    s.joinIntake f =
      if f.size ≤ Config.intakeCapacity - s.fill then
        State.judgeRise { s with rx := { s.rx with fifo := s.rx.fifo ++ [f] } }
      else s.post .intakeOverrun := rfl

@[simp] theorem fillOf_nil : fillOf [] = 0 := rfl

@[simp] theorem fillOf_append (a b : List Frame) : fillOf (a ++ b) = fillOf a + fillOf b := by
  simp [fillOf]

@[simp] theorem fillOf_cons (f : Frame) (rest : List Frame) : fillOf (f :: rest) = f.size + fillOf rest := by
  simp [fillOf]

theorem fillOf_tail_le (fifo : List Frame) : fillOf fifo.tail ≤ fillOf fifo := by
  cases fifo <;> simp

/-! ## Captures -/

/-- A change of every capture raises CAPTURE_FULL exactly if one becomes FULL by it, and does nothing else (R146). -/
theorem State.changeCaptures_eq (s : State) (f : Capture → Capture) :
    s.changeCaptures f =
      if s.captures.any fun c => becameFull c (f c) then
        State.raise { s with captures := s.captures.map f } .captureFull
      else { s with captures := s.captures.map f } := rfl

@[simp] theorem State.changeCaptures_pending (s : State) (f : Capture → Capture) : (s.changeCaptures f).pending = s.pending := by
  unfold State.changeCaptures; simp only []; split <;> rfl
@[simp] theorem State.changeCaptures_rx (s : State) (f : Capture → Capture) : (s.changeCaptures f).rx = s.rx := by
  unfold State.changeCaptures; simp only []; split <;> rfl
@[simp] theorem State.changeCaptures_interp (s : State) (f : Capture → Capture) : (s.changeCaptures f).interp = s.interp := by
  unfold State.changeCaptures; simp only []; split <;> rfl
@[simp] theorem State.changeCaptures_screens (s : State) (f : Capture → Capture) : (s.changeCaptures f).screens = s.screens := by
  unfold State.changeCaptures; simp only []; split <;> rfl
@[simp] theorem State.changeCaptures_grads (s : State) (f : Capture → Capture) : (s.changeCaptures f).grads = s.grads := by
  unfold State.changeCaptures; simp only []; split <;> rfl
@[simp] theorem State.changeCaptures_expander (s : State) (f : Capture → Capture) : (s.changeCaptures f).expander = s.expander := by
  unfold State.changeCaptures; simp only []; split <;> rfl
@[simp] theorem State.changeCaptures_lanes (s : State) (f : Capture → Capture) : (s.changeCaptures f).lanes = s.lanes := by
  unfold State.changeCaptures; simp only []; split <;> rfl
@[simp] theorem State.changeCaptures_monitor (s : State) (f : Capture → Capture) : (s.changeCaptures f).monitor = s.monitor := by
  unfold State.changeCaptures; simp only []; split <;> rfl
@[simp] theorem State.changeCaptures_seq (s : State) (f : Capture → Capture) : (s.changeCaptures f).seq = s.seq := by
  unfold State.changeCaptures; simp only []; split <;> rfl
@[simp] theorem State.changeCaptures_ports (s : State) (f : Capture → Capture) : (s.changeCaptures f).ports = s.ports := by
  unfold State.changeCaptures; simp only []; split <;> rfl
@[simp] theorem State.changeCaptures_tallies (s : State) (f : Capture → Capture) : (s.changeCaptures f).tallies = s.tallies := by
  unfold State.changeCaptures; simp only []; split <;> rfl
@[simp] theorem State.changeCaptures_markCounter (s : State) (f : Capture → Capture) : (s.changeCaptures f).markCounter = s.markCounter := by
  unfold State.changeCaptures; simp only []; split <;> rfl
@[simp] theorem State.changeCaptures_captures (s : State) (f : Capture → Capture) : (s.changeCaptures f).captures = s.captures.map f := by
  unfold State.changeCaptures; simp only []; split <;> rfl

end Sys2Proof.Machine
end

