-- ==== Sys2Proof/Laws/Frames.lean ====
section
/-! SUPPORT. Records and frames: the catalogue and its codes, what the Router does with a frame at the head of the FIFO, and
what every record does before and after its own rule. -/

namespace Sys2Proof.Machine

open Sys2Proof

/-! ## The catalogue -/

@[simp] theorem RecordKind.ofCode_code (k : RecordKind) : RecordKind.ofCode k.code = some k := by cases k <;> rfl

theorem RecordKind.code_of_ofCode {b : Byte} {k : RecordKind} (h : RecordKind.ofCode b = some k) : k.code = b := by
  simpa using List.find?_some h

theorem RecordKind.code_inj {j k : RecordKind} (h : j.code = k.code) : j = k := by
  have := congrArg RecordKind.ofCode h
  simpa using this

/-- The two bytes of a tag, put together again, are the tag. -/
@[simp] theorem tag_of_bytes (t : Tag) : ((t >>> 8).setWidth 8 : Byte) ++ (t.setWidth 8 : Byte) = t := by
  apply BitVec.eq_of_getLsbD_eq
  intro i hi
  simp only [BitVec.getLsbD_append, BitVec.getLsbD_setWidth, BitVec.getLsbD_ushiftRight]
  split
  · simp_all
  · have h1 : i - 8 < 8 := by omega
    have h2 : 8 + (i - 8) = i := by omega
    simp [h1, h2]

theorem recordBody_length (kind : Byte) (h : Header) (p : List Byte) : (recordBody kind h p).length = 4 + p.length := by
  simp [recordBody]; omega

@[simp] theorem handedFrame_command (k : RecordKind) (h : Header) (p : List Byte) :
    handedFrame (k.command h p) = some (recordFrame k h p) := by cases k <;> rfl

/-- A record's command delivers its frame. -/
theorem exec_command (k : RecordKind) (h : Header) (p : List Byte) (s : State) :
    exec (k.command h p) s = .next (s.deliver (recordFrame k h p)) := by cases k <;> rfl

/-- Every command that hands a frame on delivers it. -/
theorem exec_of_handedFrame {i : Instr} {f : Frame} (hf : handedFrame i = some f) (s : State) :
    exec i s = .next (s.deliver f) := by
  cases i <;> simp only [handedFrame, Option.some.injEq, reduceCtorEq] at hf <;> subst hf <;> rfl

/-! ## Handing on -/

/-- A record's body is taken as that record (R166, R169). -/
theorem State.interpret_record (s b : State) (k : RecordKind) (h : Header) (p : List Byte) :
    s.interpret b (recordBody k.code h p) =
      if k = .reset then s.softReset h.tag else b.latch (s.execute k h p) := by
  simp only [State.interpret, recordBody, RecordKind.ofCode_code, tag_of_bytes]
  cases k <;> rfl

/-- A record of a kind outside the catalogue is refused with UNKNOWN_KIND (R169). -/
theorem State.interpret_unknown (s b : State) (kind : Byte) (h : Header) (p : List Byte)
    (hk : RecordKind.ofCode kind = none) :
    s.interpret b (recordBody kind h p) = b.latch ((Verdict.refuse .unknownKind).conclude s kind false h) := by
  simp only [State.interpret, recordBody, hk, tag_of_bytes]

/-- A body without a header posts UNKNOWN_FRAME (R166). -/
theorem State.interpret_short (s b : State) (body : List Byte) (hb : body.length < 4) :
    s.interpret b body = b.latch (s.post .unknownFrame) := by
  match body, hb with
  | [], _ => rfl
  | [_], _ => rfl
  | [_, _], _ => rfl
  | [_, _, _], _ => rfl

theorem State.handOn_cell (s : State) (body : List Byte) :
    s.handOn { kind := .cell, body := body } = s.latch (s.leaveIntake.takeCells body) := rfl

theorem State.handOn_ctrl (s : State) (body : List Byte) :
    s.handOn { kind := .ctrl, body := body } = s.leaveIntake.interpret s body := rfl

theorem State.handOn_record (s : State) (k : RecordKind) (h : Header) (p : List Byte) :
    s.handOn (recordFrame k h p) =
      if k = .reset then s.leaveIntake.softReset h.tag else s.latch (s.leaveIntake.execute k h p) :=
  State.interpret_record _ _ _ _ _

theorem State.mayHandOn_cell (s : State) (body : List Byte) : s.mayHandOn { kind := .cell, body := body } = true := rfl

theorem State.mayHandOn_free (s : State) (f : Frame) (h : s.interp.state = .free) : s.mayHandOn f = true := by
  simp [State.mayHandOn, State.busy, h]

theorem State.mayHandOn_reset (s : State) (h : Header) (p : List Byte) : s.mayHandOn (recordFrame .reset h p) = true := by
  simp [State.mayHandOn, Frame.isReset, recordFrame, recordBody, RecordKind.code]

/-- The command of the frame at the head of the FIFO hands it on, or leaves it waiting there (R160). -/
theorem State.deliver_head (s : State) (f : Frame) (h : s.rx.fifo.head? = some f) :
    s.deliver f = if s.mayHandOn f then s.handOn f else s := by
  unfold State.deliver
  rw [if_pos h]
  unfold State.handOnUpTo
  cases hf : s.rx.fifo with
  | nil => simp [hf] at h
  | cons g rest =>
    have : g = f := by simpa [hf] using h
    subst this
    simp [State.handOnUpTo]

/-- The command of a frame that does not stand at the head, with the link down: nothing is received (R159). -/
theorem State.deliver_down (s : State) (f : Frame) (h : s.rx.fifo.head? ≠ some f) (hd : s.rx.down = true) :
    s.deliver f = s := by
  unfold State.deliver
  rw [if_neg h, if_pos hd]

/-- The command of a frame that does not stand at the head, too long for a frame: dropped (R154). -/
theorem State.deliver_long (s : State) (f : Frame) (h : s.rx.fifo.head? ≠ some f) (hd : s.rx.down = false)
    (hb : 4096 < f.body.length) :
    s.deliver f = s.event fun t => t.post .frameCheck := by
  unfold State.deliver
  rw [if_neg h, if_neg (by simp [hd]), if_pos hb]

/-- One that does not fit: dropped (R154). -/
theorem State.deliver_overrun (s : State) (f : Frame) (h : s.rx.fifo.head? ≠ some f) (hd : s.rx.down = false) (hb : f.body.length ≤ 4096)
    (hfit : 32768 < s.fill + f.size) : s.deliver f = s.event fun t => t.post .intakeOverrun := by
  have hsize : ¬ f.size ≤ Config.intakeCapacity - s.fill := by
    have : 0 < f.size := by simp [Frame.size]
    show ¬ f.size ≤ 32768 - s.fill
    omega
  unfold State.deliver
  rw [if_neg h, if_neg (by simp [hd]), if_neg (by show ¬ 4096 < f.body.length; omega)]
  simp only [hsize, if_false]
  rw [State.event_eq, State.event_eq, State.joinIntake_eq, if_neg hsize]

/-- One that fits joins the FIFO, and the Router hands on frames in order until one has to wait (R155, R160). -/
theorem State.deliver_fits (s : State) (f : Frame) (h : s.rx.fifo.head? ≠ some f) (hd : s.rx.down = false) (hb : f.body.length ≤ 4096)
    (hfit : s.fill + f.size ≤ 32768) :
    s.deliver f = State.handOnUpTo (s.event fun t => t.joinIntake f).rx.fifo.length (s.event fun t => t.joinIntake f) := by
  have hsize : f.size ≤ Config.intakeCapacity - s.fill := by
    show f.size ≤ 32768 - s.fill
    omega
  unfold State.deliver
  rw [if_neg h, if_neg (by simp [hd]), if_neg (by show ¬ 4096 < f.body.length; omega)]
  simp only [hsize, if_true]

@[simp] theorem State.handOnUpTo_zero (s : State) : State.handOnUpTo 0 s = s := rfl

theorem State.handOnUpTo_nil (s : State) (n : Nat) (h : s.rx.fifo = []) : State.handOnUpTo n s = s := by
  cases n <;> simp [State.handOnUpTo, h]

theorem State.handOnUpTo_cons (s : State) (n : Nat) (f : Frame) (rest : List Frame) (h : s.rx.fifo = f :: rest) :
    State.handOnUpTo (n + 1) s = if s.mayHandOn f then State.handOnUpTo n (s.handOn f) else s := by
  simp [State.handOnUpTo, h]

/-! ## A record's own rule, and its answer -/

/-- A record other than RESET that the Interpreter takes from the head of the FIFO (R160, R168 to R170). -/
theorem exec_record_at_head (k : RecordKind) (h : Header) (p : List Byte) (s : State) (hk : k ≠ .reset)
    (hf : s.rx.fifo.head? = some (recordFrame k h p)) (hi : s.interp.state = .free) :
    exec (k.command h p) s =
      .next (s.latch ((checkedRule k h p s.leaveIntake).conclude s.leaveIntake k.code k.alwaysAnswered h)) := by
  rw [exec_command, State.deliver_head _ _ hf, State.mayHandOn_free _ _ hi, if_pos rfl, State.handOn_record, if_neg hk]
  rfl

/-- RESET at the head of the FIFO, in every state of the Interpreter (R160, R175). -/
theorem exec_reset_at_head (h : Header) (p : List Byte) (s : State)
    (hf : s.rx.fifo.head? = some (recordFrame .reset h p)) :
    exec (.reset h p) s = .next (s.leaveIntake.softReset h.tag) := by
  have := exec_command .reset h p s
  rw [State.deliver_head _ _ hf, State.mayHandOn_reset, if_pos rfl, State.handOn_record, if_pos rfl] at this
  exact this

theorem checkedRule_badLength (k : RecordKind) (h : Header) (p : List Byte) (s : State) (hl : k.lengthOk p = false) :
    checkedRule k h p s = .refused .badLength [] := by simp [checkedRule, hl, Verdict.refuse]

theorem checkedRule_badNotify (k : RecordKind) (h : Header) (p : List Byte) (s : State) (hl : k.lengthOk p = true)
    (hn : 1 < h.notify.toNat) : checkedRule k h p s = .refused .badValue [] := by
  simp [checkedRule, hl, hn, Verdict.refuse]

theorem checkedRule_ok (k : RecordKind) (h : Header) (p : List Byte) (s : State) (hl : k.lengthOk p = true)
    (hn : h.notify.toNat ≤ 1) : checkedRule k h p s = ruleOf k h p s := by
  simp [checkedRule, hl, Nat.not_lt.mpr hn]

@[simp] theorem Verdict.conclude_refused (code : Completion) (payload : List Byte) (s : State) (kind : Byte) (a : Bool)
    (h : Header) : (Verdict.refused code payload).conclude s kind a h =
      (s.raise .recordRefused).answer (resultFrame h.tag kind code payload) := rfl

@[simp] theorem Verdict.conclude_done (t : State) (code : Completion) (payload : List Byte) (s : State) (kind : Byte)
    (a : Bool) (h : Header) : (Verdict.done t code payload).conclude s kind a h =
      if a || h.notify = 1 then t.answer (resultFrame h.tag kind code payload) else t := rfl

@[simp] theorem Verdict.conclude_later (t s : State) (kind : Byte) (a : Bool) (h : Header) :
    (Verdict.later t).conclude s kind a h = t := rfl

@[simp] theorem withOperands_some {α : Type} (a : α) (rule : α → Verdict) : withOperands (some a) rule = rule a := rfl

@[simp] theorem withOperands_none {α : Type} (rule : α → Verdict) : withOperands none rule = .refused .badValue [] := rfl

theorem finOf_eq {n v : Nat} (i : Fin n) : finOf n v = some i ↔ v = i.val := by
  unfold finOf
  constructor
  · intro h
    split at h
    · cases h; rfl
    · cases h
  · rintro rfl
    simp [i.isLt]

theorem finOf_none {n v : Nat} : finOf n v = none ↔ n ≤ v := by
  unfold finOf
  split <;> simp_all

@[simp] theorem guardIn_true {α : Type} (v : α) : guardIn true v = some v := rfl

@[simp] theorem guardIn_false {α : Type} (v : α) : guardIn false v = none := rfl

theorem codeOf_none {α : Type} (a b : α) (v : Nat) : codeOf a b v = none ↔ 1 < v := by
  match v with
  | 0 => simp [codeOf]
  | 1 => simp [codeOf]
  | n + 2 => simp [codeOf]

theorem codeOf_some {α : Type} (a b : α) (v : Nat) (h : v ≤ 1) : codeOf a b v = some (if v = 0 then a else b) := by
  match v, h with
  | 0, _ => rfl
  | 1, _ => rfl

/-! ## Bytes -/

@[simp] theorem leBytes_length (n v : Nat) : (leBytes n v).length = n := by
  induction n generalizing v with
  | zero => rfl
  | succ n ih => simp [leBytes, ih]

theorem u8At_lt (p : List Byte) (i : Nat) : u8At p i < 256 := (p.getD i 0).isLt

theorem u16At_lt (p : List Byte) (i : Nat) : u16At p i < 65536 := by
  have h0 := u8At_lt p i
  have h1 := u8At_lt p (i + 1)
  unfold u16At
  omega

theorem u32At_lt (p : List Byte) (i : Nat) : u32At p i < 4294967296 := by
  have h0 := u16At_lt p i
  have h1 := u16At_lt p (i + 2)
  unfold u32At
  omega

@[simp] theorem u8At_zero (b : Byte) (p : List Byte) : u8At (b :: p) 0 = b.toNat := rfl

@[simp] theorem u8At_succ (b : Byte) (p : List Byte) (i : Nat) : u8At (b :: p) (i + 1) = u8At p i := rfl

/-- A number of sixteen bits is read back from its two bytes (R186). -/
theorem u16At_leBytes (v : Nat) (h : v < 65536) (rest : List Byte) : u16At (leBytes 2 v ++ rest) 0 = v := by
  simp [u16At, leBytes]
  omega

/-- A number of thirty-two bits is read back from its four bytes (R186). -/
theorem u32At_leBytes (v : Nat) (h : v < 4294967296) (rest : List Byte) : u32At (leBytes 4 v ++ rest) 0 = v := by
  simp [u32At, u16At, leBytes]
  omega

end Sys2Proof.Machine
end

