-- ==== Sys2Proof/Laws/Lanes.lean ====
section
/-! SUPPORT. Track slots and lanes: what each move does, and what the Track Assembler's acceptance keeps. -/

namespace Sys2Proof.Machine

@[simp] theorem TrackSlot.move_free (src dst : SlotUse) (ok : Nat → Bool) : TrackSlot.move src dst ok .free = .free := rfl

@[simp] theorem TrackSlot.move_held (src dst u : SlotUse) (ok : Nat → Bool) (k : Nat) (cells : List Cell) :
    TrackSlot.move src dst ok (.held u k cells) = .held (if u = src ∧ ok k then dst else u) k cells := by
  by_cases h : u = src ∧ ok k <;> simp [TrackSlot.move, h]

@[simp] theorem TrackSlot.isIn_free (u : SlotUse) (ok : Nat → Bool) : TrackSlot.isIn u ok .free = false := rfl

@[simp] theorem TrackSlot.isIn_held (u v : SlotUse) (ok : Nat → Bool) (k : Nat) (cells : List Cell) :
    TrackSlot.isIn u ok (.held v k cells) = (decide (v = u) && ok k) := by
  by_cases h : v = u <;> cases hk : ok k <;> simp [TrackSlot.isIn, h, hk]

theorem TrackSlot.isFree_iff (t : TrackSlot) : t.isFree = true ↔ t = .free := by cases t <;> simp [TrackSlot.isFree]

@[simp] theorem Lane.mapSlots_tag (l : Lane) (f : TrackSlot → TrackSlot) : (l.mapSlots f).tag = l.tag := rfl
@[simp] theorem Lane.mapSlots_pattern (l : Lane) (f : TrackSlot → TrackSlot) : (l.mapSlots f).pattern = l.pattern := rfl
@[simp] theorem Lane.mapSlots_tracks (l : Lane) (f : TrackSlot → TrackSlot) : (l.mapSlots f).tracks = l.tracks := rfl
@[simp] theorem Lane.mapSlots_next (l : Lane) (f : TrackSlot → TrackSlot) : (l.mapSlots f).next = l.next := rfl
@[simp] theorem Lane.mapSlots_slot0 (l : Lane) (f : TrackSlot → TrackSlot) : (l.mapSlots f).slot0 = f l.slot0 := rfl
@[simp] theorem Lane.mapSlots_slot1 (l : Lane) (f : TrackSlot → TrackSlot) : (l.mapSlots f).slot1 = f l.slot1 := rfl

@[simp] theorem Lane.setSlot_tag (l : Lane) (s : Side) (t : TrackSlot) : (l.setSlot s t).tag = l.tag := by cases s <;> rfl
@[simp] theorem Lane.setSlot_pattern (l : Lane) (s : Side) (t : TrackSlot) : (l.setSlot s t).pattern = l.pattern := by
  cases s <;> rfl
@[simp] theorem Lane.setSlot_tracks (l : Lane) (s : Side) (t : TrackSlot) : (l.setSlot s t).tracks = l.tracks := by
  cases s <;> rfl
@[simp] theorem Lane.setSlot_next (l : Lane) (s : Side) (t : TrackSlot) : (l.setSlot s t).next = l.next := by
  cases s <;> rfl

/-- A segment, taken or refused, leaves the lane's tag, pattern length and track count as they were, and opens at most
one new track (R86 to R91). -/
theorem takeSegment_keeps (l : Lane) (g : Segment) :
    (takeSegment l g).2.tag = l.tag ∧ (takeSegment l g).2.pattern = l.pattern ∧
    (takeSegment l g).2.tracks = l.tracks ∧
    ((takeSegment l g).2.next = l.next ∨ (takeSegment l g).2.next = l.next + 1) := by
  unfold takeSegment
  cases l.assemblingSide g.track <;> cases l.freeSide <;>
    simp only [Option.or, Option.isNone] <;> split_ifs <;> simp

/-- An accepted segment belongs to the next track to assemble, and that track exists (R86). -/
theorem takeSegment_accepted (l : Lane) (g : Segment) (h : (takeSegment l g).1 = none) :
    g.track = l.next ∧ l.next < l.tracks := by
  by_contra hc
  have h1 : g.track ≠ l.next ∨ l.tracks ≤ l.next := by
    by_contra h2
    rw [not_or, not_not, not_le] at h2
    exact hc h2
  rw [takeSegment, if_pos h1] at h
  exact absurd h (by simp)

@[simp] theorem State.updLane_get (s : State) (h g : HeadNo) (f : Lane → Lane) :
    (s.updLane h f).lanes[g] = if g = h then s.lanes[h].map f else s.lanes[g] := by
  show (updAt s.lanes h (Option.map f))[g] = _
  rw [updAt_get]

@[simp] theorem State.updHead_get (s : State) (h g : HeadNo) (f : HeadItems → HeadItems) :
    (s.updHead h f).seq.heads[g] = if g = h then f s.seq.heads[h] else s.seq.heads[g] := by
  show (updAt s.seq.heads h f)[g] = _
  rw [updAt_get]

@[simp] theorem State.updPort_get (s : State) (h g : HeadNo) (f : HeadPort → HeadPort) :
    (s.updPort h f).ports[g] = if g = h then f s.ports[h] else s.ports[g] := by
  show (updAt s.ports h f)[g] = _
  rw [updAt_get]

@[simp] theorem State.updTally_get (s : State) (h g : HeadNo) (f : Tally → Tally) :
    (s.updTally h f).tallies[g] = if g = h then f s.tallies[h] else s.tallies[g] := by
  show (updAt s.tallies h f)[g] = _
  rw [updAt_get]

@[simp] theorem State.updHead_pending (s : State) (h : HeadNo) (f : HeadItems → HeadItems) : (s.updHead h f).pending = s.pending := rfl
@[simp] theorem State.updHead_rx (s : State) (h : HeadNo) (f : HeadItems → HeadItems) : (s.updHead h f).rx = s.rx := rfl
@[simp] theorem State.updHead_tx (s : State) (h : HeadNo) (f : HeadItems → HeadItems) : (s.updHead h f).tx = s.tx := rfl
@[simp] theorem State.updHead_interp (s : State) (h : HeadNo) (f : HeadItems → HeadItems) : (s.updHead h f).interp = s.interp := rfl
@[simp] theorem State.updHead_screens (s : State) (h : HeadNo) (f : HeadItems → HeadItems) : (s.updHead h f).screens = s.screens := rfl
@[simp] theorem State.updHead_grads (s : State) (h : HeadNo) (f : HeadItems → HeadItems) : (s.updHead h f).grads = s.grads := rfl
@[simp] theorem State.updHead_expander (s : State) (h : HeadNo) (f : HeadItems → HeadItems) : (s.updHead h f).expander = s.expander := rfl
@[simp] theorem State.updHead_lanes (s : State) (h : HeadNo) (f : HeadItems → HeadItems) : (s.updHead h f).lanes = s.lanes := rfl
@[simp] theorem State.updHead_monitor (s : State) (h : HeadNo) (f : HeadItems → HeadItems) : (s.updHead h f).monitor = s.monitor := rfl
@[simp] theorem State.updHead_ports (s : State) (h : HeadNo) (f : HeadItems → HeadItems) : (s.updHead h f).ports = s.ports := rfl
@[simp] theorem State.updHead_tallies (s : State) (h : HeadNo) (f : HeadItems → HeadItems) : (s.updHead h f).tallies = s.tallies := rfl
@[simp] theorem State.updHead_markCounter (s : State) (h : HeadNo) (f : HeadItems → HeadItems) : (s.updHead h f).markCounter = s.markCounter := rfl
@[simp] theorem State.updHead_captures (s : State) (h : HeadNo) (f : HeadItems → HeadItems) : (s.updHead h f).captures = s.captures := rfl
@[simp] theorem State.updHead_status (s : State) (h : HeadNo) (f : HeadItems → HeadItems) : (s.updHead h f).status = s.status := rfl
@[simp] theorem State.updPort_pending (s : State) (h : HeadNo) (f : HeadPort → HeadPort) : (s.updPort h f).pending = s.pending := rfl
@[simp] theorem State.updPort_rx (s : State) (h : HeadNo) (f : HeadPort → HeadPort) : (s.updPort h f).rx = s.rx := rfl
@[simp] theorem State.updPort_tx (s : State) (h : HeadNo) (f : HeadPort → HeadPort) : (s.updPort h f).tx = s.tx := rfl
@[simp] theorem State.updPort_interp (s : State) (h : HeadNo) (f : HeadPort → HeadPort) : (s.updPort h f).interp = s.interp := rfl
@[simp] theorem State.updPort_screens (s : State) (h : HeadNo) (f : HeadPort → HeadPort) : (s.updPort h f).screens = s.screens := rfl
@[simp] theorem State.updPort_grads (s : State) (h : HeadNo) (f : HeadPort → HeadPort) : (s.updPort h f).grads = s.grads := rfl
@[simp] theorem State.updPort_expander (s : State) (h : HeadNo) (f : HeadPort → HeadPort) : (s.updPort h f).expander = s.expander := rfl
@[simp] theorem State.updPort_lanes (s : State) (h : HeadNo) (f : HeadPort → HeadPort) : (s.updPort h f).lanes = s.lanes := rfl
@[simp] theorem State.updPort_monitor (s : State) (h : HeadNo) (f : HeadPort → HeadPort) : (s.updPort h f).monitor = s.monitor := rfl
@[simp] theorem State.updPort_seq (s : State) (h : HeadNo) (f : HeadPort → HeadPort) : (s.updPort h f).seq = s.seq := rfl
@[simp] theorem State.updPort_tallies (s : State) (h : HeadNo) (f : HeadPort → HeadPort) : (s.updPort h f).tallies = s.tallies := rfl
@[simp] theorem State.updPort_markCounter (s : State) (h : HeadNo) (f : HeadPort → HeadPort) : (s.updPort h f).markCounter = s.markCounter := rfl
@[simp] theorem State.updPort_captures (s : State) (h : HeadNo) (f : HeadPort → HeadPort) : (s.updPort h f).captures = s.captures := rfl
@[simp] theorem State.updPort_status (s : State) (h : HeadNo) (f : HeadPort → HeadPort) : (s.updPort h f).status = s.status := rfl
@[simp] theorem State.updLane_pending (s : State) (h : HeadNo) (f : Lane → Lane) : (s.updLane h f).pending = s.pending := rfl
@[simp] theorem State.updLane_rx (s : State) (h : HeadNo) (f : Lane → Lane) : (s.updLane h f).rx = s.rx := rfl
@[simp] theorem State.updLane_tx (s : State) (h : HeadNo) (f : Lane → Lane) : (s.updLane h f).tx = s.tx := rfl
@[simp] theorem State.updLane_interp (s : State) (h : HeadNo) (f : Lane → Lane) : (s.updLane h f).interp = s.interp := rfl
@[simp] theorem State.updLane_screens (s : State) (h : HeadNo) (f : Lane → Lane) : (s.updLane h f).screens = s.screens := rfl
@[simp] theorem State.updLane_grads (s : State) (h : HeadNo) (f : Lane → Lane) : (s.updLane h f).grads = s.grads := rfl
@[simp] theorem State.updLane_expander (s : State) (h : HeadNo) (f : Lane → Lane) : (s.updLane h f).expander = s.expander := rfl
@[simp] theorem State.updLane_monitor (s : State) (h : HeadNo) (f : Lane → Lane) : (s.updLane h f).monitor = s.monitor := rfl
@[simp] theorem State.updLane_seq (s : State) (h : HeadNo) (f : Lane → Lane) : (s.updLane h f).seq = s.seq := rfl
@[simp] theorem State.updLane_ports (s : State) (h : HeadNo) (f : Lane → Lane) : (s.updLane h f).ports = s.ports := rfl
@[simp] theorem State.updLane_tallies (s : State) (h : HeadNo) (f : Lane → Lane) : (s.updLane h f).tallies = s.tallies := rfl
@[simp] theorem State.updLane_markCounter (s : State) (h : HeadNo) (f : Lane → Lane) : (s.updLane h f).markCounter = s.markCounter := rfl
@[simp] theorem State.updLane_captures (s : State) (h : HeadNo) (f : Lane → Lane) : (s.updLane h f).captures = s.captures := rfl
@[simp] theorem State.updLane_status (s : State) (h : HeadNo) (f : Lane → Lane) : (s.updLane h f).status = s.status := rfl
@[simp] theorem State.updTally_pending (s : State) (h : HeadNo) (f : Tally → Tally) : (s.updTally h f).pending = s.pending := rfl
@[simp] theorem State.updTally_rx (s : State) (h : HeadNo) (f : Tally → Tally) : (s.updTally h f).rx = s.rx := rfl
@[simp] theorem State.updTally_tx (s : State) (h : HeadNo) (f : Tally → Tally) : (s.updTally h f).tx = s.tx := rfl
@[simp] theorem State.updTally_interp (s : State) (h : HeadNo) (f : Tally → Tally) : (s.updTally h f).interp = s.interp := rfl
@[simp] theorem State.updTally_screens (s : State) (h : HeadNo) (f : Tally → Tally) : (s.updTally h f).screens = s.screens := rfl
@[simp] theorem State.updTally_grads (s : State) (h : HeadNo) (f : Tally → Tally) : (s.updTally h f).grads = s.grads := rfl
@[simp] theorem State.updTally_expander (s : State) (h : HeadNo) (f : Tally → Tally) : (s.updTally h f).expander = s.expander := rfl
@[simp] theorem State.updTally_lanes (s : State) (h : HeadNo) (f : Tally → Tally) : (s.updTally h f).lanes = s.lanes := rfl
@[simp] theorem State.updTally_monitor (s : State) (h : HeadNo) (f : Tally → Tally) : (s.updTally h f).monitor = s.monitor := rfl
@[simp] theorem State.updTally_seq (s : State) (h : HeadNo) (f : Tally → Tally) : (s.updTally h f).seq = s.seq := rfl
@[simp] theorem State.updTally_ports (s : State) (h : HeadNo) (f : Tally → Tally) : (s.updTally h f).ports = s.ports := rfl
@[simp] theorem State.updTally_markCounter (s : State) (h : HeadNo) (f : Tally → Tally) : (s.updTally h f).markCounter = s.markCounter := rfl
@[simp] theorem State.updTally_captures (s : State) (h : HeadNo) (f : Tally → Tally) : (s.updTally h f).captures = s.captures := rfl
@[simp] theorem State.updTally_status (s : State) (h : HeadNo) (f : Tally → Tally) : (s.updTally h f).status = s.status := rfl
@[simp] theorem State.updHead_seq_job (s : State) (h : HeadNo) (f : HeadItems → HeadItems) :
    (s.updHead h f).seq.job = s.seq.job := rfl
@[simp] theorem State.updHead_seq_plan (s : State) (h : HeadNo) (f : HeadItems → HeadItems) :
    (s.updHead h f).seq.plan = s.seq.plan := rfl
@[simp] theorem State.updHead_seq_state (s : State) (h : HeadNo) (f : HeadItems → HeadItems) :
    (s.updHead h f).seq.state = s.seq.state := rfl
@[simp] theorem State.updHead_seq_hold (s : State) (h : HeadNo) (f : HeadItems → HeadItems) :
    (s.updHead h f).seq.hold = s.seq.hold := rfl
@[simp] theorem State.updHead_seq_advances (s : State) (h : HeadNo) (f : HeadItems → HeadItems) :
    (s.updHead h f).seq.advances = s.seq.advances := rfl
@[simp] theorem State.updHead_seq_idle (s : State) (h : HeadNo) (f : HeadItems → HeadItems) :
    (s.updHead h f).seq.idle = s.seq.idle := rfl
@[simp] theorem State.updHead_seq_consecutiveIdle (s : State) (h : HeadNo) (f : HeadItems → HeadItems) :
    (s.updHead h f).seq.consecutiveIdle = s.seq.consecutiveIdle := rfl
@[simp] theorem State.updHead_seq_retained (s : State) (h : HeadNo) (f : HeadItems → HeadItems) :
    (s.updHead h f).seq.retained = s.seq.retained := rfl
@[simp] theorem State.updHead_seq_stalled (s : State) (h : HeadNo) (f : HeadItems → HeadItems) :
    (s.updHead h f).seq.stalled = s.seq.stalled := rfl
@[simp] theorem State.updHead_seq_pulses (s : State) (h : HeadNo) (f : HeadItems → HeadItems) :
    (s.updHead h f).seq.pulses = s.seq.pulses := rfl

end Sys2Proof.Machine
end

