-- ==== Sys2Proof/Laws/Strikes.lean ====
section
/-! SUPPORT. Strikes: the fields that a strike leaves, what it does to the head that strikes, and that it leaves every other
head as it was. -/

namespace Sys2Proof.Machine

/-! ## Delivery to the Tally Unit, the mark counter and the Capture Unit -/

@[simp] theorem State.tallyStrike_pending (s : State) (r : StrikeResult) : (s.tallyStrike r).pending = s.pending := by
  unfold State.tallyStrike; simp only []; split <;> rfl
@[simp] theorem State.tallyStrike_rx (s : State) (r : StrikeResult) : (s.tallyStrike r).rx = s.rx := by
  unfold State.tallyStrike; simp only []; split <;> rfl
@[simp] theorem State.tallyStrike_interp (s : State) (r : StrikeResult) : (s.tallyStrike r).interp = s.interp := by
  unfold State.tallyStrike; simp only []; split <;> rfl
@[simp] theorem State.tallyStrike_screens (s : State) (r : StrikeResult) : (s.tallyStrike r).screens = s.screens := by
  unfold State.tallyStrike; simp only []; split <;> rfl
@[simp] theorem State.tallyStrike_grads (s : State) (r : StrikeResult) : (s.tallyStrike r).grads = s.grads := by
  unfold State.tallyStrike; simp only []; split <;> rfl
@[simp] theorem State.tallyStrike_expander (s : State) (r : StrikeResult) : (s.tallyStrike r).expander = s.expander := by
  unfold State.tallyStrike; simp only []; split <;> rfl
@[simp] theorem State.tallyStrike_lanes (s : State) (r : StrikeResult) : (s.tallyStrike r).lanes = s.lanes := by
  unfold State.tallyStrike; simp only []; split <;> rfl
@[simp] theorem State.tallyStrike_monitor (s : State) (r : StrikeResult) : (s.tallyStrike r).monitor = s.monitor := by
  unfold State.tallyStrike; simp only []; split <;> rfl
@[simp] theorem State.tallyStrike_seq (s : State) (r : StrikeResult) : (s.tallyStrike r).seq = s.seq := by
  unfold State.tallyStrike; simp only []; split <;> rfl
@[simp] theorem State.tallyStrike_ports (s : State) (r : StrikeResult) : (s.tallyStrike r).ports = s.ports := by
  unfold State.tallyStrike; simp only []; split <;> rfl
@[simp] theorem State.tallyStrike_markCounter (s : State) (r : StrikeResult) : (s.tallyStrike r).markCounter = s.markCounter := by
  unfold State.tallyStrike; simp only []; split <;> rfl
@[simp] theorem State.tallyStrike_captures (s : State) (r : StrikeResult) : (s.tallyStrike r).captures = s.captures := by
  unfold State.tallyStrike; simp only []; split <;> rfl

@[simp] theorem State.countMark_pending (s : State) (r : StrikeResult) : (s.countMark r).pending = s.pending := by
  unfold State.countMark; simp only []; split_ifs <;> rfl
@[simp] theorem State.countMark_rx (s : State) (r : StrikeResult) : (s.countMark r).rx = s.rx := by
  unfold State.countMark; simp only []; split_ifs <;> rfl
@[simp] theorem State.countMark_interp (s : State) (r : StrikeResult) : (s.countMark r).interp = s.interp := by
  unfold State.countMark; simp only []; split_ifs <;> rfl
@[simp] theorem State.countMark_screens (s : State) (r : StrikeResult) : (s.countMark r).screens = s.screens := by
  unfold State.countMark; simp only []; split_ifs <;> rfl
@[simp] theorem State.countMark_grads (s : State) (r : StrikeResult) : (s.countMark r).grads = s.grads := by
  unfold State.countMark; simp only []; split_ifs <;> rfl
@[simp] theorem State.countMark_expander (s : State) (r : StrikeResult) : (s.countMark r).expander = s.expander := by
  unfold State.countMark; simp only []; split_ifs <;> rfl
@[simp] theorem State.countMark_lanes (s : State) (r : StrikeResult) : (s.countMark r).lanes = s.lanes := by
  unfold State.countMark; simp only []; split_ifs <;> rfl
@[simp] theorem State.countMark_monitor (s : State) (r : StrikeResult) : (s.countMark r).monitor = s.monitor := by
  unfold State.countMark; simp only []; split_ifs <;> rfl
@[simp] theorem State.countMark_ports (s : State) (r : StrikeResult) : (s.countMark r).ports = s.ports := by
  unfold State.countMark; simp only []; split_ifs <;> rfl
@[simp] theorem State.countMark_tallies (s : State) (r : StrikeResult) : (s.countMark r).tallies = s.tallies := by
  unfold State.countMark; simp only []; split_ifs <;> rfl
@[simp] theorem State.countMark_captures (s : State) (r : StrikeResult) : (s.countMark r).captures = s.captures := by
  unfold State.countMark; simp only []; split_ifs <;> rfl

@[simp] theorem State.captureStrike_pending (s : State) (r : StrikeResult) (n : Nat) : (s.captureStrike r n).pending = s.pending := by
  simp [State.captureStrike]
@[simp] theorem State.captureStrike_rx (s : State) (r : StrikeResult) (n : Nat) : (s.captureStrike r n).rx = s.rx := by
  simp [State.captureStrike]
@[simp] theorem State.captureStrike_interp (s : State) (r : StrikeResult) (n : Nat) : (s.captureStrike r n).interp = s.interp := by
  simp [State.captureStrike]
@[simp] theorem State.captureStrike_screens (s : State) (r : StrikeResult) (n : Nat) : (s.captureStrike r n).screens = s.screens := by
  simp [State.captureStrike]
@[simp] theorem State.captureStrike_grads (s : State) (r : StrikeResult) (n : Nat) : (s.captureStrike r n).grads = s.grads := by
  simp [State.captureStrike]
@[simp] theorem State.captureStrike_expander (s : State) (r : StrikeResult) (n : Nat) : (s.captureStrike r n).expander = s.expander := by
  simp [State.captureStrike]
@[simp] theorem State.captureStrike_lanes (s : State) (r : StrikeResult) (n : Nat) : (s.captureStrike r n).lanes = s.lanes := by
  simp [State.captureStrike]
@[simp] theorem State.captureStrike_monitor (s : State) (r : StrikeResult) (n : Nat) : (s.captureStrike r n).monitor = s.monitor := by
  simp [State.captureStrike]
@[simp] theorem State.captureStrike_seq (s : State) (r : StrikeResult) (n : Nat) : (s.captureStrike r n).seq = s.seq := by
  simp [State.captureStrike]
@[simp] theorem State.captureStrike_ports (s : State) (r : StrikeResult) (n : Nat) : (s.captureStrike r n).ports = s.ports := by
  simp [State.captureStrike]
@[simp] theorem State.captureStrike_tallies (s : State) (r : StrikeResult) (n : Nat) : (s.captureStrike r n).tallies = s.tallies := by
  simp [State.captureStrike]
@[simp] theorem State.captureStrike_markCounter (s : State) (r : StrikeResult) (n : Nat) : (s.captureStrike r n).markCounter = s.markCounter := by
  simp [State.captureStrike]

@[simp] theorem State.countMark_seq_job (s : State) (r : StrikeResult) : (s.countMark r).seq.job = s.seq.job := by
  unfold State.countMark; simp only []; split_ifs <;> rfl
@[simp] theorem State.countMark_seq_plan (s : State) (r : StrikeResult) : (s.countMark r).seq.plan = s.seq.plan := by
  unfold State.countMark; simp only []; split_ifs <;> rfl
@[simp] theorem State.countMark_seq_state (s : State) (r : StrikeResult) : (s.countMark r).seq.state = s.seq.state := by
  unfold State.countMark; simp only []; split_ifs <;> rfl
@[simp] theorem State.countMark_seq_advances (s : State) (r : StrikeResult) : (s.countMark r).seq.advances = s.seq.advances := by
  unfold State.countMark; simp only []; split_ifs <;> rfl
@[simp] theorem State.countMark_seq_idle (s : State) (r : StrikeResult) : (s.countMark r).seq.idle = s.seq.idle := by
  unfold State.countMark; simp only []; split_ifs <;> rfl
@[simp] theorem State.countMark_seq_consecutiveIdle (s : State) (r : StrikeResult) : (s.countMark r).seq.consecutiveIdle = s.seq.consecutiveIdle := by
  unfold State.countMark; simp only []; split_ifs <;> rfl
@[simp] theorem State.countMark_seq_retained (s : State) (r : StrikeResult) : (s.countMark r).seq.retained = s.seq.retained := by
  unfold State.countMark; simp only []; split_ifs <;> rfl
@[simp] theorem State.countMark_seq_stalled (s : State) (r : StrikeResult) : (s.countMark r).seq.stalled = s.seq.stalled := by
  unfold State.countMark; simp only []; split_ifs <;> rfl
@[simp] theorem State.countMark_seq_heads (s : State) (r : StrikeResult) : (s.countMark r).seq.heads = s.seq.heads := by
  unfold State.countMark; simp only []; split_ifs <;> rfl
@[simp] theorem State.countMark_seq_pulses (s : State) (r : StrikeResult) : (s.countMark r).seq.pulses = s.seq.pulses := by
  unfold State.countMark; simp only []; split_ifs <;> rfl
@[simp] theorem State.tallyStrike_tx_queue (s : State) (r : StrikeResult) : (s.tallyStrike r).tx.queue = s.tx.queue := by
  unfold State.tallyStrike; simp only []; split <;> rfl
@[simp] theorem State.countMark_tx_queue (s : State) (r : StrikeResult) : (s.countMark r).tx.queue = s.tx.queue := by
  unfold State.countMark; simp only []; split_ifs <;> rfl
@[simp] theorem State.captureStrike_tx_queue (s : State) (r : StrikeResult) (n : Nat) : (s.captureStrike r n).tx.queue = s.tx.queue := by
  unfold State.captureStrike State.changeCaptures; simp only []; split <;> rfl
@[simp] theorem State.tallyStrike_tx_flowMark (s : State) (r : StrikeResult) : (s.tallyStrike r).tx.flowMark = s.tx.flowMark := by
  unfold State.tallyStrike; simp only []; split <;> rfl
@[simp] theorem State.countMark_tx_flowMark (s : State) (r : StrikeResult) : (s.countMark r).tx.flowMark = s.tx.flowMark := by
  unfold State.countMark; simp only []; split_ifs <;> rfl
@[simp] theorem State.captureStrike_tx_flowMark (s : State) (r : StrikeResult) (n : Nat) : (s.captureStrike r n).tx.flowMark = s.tx.flowMark := by
  unfold State.captureStrike State.changeCaptures; simp only []; split <;> rfl
@[simp] theorem State.tallyStrike_tx_announced (s : State) (r : StrikeResult) : (s.tallyStrike r).tx.announced = s.tx.announced := by
  unfold State.tallyStrike; simp only []; split <;> rfl
@[simp] theorem State.countMark_tx_announced (s : State) (r : StrikeResult) : (s.countMark r).tx.announced = s.tx.announced := by
  unfold State.countMark; simp only []; split_ifs <;> rfl
@[simp] theorem State.captureStrike_tx_announced (s : State) (r : StrikeResult) (n : Nat) : (s.captureStrike r n).tx.announced = s.tx.announced := by
  unfold State.captureStrike State.changeCaptures; simp only []; split <;> rfl
@[simp] theorem State.tallyStrike_tx_room (s : State) (r : StrikeResult) : (s.tallyStrike r).tx.room = s.tx.room := by
  unfold State.tallyStrike; simp only []; split <;> rfl
@[simp] theorem State.countMark_tx_room (s : State) (r : StrikeResult) : (s.countMark r).tx.room = s.tx.room := by
  unfold State.countMark; simp only []; split_ifs <;> rfl
@[simp] theorem State.captureStrike_tx_room (s : State) (r : StrikeResult) (n : Nat) : (s.captureStrike r n).tx.room = s.tx.room := by
  unfold State.captureStrike State.changeCaptures; simp only []; split <;> rfl
@[simp] theorem State.tallyStrike_tx_sending (s : State) (r : StrikeResult) : (s.tallyStrike r).tx.sending = s.tx.sending := by
  unfold State.tallyStrike; simp only []; split <;> rfl
@[simp] theorem State.countMark_tx_sending (s : State) (r : StrikeResult) : (s.countMark r).tx.sending = s.tx.sending := by
  unfold State.countMark; simp only []; split_ifs <;> rfl
@[simp] theorem State.captureStrike_tx_sending (s : State) (r : StrikeResult) (n : Nat) : (s.captureStrike r n).tx.sending = s.tx.sending := by
  unfold State.captureStrike State.changeCaptures; simp only []; split <;> rfl

@[simp] theorem State.captureStrike_captures (s : State) (r : StrikeResult) (n : Nat) :
    (s.captureStrike r n).captures = s.captures.map fun c => c.strike r n := by
  simp [State.captureStrike]

/-- The tally of the head that struck takes the result, and no other does (R134). -/
@[simp] theorem State.tallyStrike_get (s : State) (r : StrikeResult) (g : HeadNo) :
    (s.tallyStrike r).tallies[g] =
      if g = r.head then s.tallies[r.head].add s.seq.job.tallySource r else s.tallies[g] := by
  unfold State.tallyStrike
  simp only []
  rw [State.updTally_get]
  split <;> split <;> rfl

/-- The mark counter after a strike (R139). -/
theorem State.countMark_markCounter (s : State) (r : StrikeResult) :
    (s.countMark r).markCounter =
      if r.cell.mark && !r.blank then wrapSucc32 s.markCounter else s.markCounter := by
  unfold State.countMark
  simp only []
  split_ifs <;> rfl

/-- The hold request after a strike: set by the wrap of the mark counter with mark-stop on (R139). -/
theorem State.countMark_hold (s : State) (r : StrikeResult) :
    (s.countMark r).seq.hold =
      if (r.cell.mark && !r.blank) = true ∧ wrapSucc32 s.markCounter = 0 ∧ s.seq.job.markStop = true then true
      else s.seq.hold := by
  unfold State.countMark
  simp only []
  split_ifs with h1 h2 h3 h3 h3
  · rfl
  · exact absurd ⟨h1, h2⟩ h3
  · exact absurd h3.2 h2
  · rfl
  · exact absurd h3.1 h1
  · rfl

/-! ## The Head Port at a strike -/

/-- An ENGAGED head's DRIVE line presents the code, and the stroke is made from it (R55, R70). -/
theorem HeadPort.present_engaged (p : HeadPort) (old code : Nat) (h : p.lift = .engaged old) :
    p.present code = { p with lift := .engaged code, strokeCode := code, strokeCount := p.strokeCount + 1 } := by
  simp [HeadPort.present, h]

/-- A LIFTED head's DRIVE line presents nothing of a strike (R56). -/
theorem HeadPort.present_lifted (p : HeadPort) (code : Nat) (h : p.lift = .lifted) : p.present code = p := by
  simp [HeadPort.present, h]

@[simp] theorem HeadPort.strike_cal (p : HeadPort) (r : StrikeResult) : (p.strike r).cal = p.cal := by
  unfold HeadPort.strike HeadPort.present; cases p.lift <;> rfl
@[simp] theorem HeadPort.strike_calibrated (p : HeadPort) (r : StrikeResult) : (p.strike r).calibrated = p.calibrated := by
  unfold HeadPort.strike HeadPort.present; cases p.lift <;> rfl
@[simp] theorem HeadPort.strike_readyLine (p : HeadPort) (r : StrikeResult) : (p.strike r).readyLine = p.readyLine := by
  unfold HeadPort.strike HeadPort.present; cases p.lift <;> rfl
@[simp] theorem HeadPort.strike_alarmLine (p : HeadPort) (r : StrikeResult) : (p.strike r).alarmLine = p.alarmLine := by
  unfold HeadPort.strike HeadPort.present; cases p.lift <;> rfl
@[simp] theorem HeadPort.strike_ready (p : HeadPort) (r : StrikeResult) : (p.strike r).ready = p.ready := by
  unfold HeadPort.strike HeadPort.present; cases p.lift <;> rfl
@[simp] theorem HeadPort.strike_alarm (p : HeadPort) (r : StrikeResult) : (p.strike r).alarm = p.alarm := by
  unfold HeadPort.strike HeadPort.present; cases p.lift <;> rfl

/-- A cut advances the strike counter, saturating, and nothing else does (R55). -/
@[simp] theorem HeadPort.strike_strikes (p : HeadPort) (r : StrikeResult) :
    (p.strike r).strikes = if r.cut then satAdd Config.max32 p.strikes 1 else p.strikes := rfl

/-- What DRIVE shows after a strike that is not a track's last: the code presented (R70). -/
theorem HeadPort.strike_lift (p : HeadPort) (r : StrikeResult) :
    (p.strike r).lift = if p.lift = .lifted then .lifted else .engaged r.code := by
  unfold HeadPort.strike HeadPort.present; cases hp : p.lift <;> simp [hp]

/-- The code of the latest stroke: that of every strike of an ENGAGED head (R55, R70, R71). -/
theorem HeadPort.strike_strokeCode (p : HeadPort) (r : StrikeResult) :
    (p.strike r).strokeCode = if p.lift = .lifted then p.strokeCode else r.code := by
  unfold HeadPort.strike HeadPort.present; cases hp : p.lift <;> simp

/-- Every strike of an ENGAGED head is one stroke (R55, R70, R71). -/
theorem HeadPort.strike_strokeCount (p : HeadPort) (r : StrikeResult) :
    (p.strike r).strokeCount = if p.lift = .lifted then p.strokeCount else p.strokeCount + 1 := by
  unfold HeadPort.strike HeadPort.present; cases hp : p.lift <;> simp

/-! ## One strike -/

@[simp] theorem State.completeTrack_pending (s : State) (h : HeadNo) (c : StrikeContext) : (s.completeTrack h c).pending = s.pending := by
  simp [State.completeTrack]
@[simp] theorem State.completeTrack_rx (s : State) (h : HeadNo) (c : StrikeContext) : (s.completeTrack h c).rx = s.rx := by
  simp [State.completeTrack]
@[simp] theorem State.completeTrack_tx (s : State) (h : HeadNo) (c : StrikeContext) : (s.completeTrack h c).tx = s.tx := by
  simp [State.completeTrack]
@[simp] theorem State.completeTrack_interp (s : State) (h : HeadNo) (c : StrikeContext) : (s.completeTrack h c).interp = s.interp := by
  simp [State.completeTrack]
@[simp] theorem State.completeTrack_screens (s : State) (h : HeadNo) (c : StrikeContext) : (s.completeTrack h c).screens = s.screens := by
  simp [State.completeTrack]
@[simp] theorem State.completeTrack_grads (s : State) (h : HeadNo) (c : StrikeContext) : (s.completeTrack h c).grads = s.grads := by
  simp [State.completeTrack]
@[simp] theorem State.completeTrack_expander (s : State) (h : HeadNo) (c : StrikeContext) : (s.completeTrack h c).expander = s.expander := by
  simp [State.completeTrack]
@[simp] theorem State.completeTrack_monitor (s : State) (h : HeadNo) (c : StrikeContext) : (s.completeTrack h c).monitor = s.monitor := by
  simp [State.completeTrack]
@[simp] theorem State.completeTrack_markCounter (s : State) (h : HeadNo) (c : StrikeContext) : (s.completeTrack h c).markCounter = s.markCounter := by
  simp [State.completeTrack]
@[simp] theorem State.completeTrack_captures (s : State) (h : HeadNo) (c : StrikeContext) : (s.completeTrack h c).captures = s.captures := by
  simp [State.completeTrack]
@[simp] theorem State.completeTrack_status (s : State) (h : HeadNo) (c : StrikeContext) : (s.completeTrack h c).status = s.status := by
  simp [State.completeTrack]

@[simp] theorem State.completeTrack_seq_job (s : State) (h : HeadNo) (c : StrikeContext) :
    (s.completeTrack h c).seq.job = s.seq.job := by
  simp [State.completeTrack]
@[simp] theorem State.completeTrack_seq_plan (s : State) (h : HeadNo) (c : StrikeContext) :
    (s.completeTrack h c).seq.plan = s.seq.plan := by
  simp [State.completeTrack]
@[simp] theorem State.completeTrack_seq_state (s : State) (h : HeadNo) (c : StrikeContext) :
    (s.completeTrack h c).seq.state = s.seq.state := by
  simp [State.completeTrack]
@[simp] theorem State.completeTrack_seq_hold (s : State) (h : HeadNo) (c : StrikeContext) :
    (s.completeTrack h c).seq.hold = s.seq.hold := by
  simp [State.completeTrack]
@[simp] theorem State.completeTrack_seq_advances (s : State) (h : HeadNo) (c : StrikeContext) :
    (s.completeTrack h c).seq.advances = s.seq.advances := by
  simp [State.completeTrack]
@[simp] theorem State.completeTrack_seq_idle (s : State) (h : HeadNo) (c : StrikeContext) :
    (s.completeTrack h c).seq.idle = s.seq.idle := by
  simp [State.completeTrack]
@[simp] theorem State.completeTrack_seq_consecutiveIdle (s : State) (h : HeadNo) (c : StrikeContext) :
    (s.completeTrack h c).seq.consecutiveIdle = s.seq.consecutiveIdle := by
  simp [State.completeTrack]
@[simp] theorem State.completeTrack_seq_stalled (s : State) (h : HeadNo) (c : StrikeContext) :
    (s.completeTrack h c).seq.stalled = s.seq.stalled := by
  simp [State.completeTrack]
@[simp] theorem State.completeTrack_seq_pulses (s : State) (h : HeadNo) (c : StrikeContext) :
    (s.completeTrack h c).seq.pulses = s.seq.pulses := by
  simp [State.completeTrack]

@[simp] theorem State.strikeCell_pending (s : State) (h : HeadNo) (c : StrikeContext) : (s.strikeCell h c).pending = s.pending := by
  unfold State.strikeCell; simp only []; split <;> simp
@[simp] theorem State.strikeCell_rx (s : State) (h : HeadNo) (c : StrikeContext) : (s.strikeCell h c).rx = s.rx := by
  unfold State.strikeCell; simp only []; split <;> simp
@[simp] theorem State.strikeCell_interp (s : State) (h : HeadNo) (c : StrikeContext) : (s.strikeCell h c).interp = s.interp := by
  unfold State.strikeCell; simp only []; split <;> simp
@[simp] theorem State.strikeCell_screens (s : State) (h : HeadNo) (c : StrikeContext) : (s.strikeCell h c).screens = s.screens := by
  unfold State.strikeCell; simp only []; split <;> simp
@[simp] theorem State.strikeCell_grads (s : State) (h : HeadNo) (c : StrikeContext) : (s.strikeCell h c).grads = s.grads := by
  unfold State.strikeCell; simp only []; split <;> simp
@[simp] theorem State.strikeCell_expander (s : State) (h : HeadNo) (c : StrikeContext) : (s.strikeCell h c).expander = s.expander := by
  unfold State.strikeCell; simp only []; split <;> simp
@[simp] theorem State.strikeCell_monitor (s : State) (h : HeadNo) (c : StrikeContext) : (s.strikeCell h c).monitor = s.monitor := by
  unfold State.strikeCell; simp only []; split <;> simp
@[simp] theorem State.strikeCell_seq_job (s : State) (h : HeadNo) (c : StrikeContext) :
    (s.strikeCell h c).seq.job = s.seq.job := by
  unfold State.strikeCell; simp only []; split <;> simp
@[simp] theorem State.strikeCell_seq_plan (s : State) (h : HeadNo) (c : StrikeContext) :
    (s.strikeCell h c).seq.plan = s.seq.plan := by
  unfold State.strikeCell; simp only []; split <;> simp
@[simp] theorem State.strikeCell_seq_state (s : State) (h : HeadNo) (c : StrikeContext) :
    (s.strikeCell h c).seq.state = s.seq.state := by
  unfold State.strikeCell; simp only []; split <;> simp
@[simp] theorem State.strikeCell_seq_advances (s : State) (h : HeadNo) (c : StrikeContext) :
    (s.strikeCell h c).seq.advances = s.seq.advances := by
  unfold State.strikeCell; simp only []; split <;> simp
@[simp] theorem State.strikeCell_seq_idle (s : State) (h : HeadNo) (c : StrikeContext) :
    (s.strikeCell h c).seq.idle = s.seq.idle := by
  unfold State.strikeCell; simp only []; split <;> simp
@[simp] theorem State.strikeCell_seq_consecutiveIdle (s : State) (h : HeadNo) (c : StrikeContext) :
    (s.strikeCell h c).seq.consecutiveIdle = s.seq.consecutiveIdle := by
  unfold State.strikeCell; simp only []; split <;> simp
@[simp] theorem State.strikeCell_seq_stalled (s : State) (h : HeadNo) (c : StrikeContext) :
    (s.strikeCell h c).seq.stalled = s.seq.stalled := by
  unfold State.strikeCell; simp only []; split <;> simp
@[simp] theorem State.strikeCell_seq_pulses (s : State) (h : HeadNo) (c : StrikeContext) :
    (s.strikeCell h c).seq.pulses = s.seq.pulses := by
  unfold State.strikeCell; simp only []; split <;> simp
@[simp] theorem State.strikeCell_tx_queue (s : State) (h : HeadNo) (c : StrikeContext) :
    (s.strikeCell h c).tx.queue = s.tx.queue := by
  unfold State.strikeCell; simp only []; split <;> simp
@[simp] theorem State.strikeCell_tx_flowMark (s : State) (h : HeadNo) (c : StrikeContext) :
    (s.strikeCell h c).tx.flowMark = s.tx.flowMark := by
  unfold State.strikeCell; simp only []; split <;> simp
@[simp] theorem State.strikeCell_tx_announced (s : State) (h : HeadNo) (c : StrikeContext) :
    (s.strikeCell h c).tx.announced = s.tx.announced := by
  unfold State.strikeCell; simp only []; split <;> simp
@[simp] theorem State.strikeCell_tx_room (s : State) (h : HeadNo) (c : StrikeContext) :
    (s.strikeCell h c).tx.room = s.tx.room := by
  unfold State.strikeCell; simp only []; split <;> simp
@[simp] theorem State.strikeCell_tx_sending (s : State) (h : HeadNo) (c : StrikeContext) :
    (s.strikeCell h c).tx.sending = s.tx.sending := by
  unfold State.strikeCell; simp only []; split <;> simp

/-- The completion of a track leaves every other head as it was. -/
theorem State.completeTrack_other (s : State) (h g : HeadNo) (c : StrikeContext) (hg : g ≠ h) :
    (s.completeTrack h c).seq.heads[g] = s.seq.heads[g] ∧ (s.completeTrack h c).ports[g] = s.ports[g] ∧
    (s.completeTrack h c).lanes[g] = s.lanes[g] ∧ (s.completeTrack h c).tallies[g] = s.tallies[g] := by
  refine ⟨?_, ?_, ?_, ?_⟩
  · show (updAt s.seq.heads h _)[g] = _
    rw [updAt_get, if_neg hg]
  · show (updAt s.ports h _)[g] = _
    rw [updAt_get, if_neg hg]
  · show (updAt s.lanes h _)[g] = _
    rw [updAt_get, if_neg hg]
  · show (updAt s.tallies h _)[g] = _
    rw [updAt_get, if_neg hg]

/-- The completion of a track lifts its head, and leaves the stroke that DRIVE has presented (R71). -/
theorem State.completeTrack_port (s : State) (h : HeadNo) (c : StrikeContext) :
    (s.completeTrack h c).ports[h] = { s.ports[h] with lift := .lifted } := by
  show (updAt s.ports h _)[h] = _
  rw [updAt_get, if_pos rfl]

/-- The Head Port of the head that strikes: it takes the strike result, and lifts after the last cell's stroke
(R55, R70, R71). -/
theorem State.strikeCell_port (s : State) (h : HeadNo) (c : StrikeContext) :
    (s.strikeCell h c).ports[h] =
      if c.index + 1 = c.screen.cells then
        { s.ports[h].strike (computeStrike (s.strikeInput h c)) with lift := .lifted }
      else s.ports[h].strike (computeStrike (s.strikeInput h c)) := by
  unfold State.strikeCell
  simp only []
  split
  · simp only [State.completeTrack_port, State.captureStrike_ports, State.countMark_ports, State.tallyStrike_ports,
      State.updPort_get, if_true]
    rfl
  · simp only [State.captureStrike_ports, State.countMark_ports, State.tallyStrike_ports, State.updPort_get, if_true]
    rfl

/-- A strike leaves every other head as it was (R57). -/
theorem State.strikeCell_other (s : State) (h g : HeadNo) (c : StrikeContext) (hg : g ≠ h) :
    (s.strikeCell h c).seq.heads[g] = s.seq.heads[g] ∧ (s.strikeCell h c).ports[g] = s.ports[g] ∧
    (s.strikeCell h c).lanes[g] = s.lanes[g] ∧ (s.strikeCell h c).tallies[g] = s.tallies[g] := by
  have hr : (computeStrike (s.strikeInput h c)).head = h := by
    unfold computeStrike; simp only []; split <;> rfl
  have hd : ∀ t : State, t = ((((s.updHead h fun i => { i with state := .cutting (c.index + 1) }).updPort h
      fun p => p.strike (computeStrike (s.strikeInput h c))).tallyStrike (computeStrike (s.strikeInput h c))).countMark
      (computeStrike (s.strikeInput h c))).captureStrike (computeStrike (s.strikeInput h c)) c.screen.cells →
      t.seq.heads[g] = s.seq.heads[g] ∧ t.ports[g] = s.ports[g] ∧ t.lanes[g] = s.lanes[g] ∧
      t.tallies[g] = s.tallies[g] := by
    rintro t rfl
    simp only [State.captureStrike_seq, State.captureStrike_ports, State.captureStrike_lanes,
      State.captureStrike_tallies, State.countMark_seq_heads, State.countMark_ports, State.countMark_lanes,
      State.countMark_tallies, State.tallyStrike_seq, State.tallyStrike_ports, State.tallyStrike_lanes,
      State.tallyStrike_get, hr, if_neg hg, State.updPort_get]
    refine ⟨?_, ?_, rfl, rfl⟩
    · show (updAt s.seq.heads h _)[g] = _
      rw [updAt_get, if_neg hg]
    · rfl
  unfold State.strikeCell
  simp only []
  split
  · have hx := hd _ rfl
    have ho := State.completeTrack_other ((((((s.updHead h fun i => { i with state := .cutting (c.index + 1) }).updPort h
      fun p => p.strike (computeStrike (s.strikeInput h c))).tallyStrike (computeStrike (s.strikeInput h c))).countMark
      (computeStrike (s.strikeInput h c))).captureStrike (computeStrike (s.strikeInput h c)) c.screen.cells)) h g c hg
    exact ⟨ho.1.trans hx.1, ho.2.1.trans hx.2.1, ho.2.2.1.trans hx.2.2.1, ho.2.2.2.trans hx.2.2.2⟩
  · exact hd _ rfl

/-- A head that is not CUTTING has nothing to strike. -/
theorem State.strikeContext_none (s : State) (h : HeadNo) (hc : s.cutting h = false) : s.strikeContext h = none := by
  unfold State.strikeContext
  unfold State.cutting HeadItems.isCutting at hc
  split
  · next hs => rw [hs] at hc; exact Bool.noConfusion hc
  · rfl

/-- What the next strike of a head reads depends only on that head, its plan entry and its bound slots. -/
theorem State.strikeContext_congr (s t : State) (h : HeadNo) (hh : t.seq.heads[h] = s.seq.heads[h])
    (hp : t.seq.plan[h] = s.seq.plan[h]) (hs : t.screens = s.screens) (hg : t.grads = s.grads)
    (hl : t.lanes[h] = s.lanes[h]) : t.strikeContext h = s.strikeContext h := by
  unfold State.strikeContext
  rw [hh, hp, hs, hg, hl]

/-- The result of a strike depends only on that head's port and the mode beside what it reads. -/
theorem State.strikeInput_congr (s t : State) (h : HeadNo) (c : StrikeContext) (hp : t.ports[h] = s.ports[h])
    (hm : t.seq.job = s.seq.job) : t.strikeInput h c = s.strikeInput h c := by
  unfold State.strikeInput
  rw [hp, hm]

theorem State.strikeHead_eq (s : State) (tick : Nat) (h : HeadNo) :
    s.strikeHead tick h = match s.strikeContext h with
      | some c => if c.tick s.seq.job.e = tick then s.strikeCell h c else s
      | none => s := rfl

/-- A head's turn at a tick leaves every other head as it was (R57). -/
theorem State.strikeHead_other (s : State) (tick : Nat) (h g : HeadNo) (hg : g ≠ h) :
    (s.strikeHead tick h).seq.heads[g] = s.seq.heads[g] ∧ (s.strikeHead tick h).ports[g] = s.ports[g] ∧
    (s.strikeHead tick h).lanes[g] = s.lanes[g] ∧ (s.strikeHead tick h).tallies[g] = s.tallies[g] := by
  rw [State.strikeHead_eq]
  split
  · split
    · exact State.strikeCell_other s h g _ hg
    · exact ⟨rfl, rfl, rfl, rfl⟩
  · exact ⟨rfl, rfl, rfl, rfl⟩

/-- What holds of a state and is kept by each head's turn holds after the strikes of a tick. -/
theorem State.strikeAll_induct (P : State → Prop) (s : State) (tick : Nat) (hs : P s)
    (hstep : ∀ t h, P t → P (t.strikeHead tick h)) : P (s.strikeAll tick) := by
  unfold State.strikeAll
  generalize allHeads = hs'
  induction hs' generalizing s with
  | nil => exact hs
  | cons h rest ih => exact ih _ (hstep _ _ hs)

end Sys2Proof.Machine
end

