-- ==== Sys2Proof/Laws/Jobs.lean ====
section
/-! SUPPORT. The Track Sequencer's operations on every head, the end of a job, the suspect revolution, and the Expander's
completion: what each does, field by field. -/

namespace Sys2Proof.Machine

/-! ## Changes of every head -/

@[simp] theorem State.mapHeads_pending (s : State) (f : HeadNo → HeadItems → HeadItems) : (s.mapHeads f).pending = s.pending := rfl
@[simp] theorem State.mapHeads_rx (s : State) (f : HeadNo → HeadItems → HeadItems) : (s.mapHeads f).rx = s.rx := rfl
@[simp] theorem State.mapHeads_tx (s : State) (f : HeadNo → HeadItems → HeadItems) : (s.mapHeads f).tx = s.tx := rfl
@[simp] theorem State.mapHeads_interp (s : State) (f : HeadNo → HeadItems → HeadItems) : (s.mapHeads f).interp = s.interp := rfl
@[simp] theorem State.mapHeads_screens (s : State) (f : HeadNo → HeadItems → HeadItems) : (s.mapHeads f).screens = s.screens := rfl
@[simp] theorem State.mapHeads_grads (s : State) (f : HeadNo → HeadItems → HeadItems) : (s.mapHeads f).grads = s.grads := rfl
@[simp] theorem State.mapHeads_expander (s : State) (f : HeadNo → HeadItems → HeadItems) : (s.mapHeads f).expander = s.expander := rfl
@[simp] theorem State.mapHeads_lanes (s : State) (f : HeadNo → HeadItems → HeadItems) : (s.mapHeads f).lanes = s.lanes := rfl
@[simp] theorem State.mapHeads_monitor (s : State) (f : HeadNo → HeadItems → HeadItems) : (s.mapHeads f).monitor = s.monitor := rfl
@[simp] theorem State.mapHeads_ports (s : State) (f : HeadNo → HeadItems → HeadItems) : (s.mapHeads f).ports = s.ports := rfl
@[simp] theorem State.mapHeads_tallies (s : State) (f : HeadNo → HeadItems → HeadItems) : (s.mapHeads f).tallies = s.tallies := rfl
@[simp] theorem State.mapHeads_markCounter (s : State) (f : HeadNo → HeadItems → HeadItems) : (s.mapHeads f).markCounter = s.markCounter := rfl
@[simp] theorem State.mapHeads_captures (s : State) (f : HeadNo → HeadItems → HeadItems) : (s.mapHeads f).captures = s.captures := rfl
@[simp] theorem State.mapHeads_status (s : State) (f : HeadNo → HeadItems → HeadItems) : (s.mapHeads f).status = s.status := rfl

@[simp] theorem State.mapLanes_pending (s : State) (f : HeadNo → Lane → Lane) : (s.mapLanes f).pending = s.pending := rfl
@[simp] theorem State.mapLanes_rx (s : State) (f : HeadNo → Lane → Lane) : (s.mapLanes f).rx = s.rx := rfl
@[simp] theorem State.mapLanes_tx (s : State) (f : HeadNo → Lane → Lane) : (s.mapLanes f).tx = s.tx := rfl
@[simp] theorem State.mapLanes_interp (s : State) (f : HeadNo → Lane → Lane) : (s.mapLanes f).interp = s.interp := rfl
@[simp] theorem State.mapLanes_screens (s : State) (f : HeadNo → Lane → Lane) : (s.mapLanes f).screens = s.screens := rfl
@[simp] theorem State.mapLanes_grads (s : State) (f : HeadNo → Lane → Lane) : (s.mapLanes f).grads = s.grads := rfl
@[simp] theorem State.mapLanes_expander (s : State) (f : HeadNo → Lane → Lane) : (s.mapLanes f).expander = s.expander := rfl
@[simp] theorem State.mapLanes_monitor (s : State) (f : HeadNo → Lane → Lane) : (s.mapLanes f).monitor = s.monitor := rfl
@[simp] theorem State.mapLanes_seq (s : State) (f : HeadNo → Lane → Lane) : (s.mapLanes f).seq = s.seq := rfl
@[simp] theorem State.mapLanes_ports (s : State) (f : HeadNo → Lane → Lane) : (s.mapLanes f).ports = s.ports := rfl
@[simp] theorem State.mapLanes_tallies (s : State) (f : HeadNo → Lane → Lane) : (s.mapLanes f).tallies = s.tallies := rfl
@[simp] theorem State.mapLanes_markCounter (s : State) (f : HeadNo → Lane → Lane) : (s.mapLanes f).markCounter = s.markCounter := rfl
@[simp] theorem State.mapLanes_captures (s : State) (f : HeadNo → Lane → Lane) : (s.mapLanes f).captures = s.captures := rfl
@[simp] theorem State.mapLanes_status (s : State) (f : HeadNo → Lane → Lane) : (s.mapLanes f).status = s.status := rfl

@[simp] theorem State.mapPorts_pending (s : State) (f : HeadNo → HeadPort → HeadPort) : (s.mapPorts f).pending = s.pending := rfl
@[simp] theorem State.mapPorts_rx (s : State) (f : HeadNo → HeadPort → HeadPort) : (s.mapPorts f).rx = s.rx := rfl
@[simp] theorem State.mapPorts_tx (s : State) (f : HeadNo → HeadPort → HeadPort) : (s.mapPorts f).tx = s.tx := rfl
@[simp] theorem State.mapPorts_interp (s : State) (f : HeadNo → HeadPort → HeadPort) : (s.mapPorts f).interp = s.interp := rfl
@[simp] theorem State.mapPorts_screens (s : State) (f : HeadNo → HeadPort → HeadPort) : (s.mapPorts f).screens = s.screens := rfl
@[simp] theorem State.mapPorts_grads (s : State) (f : HeadNo → HeadPort → HeadPort) : (s.mapPorts f).grads = s.grads := rfl
@[simp] theorem State.mapPorts_expander (s : State) (f : HeadNo → HeadPort → HeadPort) : (s.mapPorts f).expander = s.expander := rfl
@[simp] theorem State.mapPorts_lanes (s : State) (f : HeadNo → HeadPort → HeadPort) : (s.mapPorts f).lanes = s.lanes := rfl
@[simp] theorem State.mapPorts_monitor (s : State) (f : HeadNo → HeadPort → HeadPort) : (s.mapPorts f).monitor = s.monitor := rfl
@[simp] theorem State.mapPorts_seq (s : State) (f : HeadNo → HeadPort → HeadPort) : (s.mapPorts f).seq = s.seq := rfl
@[simp] theorem State.mapPorts_tallies (s : State) (f : HeadNo → HeadPort → HeadPort) : (s.mapPorts f).tallies = s.tallies := rfl
@[simp] theorem State.mapPorts_markCounter (s : State) (f : HeadNo → HeadPort → HeadPort) : (s.mapPorts f).markCounter = s.markCounter := rfl
@[simp] theorem State.mapPorts_captures (s : State) (f : HeadNo → HeadPort → HeadPort) : (s.mapPorts f).captures = s.captures := rfl
@[simp] theorem State.mapPorts_status (s : State) (f : HeadNo → HeadPort → HeadPort) : (s.mapPorts f).status = s.status := rfl

@[simp] theorem State.liftHeads_pending (s : State) (p : HeadNo → Bool) : (s.liftHeads p).pending = s.pending := rfl
@[simp] theorem State.liftHeads_rx (s : State) (p : HeadNo → Bool) : (s.liftHeads p).rx = s.rx := rfl
@[simp] theorem State.liftHeads_tx (s : State) (p : HeadNo → Bool) : (s.liftHeads p).tx = s.tx := rfl
@[simp] theorem State.liftHeads_interp (s : State) (p : HeadNo → Bool) : (s.liftHeads p).interp = s.interp := rfl
@[simp] theorem State.liftHeads_screens (s : State) (p : HeadNo → Bool) : (s.liftHeads p).screens = s.screens := rfl
@[simp] theorem State.liftHeads_grads (s : State) (p : HeadNo → Bool) : (s.liftHeads p).grads = s.grads := rfl
@[simp] theorem State.liftHeads_expander (s : State) (p : HeadNo → Bool) : (s.liftHeads p).expander = s.expander := rfl
@[simp] theorem State.liftHeads_lanes (s : State) (p : HeadNo → Bool) : (s.liftHeads p).lanes = s.lanes := rfl
@[simp] theorem State.liftHeads_monitor (s : State) (p : HeadNo → Bool) : (s.liftHeads p).monitor = s.monitor := rfl
@[simp] theorem State.liftHeads_seq (s : State) (p : HeadNo → Bool) : (s.liftHeads p).seq = s.seq := rfl
@[simp] theorem State.liftHeads_tallies (s : State) (p : HeadNo → Bool) : (s.liftHeads p).tallies = s.tallies := rfl
@[simp] theorem State.liftHeads_markCounter (s : State) (p : HeadNo → Bool) : (s.liftHeads p).markCounter = s.markCounter := rfl
@[simp] theorem State.liftHeads_captures (s : State) (p : HeadNo → Bool) : (s.liftHeads p).captures = s.captures := rfl
@[simp] theorem State.liftHeads_status (s : State) (p : HeadNo → Bool) : (s.liftHeads p).status = s.status := rfl

@[simp] theorem State.setHold_pending (s : State) (b : Bool) : (s.setHold b).pending = s.pending := rfl
@[simp] theorem State.setHold_rx (s : State) (b : Bool) : (s.setHold b).rx = s.rx := rfl
@[simp] theorem State.setHold_tx (s : State) (b : Bool) : (s.setHold b).tx = s.tx := rfl
@[simp] theorem State.setHold_interp (s : State) (b : Bool) : (s.setHold b).interp = s.interp := rfl
@[simp] theorem State.setHold_screens (s : State) (b : Bool) : (s.setHold b).screens = s.screens := rfl
@[simp] theorem State.setHold_grads (s : State) (b : Bool) : (s.setHold b).grads = s.grads := rfl
@[simp] theorem State.setHold_expander (s : State) (b : Bool) : (s.setHold b).expander = s.expander := rfl
@[simp] theorem State.setHold_lanes (s : State) (b : Bool) : (s.setHold b).lanes = s.lanes := rfl
@[simp] theorem State.setHold_monitor (s : State) (b : Bool) : (s.setHold b).monitor = s.monitor := rfl
@[simp] theorem State.setHold_ports (s : State) (b : Bool) : (s.setHold b).ports = s.ports := rfl
@[simp] theorem State.setHold_tallies (s : State) (b : Bool) : (s.setHold b).tallies = s.tallies := rfl
@[simp] theorem State.setHold_markCounter (s : State) (b : Bool) : (s.setHold b).markCounter = s.markCounter := rfl
@[simp] theorem State.setHold_captures (s : State) (b : Bool) : (s.setHold b).captures = s.captures := rfl
@[simp] theorem State.setHold_status (s : State) (b : Bool) : (s.setHold b).status = s.status := rfl

@[simp] theorem State.setJobState_pending (s : State) (j : JobState) : (s.setJobState j).pending = s.pending := rfl
@[simp] theorem State.setJobState_rx (s : State) (j : JobState) : (s.setJobState j).rx = s.rx := rfl
@[simp] theorem State.setJobState_tx (s : State) (j : JobState) : (s.setJobState j).tx = s.tx := rfl
@[simp] theorem State.setJobState_interp (s : State) (j : JobState) : (s.setJobState j).interp = s.interp := rfl
@[simp] theorem State.setJobState_screens (s : State) (j : JobState) : (s.setJobState j).screens = s.screens := rfl
@[simp] theorem State.setJobState_grads (s : State) (j : JobState) : (s.setJobState j).grads = s.grads := rfl
@[simp] theorem State.setJobState_expander (s : State) (j : JobState) : (s.setJobState j).expander = s.expander := rfl
@[simp] theorem State.setJobState_lanes (s : State) (j : JobState) : (s.setJobState j).lanes = s.lanes := rfl
@[simp] theorem State.setJobState_monitor (s : State) (j : JobState) : (s.setJobState j).monitor = s.monitor := rfl
@[simp] theorem State.setJobState_ports (s : State) (j : JobState) : (s.setJobState j).ports = s.ports := rfl
@[simp] theorem State.setJobState_tallies (s : State) (j : JobState) : (s.setJobState j).tallies = s.tallies := rfl
@[simp] theorem State.setJobState_markCounter (s : State) (j : JobState) : (s.setJobState j).markCounter = s.markCounter := rfl
@[simp] theorem State.setJobState_captures (s : State) (j : JobState) : (s.setJobState j).captures = s.captures := rfl
@[simp] theorem State.setJobState_status (s : State) (j : JobState) : (s.setJobState j).status = s.status := rfl

@[simp] theorem State.endCaptures_pending (s : State) (p : HeadNo → Bool) : (s.endCaptures p).pending = s.pending := by
  simp [State.endCaptures]
@[simp] theorem State.endCaptures_rx (s : State) (p : HeadNo → Bool) : (s.endCaptures p).rx = s.rx := by
  simp [State.endCaptures]
@[simp] theorem State.endCaptures_interp (s : State) (p : HeadNo → Bool) : (s.endCaptures p).interp = s.interp := by
  simp [State.endCaptures]
@[simp] theorem State.endCaptures_screens (s : State) (p : HeadNo → Bool) : (s.endCaptures p).screens = s.screens := by
  simp [State.endCaptures]
@[simp] theorem State.endCaptures_grads (s : State) (p : HeadNo → Bool) : (s.endCaptures p).grads = s.grads := by
  simp [State.endCaptures]
@[simp] theorem State.endCaptures_expander (s : State) (p : HeadNo → Bool) : (s.endCaptures p).expander = s.expander := by
  simp [State.endCaptures]
@[simp] theorem State.endCaptures_lanes (s : State) (p : HeadNo → Bool) : (s.endCaptures p).lanes = s.lanes := by
  simp [State.endCaptures]
@[simp] theorem State.endCaptures_monitor (s : State) (p : HeadNo → Bool) : (s.endCaptures p).monitor = s.monitor := by
  simp [State.endCaptures]
@[simp] theorem State.endCaptures_seq (s : State) (p : HeadNo → Bool) : (s.endCaptures p).seq = s.seq := by
  simp [State.endCaptures]
@[simp] theorem State.endCaptures_ports (s : State) (p : HeadNo → Bool) : (s.endCaptures p).ports = s.ports := by
  simp [State.endCaptures]
@[simp] theorem State.endCaptures_tallies (s : State) (p : HeadNo → Bool) : (s.endCaptures p).tallies = s.tallies := by
  simp [State.endCaptures]
@[simp] theorem State.endCaptures_markCounter (s : State) (p : HeadNo → Bool) : (s.endCaptures p).markCounter = s.markCounter := by
  simp [State.endCaptures]

@[simp] theorem State.mapHeads_seq_job (s : State) (f : HeadNo → HeadItems → HeadItems) :
    (s.mapHeads f).seq.job = s.seq.job := rfl
@[simp] theorem State.setHold_seq_job (s : State) (b : Bool) : (s.setHold b).seq.job = s.seq.job := rfl
@[simp] theorem State.setJobState_seq_job (s : State) (j : JobState) : (s.setJobState j).seq.job = s.seq.job := rfl
@[simp] theorem State.mapHeads_seq_plan (s : State) (f : HeadNo → HeadItems → HeadItems) :
    (s.mapHeads f).seq.plan = s.seq.plan := rfl
@[simp] theorem State.setHold_seq_plan (s : State) (b : Bool) : (s.setHold b).seq.plan = s.seq.plan := rfl
@[simp] theorem State.setJobState_seq_plan (s : State) (j : JobState) : (s.setJobState j).seq.plan = s.seq.plan := rfl
@[simp] theorem State.mapHeads_seq_state (s : State) (f : HeadNo → HeadItems → HeadItems) :
    (s.mapHeads f).seq.state = s.seq.state := rfl
@[simp] theorem State.setHold_seq_state (s : State) (b : Bool) : (s.setHold b).seq.state = s.seq.state := rfl
@[simp] theorem State.mapHeads_seq_hold (s : State) (f : HeadNo → HeadItems → HeadItems) :
    (s.mapHeads f).seq.hold = s.seq.hold := rfl
@[simp] theorem State.setJobState_seq_hold (s : State) (j : JobState) : (s.setJobState j).seq.hold = s.seq.hold := rfl
@[simp] theorem State.mapHeads_seq_advances (s : State) (f : HeadNo → HeadItems → HeadItems) :
    (s.mapHeads f).seq.advances = s.seq.advances := rfl
@[simp] theorem State.setHold_seq_advances (s : State) (b : Bool) : (s.setHold b).seq.advances = s.seq.advances := rfl
@[simp] theorem State.setJobState_seq_advances (s : State) (j : JobState) : (s.setJobState j).seq.advances = s.seq.advances := rfl
@[simp] theorem State.mapHeads_seq_idle (s : State) (f : HeadNo → HeadItems → HeadItems) :
    (s.mapHeads f).seq.idle = s.seq.idle := rfl
@[simp] theorem State.setHold_seq_idle (s : State) (b : Bool) : (s.setHold b).seq.idle = s.seq.idle := rfl
@[simp] theorem State.setJobState_seq_idle (s : State) (j : JobState) : (s.setJobState j).seq.idle = s.seq.idle := rfl
@[simp] theorem State.mapHeads_seq_consecutiveIdle (s : State) (f : HeadNo → HeadItems → HeadItems) :
    (s.mapHeads f).seq.consecutiveIdle = s.seq.consecutiveIdle := rfl
@[simp] theorem State.setHold_seq_consecutiveIdle (s : State) (b : Bool) : (s.setHold b).seq.consecutiveIdle = s.seq.consecutiveIdle := rfl
@[simp] theorem State.setJobState_seq_consecutiveIdle (s : State) (j : JobState) : (s.setJobState j).seq.consecutiveIdle = s.seq.consecutiveIdle := rfl
@[simp] theorem State.mapHeads_seq_retained (s : State) (f : HeadNo → HeadItems → HeadItems) :
    (s.mapHeads f).seq.retained = s.seq.retained := rfl
@[simp] theorem State.setHold_seq_retained (s : State) (b : Bool) : (s.setHold b).seq.retained = s.seq.retained := rfl
@[simp] theorem State.setJobState_seq_retained (s : State) (j : JobState) : (s.setJobState j).seq.retained = s.seq.retained := rfl
@[simp] theorem State.mapHeads_seq_stalled (s : State) (f : HeadNo → HeadItems → HeadItems) :
    (s.mapHeads f).seq.stalled = s.seq.stalled := rfl
@[simp] theorem State.setHold_seq_stalled (s : State) (b : Bool) : (s.setHold b).seq.stalled = s.seq.stalled := rfl
@[simp] theorem State.setJobState_seq_stalled (s : State) (j : JobState) : (s.setJobState j).seq.stalled = s.seq.stalled := rfl
@[simp] theorem State.setHold_seq_heads (s : State) (b : Bool) : (s.setHold b).seq.heads = s.seq.heads := rfl
@[simp] theorem State.setJobState_seq_heads (s : State) (j : JobState) : (s.setJobState j).seq.heads = s.seq.heads := rfl
@[simp] theorem State.mapHeads_seq_pulses (s : State) (f : HeadNo → HeadItems → HeadItems) :
    (s.mapHeads f).seq.pulses = s.seq.pulses := rfl
@[simp] theorem State.setHold_seq_pulses (s : State) (b : Bool) : (s.setHold b).seq.pulses = s.seq.pulses := rfl
@[simp] theorem State.setJobState_seq_pulses (s : State) (j : JobState) : (s.setJobState j).seq.pulses = s.seq.pulses := rfl

@[simp] theorem State.setHold_seq_hold (s : State) (b : Bool) : (s.setHold b).seq.hold = b := rfl

@[simp] theorem State.setJobState_seq_state (s : State) (j : JobState) : (s.setJobState j).seq.state = j := rfl

@[simp] theorem State.mapHeads_get (s : State) (f : HeadNo → HeadItems → HeadItems) (h : HeadNo) :
    (s.mapHeads f).seq.heads[h] = f h s.seq.heads[h] := mapAll_get f s.seq.heads h

@[simp] theorem State.mapLanes_get (s : State) (f : HeadNo → Lane → Lane) (h : HeadNo) :
    (s.mapLanes f).lanes[h] = s.lanes[h].map (f h) := mapAll_get (fun h => Option.map (f h)) s.lanes h

@[simp] theorem State.mapPorts_get (s : State) (f : HeadNo → HeadPort → HeadPort) (h : HeadNo) :
    (s.mapPorts f).ports[h] = f h s.ports[h] := mapAll_get f s.ports h

@[simp] theorem State.liftHeads_get (s : State) (p : HeadNo → Bool) (h : HeadNo) :
    (s.liftHeads p).ports[h] = if p h then { s.ports[h] with lift := .lifted } else s.ports[h] :=
  mapAll_get _ s.ports h

@[simp] theorem State.endCaptures_captures (s : State) (p : HeadNo → Bool) :
    (s.endCaptures p).captures =
      s.captures.map fun c => if c.state = .filling ∧ p c.head then { c with state := .full } else c := by
  simp [State.endCaptures]

@[simp] theorem HeadItems.stopCut_justCut (i : HeadItems) : i.stopCut.justCut = i.justCut := by
  unfold HeadItems.stopCut; split <;> rfl

@[simp] theorem HeadItems.stopCut_next (i : HeadItems) : i.stopCut.next = i.next := by
  unfold HeadItems.stopCut; split <;> rfl

@[simp] theorem HeadItems.turnBack_justCut (i : HeadItems) : i.turnBack.justCut = none := by
  unfold HeadItems.turnBack; split <;> simp_all

/-! ## The end of a job (R129) -/

@[simp] theorem State.endJob_pending (s : State) (o : JobOutcome) : (s.endJob o).pending = s.pending := by
  simp [State.endJob]
@[simp] theorem State.endJob_rx (s : State) (o : JobOutcome) : (s.endJob o).rx = s.rx := by
  simp [State.endJob]
@[simp] theorem State.endJob_interp (s : State) (o : JobOutcome) : (s.endJob o).interp = s.interp := by
  simp [State.endJob]
@[simp] theorem State.endJob_expander (s : State) (o : JobOutcome) : (s.endJob o).expander = s.expander := by
  simp [State.endJob]
@[simp] theorem State.endJob_monitor (s : State) (o : JobOutcome) : (s.endJob o).monitor = s.monitor := by
  simp [State.endJob]
@[simp] theorem State.endJob_tallies (s : State) (o : JobOutcome) : (s.endJob o).tallies = s.tallies := by
  simp [State.endJob]
@[simp] theorem State.endJob_markCounter (s : State) (o : JobOutcome) : (s.endJob o).markCounter = s.markCounter := by
  simp [State.endJob]

@[simp] theorem State.endJob_seq_state (s : State) (o : JobOutcome) : (s.endJob o).seq.state = .ended o := by
  simp [State.endJob]

@[simp] theorem State.endJob_lanes (s : State) (o : JobOutcome) (h : HeadNo) : (s.endJob o).lanes[h] = none := by
  simp only [State.endJob, State.raise_lanes, State.setGrads_lanes, State.setScreens_lanes, State.setTx_lanes,
    State.setLanes_lanes, mapAll_get]

@[simp] theorem State.endJob_room (s : State) (o : JobOutcome) (h : HeadNo) : (s.endJob o).tx.room[h] = false := by
  simp only [State.endJob, State.raise_tx_room, State.setGrads_tx, State.setScreens_tx, State.setTx_tx, mapAll_get]

@[simp] theorem State.endJob_ports (s : State) (o : JobOutcome) (h : HeadNo) :
    (s.endJob o).ports[h] = { s.ports[h] with lift := .lifted } := by
  simp only [State.endJob, State.raise_ports, State.setGrads_ports, State.setScreens_ports, State.setTx_ports,
    State.setLanes_ports, State.setSeq_ports, State.mapHeads_ports, State.endCaptures_ports, State.liftHeads_get,
    if_true]

@[simp] theorem State.endJob_screens (s : State) (o : JobOutcome) (i : Fin 8) :
    (s.endJob o).screens[i] = { s.screens[i] with binds := 0 } := by
  simp only [State.endJob, State.raise_screens, State.setGrads_screens, State.setScreens_screens, State.setTx_screens,
    State.setLanes_screens, State.setSeq_screens, State.mapHeads_screens, State.endCaptures_screens,
    State.liftHeads_screens, mapAll_get]

@[simp] theorem State.endJob_grads (s : State) (o : JobOutcome) (i : Fin 16) :
    (s.endJob o).grads[i] = { s.grads[i] with binds := 0 } := by
  simp only [State.endJob, State.raise_grads, State.setGrads_grads, State.setTx_grads,
    State.setLanes_grads, State.setSeq_grads, State.mapHeads_grads, State.endCaptures_grads, State.liftHeads_grads,
    mapAll_get]

@[simp] theorem State.endJob_heads (s : State) (o : JobOutcome) (h : HeadNo) :
    (s.endJob o).seq.heads[h] =
      { state := .out, next := s.seq.heads[h].next, interrupted := false, faultPosition := false, justCut := none } := by
  simp only [State.endJob, State.raise_seq, State.setGrads_seq, State.setScreens_seq, State.setTx_seq,
    State.setLanes_seq, State.setSeq_seq, State.mapHeads_get, State.endCaptures_seq, State.liftHeads_seq]

@[simp] theorem State.endJob_captures (s : State) (o : JobOutcome) :
    (s.endJob o).captures = s.captures.map fun c => if c.state = .filling then { c with state := .full } else c := by
  simp [State.endJob]

/-! ## SYNC answers and the completion of an expansion -/

@[simp] theorem dropDue_nil (n : Nat) : dropDue n [] = [] := by cases n <;> rfl

@[simp] theorem dropDue_zero (es : List SyncEntry) : dropDue 0 es = es := by cases es <;> rfl

@[simp] theorem dropDue_succ (n : Nat) (e : SyncEntry) (es : List SyncEntry) :
    dropDue (n + 1) (e :: es) = if e.due then dropDue n es else e :: dropDue (n + 1) es := rfl

/-- Dropping due entries keeps every entry that is not due, in order (R174). -/
theorem dropDue_not_due (n : Nat) (es : List SyncEntry) :
    (dropDue n es).filter (fun e => !e.due) = es.filter fun e => !e.due := by
  induction es generalizing n with
  | nil => simp
  | cons e es ih =>
    cases n with
    | zero => rfl
    | succ n =>
      rw [dropDue_succ]
      split
      · next h => rw [ih, List.filter_cons_of_neg (by simp [h])]
      · next h => rw [List.filter_cons_of_pos (by simp [h]), List.filter_cons_of_pos (by simp [h]), ih]

/-- Dropping due entries drops the first of them (R174). -/
theorem dropDue_due (n : Nat) (es : List SyncEntry) :
    (dropDue n es).filter SyncEntry.due = (es.filter SyncEntry.due).drop n := by
  induction es generalizing n with
  | nil => simp
  | cons e es ih =>
    cases n with
    | zero => simp
    | succ n =>
      rw [dropDue_succ]
      split
      · next h => rw [ih, List.filter_cons_of_pos h, List.drop_succ_cons]
      · next h => rw [List.filter_cons_of_neg h, List.filter_cons_of_neg h, ih]

theorem dropDue_subset (n : Nat) (es : List SyncEntry) : ∀ e ∈ dropDue n es, e ∈ es := by
  induction es generalizing n with
  | nil => simp
  | cons a es ih =>
    cases n with
    | zero => simp
    | succ n =>
      rw [dropDue_succ]
      intro e he
      split at he
      · exact List.mem_cons_of_mem _ (ih n e he)
      · rcases List.mem_cons.mp he with rfl | h
        · exact List.mem_cons_self
        · exact List.mem_cons_of_mem _ (ih (n + 1) e h)

@[simp] theorem markDue_length (slot : Fin 16) (es : List SyncEntry) : (markDue slot es).length = es.length := by
  simp [markDue]

/-- Placing the due SYNC answers never fills the queue past its capacity (R162, R174). -/
theorem State.placeDueSyncs_length (s : State) (h : s.tx.queue.length ≤ 64) :
    s.placeDueSyncs.tx.queue.length ≤ 64 := by
  show (s.tx.queue ++ (((s.interp.syncs.filter SyncEntry.due).take (64 - s.tx.queue.length)).map
    fun e => syncResult e.tag)).length ≤ 64
  rw [List.length_append, List.length_map, List.length_take]
  omega

@[simp] theorem State.placeDueSyncs_pending (s : State) : s.placeDueSyncs.pending = s.pending := rfl
@[simp] theorem State.placeDueSyncs_rx (s : State) : s.placeDueSyncs.rx = s.rx := rfl
@[simp] theorem State.placeDueSyncs_screens (s : State) : s.placeDueSyncs.screens = s.screens := rfl
@[simp] theorem State.placeDueSyncs_grads (s : State) : s.placeDueSyncs.grads = s.grads := rfl
@[simp] theorem State.placeDueSyncs_expander (s : State) : s.placeDueSyncs.expander = s.expander := rfl
@[simp] theorem State.placeDueSyncs_lanes (s : State) : s.placeDueSyncs.lanes = s.lanes := rfl
@[simp] theorem State.placeDueSyncs_monitor (s : State) : s.placeDueSyncs.monitor = s.monitor := rfl
@[simp] theorem State.placeDueSyncs_seq (s : State) : s.placeDueSyncs.seq = s.seq := rfl
@[simp] theorem State.placeDueSyncs_ports (s : State) : s.placeDueSyncs.ports = s.ports := rfl
@[simp] theorem State.placeDueSyncs_tallies (s : State) : s.placeDueSyncs.tallies = s.tallies := rfl
@[simp] theorem State.placeDueSyncs_markCounter (s : State) : s.placeDueSyncs.markCounter = s.markCounter := rfl
@[simp] theorem State.placeDueSyncs_captures (s : State) : s.placeDueSyncs.captures = s.captures := rfl
@[simp] theorem State.placeDueSyncs_status (s : State) : s.placeDueSyncs.status = s.status := rfl

end Sys2Proof.Machine
end

