-- ==== Sys2Proof/Tests/Slice0.lean ====
section
/-! SUPPORT. Tests of one step each against the manual's worked cases and rules, the refusals of `Instr.wellFormed`, and for
each obligation with hypotheses a state and operands that meet them. Expected values are the manual's. -/

namespace Sys2Proof.Tests

/- Each theorem is checked before the next, so that few kernel evaluations run at once. -/
set_option Elab.async false

open Sys2Proof Sys2Proof.Machine Sys2Proof.Claims

/-! ## The states that the tests start from -/

/-- A header with notify 1. -/
def hdr : Header := { notify := 1, tag := 0x1234 }

/-- The state after reset with the link up. -/
def up : State := { State.reset with rx := { State.reset.rx with down := false } }

/-- Sixteen cells of tone 140, the first with MARK. -/
def cells : List Cell :=
  { tone := 140, mark := true, nocut := false } :: List.replicate 15 { tone := 140, mark := false, nocut := false }

/-- A lane of tag 0x30 with P 16 and 3 tracks. -/
def lane (s0 s1 : TrackSlot) (next : Nat) : Lane :=
  { tag := 0x30, pattern := 16, tracks := 3, next := next, slot0 := s0, slot1 := s1 }

/-- The plan entry of head 0: N 256 repeats a lane of 16 cells 16 times. -/
def plan : PlanEntry := { tag := 0x30, screen := 0, grad := 4, repeats := 16, tracks := 3 }

/-- The calibration of 3.8 less its wear: gain 6,000, offset 120, rest 40, maximum depth 550. -/
def cal : Calibration :=
  { gain := 6000, offset := 120, rest := 40, maxDepth := 550, wearRate := 2, wearCap := 40,
    readyPolarity := .normal, alarmPolarity := .normal }

/-- A RUNNING CUT job of head 0 alone, at E 1,024 and the last tick of a revolution, with the items, lane and lift given. -/
def job (items : HeadItems) (l : Lane) (lift : LiftState) : State :=
  { up with
    screens := updAt up.screens 0 fun _ => { screen := some { cells := 256, stagger := 0, minDepth := 20 }, binds := 1 }
    grads := updAt up.grads 4 fun _ => { table := .ready (List.replicate 256 238), binds := 1 }
    lanes := updAt up.lanes 0 fun _ => some l
    monitor := { up.monitor with sync := .synced, count := 1023, e := 1024 }
    ports := updAt up.ports 0 fun q => { q with
      cal := cal, calibrated := true, strikes := 50331648, lift := lift, readyLine := true, ready := true }
    seq := { up.seq with
      job := { up.seq.job with e := 1024 }, plan := updAt up.seq.plan 0 fun _ => some plan, state := .running
      heads := updAt up.seq.heads 0 fun _ => items } }

/-- Head 0's items in a state, at track 0. -/
def items (h : HeadState) : HeadItems := { HeadItems.powerOn with state := h }

/-- Head 0 waits for its first track, which is COMPLETE. -/
def waiting : State := job (items .waiting) (lane (.held .complete 0 cells) .free 1) .lifted

/-- Head 0 is CUTTING at a cell, with the Monitor's count given. -/
def cuttingAt (j count : Nat) : State :=
  let s := job (items (.cutting j)) (lane (.held .cutting 0 cells) .free 1) (.engaged 477)
  { s with monitor := { s.monitor with count := count } }

/-- Head 0 waits to recut an interrupted track. -/
def recut : State :=
  job { items .waiting with interrupted := true } (lane (.held .interrupted 0 cells) .free 1) .lifted

/-- Head 0 has cut its last track at the revolution that ends. -/
def finished : State :=
  job { items .finished with next := 3, justCut := some 2 } (lane (.held .retained 2 cells) .free 3) .lifted

/-- The Sequencer changed. -/
def withSeqOf (s : State) (f : Sequencer → Sequencer) : State := { s with seq := f s.seq }

/-- The Monitor changed. -/
def withMonitor (s : State) (f : Monitor → Monitor) : State := { s with monitor := f s.monitor }

/-- The FIFO replaced. -/
def withFifo (s : State) (fifo : List Frame) : State := { s with rx := { s.rx with fifo := fifo } }

/-- A record at the head of the FIFO. -/
def withRecord (s : State) (k : RecordKind) (p : List Byte) : State := withFifo s [recordFrame k hdr p]

/-- A frame that stands for sixty-four in the Upstream Queue. -/
def someResult : UpFrame := { kind := .result, body := [1, 0, 0x24, 0] }

/-- The Upstream Queue full. -/
def full (s : State) : State := { s with tx := { s.tx with queue := List.replicate 64 someResult } }

/-- The Interpreter's state replaced. -/
def withInterp (s : State) (i : InterpState) : State := { s with interp := { s.interp with state := i } }

/-- The Expansion Queue with one load for slot 3. -/
def oneLoad (notify : Bool) : State :=
  { up with
    grads := updAt up.grads 3 fun g => { g with table := .expanding }
    expander := { queue := [{ slot := 3, points := [{ tone := 0, depth := 0 }, { tone := 255, depth := 510 }],
                              notify := notify, tag := 0x0103 }], finished := false } }

/-- A capture of head 0, track 0. -/
def capture (first length : Nat) (state : CaptureState) (entries : List CaptureEntry) : Capture :=
  { id := 1, head := 0, track := 0, first := first, length := length, state := state, entries := entries }

/-- One captured entry. -/
def captured : CaptureEntry :=
  { tone := 140, mark := true, nocut := false, depth := 244, code := 477, depthClamped := false, driveClamped := false }

/-- Whether a command answers a next state of which the test holds. -/
def check (i : Instr) (s : State) (test : State → Bool) : Bool :=
  match exec i s with
  | .next t => test t
  | _ => false

/-- Whether a record at the head of the FIFO answers a next state of which the test holds. -/
def checkRecord (k : RecordKind) (p : List Byte) (s : State) (test : State → Bool) : Bool :=
  check (k.command hdr p) (withRecord s k p) test

/-- The newest RESULT's completion code and payload, as numbers. -/
def reply (t : State) : List Nat := ((t.tx.queue.getLast?.map fun f => f.body.drop 3).getD []).map BitVec.toNat

/-- The error codes of the Error Queue. -/
def errors (t : State) : List ErrorCode := t.status.errors.map ErrorEntry.code

/-! ## Ill-formed commands -/

theorem test_wf_stall_not_at_tick : (Instr.stall .tick).wellFormed = false := by decide
theorem test_wf_cell_body (body : List Byte) (h : body.length = 4097) : (Instr.cellFrame body).wellFormed = false := by
  simp [Instr.wellFormed, h]
theorem test_wf_header : (Instr.ctrlFrameNoHeader [0x24, 0, 1, 0]).wellFormed = false := by decide
theorem test_wf_known_kind : (Instr.unknownKind 0x24 hdr []).wellFormed = false := by decide
theorem test_wf_unknown_params (p : List Byte) (h : p.length = 4093) : (Instr.unknownKind 0x06 hdr p).wellFormed = false := by
  simp [Instr.wellFormed, h]
theorem test_wf_params (p : List Byte) (h : p.length = 4093) : (Instr.start hdr p).wellFormed = false := by
  simp [Instr.wellFormed, h]
theorem test_wf_admits : (Instr.unknownKind 0x06 hdr [1]).wellFormed = true := by decide

/-! ## Worked values of chapters 1 to 3 and 8 -/

/-- R153's example. -/
theorem test_check_of_nine_digits :
    checkField [0x31, 0x32, 0x33, 0x34, 0x35, 0x36, 0x37, 0x38, 0x39] = 0xCBF43926 := by decide +kernel

/-- The table of 1.6 for a stagger step of 85: cell 0, 1 and 11,999 of track 3, and cell 0 of track 4. -/
theorem test_strike_ticks_stagger :
    let x : Screen := { cells := 12000, stagger := 85, minDepth := 0 }
    [strikeTick 40000 x 3 0, strikeTick 40000 x 3 1, strikeTick 40000 x 3 11999, strikeTick 40000 x 4 0] =
      [3, 6, 39999, 1] := by decide +kernel

/-- The densest screen's table: cell 511 of tracks 0 to 3. -/
theorem test_strike_ticks_densest :
    (List.range 4).map (fun k => strikeTick 1024 { cells := 512, stagger := 200, minDepth := 0 } k 511) =
      [1022, 1023, 1023, 1022] := by decide +kernel

/-- The worked expansion of chapter 2: a half rounds up, and a falling stretch rounds toward minus infinity. -/
theorem test_expansion_entries :
    let c : List Breakpoint := [⟨0, 0⟩, ⟨64, 80⟩, ⟨128, 210⟩, ⟨192, 360⟩, ⟨255, 560⟩]
    let f : List Breakpoint := [⟨0, 0⟩, ⟨200, 600⟩, ⟨204, 590⟩, ⟨255, 700⟩]
    [2, 63, 140, 192, 254, 255].map (curveEntry c) = [3, 79, 238, 360, 557, 560] ∧
      [200, 201, 202, 203].map (curveEntry f) = [600, 598, 595, 593] := by decide +kernel

/-- A strike under 3.8's calibration, changed as given. -/
def strikeOf (c : Calibration) (g s : Nat) (nocut : Bool) : StrikeResult :=
  computeStrike { head := 2, track := 0, index := 0, cell := { tone := 140, mark := false, nocut := nocut }, depth := g,
                  minDepth := 20, cal := c, strikes := s, mode := .cut }

/-- 3.8: the central case, wear at its cap, and the cases at the minimum depth and over the maximum. -/
theorem test_depth_cases :
    [(238, 50331648), (238, 4000000000), (20, 50331648), (560, 50331648)].map (fun x =>
      let r := strikeOf cal x.1 x.2 false
      (r.depth, r.code, r.depthClamped)) = [(244, 477, false), (278, 527, false), (26, 158, false), (550, 926, true)] := by
  decide +kernel

/-- 3.8: NOCUT, a depth just under the minimum, and both drive clamps. -/
theorem test_blank_and_drive_cases :
    [strikeOf cal 238 0 true, strikeOf cal 19 50331648 false].map (fun r => (r.blank, r.cut, r.depth, r.code)) =
        [(true, false, 0, 40), (true, false, 0, 40)] ∧
      [strikeOf { cal with gain := 65535 } 560 50331648 false,
       strikeOf { cal with gain := 4096, offset := -2048 } 20 50331648 false].map
        (fun r => (r.code, r.driveClamped, r.cut)) = [(4095, true, true), (0, true, true)] := by decide +kernel

/-! ## Positions and lines -/

theorem test_powerOnReset : check .powerOnReset (cuttingAt 3 11) (fun t =>
    decide (t.conditions = 0xA0 ∧ t.seq.state = .idle ∧ t.ports[0].ready = true ∧ t.monitor.e = 65536)) = true := by
  decide +kernel

/-- 3.8's central case on the line: cell 5 falls at tick 20. -/
theorem test_tick_strikes : check .tick (cuttingAt 5 19) (fun t =>
    decide (t.ports[0].driveLine = 477 ∧ t.ports[0].strikes = 50331649 ∧ t.tallies[0].job = 244 ∧
      t.seq.heads[0].state = .cutting 6)) = true := by decide +kernel

/-- The last of 256 cells completes the track (R123), after its code, that of 3.8's central case, has been presented
(R71). -/
theorem test_tick_completes : check .tick (cuttingAt 255 1019) (fun t =>
    decide (t.seq.heads[0].state = .waiting ∧ t.seq.heads[0].next = 1 ∧ t.seq.heads[0].justCut = some 0 ∧
      t.ports[0].liftLine = true ∧ t.seq.retained = true ∧ t.ports[0].strokeCode = 477 ∧ t.ports[0].strokeCount = 1)) =
    true := by decide +kernel

/-- 1.2's worked sequence: a revolution of 1,021 positions is a slip. -/
theorem test_index_slip : check .index (withMonitor (withSeqOf waiting fun q => { q with state := .holding })
      fun m => { m with count := 1020, lastLength := 1024, revolutions := 1 }) (fun t =>
    decide (t.monitor.lastLength = 1021 ∧ t.monitor.revolutions = 2 ∧ t.monitor.sync = .synced ∧
      t.status.errors.map (fun e => (e.code, e.revolution)) = [(.encoderSlip, 2)])) = true := by decide +kernel

/-- A gate that passes with cell 0 at tick 0: struck in the same event, and no advance before a track is retained. -/
theorem test_index_gate : check .index waiting (fun t =>
    decide (t.seq.heads[0].state = .cutting 1 ∧ t.ports[0].driveLine = 477 ∧ t.seq.advances = 0 ∧ t.markCounter = 1)) =
    true := by decide +kernel

theorem test_generator_first_is_index : check .internalTickGenerator
      (withMonitor up fun m => { m with source := .internal, e := 1024 }) (fun t =>
    decide (t.monitor.sync = .synced ∧ t.monitor.count = 0 ∧ t.monitor.genNext = 1)) = true := by decide +kernel

theorem test_indexLost : check .indexLost (cuttingAt 255 2047) (fun t =>
    decide (t.monitor.sync = .unsynced ∧ errors t = [.indexLost] ∧ t.seq.state = .holding ∧
      t.seq.heads[0].interrupted = true)) = true := by decide +kernel

/-- A job whose next idle revolution reaches its stall limit of 2: its track is not there. -/
def stalling : State :=
  withSeqOf { waiting with lanes := updAt waiting.lanes 0 fun _ => some (lane .free .free 0) } fun q =>
    { q with job := { q.job with stallLimit := 2 }, consecutiveIdle := 1 }

theorem test_stall : check (.stall .index) stalling (fun t =>
    decide (t.seq.stalled = true ∧ t.seq.idle = 1 ∧ t.status.errors.map (fun e => (e.code, e.head, e.lane, e.track)) =
      [(.stall, some 0, some 0x30, some 0)])) = true := by decide +kernel

/-- The mark counter at its top, mark-stop on. -/
def topMark (s : State) : State :=
  withSeqOf { s with markCounter := 4294967295 } fun q => { q with job := { q.job with markStop := true } }

/-- Head 0 about to strike its MARK cell at tick 64 so. -/
def wrapping : State := topMark (cuttingAt 16 63)

theorem test_markStop : check (.markStop .tick) wrapping (fun t =>
    decide (t.markCounter = 0 ∧ t.seq.hold = true ∧ t.status.events.getLsbD 11 = true)) = true := by decide +kernel

/-- 4.7: an alarm while cutting faults the head and posts its position. -/
theorem test_alarm_while_cutting : check (.alarmLineChange 0 true) (cuttingAt 5 19) (fun t =>
    decide (t.seq.heads[0].state = .faulted ∧ t.ports[0].liftLine = true ∧
      t.status.errors.map (fun e => (e.code, e.track, e.cell)) = [(.headAlarm, some 0, some 5)])) = true := by
  decide +kernel

theorem test_ready_loss_while_waiting : check (.readyLineChange 0 false) waiting (fun t =>
    decide (t.seq.heads[0].state = .waiting ∧ t.ports[0].ready = false ∧ errors t = [])) = true := by decide +kernel

/-! ## The link -/

theorem test_linkSync : check .linkSyncGained State.reset (fun t => decide (t.conditions = 0x80)) = true ∧
    check .linkSyncLost up (fun t => decide (t.rx.down = true ∧ t.status.events = 0x20)) = true := by decide +kernel

/-- A START record of tag 0x0109, laid out by hand: kind 2, flags 0, length 4, body 24 00 09 01, and a check that fails. -/
theorem test_frameReceived_bad_check :
    check (.frameReceived [0x02, 0x00, 0x04, 0x00, 0x24, 0x00, 0x09, 0x01, 0, 0, 0, 0]) up (fun t =>
      decide (errors t = [.frameCheck] ∧ t.rx.fifo = [])) = true := by decide +kernel

/-- The same frame with its check, which a CRC-32 program outside the model gave, joins the FIFO. -/
theorem test_frameReceived_good :
    check (.frameReceived [0x02, 0x00, 0x04, 0x00, 0x24, 0x00, 0x09, 0x01, 0xB4, 0x29, 0x03, 0x35]) up (fun t =>
      decide (t.rx.fifo = [recordFrame .start { notify := 0, tag := 0x0109 } []] ∧ t.fill = 12)) = true := by
  decide +kernel

/-- One cell for track 0 of lane 0x30, FIRST: tag, flags 1, track, first cell, count, tone and flags. -/
def oneCell : List Byte := [0x30, 0x01, 0, 0, 0, 0, 1, 0, 140, 0xFD]

/-- An empty lane of head 0 in an ARMED job. -/
def armedJob : State :=
  withSeqOf { waiting with lanes := updAt waiting.lanes 0 fun _ => some (lane .free .free 0) } fun q =>
    { q with state := .armed, heads := updAt q.heads 0 fun i => { i with state := .armed } }

theorem test_cellFrame : check (.cellFrame oneCell) (withFifo armedJob [{ kind := .cell, body := oneCell }]) (fun t =>
    decide ((t.lanes[0].map Lane.slot0) =
      some (.held .assembling 0 [{ tone := 140, mark := true, nocut := false }]))) = true := by decide +kernel

theorem test_cellFrame_unknown_lane : check (.cellFrame oneCell) (withFifo up [{ kind := .cell, body := oneCell }])
    (fun t => decide (t.status.errors.map (fun e => (e.code, e.head, e.lane, e.track)) =
      [(.unknownLane, none, some 0x30, some 0)])) = true := by decide +kernel

theorem test_ctrlFrameNoHeader : check (.ctrlFrameNoHeader [0x5F, 0, 1]) up (fun t =>
    decide (errors t = [.unknownFrame] ∧ t.tx.queue = [] ∧ t.rx.fifo = [])) = true := by decide +kernel

theorem test_unknownKind : check (.unknownKind 0x06 hdr [9]) up (fun t =>
    decide (t.tx.queue.map UpFrame.body = [[0x34, 0x12, 0x06, 0x10]] ∧ t.status.events.getLsbD 9 = true)) = true := by
  decide +kernel

/-- The Transmitter sends a flow mark before the queue (R163, R188). -/
theorem test_sendBegin_flow_first : check .upstreamSendBegin
      { full up with tx := { (full up).tx with flowMark := some .paused } } (fun t =>
    decide (t.tx.sending = some { kind := .mark, body := [0, 1, 0] } ∧ t.tx.announced = .paused ∧
      t.tx.queue.length = 64)) = true := by decide +kernel

theorem test_sendEnd : check .upstreamSendEnd { up with tx := { up.tx with sending := some someResult } } (fun t =>
    decide (t.tx.sending = none)) = true := by decide +kernel

theorem test_resultPlaced : check .resultPlaced (withInterp (full up) (.waiting someResult)) (fun t =>
    decide (t.interp.state = .free ∧ t.tx.queue.length = 64 ∧ t.tx.sending = some someResult)) = true := by
  decide +kernel

/-- A full queue with one SYNC due. -/
def dueSync : State := { full up with interp := { state := .free, syncs := [{ tag := 0x0107, load := none }] } }

theorem test_syncAnswerPlaced : check .syncAnswerPlaced dueSync (fun t =>
    decide (t.interp.syncs = [] ∧ t.tx.queue.getLast? = some { kind := .result, body := [0x07, 0x01, 0x50, 0] })) =
    true := by decide +kernel

/-! ## The records -/

theorem test_loadCurve : checkRecord .loadCurve [3, 2, 0, 0, 0, 255, 254, 1] up (fun t =>
    decide (t.grads[3].table = .expanding ∧ t.expander.queue = (oneLoad true).expander.queue.map (fun l =>
      { l with tag := 0x1234 }) ∧ t.tx.queue = [])) = true := by decide +kernel

/-- Two breakpoints from tone 0 depth 0 to tone 255 depth 510 make twice the tone. -/
theorem test_expansionComplete : check .expansionComplete (oneLoad true) (fun t =>
    decide (t.grads[3].table = .ready ((List.range 256).map (2 * ·)) ∧
      t.tx.queue.map UpFrame.body = [[0x03, 0x01, 0x01, 0]] ∧ t.expander.queue = [])) = true := by decide +kernel

/-- 11.3: LOAD TABLE clamps 1,200 to 1000. -/
theorem test_loadTable : checkRecord .loadTable (5 :: List.replicate 510 0 ++ [0xB0, 0x04]) up (fun t =>
    decide (t.grads[5].table = .ready (List.replicate 255 0 ++ [1000]) ∧ reply t = [1])) = true := by decide +kernel

theorem test_readTable : checkRecord .readTable [4] waiting (fun t =>
    decide (reply t = 0 :: (List.replicate 256 [238, 0]).flatten)) = true ∧
    checkRecord .readTable [3] waiting (fun t => decide (reply t = [0x16])) = true := by decide +kernel

theorem test_clearTable : checkRecord .clearTable [4] waiting (fun t => decide (reply t = [0x13])) = true ∧
    checkRecord .clearTable [3] (oneLoad true) (fun t => decide (reply t = [0x14])) = true := by decide +kernel

theorem test_setScreen : checkRecord .setScreen [7, 0x00, 0x01, 128, 20, 0] up (fun t =>
    decide (t.screens[7].screen = some { cells := 256, stagger := 128, minDepth := 20 } ∧ reply t = [0])) = true := by
  decide +kernel

theorem test_clearScreen : checkRecord .clearScreen [0] waiting (fun t =>
    decide (reply t = [0x13] ∧ t.screens[0].screen.isSome)) = true := by decide +kernel

/-- SET HEAD with offset -2 and both polarities inverted: lines that are low read asserted. -/
theorem test_setHead : checkRecord .setHead [2, 0x70, 0x17, 0xFE, 0xFF, 40, 0, 0x26, 0x02, 2, 40, 1, 1] up (fun t =>
    decide (t.ports[2].cal = { cal with offset := -2, readyPolarity := .inverted, alarmPolarity := .inverted } ∧
      t.ports[2].ready = true ∧ t.ports[2].alarm = true ∧ t.ports[2].calibrated = true)) = true := by decide +kernel

theorem test_readHead : checkRecord .readHead [0] waiting (fun t => decide (reply t =
    [0, 0x70, 0x17, 120, 0, 40, 0, 0x26, 0x02, 2, 40, 0, 0, 1, 0, 0, 0, 3, 1, 0, 2])) = true := by decide +kernel

theorem test_stylusChange : checkRecord .stylusChange [0] waiting (fun t => decide (t.ports[0].strikes = 0)) = true ∧
    checkRecord .stylusChange [0] (cuttingAt 5 19) (fun t =>
      decide (reply t = [0x17] ∧ t.ports[0].strikes = 50331648)) = true := by decide +kernel

/-- Head 0 FAULTED in a HOLDING job, at the position of its fault. -/
def faulted : State :=
  withSeqOf (job { items .faulted with interrupted := true, faultPosition := true }
    (lane (.held .interrupted 0 cells) .free 1) .lifted) fun q => { q with state := .holding }

theorem test_clearFault : checkRecord .clearFault [0] faulted (fun t =>
    decide (t.seq.heads[0].state = .waiting ∧ t.seq.heads[0].interrupted = true)) = true := by decide +kernel

theorem test_setJob : checkRecord .setJob [1, 1, 0, 4, 0, 0, 100, 0, 1, 2, 0, 1] up (fun t =>
    decide (t.seq.job = { mode := .dry, source := .internal, e := 1024, period := 100, policy := .holdAll, stallLimit := 2,
                          tallySource := .tone, markStop := true })) = true := by decide +kernel

theorem test_planHead : checkRecord .planHead [0, 0x30, 0, 4, 16, 3, 0] up (fun t =>
    decide (t.seq.plan[0] = some plan)) = true := by decide +kernel

theorem test_clearPlan : checkRecord .clearPlan [255] (withSeqOf waiting fun q => { q with state := .idle }) (fun t =>
    decide (t.seq.plan[0] = none)) = true ∧
    checkRecord .clearPlan [255] waiting (fun t => decide (reply t = [0x17])) = true := by decide +kernel

/-- Head 0 planned with everything READY, no job in hand. -/
def planned : State :=
  let s := withSeqOf waiting fun q => { q with state := .idle, heads := updAt q.heads 0 fun _ => .powerOn }
  { s with screens := updAt s.screens 0 fun x => { x with binds := 0 },
           grads := updAt s.grads 4 fun x => { x with binds := 0 }, lanes := updAt s.lanes 0 fun _ => none }

theorem test_arm : checkRecord .arm [] planned (fun t =>
    decide (t.seq.state = .armed ∧ t.seq.heads[0].state = .armed ∧ t.lanes[0] = some (lane .free .free 0) ∧
      t.screens[0].binds = 1 ∧ t.grads[4].binds = 1)) = true := by decide +kernel

/-- A repeat factor of 7 does not divide 256 (R110 condition 3f). -/
theorem test_arm_repeat : checkRecord .arm [] (withSeqOf planned fun q =>
      { q with plan := updAt q.plan 0 fun _ => some { plan with repeats := 7 } }) (fun t =>
    decide (reply t = [0x19, 8, 0] ∧ t.seq.state = .idle)) = true := by decide +kernel

theorem test_start : checkRecord .start [] armedJob (fun t =>
    decide (t.seq.state = .running ∧ t.seq.heads[0].state = .waiting)) = true := by decide +kernel

theorem test_hold : checkRecord .hold [] (cuttingAt 5 19) (fun t =>
    decide (t.seq.hold = true ∧ t.seq.heads[0].state = .cutting 5)) = true ∧
    checkRecord .hold [] up (fun t => decide (reply t = [0x17])) = true := by decide +kernel

/-- RESUME with DISCARD: the faulted head's track counts as cut, and its slot is RETAINED (R97, R127). -/
theorem test_resume : checkRecord .resume [1] faulted (fun t =>
    decide (t.seq.state = .running ∧ t.seq.heads[0].next = 1 ∧ t.seq.heads[0].interrupted = false ∧
      t.lanes[0].map Lane.slot0 = some (.held .retained 0 cells))) = true := by decide +kernel

theorem test_abort : checkRecord .abort [] (cuttingAt 5 19) (fun t =>
    decide (t.seq.state = .ended .aborted ∧ t.ports[0].liftLine = true ∧ t.lanes[0] = none ∧ t.grads[4].binds = 0 ∧
      t.status.events.getLsbD 8 = true)) = true := by decide +kernel

/-- 11.3: SET MARK COUNT to 4,294,967,294, on. -/
theorem test_setMarkCount : checkRecord .setMarkCount [0xFE, 0xFF, 0xFF, 0xFF, 1] waiting (fun t =>
    decide (t.markCounter = 4294967294 ∧ t.seq.job.markStop = true)) = true := by decide +kernel

theorem test_readTally : checkRecord .readTally [1] { up with markCounter := 258 } (fun t => decide (reply t =
    [0, 1, 2, 1, 0, 0, 0, 1] ++ List.replicate 30 0)) = true := by decide +kernel

theorem test_defineCapture : checkRecord .defineCapture [1, 0, 0, 0, 5, 0, 0x00, 0x40] up (fun t =>
    decide (t.captures = [capture 5 16384 .waiting []])) = true ∧
    checkRecord .defineCapture [2, 0, 0, 0, 5, 0, 0x00, 0x40] { up with captures := [capture 5 1 .waiting []] } (fun t =>
      decide (reply t = [0x18])) = true := by decide +kernel

theorem test_deleteCapture : checkRecord .deleteCapture [1] { up with captures := [capture 5 1 .waiting []] } (fun t =>
    decide (t.captures = [])) = true := by decide +kernel

theorem test_listCaptures : checkRecord .listCaptures [] { up with captures := [capture 5 500 .filling [captured]] }
    (fun t => decide (reply t = [0, 0x0C, 0x3E, 1, 1, 0, 0, 0, 5, 0, 0xF4, 1, 1, 1, 0])) = true := by decide +kernel

/-- A readback under way. -/
def readback : State :=
  withInterp { up with captures := [capture 5 1 .full [captured]] } (.streaming { id := 1, tag := 0x1234, n := 1, next := 0 })

theorem test_readCapture : checkRecord .readCapture [1] { up with captures := [capture 5 1 .full [captured]] } (fun t =>
    decide (t.interp.state = readback.interp.state ∧ t.tx.queue = [])) = true := by decide +kernel

/-- R188's entry: tone, flags, depth 244, code 477. -/
theorem test_captureDataPlaced : check .captureDataPlaced readback (fun t =>
    decide (t.tx.queue = [{ kind := .captureData, body := [1, 0, 0, 1, 0, 140, 1, 0xF4, 0, 0xDD, 1] }])) = true := by
  decide +kernel

theorem test_readStatus : checkRecord .readStatus [] { up with status := { up.status with events := 0x400 } } (fun t =>
    decide ((reply t).take 6 = [0, 0x80, 0, 4, 0, 0] ∧ (reply t).length = 61 ∧ t.status.events = 0)) = true := by
  decide +kernel

theorem test_setEnable : checkRecord .setEnable [0x00, 0x04] { up with status := { up.status with events := 0x400 } }
      (fun t => decide (t.status.enable = 0x400 ∧ t.tx.notice = true)) = true ∧
    checkRecord .setEnable [0x00, 0x40] up (fun t => decide (reply t = [0x12])) = true := by decide +kernel

/-- An entry of the Error Queue with every optional field. -/
def oneError : ErrorEntry :=
  { code := .headAlarm, revolution := 318, head := some 5, lane := some 0x45, track := some 12, cell := some 4310 }

theorem test_readError : checkRecord .readError [] { up with status := { up.status with errors := [oneError] } } (fun t =>
    decide (reply t = [0, 10, 0x3E, 1, 0, 0, 15, 5, 0x45, 12, 0, 0xD6, 0x10, 0] ∧ t.status.errors = [])) = true ∧
    checkRecord .readError [] up (fun t => decide (reply t = List.replicate 14 0)) = true := by decide +kernel

theorem test_setFlow : checkRecord .setFlow [0x00, 0x04, 0x00, 0x01] up (fun t =>
    decide (t.rx.high = 1024 ∧ t.rx.low = 256)) = true ∧
    checkRecord .setFlow [0x00, 0x04, 0x00, 0x04] up (fun t => decide (reply t = [0x12])) = true := by decide +kernel

theorem test_sync : checkRecord .sync [] up (fun t => decide (reply t = [0])) = true ∧
    checkRecord .sync [] (oneLoad true) (fun t =>
      decide (t.interp.syncs = [{ tag := 0x1234, load := some 3 }] ∧ t.tx.queue = [])) = true := by decide +kernel

/-- RESET answers alone with one load and one SYNC discarded, and counts nothing else. -/
theorem test_reset : checkRecord .reset [7, 7]
      { oneLoad true with interp := { state := .waiting someResult, syncs := [{ tag := 0x0107, load := some 3 }] } } (fun t =>
    decide (t.tx.queue = [{ kind := .result, body := [0x34, 0x12, 0x5F, 0, 1, 1] }] ∧ t.interp.state = .free ∧
      t.grads[3].table = .empty ∧ t.status.events = 0)) = true := by decide +kernel

/-! ## Witnesses: states and operands that meet the hypotheses of the obligations, clause by clause -/

theorem witness_StepRunsFrontCommand :
    { up with pending := [Instr.tick] }.pending = Instr.tick :: [] ∧ up.pending = [] := ⟨rfl, rfl⟩

/-- The clauses for INTERNAL, UNSYNCED and SYNCED, the last at the greatest count that loses no index. -/
theorem witness_PositionsOutsideARunningJob :
    let s := withMonitor (withSeqOf waiting fun q => { q with state := .holding }) fun m => { m with count := 2046 }
    (withMonitor up fun m => { m with source := .internal }).monitor.source = .internal ∧
    (up.monitor.source = .external ∧ up.monitor.sync = .unsynced) ∧
    (s.monitor.source = .external ∧ s.monitor.sync = .synced ∧ s.monitor.count + 1 ≠ 2 * s.monitor.e ∧
      s.seq.state ≠ .running ∧ slips s.monitor = true) := by decide +kernel

/-- A due strike, with the mark counter at its greatest value. -/
theorem witness_TickStrikesTheDueCells :
    let s := wrapping
    let u := { s with monitor := { s.monitor with count := s.monitor.count + 1 } }
    s.monitor.source = .external ∧ s.monitor.sync = .synced ∧ s.monitor.count + 1 ≠ 2 * s.monitor.e ∧
    s.seq.state = .running ∧ s.markCounter ≤ 4294967295 ∧ (dueStrike u (s.monitor.count + 1) 0).isSome = true := by
  decide +kernel

/-- The internal source in force, with the generator's next place. -/
def internal (n : Nat) (s : State) : State := withMonitor s fun m => { m with source := .internal, genNext := n }

/-- A wrap at a TICK; at an INDEX, where a passing gate and a repair revolution strike the MARK cell at tick 0 (R141); and
at a generator's tick and index. -/
theorem witness_MarkStopHoldsTheJob :
    let after (s : State) : State := { s with monitor := { s.monitor with count := s.monitor.count + 1 } }
    let gate := asLine (internal 0 (topMark waiting))
    (StrikesAtTick wrapping (after wrapping) 64 ∧ wraps (after wrapping) 64 = true ∧ wrapping.seq.job.markStop = true) ∧
    (StrikesAtIndex (topMark waiting) (gateStart (topMark waiting)) 0 ∧
      wraps (gateStart (topMark waiting)) 0 = true) ∧
    (StrikesAtIndex (topMark recut) (repairStart (topMark recut)) 0 ∧
      wraps (repairStart (topMark recut)) 0 = true) ∧
    (StrikesAtTick (asLine (internal 64 wrapping)) (after (asLine (internal 64 wrapping))) 64 ∧
      wraps (after (asLine (internal 64 wrapping))) 64 = true) ∧
    (StrikesAtIndex gate (gateStart gate) 0 ∧ wraps (gateStart gate) 0 = true) := by
  have g : ∀ s ∈ [topMark waiting, asLine (internal 0 (topMark waiting))],
      RunningIndex s ∧ s.seq.hold = false ∧ GatePasses s ∧ wraps (gateStart s) 0 = true := by
    unfold RunningIndex GatePasses; decide +kernel
  have r : RunningIndex (topMark recut) ∧ (topMark recut).seq.hold = false ∧ Repairs (topMark recut) ∧
      wraps (repairStart (topMark recut)) 0 = true := by
    unfold RunningIndex Repairs; decide +kernel
  have ticks : ∀ s ∈ [wrapping, asLine (internal 64 wrapping)],
      s.monitor.source = .external ∧ s.monitor.sync = .synced ∧ s.monitor.count + 1 ≠ 2 * s.monitor.e ∧
      s.seq.state = .running ∧ s.markCounter ≤ 4294967295 ∧ 64 = s.monitor.count + 1 ∧
      wraps { s with monitor := { s.monitor with count := s.monitor.count + 1 } } 64 = true ∧
      s.seq.job.markStop = true := by decide +kernel
  obtain ⟨a1, a2, a3, a4, a5, a6, a7, a8⟩ := ticks _ (.head _)
  obtain ⟨b1, b2, b3, b4, b5, b6, b7, -⟩ := ticks _ (.tail _ (.head _))
  obtain ⟨c1, c2, c3, c4⟩ := g _ (.head _)
  obtain ⟨d1, d2, d3, d4⟩ := g _ (.tail _ (.head _))
  obtain ⟨e1, e2, e3, e4⟩ := r
  exact ⟨⟨⟨a1, a2, a3, a4, a5, a6, rfl⟩, a7, a8⟩, ⟨⟨c1, c2, rfl, .inr ⟨c3, rfl⟩⟩, c4⟩,
    ⟨⟨e1, e2, rfl, .inl ⟨e3, rfl⟩⟩, e4⟩, ⟨⟨b1, b2, b3, b4, b5, b6, rfl⟩, b7⟩, ⟨⟨d1, d2, rfl, .inr ⟨d3, rfl⟩⟩, d4⟩⟩

/-- A RUNNING job that loses its index, and one that is HOLDING. -/
theorem witness_IndexLostHoldsTheJob :
    ∀ j ∈ [JobState.running, .holding, .idle],
      let s := withSeqOf (cuttingAt 255 2047) fun q => { q with state := j }
      s.monitor.source = .external ∧ s.monitor.sync = .synced ∧ s.monitor.count + 1 = 2 * s.monitor.e := by decide +kernel

/-- One position too few and one too many. -/
theorem witness_SlipTurnsBackAndHolds :
    ∀ c ∈ [1022, 1024], let s := cuttingAt 255 c
      s.monitor.source = .external ∧ s.seq.state = .running ∧ slips s.monitor = true := by decide +kernel

theorem witness_HoldRequestHoldsAtIndex :
    let s := withSeqOf waiting fun q => { q with hold := true }
    RunningIndex s ∧ s.seq.hold = true := by unfold RunningIndex; decide +kernel

/-- A job with no head at work, and one with a FAULTED head. -/
theorem witness_ClosingIndexEndsTheJob :
    ∀ s ∈ [finished, withSeqOf faulted fun q => { q with state := .running }],
      RunningIndex s ∧ s.seq.hold = false ∧ ∀ h : HeadNo, isWaiting s h = false ∧ s.cutting h = false := by
  unfold RunningIndex; decide +kernel

theorem witness_RepairRevolutionStartsRecuts :
    RunningIndex recut ∧ recut.seq.hold = false ∧ Repairs recut := by unfold RunningIndex Repairs; decide +kernel

/-- The first gate, and one at which the advance is due. -/
theorem witness_PassingGateAdvancesAndStarts :
    ∀ s ∈ [waiting, withSeqOf waiting fun q => { q with retained := true }],
      RunningIndex s ∧ s.seq.hold = false ∧ GatePasses s := by unfold RunningIndex GatePasses; decide +kernel

/-- A gate that fails at the stall limit, and a recut whose head has READY deasserted. -/
theorem witness_IdleRevolutionCountsAndStalls :
    (let s := stalling
     RunningIndex s ∧ s.seq.hold = false ∧ (∀ g : HeadNo, wantsRecut s g = false) ∧ gateFails s 0 = true ∧
     (∀ g : HeadNo, g < 0 → gateFails s g = false) ∧ reachesStall s = true ∧ s.seq.stalled = false) ∧
    (let s := { recut with ports := updAt recut.ports 0 fun q => { q with readyLine := false, ready := false } }
     RunningIndex s ∧ s.seq.hold = false ∧ (∀ g : HeadNo, wantsRecut s g = true → s.ports[g].ready = false) ∧
     wantsRecut s 0 = true ∧ ∀ g : HeadNo, g < 0 → wantsRecut s g = false) := by unfold RunningIndex; decide +kernel

/-- An index place and a tick place of the generator. -/
theorem witness_GeneratorPositionsAreTakenAsLines :
    up.monitor.source = .external ∧
    ∀ n ∈ [0, 1023], (withMonitor waiting fun m => { m with source := .internal, genNext := n }).monitor.source =
      .internal := by decide +kernel

/-- An assertion edge at a head of each state that has a clause of its own. -/
theorem witness_AlarmEdgeFaultsTheHead :
    ∀ s ∈ [cuttingAt 5 19, waiting, finished, up],
      (alarmPort s.ports[0] true).alarm = true ∧ s.ports[0].alarm = false := by decide +kernel

theorem witness_ReadyLossFaultsACuttingHead :
    ∀ s ∈ [cuttingAt 5 19, waiting],
      (readyPort s.ports[0] false).ready = false ∧ s.ports[0].ready = true := by decide +kernel

/-- A FIFO of one frame whose fill leaves room for exactly twelve bytes, and one that leaves eleven. -/
theorem witness_ReceivedFrameIsJudged :
    State.reset.rx.down = true ∧ up.rx.down = false ∧
    frameFault [0x02, 0x00, 0x04, 0x00, 0x24, 0x00, 0x09, 0x01, 0xB4, 0x29, 0x03, 0x35] = none ∧
    frameFault [0x02, 0x00, 0x04, 0x00, 0x24, 0x00, 0x09, 0x01, 0xB4, 0x29, 0x03, 0x36] = some .frameCheck ∧
    (∀ body : List Byte, body.length = 32748 → (withFifo up [{ kind := .cell, body := body }]).fill + 12 ≤ 32768) ∧
    ∀ body : List Byte, body.length = 32749 → ¬ (withFifo up [{ kind := .cell, body := body }]).fill + 12 ≤ 32768 := by
  refine ⟨by decide, by decide, by decide +kernel, by decide +kernel, ?_, ?_⟩ <;>
    intro body h <;> simp [withFifo, State.fill, fillOf, Frame.size, h]

theorem witness_EnvelopeCarriesTheFrame :
    ([] : List Byte).length ≤ 4096 ∧ (List.replicate 4096 (0 : Byte)).length ≤ 4096 :=
  ⟨Nat.zero_le _, by rw [List.length_replicate]⟩

theorem witness_CommandsAndFramesAgree :
    ∀ i ∈ [Instr.start hdr [], .unknownKind 0x06 hdr [1], .ctrlFrameNoHeader [0x5F, 0, 1], .cellFrame oneCell],
      i.wellFormed = true ∧ (handedFrame i).isSome = true := by decide +kernel

/-- The link down; a frame too long; one that does not fit; one that meets an empty FIFO, one that waits behind a CTRL frame,
and one behind a frame that may be handed on. -/
theorem witness_ArrivingFrameIsQueuedThenHandedOn :
    let f := recordFrame .start hdr []
    (handedFrame (.start hdr []) = some f ∧ State.reset.rx.down = true ∧ State.reset.rx.fifo.head? ≠ some f) ∧
    (up.rx.down = false ∧ up.rx.fifo.head? ≠ some f ∧ up.rx.fifo = []) ∧
    (∀ body : List Byte, body.length = 4097 → up.rx.fifo.head? ≠ some { kind := .cell, body := body } ∧
      4096 < ({ kind := .cell, body := body } : Frame).body.length) ∧
    (∀ body : List Byte, body.length = 32749 → 32768 < (withFifo up [{ kind := .cell, body := body }]).fill + f.size) ∧
    (∀ s ∈ [up, withRecord up .sync [], withFifo up [{ kind := .cell, body := oneCell }]],
      s.rx.down = false ∧ s.rx.fifo.head? ≠ some f ∧ f.body.length ≤ 4096 ∧ s.fill + f.size ≤ 32768 ∧
      s.rx.fifo.all (mayLeave s) = true) ∧
    mayLeave (withInterp (withRecord up .start []) (.waiting someResult)) f = false := by
  refine ⟨by decide +kernel, by decide +kernel, fun body h => ⟨by simp [up, State.reset, State.powerOn], by simp [h]⟩,
    fun body h => ?_, by decide +kernel, by decide +kernel⟩
  simp [withFifo, State.fill, fillOf, Frame.size, h, recordFrame, recordBody]

theorem witness_BusyInterpreterHoldsCtrlFrames :
    let s := withInterp (withRecord up .start []) (.waiting someResult)
    let body := recordBody RecordKind.start.code hdr []
    handedFrame (.start hdr []) = some { kind := .ctrl, body := body } ∧
    s.rx.fifo.head? = some { kind := .ctrl, body := body } ∧ s.interp.state ≠ .free ∧
    ¬ (4 ≤ body.length ∧ body.head? = some 0x5F#8) := by decide +kernel

/-- The four clauses, the first with a body of three bytes, the last with a notify byte of 2. -/
theorem witness_FormChecksComeFirst :
    up.interp.state = .free ∧
    ((withFifo up [{ kind := .ctrl, body := [0x5F, 0, 1] }]).rx.fifo.head? = some { kind := .ctrl, body := [0x5F, 0, 1] } ∧
      [0x5F#8, 0#8, 1#8].length < 4) ∧
    (RecordKind.ofCode 0x06 = none ∧ (withFifo up [{ kind := .ctrl, body := recordBody 0x06 hdr [] }]).rx.fifo.head? =
      some { kind := .ctrl, body := recordBody 0x06 hdr [] }) ∧
    ((withRecord up .start [0]).rx.fifo.head? = some (recordFrame .start hdr [0]) ∧
      RecordKind.start.lengthOk [0] = false ∧ RecordKind.start.lengthOk [] = true ∧ 1 < (2#8).toNat) := by decide +kernel

/-- The shortest and the longest segment, with the greatest track and first cell, and each malformed form. -/
theorem witness_SegmentLayoutIsReadBack :
    (∀ n ∈ [1, 2000], let g : Segment := { tag := 1, first := true, last := true, track := 65535, firstCell := 65535,
                                           cells := List.replicate n { tone := 1, mark := true, nocut := true } }
      1 ≤ g.cells.length ∧ g.cells.length ≤ 2000 ∧ g.track < 65536 ∧ g.firstCell < 65536) ∧
    ([1#8, 0, 0, 0, 0, 0, 0].length < 8 ∧ u16At [1, 0, 0, 0, 0, 0, 0, 0] 6 = 0 ∧ 2000 < u16At [1, 0, 0, 0, 0, 0, 0xD1, 7] 6 ∧
      [1#8, 0, 0, 0, 0, 0, 1, 0, 0].length ≠ 8 + 2 * u16At [1, 0, 0, 0, 0, 0, 1, 0, 0] 6) := by
  constructor
  · intro n hn
    simp only [List.length_replicate, List.mem_cons, List.not_mem_nil, or_false] at hn ⊢
    omega
  · decide

theorem witness_CellFrameWithoutALaneIsRefused :
    (withFifo up [{ kind := .cell, body := oneCell }]).rx.fifo.head? = some { kind := .cell, body := oneCell } ∧
    segmentOf oneCell.tail = none ∧ (segmentOf oneCell).isSome = true ∧
    ∀ h : HeadNo, (withFifo up [{ kind := .cell, body := oneCell }]).lanes[h] = none := by decide +kernel

/-- A segment of lane 0x30. -/
def segment (first last : Bool) (track firstCell n : Nat) : Segment :=
  { tag := 0x30, first := first, last := last, track := track, firstCell := firstCell,
    cells := List.replicate n { tone := 1, mark := false, nocut := false } }

/-- Each refusal of checks 2 to 7, and two acceptances, for a lane whose next track is 0. -/
theorem witness_segmentRefusal :
    let empty := lane .free .free 0
    let busy := lane (.held .complete 3 cells) (.held .cutting 4 cells) 0
    [segmentRefusal empty (segment true true 1 0 16), segmentRefusal busy (segment true true 0 0 16),
      segmentRefusal empty (segment false true 0 0 16), segmentRefusal empty (segment true true 0 1 15),
      segmentRefusal empty (segment true true 0 0 17), segmentRefusal empty (segment true true 0 0 15),
      segmentRefusal empty (segment true true 0 0 16), segmentRefusal empty (segment true false 0 0 16)].map
        (Option.map Prod.fst) =
    [some .trackSequence, some .laneNoRoom, some .segmentGap, some .segmentGap, some .trackOverlong, some .trackSeam, none,
      none] := by decide +kernel

theorem witness_SegmentIsCheckedInOrder :
    let s := withFifo armedJob [{ kind := .cell, body := oneCell }]
    s.rx.fifo.head? = some { kind := .cell, body := oneCell } ∧
    segmentOf oneCell = some { segment true false 0 0 1 with cells := [{ tone := 140, mark := true, nocut := false }] } ∧
    s.lanes[(0 : HeadNo)] = some (lane .free .free 0) ∧ (lane .free .free 0).tag = (segment true false 0 0 1).tag ∧
    ∀ k : HeadNo, s.lanes[k].isSome = true → k = 0 := by decide +kernel

/-- Every record at the head of a FIFO with the Interpreter FREE: the premise that the statements on records share. -/
theorem witness_AtHead (s : State) (k : RecordKind) (p : List Byte) (hs : s.interp.state = .free) :
    AtHead (withRecord s k p) k hdr p := ⟨rfl, hs, by decide⟩

/-- The states of these tests meet that premise. -/
theorem witness_free : ∀ s ∈ [up, waiting, faulted, armedJob, planned, oneLoad true, full up],
    s.interp.state = .free := by decide +kernel

/-- SET SCREEN's range at its ends and just outside, and a slot bound and one not. -/
theorem witness_ScreenRecordsWriteUnboundSlots :
    (∀ p ∈ [[7, 0, 1, 0, 0, 0], [7, 0, 128, 255, 0xE8, 3]], p.length = 6 ∧
      (u8At p 0 < 8 ∧ 256 ≤ u16At p 1 ∧ u16At p 1 ≤ 32768 ∧ u16At p 4 ≤ 1000) ∧ u8At p 0 = (7 : Fin 8).val) ∧
    (∀ p ∈ [[8, 0, 1, 0, 0, 0], [7, 255, 0, 0, 0, 0], [7, 1, 128, 0, 0, 0], [7, 0, 1, 0, 0xE9, 3]], p.length = 6 ∧
      ¬ (u8At p 0 < 8 ∧ 256 ≤ u16At p 1 ∧ u16At p 1 ≤ 32768 ∧ u16At p 4 ≤ 1000)) ∧
    8 ≤ u8At [8] 0 ∧ waiting.screens[(0 : Fin 8)].binds ≠ 0 ∧ up.screens[(0 : Fin 8)].binds = 0 := by decide +kernel

/-- A curve of two breakpoints, and curves that R26 refuses: one breakpoint, a tone that does not rise, a depth of 1001. -/
theorem witness_LoadCurveQueuesItsLoad :
    (let p : List Byte := [3, 2, 0, 0, 0, 255, 0xE8, 3]
     2 ≤ p.length ∧ p.length = 2 + 3 * u8At p 1 ∧ curveValid (curvePoints p) ∧ u8At p 0 = (3 : Fin 16).val) ∧
    (∀ p ∈ [[3, 1, 0, 0, 0], [3, 3, 0, 0, 0, 0, 1, 0, 255, 1, 0], [3, 2, 0, 0, 0, 255, 0xE9, 3]],
      2 ≤ p.length ∧ p.length = 2 + 3 * u8At p 1 ∧ ¬ (u8At p 0 < 16 ∧ curveValid (curvePoints p))) ∧
    waiting.grads[(4 : Fin 16)].binds ≠ 0 ∧ (oneLoad true).grads[(3 : Fin 16)].table = .expanding := by
  unfold curveValid; decide +kernel

theorem witness_LoadTableClampsDepths :
    let p : List Byte := 15 :: List.replicate 510 0 ++ [0xE9, 3]
    p.length = 513 ∧ u8At p 0 = (15 : Fin 16).val ∧ 16 ≤ u8At (16 :: p.tail) 0 ∧
    ∃ d ∈ (List.range 256).map (fun i => u16At p (1 + 2 * i)), 1000 < d := by decide +kernel

theorem witness_TablesAreReadAndCleared :
    [16#8].length = 1 ∧ 16 ≤ u8At [16] 0 ∧ u8At [15] 0 = (15 : Fin 16).val ∧
    waiting.grads[(4 : Fin 16)].table = .ready (List.replicate 256 238) := by decide +kernel

/-- A falling segment, at its first tone and its last but one. -/
theorem witness_ExpandedCurveInterpolates :
    let f : List Breakpoint := [⟨0, 0⟩, ⟨200, 600⟩, ⟨204, 590⟩, ⟨255, 700⟩]
    curveValid f ∧ f[1]? = some ⟨200, 600⟩ ∧ f[1 + 1]? = some ⟨204, 590⟩ ∧ 200 ≤ 203 ∧ 203 < 204 := by
  unfold curveValid; decide +kernel

/-- A completion that can be placed, and one that must wait. -/
theorem witness_ExpansionCompletes :
    ((oneLoad true).expander.queue ≠ [] ∧ (oneLoad true).tx.queue.length ≤ 64) ∧
    ((full (oneLoad true)).expander.queue ≠ [] ∧ (full (oneLoad true)).tx.queue.length = 64) := by decide +kernel

/-- The densest screen. -/
theorem witness_StrikesFallInsideTheRevolution :
    let x : Screen := { cells := 512, stagger := 255, minDepth := 0 }
    0 < x.cells ∧ 2 * x.cells ≤ 1024 ∧ 511 < x.cells := by decide

/-- Inputs that are blank by each of the three tests, and one that is not. -/
theorem witness_DepthUnitComputesTheStrike :
    1 ≤ cal.maxDepth ∧ isBlank { tone := 0, mark := false, nocut := true } 20 20 = true ∧
    isBlank { tone := 0, mark := false, nocut := false } 0 0 = true ∧
    isBlank { tone := 0, mark := false, nocut := false } 19 20 = true ∧
    isBlank { tone := 0, mark := false, nocut := false } 20 20 = false := by decide

/-- Both ends of every range of R60, and a value just outside each. -/
theorem witness_SetHeadReplacesTheCalibration :
    (∀ p ∈ [[7, 1, 0, 0, 0xF8, 0, 0, 1, 0, 0, 0, 0, 0], [7, 255, 255, 0xFF, 7, 0xFF, 0x0F, 0xE8, 3, 255, 200, 1, 1]],
      p.length = 13 ∧ calibrationOk p ∧ u8At p 0 = (7 : HeadNo).val) ∧
    (∀ p ∈ [[8, 1, 0, 0, 0, 0, 0, 1, 0, 0, 0, 0, 0], [7, 0, 0, 0, 0, 0, 0, 1, 0, 0, 0, 0, 0],
        [7, 1, 0, 0xFF, 0xF7, 0, 0, 1, 0, 0, 0, 0, 0], [7, 1, 0, 0, 8, 0, 0, 1, 0, 0, 0, 0, 0],
        [7, 1, 0, 0, 0, 0, 0x10, 1, 0, 0, 0, 0, 0], [7, 1, 0, 0, 0, 0, 0, 0, 0, 0, 0, 0, 0],
        [7, 1, 0, 0, 0, 0, 0, 0xE9, 3, 0, 0, 0, 0], [7, 1, 0, 0, 0, 0, 0, 1, 0, 0, 201, 0, 0],
        [7, 1, 0, 0, 0, 0, 0, 1, 0, 0, 0, 2, 0], [7, 1, 0, 0, 0, 0, 0, 1, 0, 0, 0, 0, 2]],
      p.length = 13 ∧ ¬ calibrationOk p) ∧
    waiting.seq.heads[(0 : HeadNo)].state ≠ .out ∧ up.seq.heads[(0 : HeadNo)].state = .out := by
  unfold calibrationOk; decide +kernel

theorem witness_ReadHeadAndStylusChange :
    [8#8].length = 1 ∧ 8 ≤ u8At [8] 0 ∧ u8At [7] 0 = (7 : HeadNo).val ∧ (cuttingAt 5 19).cutting 0 = true ∧
    waiting.cutting 0 = false := by decide +kernel

/-- A head that may be cleared in a HOLDING and in an ARMED job, and one that may not. -/
theorem witness_ClearFaultReturnsTheHead :
    (∀ j ∈ [JobState.holding, .armed], let s := withSeqOf faulted fun q => { q with state := j }
      s.seq.heads[(0 : HeadNo)].state = .faulted ∧ s.ports[(0 : HeadNo)].alarm = false ∧
      (s.seq.state = .armed ∨ s.seq.state = .holding ∧ s.seq.heads[(0 : HeadNo)].faultPosition = true)) ∧
    waiting.seq.heads[(0 : HeadNo)].state ≠ .faulted ∧ 8 ≤ u8At [8] 0 := by decide +kernel

/-- Both ends of the ranges of R103 and R105, values just outside, and a job in hand and none. -/
theorem witness_JobAndPlanRecordsWriteWhole :
    (∀ p ∈ [[0, 0, 0, 4, 0, 0, 1, 0, 0, 0, 0, 0], [1, 1, 0, 0, 16, 0, 255, 255, 1, 255, 1, 1]], p.length = 12 ∧ jobOk p) ∧
    (∀ p ∈ [[2, 0, 0, 4, 0, 0, 1, 0, 0, 0, 0, 0], [0, 0, 255, 3, 0, 0, 1, 0, 0, 0, 0, 0],
        [0, 0, 1, 0, 16, 0, 1, 0, 0, 0, 0, 0], [0, 0, 0, 4, 0, 0, 0, 0, 0, 0, 0, 0]], p.length = 12 ∧ ¬ jobOk p) ∧
    (∀ p ∈ [[0, 0, 0, 0, 1, 1, 0], [7, 255, 7, 15, 16, 255, 255]], p.length = 7 ∧ planOk p) ∧
    (∀ p ∈ [[8, 0, 0, 0, 1, 1, 0], [0, 0, 8, 0, 1, 1, 0], [0, 0, 0, 16, 1, 1, 0], [0, 0, 0, 0, 17, 1, 0],
        [0, 0, 0, 0, 1, 0, 0]], p.length = 7 ∧ ¬ planOk p) ∧
    (8 ≤ u8At [254] 0 ∧ u8At [254] 0 ≠ 255 ∧ u8At [255] 0 = 255 ∧ u8At [7] 0 < 8) ∧
    jobInHand waiting ∧ ¬ jobInHand up := by unfold jobOk planOk jobInHand; decide +kernel

/-- A plan that ARM accepts, and for each of the nine reasons a plan that it refuses first for that reason. -/
theorem witness_ArmTestsThePlanAndArms :
    let entry (f : PlanEntry → PlanEntry) : State := withSeqOf planned fun q => { q with plan := updAt q.plan 0 (Option.map f) }
    (jobInHand waiting ∧ ¬ jobInHand planned ∧ ((allArmChecks planned).find? fun c => !c.1) = none) ∧
    [up, withSeqOf planned fun q => { q with job := { q.job with source := .internal } },
      withSeqOf planned fun q => { q with plan := updAt q.plan 1 fun _ => some plan },
      { planned with ports := updAt planned.ports 0 fun q => { q with calibrated := false } },
      entry fun e => { e with screen := 7 }, entry fun e => { e with grad := 15 },
      { planned with screens := updAt planned.screens 0 fun x =>
          { x with screen := some { cells := 513, stagger := 0, minDepth := 0 } } },
      entry fun e => { e with repeats := 7 },
      { planned with ports := updAt planned.ports 0 fun q => { q with alarm := true } }].map
        (fun s => ((allArmChecks s).find? fun c => !c.1).map fun c => c.2.1) =
      [some 1, some 2, some 3, some 4, some 5, some 6, some 7, some 8, some 9] := by
  unfold jobInHand; decide +kernel

theorem witness_StartAndHold :
    armedJob.seq.state = .armed ∧ waiting.seq.state = .running ∧ faulted.seq.state = .holding ∧ up.seq.state = .idle := by
  decide +kernel

theorem witness_ResumeRunsTheJobAgain :
    [1#8].length = 1 ∧ 1 < u8At [2] 0 ∧ u8At [0] 0 ≤ 1 ∧ u8At [1] 0 ≤ 1 ∧ u8At [1] 0 ≠ 0 ∧
    faulted.seq.heads[(0 : HeadNo)].interrupted = true ∧ holdsInterrupted faulted.lanes[(0 : HeadNo)] = true := by
  decide +kernel

theorem witness_AbortEndsTheJob : jobInHand armedJob ∧ jobInHand waiting ∧ jobInHand faulted ∧ ¬ jobInHand up := by
  unfold jobInHand; decide +kernel

theorem witness_MarkCountAndTallyRecords :
    [0#8, 0, 0, 0, 2].length = 5 ∧ 1 < u8At [0, 0, 0, 0, 2] 4 ∧ ¬ 1 < u8At [0, 0, 0, 0, 1] 4 ∧ 8 ≤ u8At [254] 0 ∧
    u8At [254] 0 ≠ 255 ∧ u8At [255] 0 = 255 ∧ u8At [7] 0 = (7 : HeadNo).val := by decide

/-- Both ends of the ranges of R142, values just outside, an id in use, and a length that does not fit. -/
theorem witness_CaptureListRecords :
    let s := { up with captures := [capture 5 1 .waiting []] }
    (∀ p ∈ [[1, 0, 0, 0, 0, 0, 1, 0], [8, 7, 0xFE, 255, 255, 127, 0, 64]], p.length = 8 ∧ captureOk p) ∧
    (∀ p ∈ [[0, 0, 0, 0, 0, 0, 1, 0], [9, 0, 0, 0, 0, 0, 1, 0], [1, 8, 0, 0, 0, 0, 1, 0], [1, 0, 255, 255, 0, 0, 1, 0],
        [1, 0, 0, 0, 0, 128, 1, 0], [1, 0, 0, 0, 0, 0, 0, 0], [1, 0, 0, 0, 0, 0, 1, 64]], p.length = 8 ∧ ¬ captureOk p) ∧
    (∃ c ∈ s.captures, c.id = u8At [1, 0, 0, 0, 0, 0, 1, 0] 0) ∧
    (16384 < reserved s + u16At [8, 7, 0xFE, 255, 255, 127, 0, 64] 6) ∧
    ¬ 16384 < reserved s + u16At [8, 7, 0xFE, 255, 255, 127, 255, 63] 6 := by
  unfold captureOk; decide +kernel

/-- A readback with an entry free and at a full queue, and one that ends and hands a waiting record on. -/
theorem witness_CaptureIsStreamed :
    let rb : Readback := { id := 1, tag := 0x1234, n := 1, next := 0 }
    let c := capture 5 1 .full [captured]
    (readback.captureOf (u8At [1] 0) = some c ∧ readback.captureOf (u8At [2] 0) = none) ∧
    (readback.interp.state = .streaming rb ∧ readback.captureOf rb.id = some c ∧ readback.tx.queue.length < 64) ∧
    ((full readback).interp.state = .streaming rb ∧ ¬ (full readback).tx.queue.length < 64) ∧
    (nextFrame c { rb with next := 1 }).2 = .free ∧ ctrlWaits (withRecord readback .start []) = true := by decide +kernel

/-- An Error Queue of 31, one of 32, and one whose newest entry is QUEUE_OVERFLOW. -/
theorem witness_PostsKeepTheErrorQueueBounded :
    let q (n : Nat) (more : List ErrorEntry) := List.replicate n oneError ++ more
    ((q 31 []).getLast?.map ErrorEntry.code ≠ some .queueOverflow ∧ (q 31 []).length < 32) ∧
    ((q 32 []).getLast?.map ErrorEntry.code ≠ some .queueOverflow ∧ 32 ≤ (q 32 []).length) ∧
    (q 31 [{ oneError with code := .queueOverflow }]).getLast?.map ErrorEntry.code = some .queueOverflow := by decide +kernel

theorem witness_StatusIsReadAndEnabled :
    [0#8, 0x40].length = 2 ∧ 16384 ≤ u16At [0, 0x40] 0 ∧ ¬ 16384 ≤ u16At [255, 0x3F] 0 := by decide

theorem witness_ErrorsAreReadOldestFirst :
    AtHead (withRecord { up with status := { up.status with errors := [oneError] } } .readError []) .readError hdr [] ∧
    AtHead (withRecord up .readError []) .readError hdr [] := ⟨witness_AtHead _ _ _ rfl, witness_AtHead _ _ _ rfl⟩

/-- Both ends of the ranges of R158, and values that each of its conditions refuses. -/
theorem witness_SetFlowJudgesAtOnce :
    let ok (p : List Byte) : Prop := 1024 ≤ u16At p 0 ∧ u16At p 0 ≤ 32768 ∧ u16At p 2 ≤ 32512 ∧ u16At p 0 % 256 = 0 ∧
      u16At p 2 % 256 = 0 ∧ u16At p 2 < u16At p 0
    (∀ p ∈ [[0, 4, 0, 0], [0, 128, 0, 127]], p.length = 4 ∧ ok p) ∧
    (∀ p ∈ [[0, 3, 0, 0], [0, 129, 0, 0], [0, 4, 0, 4], [1, 4, 0, 0], [0, 4, 1, 0]], p.length = 4 ∧ ¬ ok p) ∧
    up.tx.flowMark = if up.rx.flow = up.tx.announced then none else some up.rx.flow := by decide +kernel

/-- An empty Expansion Queue, and a load with fifteen and with sixteen SYNCs outstanding. -/
theorem witness_SyncWaitsForTheLastLoad :
    let s (n : Nat) := { oneLoad true with interp :=
      { state := .free, syncs := List.replicate n ({ tag := 1, load := some 3 } : SyncEntry) } }
    AtHead (withRecord up .sync []) .sync hdr [] ∧ up.expander.queue.getLast? = none ∧
    (s 15).expander.queue.getLast?.isSome = true ∧ (s 15).interp.syncs.length < 16 ∧ ¬ (s 16).interp.syncs.length < 16 := by
  refine ⟨witness_AtHead _ _ _ rfl, ?_⟩
  decide +kernel

theorem witness_ResetClearsAndAnswersAlone :
    (withInterp (withRecord up .reset [7]) (.waiting someResult)).rx.fifo.head? = some (recordFrame .reset hdr [7]) := rfl

/-- The Transmitter's choices: a frame being sent, the flow mark, a ROOM mark, the notice, the queue, and nothing. -/
theorem witness_TransmitterChoosesInOrder :
    let room := { waiting with tx := { waiting.tx with room := updAt waiting.tx.room 0 fun _ => true } }
    (¬ linkIsFree State.reset) ∧ linkIsFree up ∧ NoClaim up ∧
    (linkIsFree room ∧ NoClaim room ∧ room.tx.flowMark = none ∧ room.lanes[(0 : HeadNo)].isSome = true ∧
      room.tx.room[(0 : HeadNo)] = true ∧ ∀ g : HeadNo, g < 0 → room.tx.room[g] = false) ∧
    (∀ h : HeadNo, up.tx.room[h] = false) ∧
    (full up).tx.queue ≠ [] ∧ NoClaim (full up) ∧ (full up).tx.notice = false ∧ up.tx.queue = [] := by
  unfold linkIsFree NoClaim; decide +kernel

/-- A queue of sixty-four whose entry is freed, with each of the claims. -/
theorem witness_FreedEntryGoesToTheFirstClaim :
    let s := full { readback with expander := { (oneLoad true).expander with finished := true } }
    let due := dueSync
    let rb : Readback := { id := 1, tag := 0x1234, n := 1, next := 0 }
    (queueIsNext s someResult (List.replicate 63 someResult) ∧ (List.replicate 63 someResult).length = 63 ∧
      s.expander.finished = true ∧ s.expander.queue = (oneLoad true).expander.queue ∧
      s.expander.queue.all Load.notify = true) ∧
    (queueIsNext due someResult (List.replicate 63 someResult) ∧ due.expander.finished = false ∧
      dueOf due.interp.syncs = [{ tag := 0x0107, load := none }]) ∧
    (queueIsNext (withInterp (full up) (.waiting someResult)) someResult (List.replicate 63 someResult) ∧
      dueOf (full up).interp.syncs = []) ∧
    (queueIsNext (withInterp (full readback) (.waitingReadback rb)) someResult (List.replicate 63 someResult) ∧
      (full readback).captureOf rb.id = some (capture 5 1 .full [captured])) := by
  unfold queueIsNext linkIsFree; decide +kernel

/-- A job at work in every block: a track waiting, a load queued, a SYNC outstanding, an error, a notice and a capture. -/
def everything : State :=
  { waiting with
    pending := [.index]
    grads := updAt waiting.grads 3 fun g => { g with table := .expanding }
    expander := (oneLoad true).expander
    interp := { state := .free, syncs := [{ tag := 0x0107, load := some 3 }] }
    tx := { waiting.tx with queue := [someResult], notice := true }
    captures := [capture 5 500 .filling [captured]]
    status := { events := 0x400, enable := 0x400, errors := [oneError] } }

/-- Its step answers a next state, as the three invariants' premise asks. -/
theorem witness_StepKeeps_step : ∃ t, step everything = .next t := ⟨_, rfl⟩

theorem witness_StepKeepsTheLinkLaws : LinkLaws everything := by
  unfold LinkLaws State.QueuesBounded State.ErrorsFormed State.NoticeBacked State.FlowMarkExact State.ClaimsWait
    State.ExpansionExact
  decide +kernel

theorem witness_StepKeepsTheRanges : RangeLaws everything := by
  unfold RangeLaws State.InputsNormalized State.DriveInRange State.CapturesFormed State.CountsInRange
  decide +kernel

/-- Whether a gradation slot is READY. -/
def isReady : Table → Bool
  | .ready _ => true
  | _ => false

theorem witness_boundReady : everything.BoundReady := by
  have h : ∀ i : Fin 16, everything.grads[i].binds ≠ 0 → isReady everything.grads[i].table = true := by decide +kernel
  refine ⟨by decide +kernel, fun i hi => ?_⟩
  have hr := h i hi
  revert hr
  cases everything.grads[i].table with
  | ready d => exact fun _ => ⟨d, rfl⟩
  | empty => exact fun hr => Bool.noConfusion hr
  | expanding => exact fun hr => Bool.noConfusion hr

theorem witness_lanesPlanned : everything.LanesPlanned := by
  have h : ∀ h : HeadNo, (everything.lanes[h].all fun l => everything.seq.state.active &&
      decide ((everything.seq.plan[h]).map (fun e => (e.tag, e.tracks)) = some (l.tag, l.tracks))) = true ∧
      (everything.tx.room[h] = true → everything.lanes[h].isSome = true) := by decide +kernel
  refine fun i => ⟨fun l hl => ?_, (h i).2⟩
  simpa [hl] using (h i).1

theorem witness_StepKeepsTheJobLaws : JobLaws everything := by
  refine ⟨?_, witness_boundReady, ?_, ?_, witness_lanesPlanned, ?_⟩
  · unfold State.BindsExact; decide +kernel
  · unfold State.EngagedOnlyCutting; decide +kernel
  · unfold State.HoldOnlyRunning; decide +kernel
  · unfold State.CountInRange; decide +kernel

/-- The screen of these tests. -/
def screen : Screen := { cells := 256, stagger := 0, minDepth := 20 }

/-- A RUNNING job of `plan` alone, with no track cut yet and at most five cells of one, keeps the track laws. -/
theorem trackLaws_of (s : State) (hr : s.seq.state = .running) (hl : s.monitor.lastLength ≤ 2097152)
    (hx : ∀ i : Fin 8, s.screens[i].screen = none ∨ s.screens[i].screen = some screen)
    (hh : ∀ h : HeadNo, (s.seq.plan[h] = none ∧ s.seq.heads[h].state = .out ∨ s.seq.plan[h] = some plan) ∧
      s.seq.heads[h].next = 0 ∧ s.seq.heads[h].interrupted = false ∧ s.seq.heads[h].justCut = none ∧
      s.ports[h].cal.maxDepth ≤ 1000 ∧ s.tallies[h].currentTrack = 0 ∧ s.tallies[h].lastTrack = 0 ∧
      (s.seq.heads[h].state = .out ∨ s.seq.heads[h].state = .waiting ∨ s.seq.heads[h].state = .cutting 5)) :
    TrackLaws s := by
  refine ⟨hl, fun h => ?_, fun i x h => ?_, fun h => ?_⟩
  · obtain ⟨hp, hn, hi, hj, -⟩ := hh h
    simp only [hn, hi, hj, hr]
    refine ⟨by omega, fun e he => ?_, fun _ => ⟨fun ho => ?_, by simp, by simp, by simp⟩⟩
    · obtain hp | hp := hp
      · exact absurd (hp.1.symm.trans he) nofun
      · obtain rfl := Option.some.inj (hp.symm.trans he)
        decide
    · obtain hp | hp := hp
      · exact absurd hp.2 ho
      · exact ⟨plan, hp, by decide, fun _ => by decide⟩
  · obtain hx | hx := hx i
    · exact absurd (hx.symm.trans h) nofun
    · obtain rfl := Option.some.inj (hx.symm.trans h)
      decide
  · obtain ⟨-, -, -, -, hd, hc, ht, hs⟩ := hh h
    refine ⟨hd, by omega, by omega, fun j hj => ⟨by omega, fun e x _ he => ?_⟩⟩
    obtain hx | hx := hx e.screen
    · exact absurd (hx.symm.trans he) nofun
    · obtain rfl := Option.some.inj (hx.symm.trans he)
      rw [hj] at hs
      obtain rfl : j = 5 := by simpa using hs
      decide

/-- The job's laws and the track laws of a head that waits, and the track laws of one that is CUTTING. -/
theorem witness_StepKeepsTheTracks :
    JobLaws everything ∧ TrackLaws everything ∧ TrackLaws (cuttingAt 5 19) :=
  ⟨witness_StepKeepsTheJobLaws, trackLaws_of _ rfl (by decide) (by decide +kernel) (by decide +kernel),
    trackLaws_of _ rfl (by decide) (by decide +kernel) (by decide +kernel)⟩

/-- A position at which neither event comes about, a Monitor far from the limit, and blocks with nothing that waits. -/
theorem witness_NamedEventsHappenOnlyWhereTheyCan :
    (∃ t, exec (positionCommand .index) stalling = .next t) ∧
    ¬ (up.monitor.source = .external ∧ up.monitor.sync = .synced ∧ up.monitor.count + 1 = 2 * up.monitor.e) ∧
    up.seq.state ≠ .running ∧ up.expander.queue = [] ∧ up.interp.state = .free ∧ dueOf up.interp.syncs = [] := by
  refine ⟨⟨_, rfl⟩, ?_⟩
  decide +kernel

end Sys2Proof.Tests
end

