-- ==== Sys2Proof/Proofs/Signals.lean ====
section
/-! SUPPORT. What an action does apart from the works, before the conditions that rose in it are latched: what it posts
and raises (`Signals`), and that it leaves the link's queues and marks and the Interpreter (`LinkKept`). Both chain, so that
an event of several actions is described action by action; `event_of_action` then adds the latching. -/

namespace Sys2Proof.Machine

open Sys2Proof Sys2Proof.Claims

/-- Between two states the entries `posts` are posted and the bits `raised` are raised; the pending notice follows the
summary (R180, R181, R183). -/
structure Signals (s t : State) (raised : BitVec 14) (posts : List ErrorEntry) : Prop where
  errors : t.status.errors = posts.foldl postTo s.status.errors
  events : t.status.events = s.status.events ||| (raised ||| bitIf (!posts.isEmpty) .errorQueued)
  enable : t.status.enable = s.status.enable
  notice : t.tx.notice = noticeGoing s.summary t.summary s.tx.notice

/-- The link's queues and marks and the Interpreter are the same in two states; the pending ROOM marks, which count among
the works, are left out. -/
structure LinkKept (s t : State) : Prop where
  pending : t.pending = s.pending
  rx : t.rx = s.rx
  interp : t.interp = s.interp
  queue : t.tx.queue = s.tx.queue
  flowMark : t.tx.flowMark = s.tx.flowMark
  announced : t.tx.announced = s.tx.announced
  sending : t.tx.sending = s.tx.sending

@[simp] theorem bitIf_false (e : OneShot) : bitIf false e = 0 := rfl

@[simp] theorem bitIf_true (e : OneShot) : bitIf true e = e.bit := rfl

theorem bitIf_or (a b : Bool) (e : OneShot) : bitIf (a || b) e = bitIf a e ||| bitIf b e := by
  cases a <;> cases b <;> simp

theorem LinkKept.refl (s : State) : LinkKept s s := ⟨rfl, rfl, rfl, rfl, rfl, rfl, rfl⟩

theorem LinkKept.trans {s t u : State} (h : LinkKept s t) (k : LinkKept t u) : LinkKept s u where
  pending := k.pending.trans h.pending
  rx := k.rx.trans h.rx
  interp := k.interp.trans h.interp
  queue := k.queue.trans h.queue
  flowMark := k.flowMark.trans h.flowMark
  announced := k.announced.trans h.announced
  sending := k.sending.trans h.sending

/-- An action that leaves the Status Unit and the notice posts and raises nothing. -/
theorem Signals.of_kept {s t : State} (hs : t.status = s.status) (hn : t.tx.notice = s.tx.notice) : Signals s t 0 [] where
  errors := by rw [hs]; rfl
  events := by rw [hs]; simp
  enable := by rw [hs]
  notice := by rw [hn, State.summary, State.summary, hs, noticeGoing_same]

theorem Signals.refl (s : State) : Signals s s 0 [] := .of_kept rfl rfl

/-- Raising bits never makes the summary fall. -/
theorem Signals.summary_mono {s t : State} {raised : BitVec 14} {posts : List ErrorEntry} (h : Signals s t raised posts) :
    s.summary = true → t.summary = true := by
  rw [State.summary, State.summary, h.events, h.enable]
  exact summaryOf_or _ _ _

/-- What two actions post and raise, one after the other, they post and raise together. -/
theorem Signals.trans {s t u : State} {a b : BitVec 14} {p q : List ErrorEntry} (h : Signals s t a p)
    (k : Signals t u b q) : Signals s u (a ||| b) (p ++ q) where
  errors := by rw [k.errors, h.errors, List.foldl_append]
  events := by
    have hpq : (!(p ++ q).isEmpty) = (!p.isEmpty || !q.isEmpty) := by cases p <;> simp
    rw [k.events, h.events, hpq, bitIf_or]
    ac_rfl
  enable := k.enable.trans h.enable
  notice := by rw [k.notice, h.notice, noticeGoing_trans _ _ _ _ h.summary_mono k.summary_mono]

/-- Two signals in a row, the second of an action that posts and raises nothing. -/
theorem Signals.trans_silent {s t u : State} {a : BitVec 14} {p : List ErrorEntry} (h : Signals s t a p)
    (k : Signals t u 0 []) : Signals s u a p := by
  simpa using h.trans k

/-- Two signals in a row, the first of an action that posts and raises nothing. -/
theorem Signals.silent_trans {s t u : State} {a : BitVec 14} {p : List ErrorEntry} (h : Signals s t 0 [])
    (k : Signals t u a p) : Signals s u a p := by
  simpa using h.trans k

theorem Signals.raise (s : State) (e : OneShot) : Signals s (s.raise e) e.bit [] where
  errors := rfl
  events := by simp
  enable := rfl
  notice := rfl

theorem Signals.post (s : State) (code : ErrorCode) (head : Option HeadNo) (lane : Option Byte) (track cell : Option Nat) :
    Signals s (s.post code head lane track cell) 0 [entry s code head lane track cell] where
  errors := rfl
  events := by simp [State.post_eq]
  enable := rfl
  notice := rfl

theorem LinkKept.raise (s : State) (e : OneShot) : LinkKept s (s.raise e) := ⟨rfl, rfl, rfl, rfl, rfl, rfl, rfl⟩

theorem LinkKept.post (s : State) (code : ErrorCode) (head : Option HeadNo) (lane : Option Byte) (track cell : Option Nat) :
    LinkKept s (s.post code head lane track cell) := ⟨rfl, rfl, rfl, rfl, rfl, rfl, rfl⟩

/-- The latching of the conditions that rose makes the signals of an action those of an event (R180). -/
theorem Signals.posts {s t : State} {raised : BitVec 14} {posts : List ErrorEntry} (h : Signals s t raised posts) :
    Posts s (s.latch t) raised posts := by
  refine ⟨h.errors, ?_, h.enable, ?_⟩
  · rw [State.latch_events, State.latch_conditions, h.events]
  · have hlatch : (s.latch t).tx.notice = noticeGoing t.summary (s.latch t).summary t.tx.notice := rfl
    have hmono : t.summary = true → (s.latch t).summary = true := summaryOf_or _ _ _
    rw [hlatch, h.notice, noticeGoing_trans _ _ _ _ h.summary_mono hmono]
    rfl

/-- An action with its works, its signals and the link kept is, with the conditions latched, an event. -/
theorem event_of_action {s t : State} {works : Works} {raised : BitVec 14} {posts : List ErrorEntry}
    (hw : worksOf t = works) (hl : LinkKept s t) (hs : Signals s t raised posts) :
    Event s (s.latch t) works raised posts :=
  ⟨hw, hl.pending, hl.rx, hl.interp, hl.queue, hl.flowMark, hl.announced, hl.sending, hs.posts⟩

@[simp] theorem worksOf_raise (s : State) (e : OneShot) : worksOf (s.raise e) = worksOf s := rfl

@[simp] theorem worksOf_post (s : State) (code : ErrorCode) (head : Option HeadNo) (lane : Option Byte)
    (track cell : Option Nat) : worksOf (s.post code head lane track cell) = worksOf s := rfl

@[simp] theorem worksOf_latch (s t : State) : worksOf (s.latch t) = worksOf t := rfl

end Sys2Proof.Machine
end

