-- ==== Sys2Proof/Proofs/StrikesOfATick.lean ====
section
/-! SUPPORT. The strikes of a tick, all heads at once: one head's turn first, in the terms of `Claims.dueStrike`, and then the
turns of the eight heads, whose order does not matter because no head's turn touches what another's reads (R57, log entry
10). -/

namespace Sys2Proof.Machine

open Sys2Proof Sys2Proof.Claims

/-! ## One head's turn -/

/-- The strike that falls on a tick is of the context that the head reads, at that context's tick, with the result that
the Depth Unit computes from it. -/
theorem dueStrike_eq_some {u : State} {tick : Nat} {h : HeadNo} {c : StrikeContext} {r : StrikeResult} :
    dueStrike u tick h = some (c, r) ↔
      u.strikeContext h = some c ∧ c.tick u.seq.job.e = tick ∧ r = computeStrike (u.strikeInput h c) := by
  unfold dueStrike StrikeContext.tick
  cases u.strikeContext h with
  | none => simp
  | some d =>
    by_cases hd : strikeTick u.seq.job.e d.screen d.track d.index = tick
    · simp only [hd, if_true, Option.some.injEq, Prod.mk.injEq]
      constructor
      · rintro ⟨rfl, rfl⟩; exact ⟨rfl, hd, rfl⟩
      · rintro ⟨rfl, -, rfl⟩; exact ⟨rfl, rfl⟩
    · simp only [hd, if_false, Option.some.injEq, reduceCtorEq, false_iff]
      rintro ⟨rfl, hd', -⟩
      exact hd hd'

theorem strikeHead_of_none {u : State} {tick : Nat} {h : HeadNo} (hd : dueStrike u tick h = none) :
    u.strikeHead tick h = u := by
  rw [State.strikeHead_eq]
  unfold dueStrike at hd
  split
  · next c hc =>
    rw [hc] at hd
    rw [if_neg]
    intro ht
    simp [show strikeTick u.seq.job.e c.screen c.track c.index = tick from ht] at hd
  · rfl

theorem strikeHead_of_some {u : State} {tick : Nat} {h : HeadNo} {c : StrikeContext} {r : StrikeResult}
    (hd : dueStrike u tick h = some (c, r)) : u.strikeHead tick h = u.strikeCell h c := by
  obtain ⟨hc, ht, -⟩ := dueStrike_eq_some.mp hd
  rw [State.strikeHead_eq, hc]
  simp only [ht, if_true]

/-- A head's turn keeps what no strike changes. -/
theorem State.strikeHead_induct (P : State → Prop) {s : State} {tick : Nat} {h : HeadNo} (hs : P s)
    (hcell : ∀ c, P (s.strikeCell h c)) : P (s.strikeHead tick h) := by
  rw [State.strikeHead_eq]
  split
  · split
    · exact hcell _
    · exact hs
  · exact hs

/-- What neither a strike nor the completion of a track changes: the link, the Interpreter, the slots, the Monitor, and
the Sequencer's items that are no head's. -/
structure StrikeKept (s t : State) : Prop where
  link : LinkKept s t
  screens : t.screens = s.screens
  grads : t.grads = s.grads
  expander : t.expander = s.expander
  monitor : t.monitor = s.monitor
  room : t.tx.room = s.tx.room
  job : t.seq.job = s.seq.job
  plan : t.seq.plan = s.seq.plan
  state : t.seq.state = s.seq.state
  advances : t.seq.advances = s.seq.advances
  idle : t.seq.idle = s.seq.idle
  consecutiveIdle : t.seq.consecutiveIdle = s.seq.consecutiveIdle
  stalled : t.seq.stalled = s.seq.stalled
  pulses : t.seq.pulses = s.seq.pulses

theorem StrikeKept.refl (s : State) : StrikeKept s s :=
  ⟨.refl s, rfl, rfl, rfl, rfl, rfl, rfl, rfl, rfl, rfl, rfl, rfl, rfl, rfl⟩

theorem StrikeKept.trans {s t u : State} (h : StrikeKept s t) (k : StrikeKept t u) : StrikeKept s u where
  link := h.link.trans k.link
  screens := k.screens.trans h.screens
  grads := k.grads.trans h.grads
  expander := k.expander.trans h.expander
  monitor := k.monitor.trans h.monitor
  room := k.room.trans h.room
  job := k.job.trans h.job
  plan := k.plan.trans h.plan
  state := k.state.trans h.state
  advances := k.advances.trans h.advances
  idle := k.idle.trans h.idle
  consecutiveIdle := k.consecutiveIdle.trans h.consecutiveIdle
  stalled := k.stalled.trans h.stalled
  pulses := k.pulses.trans h.pulses

theorem strikeCell_kept (s : State) (h : HeadNo) (c : StrikeContext) : StrikeKept s (s.strikeCell h c) where
  link := ⟨by simp, by simp, by simp, by simp, by simp, by simp, by simp⟩
  screens := by simp
  grads := by simp
  expander := by simp
  monitor := by simp
  room := by simp
  job := by simp
  plan := by simp
  state := by simp
  advances := by simp
  idle := by simp
  consecutiveIdle := by simp
  stalled := by simp
  pulses := by simp

theorem strikeHead_kept (s : State) (tick : Nat) (h : HeadNo) : StrikeKept s (s.strikeHead tick h) :=
  State.strikeHead_induct _ (.refl s) fun c => strikeCell_kept s h c

/-- No head's turn touches what another head's strike reads (R57). -/
theorem dueStrike_strikeHead {s : State} {tick : Nat} {h g : HeadNo} (hg : g ≠ h) :
    dueStrike (s.strikeHead tick h) tick g = dueStrike s tick g := by
  have hk := strikeHead_kept s tick h
  obtain ⟨hheads, hports, hlanes, -⟩ := State.strikeHead_other s tick h g hg
  have hctx : (s.strikeHead tick h).strikeContext g = s.strikeContext g :=
    State.strikeContext_congr _ _ _ hheads (by rw [hk.plan]) hk.screens hk.grads hlanes
  unfold dueStrike
  rw [hctx, hk.job]
  cases s.strikeContext g with
  | none => rfl
  | some c => simp only [State.strikeInput_congr s (s.strikeHead tick h) g c hports hk.job]

@[simp] theorem computeStrike_head (i : StrikeInput) : (computeStrike i).head = i.head := by
  unfold computeStrike; simp only []; split <;> rfl

@[simp] theorem computeStrike_track (i : StrikeInput) : (computeStrike i).track = i.track := by
  unfold computeStrike; simp only []; split <;> rfl

@[simp] theorem computeStrike_index (i : StrikeInput) : (computeStrike i).index = i.index := by
  unfold computeStrike; simp only []; split <;> rfl

@[simp] theorem computeStrike_cell (i : StrikeInput) : (computeStrike i).cell = i.cell := by
  unfold computeStrike; simp only []; split <;> rfl

/-- A blank strike has depth 0 and clamps nothing (R56). -/
theorem computeStrike_blank (i : StrikeInput) (h : (computeStrike i).blank = true) :
    (computeStrike i).depth = 0 ∧ (computeStrike i).depthClamped = false ∧ (computeStrike i).driveClamped = false := by
  unfold computeStrike at h ⊢
  simp only [] at h ⊢
  split at h
  · next hb => rw [if_pos hb]; exact ⟨rfl, rfl, rfl⟩
  · exact absurd h (by simp)

@[simp] theorem State.strikeInput_head (s : State) (h : HeadNo) (c : StrikeContext) : (s.strikeInput h c).head = h := rfl

@[simp] theorem State.strikeInput_track (s : State) (h : HeadNo) (c : StrikeContext) :
    (s.strikeInput h c).track = c.track := rfl

@[simp] theorem State.strikeInput_index (s : State) (h : HeadNo) (c : StrikeContext) :
    (s.strikeInput h c).index = c.index := rfl

@[simp] theorem State.strikeInput_cell (s : State) (h : HeadNo) (c : StrikeContext) :
    (s.strikeInput h c).cell = c.cell := rfl

/-- The completion of a track, at its own head: next track, track just cut and head state (R123). -/
theorem State.completeTrack_head (s : State) (h : HeadNo) (c : StrikeContext) :
    (s.completeTrack h c).seq.heads[h] =
      { s.seq.heads[h] with
        next := s.seq.heads[h].next + 1, justCut := some c.track
        state := if s.seq.heads[h].next + 1 = c.entry.tracks then .finished else .waiting } := by
  show (updAt s.seq.heads h _)[h] = _
  rw [updAt_get, if_pos rfl]

/-- The completion of a track, at its own lane: the CUTTING slot is RETAINED (R94). -/
theorem State.completeTrack_lane (s : State) (h : HeadNo) (c : StrikeContext) :
    (s.completeTrack h c).lanes[h] = s.lanes[h].map Lane.retain := by
  show (updAt s.lanes h _)[h] = _
  rw [updAt_get, if_pos rfl]

/-- The completion of a track, at its own tally: the last-track sum is that of the track just completed (R135). -/
theorem State.completeTrack_tally (s : State) (h : HeadNo) (c : StrikeContext) :
    (s.completeTrack h c).tallies[h] = { s.tallies[h] with lastTrack := s.tallies[h].currentTrack } := by
  show (updAt s.tallies h _)[h] = _
  rw [updAt_get, if_pos rfl]

theorem slotTo_eq_move (src dst : SlotUse) (ok : Nat → Bool) (t : TrackSlot) :
    slotTo src dst ok t = TrackSlot.move src dst ok t := by
  cases t <;> simp [slotTo]

theorem bothSlots_move (src dst : SlotUse) (ok : Nat → Bool) (l : Lane) :
    bothSlots (slotTo src dst ok) l = l.mapSlots (TrackSlot.move src dst ok) := by
  simp only [bothSlots, slotTo_eq_move, Lane.mapSlots]

@[simp] theorem lastCell_iff (c : StrikeContext) : lastCell c = true ↔ c.index + 1 = c.screen.cells := by
  simp [lastCell]

/-- The head's items after its turn (R122, R123), and every other head's as they were. -/
theorem strikeHead_heads (u : State) (tick : Nat) (h g : HeadNo) :
    (u.strikeHead tick h).seq.heads[g] = if g = h then itemsAfter u tick h else u.seq.heads[g] := by
  split
  · next hg =>
    subst hg
    unfold itemsAfter
    cases hd : dueStrike u tick g with
    | none => rw [strikeHead_of_none hd]
    | some x =>
      obtain ⟨c, r⟩ := x
      rw [strikeHead_of_some hd]
      unfold State.strikeCell
      by_cases hl : c.index + 1 = c.screen.cells <;>
        simp [hl, State.completeTrack_head, -Fin.getElem_fin]
  · next hg => exact (State.strikeHead_other u tick h g hg).1

/-- The Head Port after its head's turn (R55, R70, R71), and every other as it was. -/
theorem strikeHead_ports (u : State) (tick : Nat) (h g : HeadNo) :
    (u.strikeHead tick h).ports[g] = if g = h then portAfter u tick h else u.ports[g] := by
  split
  · next hg =>
    subst hg
    unfold portAfter
    cases hd : dueStrike u tick g with
    | none => rw [strikeHead_of_none hd]
    | some x =>
      obtain ⟨c, r⟩ := x
      obtain ⟨-, -, rfl⟩ := dueStrike_eq_some.mp hd
      rw [strikeHead_of_some hd, State.strikeCell_port]
      generalize u.ports[g] = p
      generalize computeStrike (u.strikeInput g c) = r
      by_cases hl : c.index + 1 = c.screen.cells <;> cases hp : p.lift <;>
        simp [hl, lastCell, HeadPort.strike, HeadPort.present, hp, satAdd]
  · next hg => exact (State.strikeHead_other u tick h g hg).2.1

/-- The lane after its head's turn (R94), and every other as it was. -/
theorem strikeHead_lanes (u : State) (tick : Nat) (h g : HeadNo) :
    (u.strikeHead tick h).lanes[g] = if g = h then laneAfter u tick h else u.lanes[g] := by
  split
  · next hg =>
    subst hg
    unfold laneAfter
    cases hd : dueStrike u tick g with
    | none => rw [strikeHead_of_none hd]
    | some x =>
      obtain ⟨c, r⟩ := x
      have hretain : bothSlots (slotTo .cutting .retained fun _ => true) = Lane.retain :=
        funext fun l => bothSlots_move _ _ _ l
      rw [strikeHead_of_some hd, hretain]
      unfold State.strikeCell
      by_cases hl : c.index + 1 = c.screen.cells <;>
        simp [hl, State.completeTrack_lane, -Fin.getElem_fin]
  · next hg => exact (State.strikeHead_other u tick h g hg).2.2.1

/-- The tally after its head's turn (R134, R135), and every other as it was. -/
theorem strikeHead_tallies (u : State) (tick : Nat) (h g : HeadNo) :
    (u.strikeHead tick h).tallies[g] = if g = h then tallyAfter u tick h else u.tallies[g] := by
  split
  · next hg =>
    subst hg
    unfold tallyAfter
    cases hd : dueStrike u tick g with
    | none => rw [strikeHead_of_none hd]
    | some x =>
      obtain ⟨c, r⟩ := x
      obtain ⟨-, -, rfl⟩ := dueStrike_eq_some.mp hd
      have hblank := computeStrike_blank (u.strikeInput g c)
      have hhead : (computeStrike (u.strikeInput g c)).head = g := computeStrike_head _
      have hamount : tallyAmount u.seq.job.tallySource (computeStrike (u.strikeInput g c)) =
          match u.seq.job.tallySource with
          | .tone => (computeStrike (u.strikeInput g c)).cell.tone.toNat
          | .depth => (computeStrike (u.strikeInput g c)).depth := by
        unfold tallyAmount
        cases u.seq.job.tallySource with
        | tone => rfl
        | depth =>
          simp only []
          split
          · next hb => exact (hblank hb).1.symm
          · rfl
      rw [strikeHead_of_some hd]
      unfold State.strikeCell
      by_cases hl : c.index + 1 = c.screen.cells <;>
        simp only [hl, lastCell, if_true, if_false, State.completeTrack_tally, State.captureStrike_tallies,
          State.countMark_tallies, State.tallyStrike_get, hhead, Tally.add, hamount, State.updPort_tallies,
          State.updPort_seq, State.updHead_tallies, State.updHead_seq_job, satAdd, decide_true, decide_false,
          Bool.false_eq_true] <;>
        cases (computeStrike (u.strikeInput g c)).blank <;> rfl
  · next hg => exact (State.strikeHead_other u tick h g hg).2.2.2

/-- Whether a due strike counts on the mark counter (R139). -/
def strikeMarks (u : State) (tick : Nat) (h : HeadNo) : Bool :=
  match dueStrike u tick h with
  | some (_, r) => r.cell.mark && !r.blank
  | none => false

/-- The mark counter after a head's turn (R139). -/
theorem strikeHead_markCounter (u : State) (tick : Nat) (h : HeadNo) :
    (u.strikeHead tick h).markCounter =
      if strikeMarks u tick h then wrapSucc32 u.markCounter else u.markCounter := by
  unfold strikeMarks
  cases hd : dueStrike u tick h with
  | none => rw [strikeHead_of_none hd]; rfl
  | some x =>
    obtain ⟨c, r⟩ := x
    obtain ⟨-, -, rfl⟩ := dueStrike_eq_some.mp hd
    rw [strikeHead_of_some hd]
    unfold State.strikeCell
    by_cases hl : c.index + 1 = c.screen.cells <;> simp [hl, State.countMark_markCounter]

/-- Whether a head's turn wraps the mark counter in a job with mark-stop on (R139). -/
def strikeStops (u : State) (tick : Nat) (h : HeadNo) : Bool :=
  strikeMarks u tick h && decide (wrapSucc32 u.markCounter = 0) && u.seq.job.markStop

/-- The hold request after a strike, as one disjunction (R139). -/
theorem State.countMark_hold_or (s : State) (r : StrikeResult) :
    (s.countMark r).seq.hold =
      (s.seq.hold || ((r.cell.mark && !r.blank) && decide (wrapSucc32 s.markCounter = 0) && s.seq.job.markStop)) := by
  rw [State.countMark_hold]
  by_cases hm : (r.cell.mark && !r.blank) = true <;> by_cases hw : wrapSucc32 s.markCounter = 0 <;>
    cases s.seq.job.markStop <;> simp [hm, hw]

/-- The hold request after a head's turn (R139). -/
theorem strikeHead_hold (u : State) (tick : Nat) (h : HeadNo) :
    (u.strikeHead tick h).seq.hold = (u.seq.hold || strikeStops u tick h) := by
  unfold strikeStops strikeMarks
  cases hd : dueStrike u tick h with
  | none => rw [strikeHead_of_none hd]; simp
  | some x =>
    obtain ⟨c, r⟩ := x
    obtain ⟨-, -, rfl⟩ := dueStrike_eq_some.mp hd
    rw [strikeHead_of_some hd]
    unfold State.strikeCell
    by_cases hl : c.index + 1 = c.screen.cells <;> simp [hl, State.countMark_hold_or]

/-- The track-retained flag after a head's turn (R123). -/
theorem strikeHead_retained (u : State) (tick : Nat) (h : HeadNo) :
    (u.strikeHead tick h).seq.retained =
      (u.seq.retained || (dueStrike u tick h).any fun x => lastCell x.1) := by
  cases hd : dueStrike u tick h with
  | none => rw [strikeHead_of_none hd]; simp
  | some x =>
    obtain ⟨c, r⟩ := x
    rw [strikeHead_of_some hd]
    unfold State.strikeCell
    by_cases hl : c.index + 1 = c.screen.cells
    · simp [hl, lastCell, State.completeTrack]
    · simp [hl, lastCell]

/-- A capture of another head is left as it was by a strike (R144). -/
theorem Capture.strike_other (c : Capture) (r : StrikeResult) (n : Nat) (h : c.head ≠ r.head) : c.strike r n = c := by
  simp [Capture.strike, Capture.records, h]

/-- A capture after the strike of its own head (R144 to R146). -/
theorem Capture.strike_eq_captureAfter {u : State} {tick : Nat} {h : HeadNo} {c : StrikeContext} {r : StrikeResult}
    (hd : dueStrike u tick h = some (c, r)) (x : Capture) (hx : x.head = h) :
    x.strike r c.screen.cells = captureAfter u tick x := by
  obtain ⟨-, -, rfl⟩ := dueStrike_eq_some.mp hd
  simp only [captureAfter, hx, hd, Capture.strike, Capture.records, computeStrike_head, computeStrike_track,
    computeStrike_index, computeStrike_cell, State.strikeInput_head, State.strikeInput_track, State.strikeInput_index,
    State.strikeInput_cell, StrikeResult.entry, decide_true, Bool.true_and]
  cases hs : x.state <;> by_cases ht : x.track = c.track <;> simp [ht, lastCell]

/-- The captures' strikes, as `Claims.captureAfter` says them (R144 to R146). -/
theorem strike_eq_captureAfter {u : State} {tick : Nat} {h : HeadNo} {c : StrikeContext} {r : StrikeResult}
    (hd : dueStrike u tick h = some (c, r)) :
    (fun x : Capture => x.strike r c.screen.cells) = fun x => if x.head = h then captureAfter u tick x else x := by
  have hr : r = computeStrike (u.strikeInput h c) := (dueStrike_eq_some.mp hd).2.2
  funext x
  split
  · next hx => exact Capture.strike_eq_captureAfter hd x hx
  · next hx => exact Capture.strike_other x r _ (by rw [hr, computeStrike_head]; exact hx)

/-- The captures after a head's turn: those of the head that strikes take its strike (R144 to R146). -/
theorem strikeHead_captures (u : State) (tick : Nat) (h : HeadNo) :
    (u.strikeHead tick h).captures =
      u.captures.map fun c => if c.head = h then captureAfter u tick c else c := by
  cases hd : dueStrike u tick h with
  | none =>
    have hid : (fun c : Capture => if c.head = h then captureAfter u tick c else c) = id := by
      funext c
      split
      · next hc => subst hc; simp [captureAfter, hd]
      · rfl
    rw [strikeHead_of_none hd, hid, List.map_id]
  | some x =>
    obtain ⟨c, r⟩ := x
    obtain ⟨-, -, rfl⟩ := dueStrike_eq_some.mp hd
    rw [strikeHead_of_some hd, ← strike_eq_captureAfter hd]
    unfold State.strikeCell
    by_cases hl : c.index + 1 = c.screen.cells <;> simp [hl]

/-- A tally that has a drive clamp keeps it (R134). -/
theorem tallyAfter_driveClamps (u : State) (tick : Nat) (h : HeadNo) :
    ((tallyAfter u tick h).driveClamps = 0 ↔
      u.tallies[h].driveClamps = 0 ∧ (dueStrike u tick h).any (fun x => x.2.driveClamped) = false) := by
  unfold tallyAfter
  cases dueStrike u tick h with
  | none => simp
  | some x => cases hr : x.2.driveClamped <;> simp [hr]

/-- The one-shot bits that a head's turn raises (R136, R139, R146). -/
def strikeRaises (u : State) (tick : Nat) (h : HeadNo) : BitVec 14 :=
  bitIf ((dueStrike u tick h).any (fun x => x.2.driveClamped) && u.noDriveClamps) .driveClamped |||
    bitIf (strikeStops u tick h) .markStop |||
    bitIf (someFull u.captures fun c => if c.head = h then captureAfter u tick c else c) .captureFull

theorem State.tallyStrike_signals (s : State) (r : StrikeResult) :
    Signals s (s.tallyStrike r) (bitIf (r.driveClamped && s.noDriveClamps) .driveClamped) [] := by
  unfold State.tallyStrike
  simp only []
  split
  · next h => rw [h, bitIf_true]; exact (Signals.raise s _).trans_silent (.of_kept rfl rfl)
  · next h => rw [Bool.eq_false_iff.mpr h, bitIf_false]; exact .of_kept rfl rfl

/-- What the mark counter makes of a strike result (R139). -/
theorem State.countMark_eq (s : State) (r : StrikeResult) :
    s.countMark r =
      if r.cell.mark && !r.blank then
        if wrapSucc32 s.markCounter = 0 ∧ s.seq.job.markStop = true then
          State.raise { s with markCounter := wrapSucc32 s.markCounter, seq := { s.seq with hold := true } } .markStop
        else { s with markCounter := wrapSucc32 s.markCounter }
      else s := rfl

theorem State.countMark_signals (s : State) (r : StrikeResult) :
    Signals s (s.countMark r)
      (bitIf ((r.cell.mark && !r.blank) && decide (wrapSucc32 s.markCounter = 0) && s.seq.job.markStop) .markStop) [] := by
  rw [State.countMark_eq]
  split
  · next hm =>
    by_cases hw : wrapSucc32 s.markCounter = 0 ∧ s.seq.job.markStop = true
    · rw [if_pos hw, hm, decide_eq_true hw.1, hw.2]
      have hset : Signals s { s with markCounter := wrapSucc32 s.markCounter, seq := { s.seq with hold := true } } 0 [] :=
        .of_kept rfl rfl
      exact hset.silent_trans (.raise _ _)
    · have hstops : (decide (wrapSucc32 s.markCounter = 0) && s.seq.job.markStop) = false := by simpa using hw
      rw [if_neg hw, hm, Bool.true_and, hstops, bitIf_false]
      exact .of_kept rfl rfl
  · next hm => rw [Bool.eq_false_iff.mpr hm]; exact .refl s

/-- A change of every capture raises CAPTURE_FULL if one becomes FULL by it (R146). -/
theorem State.changeCaptures_signals (s : State) (f : Capture → Capture) :
    Signals s (s.changeCaptures f) (bitIf (someFull s.captures f) .captureFull) [] := by
  rw [State.changeCaptures_eq]
  have hset : Signals s { s with captures := s.captures.map f } 0 [] := .of_kept rfl rfl
  have hfull : (s.captures.any fun c => becameFull c (f c)) = someFull s.captures f := rfl
  rw [hfull]
  split
  · next h => rw [h]; exact hset.silent_trans (.raise _ _)
  · next h => rw [Bool.eq_false_iff.mpr h]; exact hset

/-- The state in which a strike's result is delivered: the head is at its next cell, and its port has taken the result
(R54, R122). -/
def State.placeStrike (s : State) (h : HeadNo) (c : StrikeContext) : State :=
  (s.updHead h fun i => { i with state := .cutting (c.index + 1) }).updPort h
    fun p => p.strike (computeStrike (s.strikeInput h c))

/-- A strike: placed, delivered to the three units, and the track completed at its last cell (R54, R122, R123). -/
theorem State.strikeCell_eq (s : State) (h : HeadNo) (c : StrikeContext) :
    s.strikeCell h c =
      if c.index + 1 = c.screen.cells then
        ((((s.placeStrike h c).tallyStrike (computeStrike (s.strikeInput h c))).countMark
          (computeStrike (s.strikeInput h c))).captureStrike
          (computeStrike (s.strikeInput h c)) c.screen.cells).completeTrack h c
      else
        (((s.placeStrike h c).tallyStrike (computeStrike (s.strikeInput h c))).countMark
          (computeStrike (s.strikeInput h c))).captureStrike (computeStrike (s.strikeInput h c)) c.screen.cells := rfl

/-- A head on which no strike falls turns no capture FULL. -/
theorem someFull_of_none {u : State} {tick : Nat} {h : HeadNo} (hd : dueStrike u tick h = none) :
    (someFull u.captures fun c => if c.head = h then captureAfter u tick c else c) = false := by
  rw [Bool.eq_false_iff]
  intro hc
  simp only [someFull, List.any_eq_true, decide_eq_true_eq] at hc
  obtain ⟨c, -, hbefore, hafter⟩ := hc
  split at hafter
  · next hh => subst hh; exact hbefore (by simpa [captureAfter, hd] using hafter)
  · exact hbefore hafter

/-- What a head's turn raises (R136, R139, R146). -/
theorem strikeHead_signals (u : State) (tick : Nat) (h : HeadNo) :
    Signals u (u.strikeHead tick h) (strikeRaises u tick h) [] := by
  cases hd : dueStrike u tick h with
  | none =>
    have hnone : strikeRaises u tick h = 0 := by
      simp [strikeRaises, strikeStops, strikeMarks, hd, someFull_of_none hd]
    rw [strikeHead_of_none hd, hnone]
    exact .refl u
  | some x =>
    obtain ⟨c, r⟩ := x
    have hr : computeStrike (u.strikeInput h c) = r := ((dueStrike_eq_some.mp hd).2.2).symm
    have hplaced : Signals u (u.placeStrike h c) 0 [] := .of_kept rfl rfl
    have hall := ((hplaced.silent_trans (State.tallyStrike_signals _ r)).trans (State.countMark_signals _ r)).trans
      (State.changeCaptures_signals _ fun x => x.strike r c.screen.cells)
    have hraises : strikeRaises u tick h =
        bitIf (r.driveClamped && (u.placeStrike h c).noDriveClamps) .driveClamped |||
          bitIf ((r.cell.mark && !r.blank) && decide (wrapSucc32 ((u.placeStrike h c).tallyStrike r).markCounter = 0) &&
            ((u.placeStrike h c).tallyStrike r).seq.job.markStop) .markStop |||
          bitIf (someFull (((u.placeStrike h c).tallyStrike r).countMark r).captures
            fun x => x.strike r c.screen.cells) .captureFull := by
      simp only [State.countMark_captures, State.tallyStrike_captures, State.tallyStrike_markCounter,
        State.tallyStrike_seq, strike_eq_captureAfter hd, strikeRaises, strikeStops, strikeMarks, hd]
      rfl
    rw [strikeHead_of_some hd, hraises, State.strikeCell_eq, hr]
    split
    · exact hall.trans_silent (.of_kept (State.completeTrack_status ..) (by rw [State.completeTrack_tx]; rfl))
    · exact hall

/-! ## The turns of the heads of a list -/

/-- The turns of the heads of a list, in the order of the list. -/
def State.strikeList (s : State) (tick : Nat) (heads : List HeadNo) : State :=
  heads.foldl (fun s h => s.strikeHead tick h) s

theorem State.strikeAll_eq_strikeList (s : State) (tick : Nat) : s.strikeAll tick = s.strikeList tick allHeads := rfl

@[simp] theorem State.strikeList_nil (s : State) (tick : Nat) : s.strikeList tick [] = s := rfl

@[simp] theorem State.strikeList_cons (s : State) (tick : Nat) (h : HeadNo) (rest : List HeadNo) :
    s.strikeList tick (h :: rest) = (s.strikeHead tick h).strikeList tick rest := rfl

theorem strikeList_kept (s : State) (tick : Nat) (heads : List HeadNo) : StrikeKept s (s.strikeList tick heads) := by
  induction heads generalizing s with
  | nil => exact .refl s
  | cons h rest ih => exact (strikeHead_kept s tick h).trans (ih _)

/-- An item that each head has for itself, after the turns of the heads of a list: `read` reads it, and `after` is what a
head's own turn makes of it, which no other head's turn changes. -/
theorem strikeList_get {β : Type} (tick : Nat) (read after : State → HeadNo → β)
    (hturn : ∀ v h g, read (v.strikeHead tick h) g = if g = h then after v h else read v g)
    (hafter : ∀ v h g, g ≠ h → after (v.strikeHead tick h) g = after v g)
    (heads : List HeadNo) (hnodup : heads.Nodup) (v : State) (g : HeadNo) :
    read (v.strikeList tick heads) g = if g ∈ heads then after v g else read v g := by
  induction heads generalizing v with
  | nil => simp
  | cons h rest ih =>
    obtain ⟨hh, hrest⟩ := List.nodup_cons.mp hnodup
    rw [State.strikeList_cons, ih hrest]
    by_cases hg : g = h
    · subst hg
      rw [if_neg hh, hturn, if_pos rfl, if_pos List.mem_cons_self]
    · simp only [List.mem_cons, hg, false_or, hturn, if_false, hafter v h g hg]

section
variable {v : State} {tick : Nat} {h g : HeadNo}

theorem itemsAfter_strikeHead (hg : g ≠ h) : itemsAfter (v.strikeHead tick h) tick g = itemsAfter v tick g := by
  unfold itemsAfter
  rw [dueStrike_strikeHead hg, (State.strikeHead_other v tick h g hg).1]

theorem portAfter_strikeHead (hg : g ≠ h) : portAfter (v.strikeHead tick h) tick g = portAfter v tick g := by
  unfold portAfter
  rw [dueStrike_strikeHead hg, (State.strikeHead_other v tick h g hg).2.1]

theorem laneAfter_strikeHead (hg : g ≠ h) : laneAfter (v.strikeHead tick h) tick g = laneAfter v tick g := by
  unfold laneAfter
  rw [dueStrike_strikeHead hg, (State.strikeHead_other v tick h g hg).2.2.1]

theorem tallyAfter_strikeHead (hg : g ≠ h) : tallyAfter (v.strikeHead tick h) tick g = tallyAfter v tick g := by
  unfold tallyAfter
  rw [dueStrike_strikeHead hg, (State.strikeHead_other v tick h g hg).2.2.2, (strikeHead_kept v tick h).job]

theorem strikeMarks_strikeHead (hg : g ≠ h) : strikeMarks (v.strikeHead tick h) tick g = strikeMarks v tick g := by
  unfold strikeMarks
  rw [dueStrike_strikeHead hg]

/-- A capture's head is never changed by a strike. -/
theorem captureAfter_head (u : State) (tick : Nat) (c : Capture) : (captureAfter u tick c).head = c.head := by
  unfold captureAfter
  cases dueStrike u tick c.head with
  | none => rfl
  | some x => exact apply_ite Capture.head _ _ _ |>.trans (ite_self _)

theorem captureAfter_strikeHead (c : Capture) (hg : c.head ≠ h) :
    captureAfter (v.strikeHead tick h) tick c = captureAfter v tick c := by
  unfold captureAfter
  rw [dueStrike_strikeHead hg]

end

/-- The strikes that fall on a tick are the same ones after a head's turn, for the heads whose turn is yet to come. -/
theorem any_dueStrike_strikeHead (v : State) (tick : Nat) (h : HeadNo) (rest : List HeadNo) (hh : h ∉ rest)
    (p : StrikeContext × StrikeResult → Bool) :
    (rest.any fun g => (dueStrike (v.strikeHead tick h) tick g).any p) = rest.any fun g => (dueStrike v tick g).any p := by
  rw [Bool.eq_iff_iff, List.any_eq_true, List.any_eq_true]
  refine exists_congr fun g => and_congr_right fun hg => ?_
  rw [dueStrike_strikeHead (ne_of_mem_of_not_mem hg hh)]

theorem strikeList_retained (tick : Nat) (heads : List HeadNo) (hnodup : heads.Nodup) (v : State) :
    (v.strikeList tick heads).seq.retained =
      (v.seq.retained || heads.any fun h => (dueStrike v tick h).any fun x => lastCell x.1) := by
  induction heads generalizing v with
  | nil => simp
  | cons h rest ih =>
    obtain ⟨hh, hrest⟩ := List.nodup_cons.mp hnodup
    rw [State.strikeList_cons, ih hrest, strikeHead_retained, any_dueStrike_strikeHead v tick h rest hh, List.any_cons,
      Bool.or_assoc]

/-- The captures after the turns of the heads of a list: those of the heads of the list take their strikes. -/
def captureAfterOf (u : State) (tick : Nat) (heads : List HeadNo) (c : Capture) : Capture :=
  if c.head ∈ heads then captureAfter u tick c else c

theorem captureAfterOf_cons (v : State) (tick : Nat) (h : HeadNo) (rest : List HeadNo) (hh : h ∉ rest) :
    captureAfterOf (v.strikeHead tick h) tick rest ∘ (fun c => if c.head = h then captureAfter v tick c else c) =
      captureAfterOf v tick (h :: rest) := by
  funext c
  simp only [Function.comp, captureAfterOf]
  by_cases hc : c.head = h
  · have hmem : (captureAfter v tick c).head ∉ rest := by rw [captureAfter_head, hc]; exact hh
    simp [hc, hmem]
  · simp only [hc, if_false, List.mem_cons, false_or, captureAfter_strikeHead c hc]

theorem strikeList_captures (tick : Nat) (heads : List HeadNo) (hnodup : heads.Nodup) (v : State) :
    (v.strikeList tick heads).captures = v.captures.map (captureAfterOf v tick heads) := by
  induction heads generalizing v with
  | nil =>
    have hid : captureAfterOf v tick [] = id := by funext c; simp [captureAfterOf]
    rw [hid, List.map_id]; rfl
  | cons h rest ih =>
    obtain ⟨hh, hrest⟩ := List.nodup_cons.mp hnodup
    rw [State.strikeList_cons, ih hrest, strikeHead_captures, List.map_map, captureAfterOf_cons v tick h rest hh]

/-- How many of the strikes of a list of heads count on the mark counter (R139). -/
def marksOf (u : State) (tick : Nat) (heads : List HeadNo) : Nat := heads.countP (strikeMarks u tick)

theorem marksOf_strikeHead (v : State) (tick : Nat) (h : HeadNo) (rest : List HeadNo) (hh : h ∉ rest) :
    marksOf (v.strikeHead tick h) tick rest = marksOf v tick rest :=
  List.countP_congr fun g hg => by rw [strikeMarks_strikeHead (ne_of_mem_of_not_mem hg hh)]

theorem marksOf_cons (v : State) (tick : Nat) (h : HeadNo) (rest : List HeadNo) :
    marksOf v tick (h :: rest) = marksOf v tick rest + if strikeMarks v tick h then 1 else 0 := List.countP_cons ..

theorem wrapSucc32_le (n : Nat) : wrapSucc32 n ≤ 4294967295 := by
  unfold wrapSucc32; omega

theorem strikeHead_markCounter_le (v : State) (tick : Nat) (h : HeadNo) (hm : v.markCounter ≤ 4294967295) :
    (v.strikeHead tick h).markCounter ≤ 4294967295 := by
  rw [strikeHead_markCounter]
  split
  · exact wrapSucc32_le _
  · exact hm

theorem strikeList_markCounter (tick : Nat) (heads : List HeadNo) (hnodup : heads.Nodup) (v : State)
    (hm : v.markCounter ≤ 4294967295) :
    (v.strikeList tick heads).markCounter = (v.markCounter + marksOf v tick heads) % 4294967296 := by
  induction heads generalizing v with
  | nil => simp only [State.strikeList_nil, marksOf, List.countP_nil]; omega
  | cons h rest ih =>
    obtain ⟨hh, hrest⟩ := List.nodup_cons.mp hnodup
    rw [State.strikeList_cons, ih hrest _ (strikeHead_markCounter_le v tick h hm), marksOf_strikeHead v tick h rest hh,
      marksOf_cons, strikeHead_markCounter]
    cases strikeMarks v tick h
    · simp
    · simp only [wrapSucc32, if_true]; omega

/-- Whether the strikes of a list of heads wrap the mark counter with mark-stop on (R139). -/
def stopsOf (u : State) (tick : Nat) (heads : List HeadNo) : Bool :=
  decide (4294967296 ≤ u.markCounter + marksOf u tick heads) && u.seq.job.markStop

/-- The mark counter wraps over a list of heads when it wraps at its first or over the others. -/
theorem stopsOf_cons (v : State) (tick : Nat) (h : HeadNo) (rest : List HeadNo) (hh : h ∉ rest)
    (hm : v.markCounter ≤ 4294967295) :
    stopsOf v tick (h :: rest) = (strikeStops v tick h || stopsOf (v.strikeHead tick h) tick rest) := by
  unfold stopsOf strikeStops
  rw [marksOf_strikeHead v tick h rest hh, marksOf_cons, strikeHead_markCounter, (strikeHead_kept v tick h).job,
    ← Bool.and_or_distrib_right]
  congr 1
  cases strikeMarks v tick h
  · simp
  · rw [Bool.eq_iff_iff]
    simp only [if_true, Bool.true_and, Bool.or_eq_true, decide_eq_true_eq]
    unfold wrapSucc32
    omega

theorem strikeList_hold (tick : Nat) (heads : List HeadNo) (hnodup : heads.Nodup) (v : State)
    (hm : v.markCounter ≤ 4294967295) :
    (v.strikeList tick heads).seq.hold = (v.seq.hold || stopsOf v tick heads) := by
  induction heads generalizing v with
  | nil =>
    have hstop : stopsOf v tick [] = false := by
      have hstop : ¬ 4294967296 ≤ v.markCounter := by omega
      simp [stopsOf, marksOf, hstop]
    simp [hstop]
  | cons h rest ih =>
    obtain ⟨hh, hrest⟩ := List.nodup_cons.mp hnodup
    rw [State.strikeList_cons, ih hrest _ (strikeHead_markCounter_le v tick h hm), strikeHead_hold,
      stopsOf_cons v tick h rest hh hm, Bool.or_assoc]

/-- Whether the strikes of a list of heads hold the first drive clamp of a job (R136). -/
def clampsOf (u : State) (tick : Nat) (heads : List HeadNo) : Bool :=
  (heads.any fun h => (dueStrike u tick h).any fun x => x.2.driveClamped) && u.noDriveClamps

/-- After a head's turn no tally has a drive clamp if none had one before and the head's strike brought none (R134). -/
theorem strikeHead_noDriveClamps (v : State) (tick : Nat) (h : HeadNo) :
    (v.strikeHead tick h).noDriveClamps =
      (v.noDriveClamps && !(dueStrike v tick h).any fun x => x.2.driveClamped) := by
  have hturn := strikeHead_tallies v tick h
  have hafter := tallyAfter_driveClamps v tick h
  rw [Bool.eq_iff_iff, Bool.and_eq_true, State.noDriveClamps, State.noDriveClamps, allHeads_all, allHeads_all]
  simp only [decide_eq_true_eq, Bool.not_eq_true']
  constructor
  · intro hall
    have hh := hall h
    rw [hturn h, if_pos rfl, hafter] at hh
    refine ⟨fun g => ?_, hh.2⟩
    by_cases hg : g = h
    · subst hg; exact hh.1
    · have := hall g
      rwa [hturn g, if_neg hg] at this
  · rintro ⟨hall, hdue⟩ g
    rw [hturn g]
    split
    · exact hafter.mpr ⟨hall h, hdue⟩
    · exact hall g

theorem clampsOf_cons (v : State) (tick : Nat) (h : HeadNo) (rest : List HeadNo) (hh : h ∉ rest) :
    clampsOf v tick (h :: rest) =
      (((dueStrike v tick h).any (fun x => x.2.driveClamped) && v.noDriveClamps) ||
        clampsOf (v.strikeHead tick h) tick rest) := by
  unfold clampsOf
  rw [any_dueStrike_strikeHead v tick h rest hh, strikeHead_noDriveClamps, List.any_cons]
  cases (dueStrike v tick h).any (fun x => x.2.driveClamped) <;> cases v.noDriveClamps <;> simp

/-- A capture that is FULL takes no strike (R144). -/
theorem captureAfter_of_full (u : State) (tick : Nat) (c : Capture) (hc : c.state = .full) :
    captureAfter u tick c = c := by
  unfold captureAfter
  split
  · rfl
  · rw [if_neg]; rintro ⟨-, hn, -⟩; exact hn hc

theorem captureAfterOf_of_full (u : State) (tick : Nat) (heads : List HeadNo) (c : Capture) (hc : c.state = .full) :
    captureAfterOf u tick heads c = c := by
  unfold captureAfterOf
  split
  · exact captureAfter_of_full u tick c hc
  · rfl

/-- A capture becomes FULL by two changes in a row when it does so by one of them, for changes that keep a FULL one. -/
theorem someFull_comp (captures : List Capture) (f g : Capture → Capture)
    (hf : ∀ c, c.state = .full → (f c).state = .full) (hg : ∀ c, c.state = .full → (g c).state = .full) :
    someFull captures (g ∘ f) = (someFull captures f || someFull (captures.map f) g) := by
  induction captures with
  | nil => rfl
  | cons c rest ih =>
    simp only [someFull, List.map_cons, List.any_cons, Function.comp] at ih ⊢
    rw [ih, Bool.eq_iff_iff]
    simp only [Bool.or_eq_true, decide_eq_true_eq]
    by_cases h0 : c.state = .full
    · have h1 := hf c h0
      simp [h0, h1]
    · by_cases h1 : (f c).state = .full
      · have h2 := hg _ h1
        simp [h0, h1, h2]
      · tauto

/-- The one-shot bits that the strikes of a list of heads raise (R136, R139, R146). -/
def raisesOf (u : State) (tick : Nat) (heads : List HeadNo) : BitVec 14 :=
  bitIf (clampsOf u tick heads) .driveClamped ||| bitIf (stopsOf u tick heads) .markStop |||
    bitIf (someFull u.captures (captureAfterOf u tick heads)) .captureFull

theorem raisesOf_cons (v : State) (tick : Nat) (h : HeadNo) (rest : List HeadNo) (hh : h ∉ rest)
    (hm : v.markCounter ≤ 4294967295) :
    raisesOf v tick (h :: rest) = strikeRaises v tick h ||| raisesOf (v.strikeHead tick h) tick rest := by
  unfold raisesOf strikeRaises
  rw [clampsOf_cons v tick h rest hh, stopsOf_cons v tick h rest hh hm, ← captureAfterOf_cons v tick h rest hh,
    strikeHead_captures, someFull_comp, bitIf_or, bitIf_or, bitIf_or]
  · ac_rfl
  · intro c hc
    split
    · rw [captureAfter_of_full v tick c hc]; exact hc
    · exact hc
  · intro c hc
    rw [captureAfterOf_of_full _ tick rest c hc]
    exact hc

theorem strikeList_signals (tick : Nat) (heads : List HeadNo) (hnodup : heads.Nodup) (v : State)
    (hm : v.markCounter ≤ 4294967295) : Signals v (v.strikeList tick heads) (raisesOf v tick heads) [] := by
  induction heads generalizing v with
  | nil =>
    have hnone : raisesOf v tick [] = 0 := by
      have hstop : ¬ 4294967296 ≤ v.markCounter := by omega
      have hfull : someFull v.captures (captureAfterOf v tick []) = false := by
        simp [someFull, captureAfterOf]
      simp [raisesOf, clampsOf, stopsOf, marksOf, hstop, hfull]
    rw [hnone]
    exact .refl v
  | cons h rest ih =>
    obtain ⟨hh, hrest⟩ := List.nodup_cons.mp hnodup
    rw [raisesOf_cons v tick h rest hh hm]
    exact (strikeHead_signals v tick h).trans (ih hrest _ (strikeHead_markCounter_le v tick h hm))

/-! ## All heads at once -/

theorem allHeads_nodup : allHeads.Nodup := List.nodup_finRange 8

theorem strikeAll_kept (u : State) (tick : Nat) : StrikeKept u (u.strikeAll tick) := strikeList_kept u tick allHeads

theorem strikeAll_heads (u : State) (tick : Nat) (h : HeadNo) :
    (u.strikeAll tick).seq.heads[h] = itemsAfter u tick h := by
  rw [State.strikeAll_eq_strikeList]
  exact (strikeList_get tick (fun v g => v.seq.heads[g]) (fun v g => itemsAfter v tick g)
    (fun v => strikeHead_heads v tick) (fun _ _ _ => itemsAfter_strikeHead) allHeads allHeads_nodup u h).trans
    (if_pos (mem_allHeads h))

theorem strikeAll_ports (u : State) (tick : Nat) (h : HeadNo) : (u.strikeAll tick).ports[h] = portAfter u tick h := by
  rw [State.strikeAll_eq_strikeList]
  exact (strikeList_get tick (fun v g => v.ports[g]) (fun v g => portAfter v tick g)
    (fun v => strikeHead_ports v tick) (fun _ _ _ => portAfter_strikeHead) allHeads allHeads_nodup u h).trans
    (if_pos (mem_allHeads h))

theorem strikeAll_lanes (u : State) (tick : Nat) (h : HeadNo) : (u.strikeAll tick).lanes[h] = laneAfter u tick h := by
  rw [State.strikeAll_eq_strikeList]
  exact (strikeList_get tick (fun v g => v.lanes[g]) (fun v g => laneAfter v tick g)
    (fun v => strikeHead_lanes v tick) (fun _ _ _ => laneAfter_strikeHead) allHeads allHeads_nodup u h).trans
    (if_pos (mem_allHeads h))

theorem strikeAll_tallies (u : State) (tick : Nat) (h : HeadNo) :
    (u.strikeAll tick).tallies[h] = tallyAfter u tick h := by
  rw [State.strikeAll_eq_strikeList]
  exact (strikeList_get tick (fun v g => v.tallies[g]) (fun v g => tallyAfter v tick g)
    (fun v => strikeHead_tallies v tick) (fun _ _ _ => tallyAfter_strikeHead) allHeads allHeads_nodup u h).trans
    (if_pos (mem_allHeads h))

theorem strikeAll_captures (u : State) (tick : Nat) :
    (u.strikeAll tick).captures = u.captures.map (captureAfter u tick) := by
  have hall : captureAfterOf u tick allHeads = captureAfter u tick := by
    funext c; exact if_pos (mem_allHeads c.head)
  rw [State.strikeAll_eq_strikeList, strikeList_captures tick allHeads allHeads_nodup, hall]

theorem strikeAll_markCounter (u : State) (tick : Nat) (hm : u.markCounter ≤ 4294967295) :
    (u.strikeAll tick).markCounter = (u.markCounter + marksStruck u tick) % 4294967296 :=
  strikeList_markCounter tick allHeads allHeads_nodup u hm

theorem Sequencer.eq_of_fields {q r : Sequencer} (job : q.job = r.job) (plan : q.plan = r.plan) (state : q.state = r.state)
    (hold : q.hold = r.hold) (advances : q.advances = r.advances) (idle : q.idle = r.idle)
    (consecutiveIdle : q.consecutiveIdle = r.consecutiveIdle) (retained : q.retained = r.retained)
    (stalled : q.stalled = r.stalled) (heads : q.heads = r.heads) (pulses : q.pulses = r.pulses) : q = r := by
  cases q; cases r; simp_all

/-- The works after the strikes of a tick are those of `Claims.struckWorks` (R54, R57, R122, R123, R134 to R146). -/
theorem worksOf_strikeAll (u : State) (tick : Nat) (hm : u.markCounter ≤ 4294967295) :
    worksOf (u.strikeAll tick) = struckWorks u tick := by
  have hk := strikeAll_kept u tick
  have hheads : (u.strikeAll tick).seq.heads = Vector.ofFn (itemsAfter u tick) :=
    bank_ext fun h => by rw [strikeAll_heads, ofFn_get]
  have hports : (u.strikeAll tick).ports = Vector.ofFn (portAfter u tick) :=
    bank_ext fun h => by rw [strikeAll_ports, ofFn_get]
  have hlanes : (u.strikeAll tick).lanes = Vector.ofFn (laneAfter u tick) :=
    bank_ext fun h => by rw [strikeAll_lanes, ofFn_get]
  have htallies : (u.strikeAll tick).tallies = Vector.ofFn (tallyAfter u tick) :=
    bank_ext fun h => by rw [strikeAll_tallies, ofFn_get]
  have hretained := strikeList_retained tick allHeads allHeads_nodup u
  have hhold := strikeList_hold tick allHeads allHeads_nodup u hm
  rw [← State.strikeAll_eq_strikeList] at hretained hhold
  have hseq : (u.strikeAll tick).seq = (struckWorks u tick).seq :=
    Sequencer.eq_of_fields hk.job hk.plan hk.state hhold hk.advances hk.idle hk.consecutiveIdle hretained hk.stalled hheads
      hk.pulses
  rw [worksOf, hk.screens, hk.grads, hk.expander, hk.monitor, hk.room, hseq, hports, hlanes, htallies,
    strikeAll_captures, strikeAll_markCounter u tick hm]
  rfl

/-- The strikes of a tick raise the one-shot bits of `Claims.struckRaised` and post nothing (R136, R139, R146). -/
theorem strikeAll_signals (u : State) (tick : Nat) (hm : u.markCounter ≤ 4294967295) :
    Signals u (u.strikeAll tick) (struckRaised u tick) [] := by
  have hall : captureAfterOf u tick allHeads = captureAfter u tick := by
    funext c; exact if_pos (mem_allHeads c.head)
  have hraises : raisesOf u tick allHeads = struckRaised u tick := by
    unfold raisesOf
    rw [hall]
    rfl
  rw [State.strikeAll_eq_strikeList, ← hraises]
  exact strikeList_signals tick allHeads allHeads_nodup u hm

end Sys2Proof.Machine
end

