-- ==== Sys2Proof/Proofs/Changes.lean ====
section
/-! SUPPORT. What a step can do to the works, said once: `Change` lists the elementary changes, each of one block or of a
whole job, with what is known where it is made, and `exec_changes` says that every command is a chain of them. An invariant
that speaks of the works alone is proved by going through `Change`. -/

namespace Sys2Proof.Machine

open Sys2Proof Sys2Proof.Claims

/-- The moves of the Encoder Monitor: it loses the index, counts a TICK, takes an INDEX, or its generator steps on. -/
inductive MonitorMove (m : Monitor) : Monitor → Prop where
  | unsync : MonitorMove m { m with sync := .unsynced, count := 0 }
  | tick (hs : m.sync = .synced) (hn : m.count + 1 ≠ 2 * m.e) : MonitorMove m { m with count := m.count + 1 }
  | index : MonitorMove m (indexMonitor m)
  | period : MonitorMove m { m with genNext := (m.genNext + 1) % m.e }

/-- The moves of a head's items inside a job, apart from its strikes and the starts of its tracks. -/
inductive HeadMove (s : State) (h : HeadNo) : HeadItems → Prop where
  | same : HeadMove s h s.seq.heads[h]
  | clearCut : HeadMove s h { s.seq.heads[h] with justCut := none }
  | advance : HeadMove s h { s.seq.heads[h] with faultPosition := false }
  | suspect (hl : s.cutting h = true → s.ports[h].lift = .lifted) : HeadMove s h s.seq.heads[h].turnBack.stopCut
  | fault (hw : s.seq.heads[h].state = .waiting ∨ s.seq.heads[h].state = .armed) :
      HeadMove s h { s.seq.heads[h] with state := .faulted, faultPosition := true }
  | faultCut (hc : s.cutting h = true) (hl : s.ports[h].lift = .lifted) :
      HeadMove s h { s.seq.heads[h] with state := .faulted, interrupted := true, faultPosition := true }
  | cleared (hm : s.mayClearFault h = true) : HeadMove s h { s.seq.heads[h] with state := s.clearedState h }
  | discard (hr : s.seq.state = .running) :
      HeadMove s h (s.seq.heads[h].discard (s.seq.plan[h].map PlanEntry.tracks))

/-- The elementary changes of the works. -/
inductive Change : State → State → Prop where
  /-- nothing of the works changes -/
  | other {s t : State} (hw : worksOf t = worksOf s) : Change s t
  | monitor (s : State) (m : Monitor) (hm : MonitorMove s.monitor m) : Change s (s.setMonitor m)
  /-- lanes that stay OPEN or CLOSED, with their tags and track counts (R82 to R99) -/
  | lanes (s : State) (v : PerHead (Option Lane))
      (hv : ∀ h : HeadNo, v[h].map (fun l => (l.tag, l.tracks)) = s.lanes[h].map (fun l => (l.tag, l.tracks))) :
      Change s (s.setLanes v)
  | room (s : State) (v : PerHead Bool) (hv : ∀ h : HeadNo, v[h] = true → s.tx.room[h] = true ∨ s.lanes[h].isSome = true) :
      Change s (s.setTx { s.tx with room := v })
  | lift (s : State) (heads : HeadNo → Bool) : Change s (s.liftHeads heads)
  | lines (s : State) (h : HeadNo) (ready alarm : Bool) :
      Change s (s.updPort h fun q => { q with readyLine := ready, alarmLine := alarm }.reread)
  | calibrate (s : State) (h : HeadNo) (cal : Calibration) (hr : cal.rest ≤ 4095) (hd : cal.maxDepth ≤ 1000) :
      Change s (s.updPort h fun q => { q with cal := cal, calibrated := true }.reread)
  | stylus (s : State) (h : HeadNo) : Change s (s.updPort h fun q => { q with strikes := 0 })
  | captureEnd (s : State) (heads : HeadNo → Bool) : Change s (s.setCaptures (s.captures.map (endCapture heads)))
  | define (s : State) (c : Capture) (hid : 1 ≤ c.id ∧ c.id ≤ 8) (hl : 1 ≤ c.length) (he : c.entries = [])
      (hn : s.captureOf c.id = none) : Change s (s.setCaptures (s.captures ++ [c]))
  | delete (s : State) (id : Nat) : Change s (s.setCaptures (s.captures.filter fun c => c.id ≠ id))
  /-- the job items that count (R108) -/
  | counts (s : State) (advances idle consecutive pulses : Nat) (retained stalled : Bool)
      (hi : idle = s.seq.idle ∨ idle ≤ Config.max32)
      (hc : consecutive = s.seq.consecutiveIdle ∨ consecutive ≤ Config.max32) :
      Change s (s.setSeq { s.seq with
        advances := advances, idle := idle, consecutiveIdle := consecutive, retained := retained, stalled := stalled
        pulses := pulses })
  | hold (s : State) (hr : s.seq.state = .running) : Change s (s.setHold true)
  /-- a RUNNING or HOLDING job goes to RUNNING or HOLDING with the hold request clear (R115, R116, R124, R127) -/
  | goTo (s : State) (j : JobState) (hs : s.seq.state.runningOrHolding = true) (hj : j.runningOrHolding = true) :
      Change s (s.setSeq { s.seq with state := j, hold := false })
  | heads (s : State) (v : PerHead HeadItems) (hv : ∀ h : HeadNo, HeadMove s h v[h]) :
      Change s (s.setSeq { s.seq with heads := v })
  | strikes (s : State) (tick : Nat) (hr : s.seq.state = .running) : Change s (s.strikeAll tick)
  | starts (s : State) (src : SlotUse) (heads : HeadNo → Bool) (hr : s.seq.state = .running)
      (hh : ∀ h, heads h = true → s.seq.heads[h].state = .waiting ∧ s.seq.heads[h].justCut = none) :
      Change s (startsFrom s src heads)
  | start (s : State) (ha : s.seq.state = .armed) :
      Change s ((s.mapHeads fun _ i =>
        { i with state := if i.state = .armed then .waiting else i.state }).setJobState .running)
  | setJob (s : State) (j : JobRecord) (ha : s.seq.state.active = false) (he : 1024 ≤ j.e ∧ j.e ≤ 1048576) :
      Change s (s.setSeq { s.seq with job := j })
  | plan (s : State) (v : PerHead (Option PlanEntry)) (ha : s.seq.state.active = false)
      (hv : ∀ (h : HeadNo) (e : PlanEntry), v[h] = some e → s.seq.plan[h] = some e ∨ 1 ≤ e.tracks ∧ e.tracks ≤ 65535) :
      Change s (s.setSeq { s.seq with plan := v })
  | markCount (s : State) (n : Nat) (markStop : Bool) (hn : n ≤ Config.max32) :
      Change s ((s.setMarkCounter n).setSeq { s.seq with job := { s.seq.job with markStop := markStop } })
  | arm (s : State) (ha : s.seq.state.active = false) (hp : s.planFault = none) : Change s s.arm
  | endJob (s : State) (o : JobOutcome) : Change s (s.endJob o)
  | reset {s t : State} (hw : worksOf t = resetWorks s) : Change s t
  | powerOn (s : State) (readyLines alarmLines : PerHead Bool) (pending : List Instr) :
      Change s (.powerOn readyLines alarmLines pending)
  | table (s : State) (slot : Fin 16) (t : Table) (ht : s.grads[slot].binds = 0 ∨ ∃ depths, t = .ready depths) :
      Change s (s.setTable slot t)
  | screen (s : State) (slot : Fin 8) (x : Option Screen) (hb : s.screens[slot].binds = 0)
      (hx : ∀ y, x = some y → 1 ≤ y.cells ∧ y.cells ≤ 32768) : Change s (s.setScreen slot x)
  | expander (s : State) (x : Expander) : Change s (s.setExpander x)

/-- A chain of elementary changes. -/
abbrev Changes : State → State → Prop := Relation.ReflTransGen Change

theorem Changes.of_works {s t : State} (hw : worksOf t = worksOf s) : Changes s t := .single (.other hw)

/-- A chain ends as well in any state with the same works. -/
theorem Changes.works {s t u : State} (h : Changes s t) (hw : worksOf u = worksOf t) : Changes s u := h.tail (.other hw)

theorem Changes.andThen {s t u : State} (h : Changes s t) (c : Change t u) : Changes s u := h.tail c

theorem Changes.trans {s t u : State} (h : Changes s t) (k : Changes t u) : Changes s u := Relation.ReflTransGen.trans h k

theorem Changes.latch {b s t : State} (h : Changes s t) : Changes s (b.latch t) := h.works rfl

/-! ## Works that link operations leave -/

@[simp] theorem worksOf_answer (s : State) (f : UpFrame) : worksOf (s.answer f) = worksOf s := by
  rw [State.answer_eq]; rfl

@[simp] theorem worksOf_leaveIntake (s : State) : worksOf s.leaveIntake = worksOf s := by
  simp [worksOf]

@[simp] theorem worksOf_judgeRise (s : State) : worksOf s.judgeRise = worksOf s := by
  simp [worksOf]

@[simp] theorem worksOf_judgeFall (s : State) : worksOf s.judgeFall = worksOf s := by
  simp [worksOf]

@[simp] theorem worksOf_joinIntake (s : State) (f : Frame) : worksOf (s.joinIntake f) = worksOf s := by
  unfold State.joinIntake
  split <;> simp [worksOf]

/-- The FILLING captures of the heads chosen become FULL, and of the works nothing else changes (R147). -/
theorem worksOf_endCaptures (s : State) (heads : HeadNo → Bool) :
    worksOf (s.endCaptures heads) = worksOf (s.setCaptures (s.captures.map (endCapture heads))) := by
  unfold State.endCaptures
  rw [State.changeCaptures_eq]
  split <;> rfl

/-! ## Positions -/

/-- A change of every OPEN lane that leaves each its tag and track count. -/
theorem Changes.mapLanes (s : State) (f : HeadNo → Lane → Lane)
    (hf : ∀ h l, (f h l).tag = l.tag ∧ (f h l).tracks = l.tracks) : Changes s (s.mapLanes f) := by
  refine .single (Change.lanes s _ fun h => ?_)
  rw [mapAll_get, Option.map_map]
  congr 1
  funext l
  simp [Function.comp, hf h l]

/-- A change of one lane that leaves it its tag and track count. -/
theorem Changes.updLane (s : State) (h : HeadNo) (f : Lane → Lane)
    (hf : ∀ l, s.lanes[h] = some l → (f l).tag = l.tag ∧ (f l).tracks = l.tracks) : Changes s (s.updLane h f) := by
  refine .single (Change.lanes s _ fun g => ?_)
  rw [updAt_get]
  split
  · next hg =>
    subst hg
    cases hl : s.lanes[g] with
    | none => rfl
    | some l => simp [hf l hl]
  · rfl

/-- A move of every head's items. -/
theorem Changes.mapHeads (s : State) (f : HeadNo → HeadItems → HeadItems)
    (hf : ∀ h, HeadMove s h (f h s.seq.heads[h])) : Changes s (s.mapHeads f) :=
  .single (Change.heads s _ fun h => by rw [mapAll_get]; exact hf h)

/-- A move of one head's items. -/
theorem Changes.updHead (s : State) (h : HeadNo) (f : HeadItems → HeadItems) (hf : HeadMove s h (f s.seq.heads[h])) :
    Changes s (s.updHead h f) := by
  refine .single (Change.heads s _ fun g => ?_)
  rw [updAt_get]
  split
  · next hg => subst hg; exact hf
  · exact .same

theorem Lane.suspect_keeps (i : HeadItems) (l : Lane) : (l.suspect i).tag = l.tag ∧ (l.suspect i).tracks = l.tracks := by
  unfold Lane.suspect
  cases i.justCut <;> cases i.isCutting <;> exact ⟨rfl, rfl⟩

/-- A slip or a lost index of a running job (R115, R124). -/
theorem suspectRevolution_changes (s : State) (hr : s.seq.state = .running) : Changes s s.suspectRevolution := by
  have hlanes := Changes.mapLanes s (fun h => Lane.suspect s.seq.heads[h]) fun h l => Lane.suspect_keeps _ l
  have hlift := hlanes.andThen (.lift _ s.cutting)
  have hcaptures := (hlift.andThen (.captureEnd _ s.cutting)).works (worksOf_endCaptures _ s.cutting)
  have hheads := hcaptures.trans (Changes.mapHeads _ (fun _ i => i.turnBack.stopCut) fun h => by
    refine .suspect fun hc => ?_
    rw [State.endCaptures_ports, State.liftHeads_get, if_pos]
    simpa [State.cutting, -Fin.getElem_fin] using hc)
  refine hheads.andThen (.goTo _ .holding ?_ rfl)
  simp [JobState.runningOrHolding, hr]

theorem seqIndexLost_changes (s : State) : Changes s s.seqIndexLost := by
  unfold State.seqIndexLost
  split
  · next hr => exact suspectRevolution_changes s hr
  · exact .refl

/-- A TICK position (R4, R5, R8). -/
theorem takeTick_changes (s : State) : Changes s s.takeTick := by
  unfold State.takeTick
  split
  · exact .refl
  · next hs =>
    simp only []
    split
    · have hlost : Changes s (s.setMonitor { s.monitor with sync := .unsynced, count := 0 }) :=
        .single (.monitor s _ .unsync)
      unfold State.loseIndex
      simp only []
      refine Changes.trans ?_ (seqIndexLost_changes _)
      split
      · exact hlost.works rfl
      · exact hlost
    · next hn =>
      have hcount : Changes s (s.setMonitor { s.monitor with count := s.monitor.count + 1 }) :=
        .single (.monitor s _ (.tick hs hn))
      unfold State.seqTick
      split
      · next hr => exact hcount.andThen (.strikes _ _ hr)
      · exact hcount

theorem startTrack_eq (l : Lane) (k : Nat) : l.startTrack k = bothSlots (slotTo .complete .cutting (· = k)) l :=
  (bothSlots_move ..).symm

theorem startRecut_eq (l : Lane) (k : Nat) : l.startRecut k = bothSlots (slotTo .interrupted .cutting (· = k)) l :=
  (bothSlots_move ..).symm

/-- The use that the slots of starting tracks come from: INTERRUPTED for a recut, COMPLETE for a new track (R93). -/
def startSource (recut : Bool) : SlotUse := if recut then .interrupted else .complete

/-- The heads chosen start, and the cells at tick 0 are struck (R118, R120, R122). -/
theorem startHeads_eq (s : State) (heads : HeadNo → Bool) (recut : Bool) :
    s.startHeads heads recut = (startsFrom s (startSource recut) heads).strikeAll 0 := by
  have hlane : (fun (h : HeadNo) (l : Lane) =>
      if heads h then (if recut then l.startRecut s.seq.heads[h].next else l.startTrack s.seq.heads[h].next) else l) =
      fun h l => if heads h then bothSlots (slotTo (startSource recut) .cutting (· = s.seq.heads[h].next)) l else l := by
    funext h l
    cases recut
    · simp only [startTrack_eq, startSource]; rfl
    · simp only [startRecut_eq, startSource]; rfl
  have hport : (fun (h : HeadNo) (p : HeadPort) =>
      if heads h ∧ s.seq.job.mode = .cut then { p with lift := LiftState.engaged p.cal.rest } else p) =
      fun h p => if heads h && decide (s.seq.job.mode = .cut) then { p with lift := .engaged p.cal.rest } else p := by
    funext h p
    simp only [Bool.and_eq_true, decide_eq_true_eq]
  unfold State.startHeads
  rw [hlane]
  simp only []
  rw [hport]
  rfl

/-- The heads chosen, WAITING and with no track just cut, start (R118, R120). -/
theorem startHeads_changes (s : State) (heads : HeadNo → Bool) (recut : Bool) (hr : s.seq.state = .running)
    (hh : ∀ h, heads h = true → s.seq.heads[h].state = .waiting ∧ s.seq.heads[h].justCut = none) :
    Changes s (s.startHeads heads recut) := by
  rw [startHeads_eq]
  exact (Changes.andThen .refl (.starts s (startSource recut) heads hr hh)).andThen (.strikes _ 0 hr)

/-- The track-retained flag gives the ROOM marks of the lanes that hold a RETAINED slot (R101). -/
def State.roomsAtAdvance (s : State) : PerHead Bool :=
  mapAll (fun h b => b || (match s.lanes[h] with
    | some l => l.holds .retained fun _ => true
    | none => false)) s.tx.room

/-- The carriage advance, one block after the other (R99, R101, R120). -/
theorem advance_changes (s : State) : Changes s s.advance := by
  unfold State.advance
  split
  · have hcounts := Changes.andThen .refl (.counts s (s.seq.advances + 1) s.seq.idle s.seq.consecutiveIdle
      (if s.seq.job.mode = .cut then s.seq.pulses + 1 else s.seq.pulses) s.seq.retained s.seq.stalled (.inl rfl) (.inl rfl))
    have hheads := hcounts.trans (Changes.mapHeads _ (fun _ i => { i with faultPosition := false }) fun _ => .advance)
    have hrooms := hheads.andThen (.room _ s.roomsAtAdvance fun h => by
      simp only [State.roomsAtAdvance, mapAll_get, Bool.or_eq_true]
      rintro (hroom | hlane)
      · exact .inl hroom
      · refine .inr ?_
        show s.lanes[h].isSome = true
        cases hl : s.lanes[h] with
        | none => simp [hl] at hlane
        | some l => rfl)
    exact hrooms.trans (Changes.mapLanes _ (fun _ => Lane.release) fun _ _ => ⟨rfl, rfl⟩)
  · exact .refl

@[simp] theorem advance_seq_state (s : State) : s.advance.seq.state = s.seq.state := by
  unfold State.advance; split <;> rfl

/-- An advance leaves each head's state, and the track just cut that it has or has not. -/
theorem advance_head (s : State) (h : HeadNo) :
    s.advance.seq.heads[h].state = s.seq.heads[h].state ∧ s.advance.seq.heads[h].justCut = s.seq.heads[h].justCut := by
  unfold State.advance
  split
  · constructor
    · show (mapAll (fun _ (i : HeadItems) => { i with faultPosition := false }) s.seq.heads)[h].state = _
      rw [mapAll_get]
    · show (mapAll (fun _ (i : HeadItems) => { i with faultPosition := false }) s.seq.heads)[h].justCut = _
      rw [mapAll_get]
  · exact ⟨rfl, rfl⟩

theorem idleRevolution_changes (s : State) (back : HeadNo → Bool) : Changes s (s.idleRevolution back) := by
  have hidle : satAdd Config.max32 s.seq.idle 1 ≤ Config.max32 := Nat.min_le_left _ _
  have hconsecutive : satAdd Config.max32 s.seq.consecutiveIdle 1 ≤ Config.max32 := Nat.min_le_left _ _
  unfold State.idleRevolution
  generalize satAdd Config.max32 s.seq.idle 1 = idle at *
  generalize satAdd Config.max32 s.seq.consecutiveIdle 1 = consecutive at *
  have hcounts : ∀ stalled : Bool, Changes s (s.setSeq { s.seq with
      idle := idle, consecutiveIdle := consecutive, stalled := stalled }) := fun stalled =>
    .single (.counts s s.seq.advances idle consecutive s.seq.pulses s.seq.retained stalled (.inr hidle)
      (.inr hconsecutive))
  simp only []
  split
  · split
    · exact (hcounts true).works (worksOf_post _ _ _ _ _ _)
    · exact (hcounts true).works (worksOf_post _ _ _ _ _ _)
  · exact hcounts s.seq.stalled

theorem waiting_iff (s : State) (h : HeadNo) : s.waiting h = true ↔ s.seq.heads[h].state = .waiting := by
  simp [State.waiting]

/-- Steps 2 to 5 of the index of a running job, each head's track just cut being absent (R114, R116 to R121). -/
theorem indexSteps_changes (s : State) (hr : s.seq.state = .running)
    (hj : ∀ h : HeadNo, s.seq.heads[h].justCut = none) : Changes s s.indexSteps := by
  unfold State.indexSteps
  split
  · refine Changes.andThen .refl (.goTo s .holding ?_ rfl)
    simp [JobState.runningOrHolding, hr]
  split
  · exact Changes.andThen .refl (.endJob s _)
  split
  · unfold State.repairStep
    simp only []
    split
    · refine startHeads_changes s _ true hr fun h hh => ⟨?_, hj h⟩
      simp only [State.awaitsRecut, Bool.and_eq_true] at hh
      exact (waiting_iff s h).mp hh.1.1
    · exact idleRevolution_changes s _
  split
  · have hstarted := (advance_changes s).trans (startHeads_changes s.advance s.waiting false
      ((advance_seq_state s).trans hr) fun h hh => by
        rw [(advance_head s h).1, (advance_head s h).2]
        exact ⟨(waiting_iff s h).mp hh, hj h⟩)
    exact hstarted.andThen (.counts _ _ _ 0 _ _ false (.inl rfl) (.inr (Nat.zero_le _)))
  · exact idleRevolution_changes s _

/-- The Track Sequencer's part of an INDEX (R113 to R121). -/
theorem seqIndex_changes (s : State) (slip : Bool) : Changes s (s.seqIndex slip) := by
  unfold State.seqIndex
  split
  · next hr =>
    split
    · exact suspectRevolution_changes s hr
    · have hclear := Changes.mapHeads s (fun _ i => { i with justCut := none }) fun _ => .clearCut
      refine hclear.trans (indexSteps_changes _ hr fun h => ?_)
      rw [State.mapHeads_get]
  · exact .refl

theorem indexMonitor_unsynced {m : Monitor} (hs : m.sync = .unsynced) :
    indexMonitor m = { m with sync := .synced, count := 0 } := by simp [indexMonitor, hs]

theorem indexMonitor_synced {m : Monitor} (hs : m.sync = .synced) :
    indexMonitor m = { m with lastLength := m.count + 1, revolutions := wrapSucc32 m.revolutions, count := 0 } := by
  simp [indexMonitor, hs, wrapSucc32]

/-- An INDEX position (R4, R6, R7). -/
theorem takeIndex_changes (s : State) : Changes s s.takeIndex := by
  have hindex : Changes s (s.setMonitor (indexMonitor s.monitor)) := .single (.monitor s _ .index)
  unfold State.takeIndex
  split
  · next hs =>
    rw [indexMonitor_unsynced hs] at hindex
    exact hindex.trans (seqIndex_changes _ _)
  · next hs =>
    rw [indexMonitor_synced hs] at hindex
    refine Changes.trans ?_ (seqIndex_changes _ _)
    split
    · exact hindex.works rfl
    · exact hindex

/-- A position, by each of its ways (R1, R11). -/
theorem takePosition_changes (s : State) (p : PositionEvent) : Changes s (s.takePosition p) := by
  cases p with
  | tick =>
    show Changes s s.tickLine
    unfold State.tickLine
    split
    · exact (takeTick_changes s).latch
    · exact .refl
  | index =>
    show Changes s s.indexLine
    unfold State.indexLine
    split
    · exact (takeIndex_changes s).latch
    · exact .refl
  | generator =>
    show Changes s s.generatorPeriod
    unfold State.generatorPeriod
    split
    · have hstep : Changes s (s.setMonitor { s.monitor with genNext := (s.monitor.genNext + 1) % s.monitor.e }) :=
        .single (.monitor s _ .period)
      refine Changes.latch ?_
      split
      · exact hstep.trans (takeIndex_changes _)
      · exact hstep.trans (takeTick_changes _)
    · exact .refl

/-! ## Head faults -/

theorem faultPolicy_changes (s : State) : Changes s s.faultPolicy := by
  unfold State.faultPolicy
  split
  · next hp => exact .single (.hold s hp.1)
  · exact .refl

theorem cutting_of_state {s : State} {h : HeadNo} {j : Nat} (hj : s.seq.heads[h].state = .cutting j) :
    s.cutting h = true := by
  unfold State.cutting HeadItems.isCutting
  rw [hj]

/-- A change of one Head Port to LIFTED. -/
theorem updPort_lift_eq (s : State) (h : HeadNo) :
    (s.updPort h fun p => { p with lift := .lifted }) = s.liftHeads (· = h) := by
  unfold State.updPort State.liftHeads State.mapPorts
  congr 1
  refine bank_ext fun g => ?_
  rw [updAt_get, mapAll_get]
  by_cases hg : g = h
  · subst hg; simp
  · simp [hg]

/-- A fault that interrupts a cut (R73 to R76). -/
theorem faultCut_changes (s : State) (h : HeadNo) (code : ErrorCode) (j : Nat)
    (hj : s.seq.heads[h].state = .cutting j) : Changes s (s.faultCut h code j) := by
  have hposted : Changes s (s.post code (some h) (s.laneTag h) (some s.seq.heads[h].next) (some j)) := .of_works rfl
  have hlift := hposted.andThen (.lift _ (· = h))
  rw [← updPort_lift_eq] at hlift
  have hlane := hlift.trans (Changes.updLane _ h Lane.interrupt fun _ _ => ⟨rfl, rfl⟩)
  have hcaptures := (hlane.andThen (.captureEnd _ (· = h))).works (worksOf_endCaptures _ (· = h))
  refine (hcaptures.trans (Changes.updHead _ h _ (.faultCut ?_ ?_))).trans (faultPolicy_changes _)
  · rw [State.cutting, State.endCaptures_seq]
    exact cutting_of_state hj
  · rw [State.endCaptures_ports, State.updLane_ports, State.updPort_get, if_pos rfl]

theorem alarmEdge_changes (s : State) (h : HeadNo) : Changes s (s.alarmEdge h) := by
  have hfault : s.seq.heads[h].state = .waiting ∨ s.seq.heads[h].state = .armed →
      Changes s (((s.post .headAlarm (some h) (s.laneTag h) (some s.seq.heads[h].next)).updHead h
        fun i => { i with state := .faulted, faultPosition := true }).faultPolicy) := by
    intro hw
    have hposted : Changes s (s.post .headAlarm (some h) (s.laneTag h) (some s.seq.heads[h].next)) := .of_works rfl
    have hfaulted := hposted.trans (Changes.updHead _ h (fun i => { i with state := .faulted, faultPosition := true })
      (.fault hw))
    exact hfaulted.trans (faultPolicy_changes _)
  unfold State.alarmEdge
  split
  · next j hj => exact faultCut_changes s h _ j hj
  · next hs => exact hfault (.inl hs)
  · next hs => exact hfault (.inr hs)
  · exact .of_works rfl
  · exact .of_works rfl
  · exact .refl

theorem readyLossEdge_changes (s : State) (h : HeadNo) : Changes s (s.readyLossEdge h) := by
  unfold State.readyLossEdge
  split
  · next j hj => exact faultCut_changes s h _ j hj
  · exact .refl

theorem alarmLevel_changes (s : State) (h : HeadNo) (high : Bool) : Changes s (s.alarmLevel h high) := by
  have hread : Changes s (s.updPort h fun q => { q with alarmLine := high }.reread) :=
    .single (Change.lines s h s.ports[h].readyLine high)
  unfold State.alarmLevel
  simp only []
  split
  · exact hread.trans (alarmEdge_changes _ h)
  · exact hread

theorem readyLevel_changes (s : State) (h : HeadNo) (high : Bool) : Changes s (s.readyLevel h high) := by
  have hread : Changes s (s.updPort h fun q => { q with readyLine := high }.reread) :=
    .single (Change.lines s h high s.ports[h].alarmLine)
  unfold State.readyLevel
  simp only []
  split
  · exact hread.trans (readyLossEdge_changes _ h)
  · exact hread

/-! ## CELL frames -/

theorem laneOf_some {s : State} {tag : Byte} {h : HeadNo} {l : Lane} (hl : s.laneOf tag = some (h, l)) :
    s.lanes[h] = some l ∧ l.tag = tag := by
  obtain ⟨g, -, hg⟩ := List.exists_of_findSome?_eq_some hl
  cases hlane : s.lanes[g] with
  | none => simp [hlane] at hg
  | some m =>
    rw [hlane] at hg
    split at hg
    · next heq =>
      split at hg
      · next htag =>
        cases hg
        cases heq
        exact ⟨hlane, htag⟩
      · cases hg
    · cases hg

theorem takeCells_changes (s : State) (body : List Byte) : Changes s (s.takeCells body) := by
  unfold State.takeCells
  split
  · exact .of_works rfl
  · next g hg =>
    split
    · exact .of_works rfl
    · next h l hl =>
      obtain ⟨hlane, -⟩ := laneOf_some hl
      obtain ⟨htag, -, htracks, -⟩ := takeSegment_keeps l g
      have hplaced : Changes s (s.updLane h fun _ => (takeSegment l g).2) := Changes.updLane s h _ fun m hm => by
        rw [hlane] at hm
        cases hm
        exact ⟨htag, htracks⟩
      simp only []
      split
      · exact hplaced.works rfl
      · exact hplaced

end Sys2Proof.Machine
end

