-- ==== Sys2Proof/Proofs/ChangesOfRecords.lean ====
section
/-! SUPPORT. The changes of the works that records, the link and the Expander make, and with them those of every command. -/

namespace Sys2Proof.Machine

open Sys2Proof Sys2Proof.Claims

/-! ## The works after the end of a job and after RESET -/

theorem mapAll_const {α β : Type} {n : Nat} (b : β) (v : Vector α n) : mapAll (fun _ _ => b) v = Vector.replicate n b :=
  bank_ext fun i => by rw [mapAll_get, replicate_get]

/-- The statements' words for a normalized input are the model's (R66). -/
theorem normalized_eq_normal (p : Polarity) (high : Bool) : normalized p high = normal p high := by
  cases p <;> rfl

theorem mapAll_mapAll {α β γ : Type} {n : Nat} (f : Fin n → β → γ) (g : Fin n → α → β) (v : Vector α n) :
    mapAll f (mapAll g v) = mapAll (fun i a => f i (g i a)) v :=
  bank_ext fun i => by rw [mapAll_get, mapAll_get, mapAll_get]

theorem Works.eq_of_fields {v w : Works} (screens : v.screens = w.screens) (grads : v.grads = w.grads)
    (expander : v.expander = w.expander) (lanes : v.lanes = w.lanes) (monitor : v.monitor = w.monitor)
    (seq : v.seq = w.seq) (ports : v.ports = w.ports) (tallies : v.tallies = w.tallies)
    (markCounter : v.markCounter = w.markCounter) (captures : v.captures = w.captures) (room : v.room = w.room) :
    v = w := by
  cases v; cases w; simp_all

/-- The Sequencer after the end of a job (R129). -/
theorem State.endJob_seq (s : State) (o : JobOutcome) :
    (s.endJob o).seq = { s.seq with
      state := .ended o, hold := false, stalled := false
      heads := mapAll (fun _ i => { state := .out, next := i.next, interrupted := false, faultPosition := false,
                                    justCut := none }) s.seq.heads } := by
  simp [State.endJob, State.mapHeads]

/-- The works after the end of a job (R129, R81, R102, R147, R16, R24). -/
theorem worksOf_endJob (s : State) (o : JobOutcome) : worksOf (s.endJob o) = endedWorks (worksOf s) o := by
  refine Works.eq_of_fields ?_ ?_ (State.endJob_expander s o) ?_ (State.endJob_monitor s o) (State.endJob_seq s o) ?_
    (State.endJob_tallies s o) (State.endJob_markCounter s o) ?_ ?_
  · show (s.endJob o).screens = mapAll (fun _ (x : ScreenSlot) => { x with binds := 0 }) s.screens
    exact bank_ext fun i => by rw [State.endJob_screens, mapAll_get]
  · show (s.endJob o).grads = mapAll (fun _ (x : GradSlot) => { x with binds := 0 }) s.grads
    exact bank_ext fun i => by rw [State.endJob_grads, mapAll_get]
  · show (s.endJob o).lanes = Vector.replicate 8 none
    exact bank_ext fun h => by rw [State.endJob_lanes, replicate_get]
  · show (s.endJob o).ports = mapAll (fun _ (q : HeadPort) => { q with lift := .lifted }) s.ports
    exact bank_ext fun h => by rw [State.endJob_ports, mapAll_get]
  · show (s.endJob o).captures = s.captures.map (endCapture fun _ => true)
    rw [State.endJob_captures]
    simp [endCapture]
  · show (s.endJob o).tx.room = Vector.replicate 8 false
    exact bank_ext fun h => by rw [State.endJob_room, replicate_get]

/-- The Sequencer after RESET (R131). -/
theorem Sequencer.afterReset_eq (q : Sequencer) :
    q.afterReset = { q with
      job := JobRecord.default, plan := Vector.replicate 8 none, state := .idle, hold := false, retained := false
      stalled := false
      heads := mapAll (fun _ i => { state := .out, next := i.next, interrupted := false, faultPosition := false,
                                    justCut := none }) q.heads } := by
  unfold Sequencer.afterReset
  rw [mapAll_const]
  rfl

/-- RESET clears the same with the job ended before it or not (R131). -/
theorem resetWorks_endJob (s : State) (o : JobOutcome) : resetWorks (s.endJob o) = resetWorks s := by
  have hscreens : (s.endJob o).screens = mapAll (fun _ (x : ScreenSlot) => { x with binds := 0 }) s.screens :=
    congrArg Works.screens (worksOf_endJob s o)
  have hgrads : (s.endJob o).grads = mapAll (fun _ (x : GradSlot) => { x with binds := 0 }) s.grads :=
    congrArg Works.grads (worksOf_endJob s o)
  have hports : (s.endJob o).ports = mapAll (fun _ (q : HeadPort) => { q with lift := .lifted }) s.ports :=
    congrArg Works.ports (worksOf_endJob s o)
  simp only [resetWorks, hscreens, hgrads, hports, State.endJob_monitor, State.endJob_seq, State.endJob_tallies,
    mapAll_mapAll]

theorem State.mapPorts_ports (s : State) (f : HeadNo → HeadPort → HeadPort) : (s.mapPorts f).ports = mapAll f s.ports := rfl

/-- RESET's changes, after it has ended the job. -/
theorem worksOf_softReset_stopped (s stopped : State) (tag : Tag)
    (h : stopped = if s.seq.state.active then s.endJob .aborted else s) :
    worksOf (s.softReset tag) = resetWorks stopped := by
  have hports : mapAll (fun _ (q : HeadPort) => ({ q with lift := .lifted } : HeadPort).reread) stopped.ports =
      (resetWorks stopped).ports :=
    bank_ext fun g => by simp only [resetWorks, mapAll_get, HeadPort.reread, normalized_eq_normal]
  have hseq : stopped.seq.afterReset = (resetWorks stopped).seq := Sequencer.afterReset_eq _
  refine Works.eq_of_fields ?_ ?_ ?_ ?_ ?_ ?_ ?_ ?_ ?_ ?_ ?_ <;>
    simp [worksOf, State.softReset, ← h, mapAll_const, State.mapPorts_ports]
  · rfl
  · rfl
  · rfl
  · rfl
  · rfl
  · exact hseq
  · exact hports
  · rfl
  · rfl
  · rfl
  · rfl

/-- The works after RESET, block by block (R2, R36, R66, R81, R131, R138, R142, R176, R177). -/
theorem worksOf_softReset (s : State) (tag : Tag) : worksOf (s.softReset tag) = resetWorks s := by
  rw [worksOf_softReset_stopped s _ tag rfl]
  split
  · exact resetWorks_endJob s .aborted
  · rfl

/-! ## Operands in range -/

theorem guardIn_eq_some {α : Type} {ok : Bool} {v w : α} : guardIn ok v = some w ↔ ok = true ∧ v = w := by
  cases ok <;> simp

theorem setScreenOperands_some {p : List Byte} {slot : Fin 8} {x : Screen} (h : setScreenOperands p = some (slot, x)) :
    u8At p 0 = slot.val ∧ 256 ≤ u16At p 1 ∧ u16At p 1 ≤ 32768 ∧ u16At p 4 ≤ 1000 ∧
    x = { cells := u16At p 1, stagger := u8At p 3, minDepth := u16At p 4 } := by
  simp only [setScreenOperands, Option.bind_eq_bind, Option.bind_eq_some_iff, guardIn_eq_some, finOf_eq,
    decide_eq_true_eq, Option.some.injEq, Prod.mk.injEq] at h
  obtain ⟨i, hi, c, ⟨hc, rfl⟩, m, ⟨hm, rfl⟩, rfl, rfl⟩ := h
  exact ⟨hi, hc.1, hc.2, hm, rfl⟩

theorem setHeadOperands_some {p : List Byte} {h : HeadNo} {cal : Calibration} (hp : setHeadOperands p = some (h, cal)) :
    cal.rest ≤ 4095 ∧ cal.maxDepth ≤ 1000 := by
  simp only [setHeadOperands, Option.bind_eq_bind, Option.bind_eq_some_iff, guardIn_eq_some, finOf_eq,
    decide_eq_true_eq, Option.some.injEq, Prod.mk.injEq] at hp
  obtain ⟨_, _, _, _, _, _, _, ⟨hr, rfl⟩, _, ⟨hd, rfl⟩, _, _, _, _, _, _, rfl, rfl⟩ := hp
  exact ⟨hr, hd.2⟩

theorem setJobOperands_some {p : List Byte} {j : JobRecord} (hp : setJobOperands p = some j) :
    1024 ≤ j.e ∧ j.e ≤ 1048576 := by
  simp only [setJobOperands, Option.bind_eq_bind, Option.bind_eq_some_iff, guardIn_eq_some, decide_eq_true_eq,
    Option.some.injEq] at hp
  obtain ⟨_, _, _, _, _, ⟨he, rfl⟩, _, _, _, _, _, _, _, _, rfl⟩ := hp
  exact he

theorem planHeadOperands_some {p : List Byte} {h : HeadNo} {e : PlanEntry} (hp : planHeadOperands p = some (h, e)) :
    1 ≤ e.tracks ∧ e.tracks ≤ 65535 := by
  simp only [planHeadOperands, Option.bind_eq_bind, Option.bind_eq_some_iff, guardIn_eq_some, decide_eq_true_eq,
    Option.some.injEq, Prod.mk.injEq] at hp
  obtain ⟨_, _, _, _, _, _, _, _, _, ⟨ht, rfl⟩, rfl, rfl⟩ := hp
  exact ⟨ht, Nat.le_of_lt_succ (u16At_lt p 5)⟩

theorem setMarkCountOperands_some {p : List Byte} {n : Nat} {b : Bool} (hp : setMarkCountOperands p = some (n, b)) :
    n ≤ Config.max32 := by
  simp only [setMarkCountOperands, Option.bind_eq_bind, Option.bind_eq_some_iff, Option.some.injEq, Prod.mk.injEq] at hp
  obtain ⟨_, _, rfl, rfl⟩ := hp
  have := u32At_lt p 0
  show u32At p 0 ≤ 4294967295
  omega

theorem defineCaptureOperands_some {p : List Byte} {c : Capture} (hp : defineCaptureOperands p = some c) :
    (1 ≤ c.id ∧ c.id ≤ 8) ∧ 1 ≤ c.length ∧ c.entries = [] := by
  simp only [defineCaptureOperands, Option.bind_eq_bind, Option.bind_eq_some_iff, guardIn_eq_some, decide_eq_true_eq,
    Option.some.injEq] at hp
  obtain ⟨_, ⟨hid, rfl⟩, _, _, _, _, _, _, _, ⟨hl, rfl⟩, rfl⟩ := hp
  exact ⟨hid, hl.1, rfl⟩

/-! ## The records' own rules -/

/-- The state that a verdict leaves, if it leaves one, is reached by changes. -/
def Verdict.Reaches (v : Verdict) (s : State) : Prop :=
  match v with
  | .refused _ _ => True
  | .done t _ _ => Changes s t
  | .later t => Changes s t

/-- An answered record has changed what its rule changed. -/
theorem Verdict.Reaches.conclude {v : Verdict} {s : State} (hv : v.Reaches s) (kind : Byte) (always : Bool) (h : Header) :
    Changes s (v.conclude s kind always h) := by
  cases v with
  | refused code payload => exact .of_works (worksOf_answer _ _)
  | done t code payload =>
    rw [Verdict.conclude_done]
    split
    · exact Changes.works hv (worksOf_answer _ _)
    · exact hv
  | later t => exact hv

theorem Verdict.reaches_refuse (code : Completion) (s : State) : (Verdict.refuse code).Reaches s := trivial

theorem withOperands_reaches {α : Type} {operands : Option α} {rule : α → Verdict} {s : State}
    (h : ∀ a, operands = some a → (rule a).Reaches s) : (withOperands operands rule).Reaches s := by
  cases ho : operands with
  | none => exact trivial
  | some a => exact h a ho

section
variable (h : Header) (p : List Byte) (s : State)

theorem ruleLoadCurve_reaches : (ruleLoadCurve h p s).Reaches s := by
  refine withOperands_reaches fun ⟨slot, points⟩ _ => ?_
  dsimp only
  split
  · exact trivial
  next hb =>
  split
  · exact trivial
  split
  · exact trivial
  exact (Changes.andThen .refl (.table s slot .expanding (.inl (not_not.mp hb)))).andThen (.expander _ _)

theorem ruleLoadTable_reaches : (ruleLoadTable p s).Reaches s := by
  refine withOperands_reaches fun ⟨slot, depths⟩ _ => ?_
  dsimp only
  split
  · exact trivial
  split
  · exact trivial
  exact Changes.andThen .refl (.table s slot _ (.inr ⟨_, rfl⟩))

theorem ruleReadTable_reaches : (ruleReadTable p s).Reaches s := by
  refine withOperands_reaches fun slot _ => ?_
  split
  · exact .refl
  · exact trivial

theorem ruleClearTable_reaches : (ruleClearTable p s).Reaches s := by
  refine withOperands_reaches fun slot _ => ?_
  split
  · exact trivial
  next hb =>
  split
  · exact trivial
  exact Changes.andThen .refl (.table s slot .empty (.inl (not_not.mp hb)))

theorem ruleSetScreen_reaches : (ruleSetScreen p s).Reaches s := by
  refine withOperands_reaches fun ⟨slot, x⟩ hx => ?_
  obtain ⟨-, hmin, hmax, -, rfl⟩ := setScreenOperands_some hx
  dsimp only
  split
  · exact trivial
  next hb =>
  refine Changes.andThen .refl (.screen s slot _ (not_not.mp hb) fun y hy => ?_)
  cases hy
  exact ⟨Nat.le_trans (by decide) hmin, hmax⟩

theorem ruleClearScreen_reaches : (ruleClearScreen p s).Reaches s := by
  refine withOperands_reaches fun slot _ => ?_
  split
  · exact trivial
  next hb => exact Changes.andThen .refl (.screen s slot none (not_not.mp hb) (by simp))

theorem ruleSetHead_reaches : (ruleSetHead p s).Reaches s := by
  refine withOperands_reaches fun ⟨h, cal⟩ hp => ?_
  obtain ⟨hr, hd⟩ := setHeadOperands_some hp
  dsimp only
  split
  · exact trivial
  · exact Changes.andThen .refl (.calibrate s h cal hr hd)

theorem ruleStylusChange_reaches : (ruleStylusChange p s).Reaches s := by
  refine withOperands_reaches fun h _ => ?_
  split
  · exact trivial
  · exact Changes.andThen .refl (.stylus s h)

theorem ruleClearFault_reaches : (ruleClearFault p s).Reaches s := by
  refine withOperands_reaches fun h _ => ?_
  split
  · next hm => exact Changes.updHead s h (fun i => { i with state := s.clearedState h }) (.cleared hm)
  · exact trivial

theorem ruleSetJob_reaches : (ruleSetJob p s).Reaches s := by
  refine withOperands_reaches fun j hj => ?_
  dsimp only
  split
  · exact trivial
  · next ha => exact Changes.andThen .refl (.setJob s j (Bool.eq_false_iff.mpr ha) (setJobOperands_some hj))

theorem rulePlanHead_reaches : (rulePlanHead p s).Reaches s := by
  refine withOperands_reaches fun ⟨h, e⟩ he => ?_
  dsimp only
  split
  · exact trivial
  · next ha =>
    refine Changes.andThen .refl (.plan s _ (Bool.eq_false_iff.mpr ha) fun g x hx => ?_)
    rw [updAt_get] at hx
    split at hx
    · cases hx
      exact .inr (planHeadOperands_some he)
    · exact .inl hx

theorem clearedPlan_get (plan : PerHead (Option PlanEntry)) (sel : HeadSelector) (h : HeadNo) :
    (clearedPlan plan sel)[h] = none ∨ (clearedPlan plan sel)[h] = plan[h] := by
  cases sel with
  | one g =>
    simp only [clearedPlan, updAt_get]
    split
    · exact .inl rfl
    · exact .inr rfl
  | all => exact .inl (mapAll_get _ _ h)

theorem ruleClearPlan_reaches : (ruleClearPlan p s).Reaches s := by
  refine withOperands_reaches fun sel _ => ?_
  dsimp only
  split
  · exact trivial
  · next ha =>
    refine Changes.andThen .refl (.plan s _ (Bool.eq_false_iff.mpr ha) fun g x hx => ?_)
    obtain hn | hk := clearedPlan_get s.seq.plan sel g
    · rw [hn] at hx; cases hx
    · exact .inl (hk ▸ hx)

theorem ruleArm_reaches : (ruleArm s).Reaches s := by
  unfold ruleArm
  split
  · exact trivial
  next ha =>
  split
  · exact trivial
  · next hp => exact Changes.andThen .refl (.arm s (Bool.eq_false_iff.mpr ha) hp)

theorem ruleStart_reaches : (ruleStart s).Reaches s := by
  unfold ruleStart
  split
  · exact trivial
  · next ha => exact Changes.andThen .refl (.start s (not_not.mp ha))

theorem ruleHold_reaches : (ruleHold s).Reaches s := by
  unfold ruleHold
  split
  · next hr => exact Changes.andThen .refl (.hold s hr)
  · exact Relation.ReflTransGen.refl
  · exact trivial

/-- RESUME with DISCARD, of a job that runs again (R97, R127). -/
theorem discardTracks_changes (hr : s.seq.state = .running) : Changes s s.discardTracks := by
  have hlanes := Changes.mapLanes s (fun h l => if s.seq.heads[h].interrupted then l.discard else l) fun h l => by
    split <;> exact ⟨rfl, rfl⟩
  have hitems := hlanes.trans (Changes.mapHeads _ (fun h i => i.discard (s.seq.plan[h].map PlanEntry.tracks))
    fun h => .discard hr)
  exact hitems.andThen (.counts _ _ _ _ _ _ _ (.inl rfl) (.inl rfl))

theorem ruleResume_reaches : (ruleResume p s).Reaches s := by
  refine withOperands_reaches fun o _ => ?_
  split
  · next hs =>
    have hresumed : Changes s s.resumed := Changes.andThen .refl (.goTo s .running hs rfl)
    cases o with
    | repair => exact hresumed
    | discard => exact hresumed.trans (discardTracks_changes _ rfl)
  · exact trivial

theorem ruleAbort_reaches : (ruleAbort s).Reaches s := by
  unfold ruleAbort
  split
  · exact Changes.andThen .refl (.endJob s .aborted)
  · exact trivial

theorem ruleSetMarkCount_reaches : (ruleSetMarkCount p s).Reaches s := by
  refine withOperands_reaches fun ⟨n, b⟩ hn => ?_
  exact Changes.andThen .refl (.markCount s n b (setMarkCountOperands_some hn))

theorem ruleReadTally_reaches : (ruleReadTally p s).Reaches s :=
  withOperands_reaches fun _ _ => Relation.ReflTransGen.refl

theorem ruleReadHead_reaches : (ruleReadHead p s).Reaches s :=
  withOperands_reaches fun _ _ => Relation.ReflTransGen.refl

theorem ruleDefineCapture_reaches : (ruleDefineCapture p s).Reaches s := by
  refine withOperands_reaches fun c hc => ?_
  obtain ⟨hid, hl, he⟩ := defineCaptureOperands_some hc
  split
  · exact trivial
  next hn =>
  split
  · exact trivial
  · exact Changes.andThen .refl (.define s c hid hl he (by simpa using hn))

theorem ruleDeleteCapture_reaches : (ruleDeleteCapture p s).Reaches s := by
  unfold ruleDeleteCapture
  split
  · exact Changes.andThen .refl (.delete s (u8At p 0))
  · exact trivial

theorem ruleReadCapture_reaches : (ruleReadCapture h p s).Reaches s := by
  unfold ruleReadCapture
  split
  · exact Changes.of_works rfl
  · exact trivial

theorem ruleReadStatus_reaches : (ruleReadStatus s).Reaches s := Changes.of_works rfl

theorem ruleSetEnable_reaches : (ruleSetEnable p s).Reaches s := withOperands_reaches fun _ _ => Changes.of_works rfl

theorem ruleReadError_reaches : (ruleReadError s).Reaches s := by
  unfold ruleReadError
  split
  · exact Relation.ReflTransGen.refl
  · exact Changes.of_works rfl

theorem ruleSetFlow_reaches : (ruleSetFlow p s).Reaches s := by
  refine withOperands_reaches fun ⟨high, low⟩ _ => Changes.of_works ?_
  cases s.rx.flow
  · exact worksOf_judgeRise _
  · exact worksOf_judgeFall _

theorem ruleSync_reaches : (ruleSync h s).Reaches s := by
  unfold ruleSync
  split
  · exact Relation.ReflTransGen.refl
  split
  · exact Changes.of_works rfl
  · exact trivial

/-- What a record's own rule does to the works. -/
theorem ruleOf_reaches (k : RecordKind) : (ruleOf k h p s).Reaches s := by
  cases k with
  | loadCurve => exact ruleLoadCurve_reaches h p s
  | loadTable => exact ruleLoadTable_reaches p s
  | readTable => exact ruleReadTable_reaches p s
  | clearTable => exact ruleClearTable_reaches p s
  | setScreen => exact ruleSetScreen_reaches p s
  | clearScreen => exact ruleClearScreen_reaches p s
  | setHead => exact ruleSetHead_reaches p s
  | readHead => exact ruleReadHead_reaches p s
  | stylusChange => exact ruleStylusChange_reaches p s
  | clearFault => exact ruleClearFault_reaches p s
  | setJob => exact ruleSetJob_reaches p s
  | planHead => exact rulePlanHead_reaches p s
  | clearPlan => exact ruleClearPlan_reaches p s
  | arm => exact ruleArm_reaches s
  | start => exact ruleStart_reaches s
  | hold => exact ruleHold_reaches s
  | resume => exact ruleResume_reaches p s
  | abort => exact ruleAbort_reaches s
  | setMarkCount => exact ruleSetMarkCount_reaches p s
  | readTally => exact ruleReadTally_reaches p s
  | defineCapture => exact ruleDefineCapture_reaches p s
  | deleteCapture => exact ruleDeleteCapture_reaches p s
  | listCaptures => exact Relation.ReflTransGen.refl
  | readCapture => exact ruleReadCapture_reaches h p s
  | readStatus => exact ruleReadStatus_reaches s
  | setEnable => exact ruleSetEnable_reaches p s
  | readError => exact ruleReadError_reaches s
  | setFlow => exact ruleSetFlow_reaches p s
  | sync => exact ruleSync_reaches h s
  | reset => exact Changes.andThen .refl (.reset (worksOf_softReset s h.tag))

end

/-! ## Frames handed on -/

theorem execute_changes (s : State) (k : RecordKind) (h : Header) (p : List Byte) : Changes s (s.execute k h p) := by
  refine Verdict.Reaches.conclude ?_ _ _ _
  unfold checkedRule
  split
  · exact trivial
  split
  · exact trivial
  · exact ruleOf_reaches h p s k

theorem interpret_changes (s before : State) (body : List Byte) : Changes s (s.interpret before body) := by
  unfold State.interpret
  split
  · simp only []
    split
    · exact (Verdict.Reaches.conclude (Verdict.reaches_refuse .unknownKind s) _ _ _).latch
    · exact Changes.andThen .refl (.reset (worksOf_softReset s _))
    · exact (execute_changes s _ _ _).latch
  · exact .of_works rfl

theorem handOn_changes (s : State) (f : Frame) : Changes s (s.handOn f) := by
  have hleave : Changes s s.leaveIntake := .of_works (worksOf_leaveIntake s)
  unfold State.handOn
  split
  · exact (hleave.trans (takeCells_changes _ _)).latch
  · exact hleave.trans (interpret_changes _ _ _)

theorem handOnUpTo_changes (n : Nat) (s : State) : Changes s (State.handOnUpTo n s) := by
  induction n generalizing s with
  | zero => exact .refl
  | succ n ih =>
    unfold State.handOnUpTo
    split
    · exact .refl
    · split
      · exact (handOn_changes s _).trans (ih _)
      · exact .refl

theorem handOnIfFreed_changes (s before : State) : Changes s (s.handOnIfFreed before) := by
  unfold State.handOnIfFreed
  split
  · split
    · exact handOn_changes s _
    · exact .refl
  · exact .refl

theorem deliver_changes (s : State) (f : Frame) : Changes s (s.deliver f) := by
  unfold State.deliver
  split
  · exact handOnUpTo_changes 1 s
  split
  · exact .refl
  split
  · exact .of_works rfl
  · have hjoined : Changes s (s.event fun t => t.joinIntake f) := Changes.latch (.of_works (worksOf_joinIntake s f))
    simp only []
    split
    · exact hjoined.trans (handOnUpTo_changes _ _)
    · exact hjoined

/-! ## The Expander and the Transmitter -/

theorem completeExpansion_changes (s : State) : Changes s s.completeExpansion := by
  unfold State.completeExpansion
  split
  · exact .refl
  · next load rest hq =>
    have hready := (Changes.andThen .refl (.table s load.slot (.ready (expandCurve load.points)) (.inr ⟨_, rfl⟩))).andThen
      (.expander _ { queue := rest, finished := false })
    simp only []
    split
    · exact hready.works rfl
    · exact hready.works rfl

theorem finishExpansion_changes (s : State) : Changes s s.finishExpansion := by
  unfold State.finishExpansion
  split
  · exact .refl
  · split
    · exact Changes.andThen .refl (.expander s _)
    · exact (completeExpansion_changes s).works rfl

theorem claimInterpreter_works (s : State) : worksOf s.claimInterpreter = worksOf s := by
  unfold State.claimInterpreter
  split
  · split <;> rfl
  · rfl

theorem grantEntries_changes (s : State) : Changes s s.grantEntries := by
  have hclaim : Changes s s.claimExpansion := by
    unfold State.claimExpansion
    split
    · exact completeExpansion_changes s
    · exact .refl
  exact hclaim.works (claimInterpreter_works _)

/-- The Transmitter's choice withdraws at most the ROOM mark it sends (R102, R163). -/
theorem chooseFrame_changes {s t : State} {f : UpFrame} (h : s.chooseFrame = some (f, t)) : Changes s t := by
  unfold State.chooseFrame at h
  split at h
  · cases h; exact .of_works rfl
  split at h
  · next g l hg =>
    cases h
    refine Changes.andThen .refl (.room s _ fun x hx => .inl ?_)
    rw [updAt_get] at hx
    split at hx
    · cases hx
    · exact hx
  split at h
  · cases h; exact .of_works rfl
  split at h
  · cases h; exact .of_works rfl
  · cases h

theorem sendEvent_changes (s : State) : Changes s s.sendEvent := by
  unfold State.sendEvent
  split
  · refine Changes.latch ?_
    unfold State.beginSending
    split
    · next f t h =>
      have hsent : Changes s (t.setTx { t.tx with sending := some f }) := (chooseFrame_changes h).works rfl
      exact hsent.trans (grantEntries_changes _)
    · exact .refl
  · exact .refl

theorem sendBegin_changes (s : State) : Changes s s.sendBegin := (sendEvent_changes s).trans (handOnIfFreed_changes _ _)

theorem streamFrame_works (s : State) (rb : Readback) : worksOf (s.streamFrame rb) = worksOf s := by
  unfold State.streamFrame
  split <;> rfl

theorem receive_works (s : State) (bytes : List Byte) : worksOf (s.receive bytes) = worksOf s := by
  unfold State.receive
  split
  · exact worksOf_joinIntake s _
  · rfl

theorem captureDataPlaced_changes {s t : State} (h : execCaptureDataPlaced s = .next t) : Changes s t := by
  unfold execCaptureDataPlaced at h
  cases h
  split
  · exact (Changes.latch (.of_works (streamFrame_works s _))).trans (handOnIfFreed_changes _ _)
  · split
    · exact sendBegin_changes s
    · exact .refl
  · exact .refl

/-! ## Every command -/

/-- Either of two states that are both reached is reached. -/
theorem Changes.ite {s t u : State} {c : Prop} [Decidable c] (h : Changes s t) (k : Changes s u) :
    Changes s (if c then t else u) := by
  split
  · exact h
  · exact k

/-- Every command is a chain of elementary changes of the works. -/
theorem exec_changes {i : Instr} {s t : State} (h : exec i s = .next t) : Changes s t := by
  cases hf : handedFrame i with
  | some f =>
    rw [exec_of_handedFrame hf] at h
    cases h
    exact deliver_changes s f
  | none =>
    cases i with
    | powerOnReset => cases h; exact Changes.andThen .refl (.powerOn s _ _ _)
    | tick => cases h; exact takePosition_changes s .tick
    | index => cases h; exact takePosition_changes s .index
    | internalTickGenerator => cases h; exact takePosition_changes s .generator
    | indexLost => cases h; exact Changes.ite (takePosition_changes s .tick) .refl
    | stall p => cases h; exact Changes.ite (takePosition_changes s p) .refl
    | markStop p => cases h; exact Changes.ite (takePosition_changes s p) .refl
    | alarmLineChange g high => cases h; exact (alarmLevel_changes s g high).latch
    | readyLineChange g high => cases h; exact (readyLevel_changes s g high).latch
    | linkSyncLost => cases h; exact .of_works rfl
    | linkSyncGained => cases h; exact .of_works rfl
    | frameReceived bytes => cases h; exact Changes.ite .refl (Changes.latch (.of_works (receive_works s bytes)))
    | expansionComplete => cases h; exact (finishExpansion_changes s).latch
    | captureDataPlaced => exact captureDataPlaced_changes h
    | syncAnswerPlaced => cases h; exact Changes.ite (sendBegin_changes s) .refl
    | resultPlaced => cases h; exact Changes.ite (sendBegin_changes s) .refl
    | upstreamSendBegin => cases h; exact sendBegin_changes s
    | upstreamSendEnd => cases h; exact .of_works rfl
    | _ => exact absurd hf (by simp [handedFrame])

/-- Every step is a chain of elementary changes of the works. -/
theorem step_changes {s t : State} (h : step s = .next t) : Changes s t := by
  unfold step at h
  split at h
  · cases h; exact .refl
  · next c rest hp =>
    have hpending : Changes s { s with pending := rest } := .of_works rfl
    exact hpending.trans (exec_changes h)

/-- What every elementary change keeps, every step keeps. -/
theorem step_keeps_of_change {P : State → Prop} (hP : ∀ s t, Change s t → P s → P t) {s t : State}
    (h : step s = .next t) (hs : P s) : P t := by
  replace h := step_changes h
  induction h with
  | refl => exact hs
  | tail _ hchange ih => exact hP _ _ hchange ih

end Sys2Proof.Machine
end

