-- ==== Sys2Proof/Proofs/JobLaws.lean ====
section
/-! SUPPORT. The job's laws, law by law through the elementary changes: most changes leave every field that a law reads, and
the others are named. -/

namespace Sys2Proof.Machine

open Sys2Proof Sys2Proof.Claims

/-- A state with the works given, and with nothing on the link: what a law on the works says of it, it says of every state
with those works. -/
def stateOfWorks (w : Works) : State :=
  { State.reset with
    screens := w.screens, grads := w.grads, expander := w.expander, lanes := w.lanes, monitor := w.monitor, seq := w.seq
    ports := w.ports, tallies := w.tallies, markCounter := w.markCounter, captures := w.captures
    tx := { State.reset.tx with room := w.room } }

/-- A law that reads only the works holds of a state when it holds of its works. -/
theorem holds_of_works {P : State → Prop} (hP : ∀ s, P s = P (stateOfWorks (worksOf s))) {t : State} {w : Works}
    (hw : worksOf t = w) (h : P (stateOfWorks w)) : P t := by
  rw [hP t, hw]
  exact h

/-! ## The strikes of a tick -/

/-- A strike falls on a CUTTING head, which is planned with READY slots (R122). -/
theorem dueStrike_cutting {u : State} {tick : Nat} {h : HeadNo} {c : StrikeContext} {r : StrikeResult}
    (hd : dueStrike u tick h = some (c, r)) :
    u.seq.heads[h].state = .cutting c.index ∧ u.seq.plan[h] = some c.entry ∧
    u.screens[c.entry.screen].screen = some c.screen := by
  obtain ⟨hc, -, -⟩ := dueStrike_eq_some.mp hd
  unfold State.strikeContext at hc
  split at hc
  · next j hj =>
    simp only [Option.bind_eq_bind, Option.bind_eq_some_iff] at hc
    obtain ⟨entry, hentry, screen, hscreen, lane, -, ⟨track, cells⟩, -, cell, -, hc⟩ := hc
    split at hc
    · cases hc
      exact ⟨hj, hentry, hscreen⟩
    · cases hc
  · cases hc

/-- A RUNNING or HOLDING job has been armed and has not ended. -/
theorem JobState.active_of_runningOrHolding {j : JobState} (h : j.runningOrHolding = true) : j.active = true := by
  cases j with
  | running => rfl
  | holding => rfl
  | _ => cases h

theorem active_of_running {s : State} (hr : s.seq.state = .running) : s.seq.state.active = true := by rw [hr]; rfl

/-! ## Bind counts (R16, R24) -/

theorem State.BindsExact.congr {s t : State} (h : s.BindsExact) (hs : t.screens = s.screens) (hg : t.grads = s.grads)
    (hp : t.seq.plan = s.seq.plan) (ha : t.seq.state.active = s.seq.state.active) : t.BindsExact := by
  unfold State.BindsExact
  rw [hs, hg, hp, ha]
  exact h

theorem State.setTable_get (s : State) (slot i : Fin 16) (x : Table) :
    (s.setTable slot x).grads[i] = if i = slot then { s.grads[slot] with table := x } else s.grads[i] := updAt_get ..

theorem State.setScreen_get (s : State) (slot i : Fin 8) (x : Option Screen) :
    (s.setScreen slot x).screens[i] = if i = slot then { s.screens[slot] with screen := x } else s.screens[i] :=
  updAt_get ..

theorem State.arm_screens (s : State) (i : Fin 8) :
    s.arm.screens[i] =
      { s.screens[i] with binds := s.screens[i].binds + plannedHeads s.seq.plan fun e => e.screen = i } := by
  simp only [State.arm, State.setSeq_screens, State.setMonitor_screens, State.setLanes_screens, State.setTallies_screens,
    State.setGrads_screens, State.setScreens_screens, mapAll_get]

theorem State.arm_grads (s : State) (i : Fin 16) :
    s.arm.grads[i] =
      { s.grads[i] with binds := s.grads[i].binds + plannedHeads s.seq.plan fun e => e.grad = i } := by
  simp only [State.arm, State.setSeq_grads, State.setMonitor_grads, State.setLanes_grads, State.setTallies_grads,
    State.setGrads_grads, mapAll_get]

theorem State.arm_ports (s : State) : s.arm.ports = s.ports := by simp [State.arm]

theorem State.arm_tx (s : State) : s.arm.tx = s.tx := by simp [State.arm]

theorem State.arm_tallies (s : State) : s.arm.tallies = mapAll (fun _ _ => Tally.clear) s.tallies := by simp [State.arm]

theorem State.arm_monitor (s : State) : s.arm.monitor = s.monitor.arm s.seq.job := by simp [State.arm]

theorem State.arm_markCounter (s : State) : s.arm.markCounter = s.markCounter := by simp [State.arm]

theorem State.arm_captures (s : State) : s.arm.captures = s.captures := by simp [State.arm]

theorem State.arm_seq (s : State) :
    s.arm.seq = { s.seq with
      state := .armed, hold := false, advances := 0, idle := 0, consecutiveIdle := 0, retained := false, stalled := false
      heads := mapAll (fun h _ => s.itemsAtArm h) s.seq.heads } := rfl

theorem resetWorks_screens (s : State) (i : Fin 8) : (resetWorks s).screens[i] = { s.screens[i] with binds := 0 } := by
  simp only [resetWorks, mapAll_get]

theorem resetWorks_grads (s : State) (i : Fin 16) :
    (resetWorks s).grads[i] =
      { table := if s.grads[i].table = .expanding then .empty else s.grads[i].table, binds := 0 } := by
  simp only [resetWorks, mapAll_get]

theorem powerOn_screens (r a : PerHead Bool) (p : List Instr) (i : Fin 8) :
    (State.powerOn r a p).screens[i] = { screen := none, binds := 0 } := by
  simp only [State.powerOn, replicate_get]

theorem powerOn_grads (r a : PerHead Bool) (p : List Instr) (i : Fin 16) :
    (State.powerOn r a p).grads[i] = { table := .empty, binds := 0 } := by
  simp only [State.powerOn, replicate_get]

theorem powerOn_bindsExact (r a : PerHead Bool) (p : List Instr) : (State.powerOn r a p).BindsExact :=
  ⟨fun i => congrArg ScreenSlot.binds (powerOn_screens r a p i),
    fun i => congrArg GradSlot.binds (powerOn_grads r a p i)⟩

/-- Every slot's bind count stays exact. -/
theorem Change.keeps_bindsExact {s t : State} (hc : Change s t) (h : s.BindsExact) : t.BindsExact := by
  cases hc with
  | other hw => exact holds_of_works (fun _ => rfl) hw h
  | reset hw =>
    exact holds_of_works (P := State.BindsExact) (fun _ => rfl) hw
      ⟨fun i => congrArg ScreenSlot.binds (resetWorks_screens s i),
        fun i => congrArg GradSlot.binds (resetWorks_grads s i)⟩
  | powerOn r a p => exact powerOn_bindsExact r a p
  | strikes tick hr =>
    have hk := strikeAll_kept s tick
    exact h.congr hk.screens hk.grads hk.plan (congrArg _ hk.state)
  | endJob o =>
    exact ⟨fun i => by rw [State.endJob_screens, State.endJob_seq_state]; rfl,
      fun i => by rw [State.endJob_grads, State.endJob_seq_state]; rfl⟩
  | arm ha hp =>
    obtain ⟨hscreens, hgrads⟩ := h
    simp only [ha, Bool.false_eq_true, if_false] at hscreens hgrads
    exact ⟨fun i => by rw [State.arm_screens, hscreens i, Nat.zero_add]; rfl,
      fun i => by rw [State.arm_grads, hgrads i, Nat.zero_add]; rfl⟩
  | goTo j hs hj =>
    exact h.congr rfl rfl rfl
      ((JobState.active_of_runningOrHolding hj).trans (JobState.active_of_runningOrHolding hs).symm)
  | start ha => exact h.congr rfl rfl rfl (by rw [ha]; rfl)
  | plan v ha hv =>
    simp only [State.BindsExact, State.setSeq_screens, State.setSeq_grads, State.setSeq_seq, ha, Bool.false_eq_true,
      if_false] at h ⊢
    exact h
  | table slot x hx =>
    refine ⟨h.1, fun i => ?_⟩
    rw [← show s.grads[i].binds = (s.setTable slot x).grads[i].binds by
      rw [State.setTable_get]; split <;> simp_all]
    exact h.2 i
  | screen slot x hb hx =>
    refine ⟨fun i => ?_, h.2⟩
    rw [← show s.screens[i].binds = (s.setScreen slot x).screens[i].binds by
      rw [State.setScreen_get]; split <;> simp_all]
    exact h.1 i
  | _ => exact h

/-! ## Bound slots (R16, R24) -/

theorem plannedHeads_ne_zero {plan : PerHead (Option PlanEntry)} {ok : PlanEntry → Bool}
    (h : plannedHeads plan ok ≠ 0) : ∃ (g : HeadNo) (e : PlanEntry), plan[g] = some e ∧ ok e = true := by
  obtain ⟨g, -, hg⟩ := List.countP_pos_iff.mp (Nat.pos_of_ne_zero h)
  cases hp : plan[g] with
  | none => simp [hp] at hg
  | some e => exact ⟨g, e, hp, by simpa [hp] using hg⟩

/-- The slots of a planned head are counted among its screen's and its table's binds. -/
theorem plannedHeads_ne_zero_of {plan : PerHead (Option PlanEntry)} {ok : PlanEntry → Bool} {g : HeadNo} {e : PlanEntry}
    (hp : plan[g] = some e) (hok : ok e = true) : plannedHeads plan ok ≠ 0 := by
  refine Nat.pos_iff_ne_zero.mp (List.countP_pos_iff.mpr ⟨g, mem_allHeads g, ?_⟩)
  simp [hp, hok]

/-- At an ARM that no condition of R110 stops, every planned head's slots are READY. -/
theorem planFault_none {s : State} (hp : s.planFault = none) {g : HeadNo} {e : PlanEntry} (he : s.seq.plan[g] = some e) :
    (s.screens[e.screen].screen).isSome = true ∧ ∃ depths, s.grads[e.grad].table = .ready depths := by
  unfold State.planFault at hp
  split at hp
  · cases hp
  split at hp
  · cases hp
  have hg := List.findSome?_eq_none_iff.mp hp g (mem_allHeads g)
  rw [he] at hg
  simp only [Option.map_eq_none_iff] at hg
  unfold State.headPlanFault at hg
  split at hg
  · cases hg
  split at hg
  · cases hg
  split at hg
  · cases hg
  · next x hx =>
    split at hg
    · next depths hd => exact ⟨by rw [hx]; rfl, depths, hd⟩
    · cases hg

theorem powerOn_boundReady (r a : PerHead Bool) (p : List Instr) : (State.powerOn r a p).BoundReady :=
  ⟨fun i hb => absurd (congrArg ScreenSlot.binds (powerOn_screens r a p i)) hb,
    fun i hb => absurd (congrArg GradSlot.binds (powerOn_grads r a p i)) hb⟩

/-- A bound slot stays READY. -/
theorem Change.keeps_boundReady {s t : State} (hc : Change s t) (h : s.BoundReady) : t.BoundReady := by
  cases hc with
  | other hw => exact holds_of_works (fun _ => rfl) hw h
  | reset hw =>
    exact holds_of_works (P := State.BoundReady) (fun _ => rfl) hw
      ⟨fun i hb => absurd (congrArg ScreenSlot.binds (resetWorks_screens s i)) hb,
        fun i hb => absurd (congrArg GradSlot.binds (resetWorks_grads s i)) hb⟩
  | powerOn r a p => exact powerOn_boundReady r a p
  | strikes tick hr =>
    have hk := strikeAll_kept s tick
    unfold State.BoundReady
    rw [hk.screens, hk.grads]
    exact h
  | endJob o =>
    exact ⟨fun i hb => absurd (congrArg ScreenSlot.binds (State.endJob_screens s o i)) hb,
      fun i hb => absurd (congrArg GradSlot.binds (State.endJob_grads s o i)) hb⟩
  | arm ha hp =>
    constructor <;> intro i hb
    · rw [State.arm_screens] at hb ⊢
      by_cases hold : s.screens[i].binds = 0
      · obtain ⟨g, e, he, hi⟩ := plannedHeads_ne_zero fun hz => hb (congrArg₂ (· + ·) hold hz)
        obtain rfl := of_decide_eq_true hi
        exact (planFault_none hp he).1
      · exact h.1 i hold
    · rw [State.arm_grads] at hb ⊢
      by_cases hold : s.grads[i].binds = 0
      · obtain ⟨g, e, he, hi⟩ := plannedHeads_ne_zero fun hz => hb (congrArg₂ (· + ·) hold hz)
        obtain rfl := of_decide_eq_true hi
        exact (planFault_none hp he).2
      · exact h.2 i hold
  | table slot x hx =>
    refine ⟨h.1, fun i hb => ?_⟩
    rw [State.setTable_get] at hb ⊢
    split at hb
    · next hi =>
      rw [if_pos hi]
      exact hx.resolve_left hb
    · next hi =>
      rw [if_neg hi]
      exact h.2 i hb
  | screen slot x hb hx =>
    refine ⟨fun i hbound => ?_, h.2⟩
    rw [State.setScreen_get] at hbound ⊢
    split at hbound
    · exact absurd hb hbound
    · next hi =>
      rw [if_neg hi]
      exact h.1 i hbound
  | _ => exact h

/-! ## The hold request (R125) -/

theorem powerOn_holdOnlyRunning (r a : PerHead Bool) (p : List Instr) : (State.powerOn r a p).HoldOnlyRunning :=
  fun hold => Bool.noConfusion hold

/-- A hold request stands only in a running job. -/
theorem Change.keeps_holdOnlyRunning {s t : State} (hc : Change s t) (h : s.HoldOnlyRunning) : t.HoldOnlyRunning := by
  cases hc with
  | other hw => exact holds_of_works (fun _ => rfl) hw h
  | reset hw =>
    exact holds_of_works (P := State.HoldOnlyRunning) (fun _ => rfl) hw fun hold =>
      absurd hold (by simp [stateOfWorks, resetWorks])
  | powerOn r a p => exact powerOn_holdOnlyRunning r a p
  | strikes tick hr => exact fun _ => (strikeAll_kept s tick).state.trans hr
  | hold hr => exact fun _ => hr
  | goTo j hs hj => exact fun hold => Bool.noConfusion hold
  | start ha => exact fun _ => rfl
  | arm ha hp => exact fun hold => Bool.noConfusion hold
  | endJob o =>
    intro hold
    rw [State.endJob_seq] at hold
    exact Bool.noConfusion hold
  | _ => exact h

/-! ## The Monitor (R2, R5, R8, R103) -/

/-- The Monitor's part of the law of counts: the count below 2E, 0 while UNSYNCED, and the generator's place below E. -/
def Monitor.InRange (m : Monitor) : Prop :=
  m.count < 2 * m.e ∧ (m.sync = .unsynced → m.count = 0) ∧ (1024 ≤ m.e ∧ m.e ≤ 1048576) ∧ m.genNext < m.e

theorem countInRange_iff (s : State) :
    s.CountInRange ↔ s.monitor.InRange ∧ 1024 ≤ s.seq.job.e ∧ s.seq.job.e ≤ 1048576 := by
  unfold State.CountInRange Monitor.InRange
  tauto

theorem MonitorMove.keeps_inRange {m n : Monitor} (hm : MonitorMove m n) (h : m.InRange) : n.InRange := by
  obtain ⟨hcount, hunsynced, he, hgen⟩ := h
  cases hm with
  | unsync => exact ⟨by show 0 < 2 * m.e; omega, fun _ => rfl, he, hgen⟩
  | tick hs hn =>
    refine ⟨by show m.count + 1 < 2 * m.e; omega, fun hu => ?_, he, hgen⟩
    rw [show m.sync = .unsynced from hu] at hs
    cases hs
  | index =>
    have hpos : 0 < 2 * m.e := by omega
    unfold indexMonitor
    split
    · exact ⟨hpos, fun _ => rfl, he, hgen⟩
    · exact ⟨hpos, fun _ => rfl, he, hgen⟩
  | period => exact ⟨hcount, hunsynced, he, Nat.mod_lt _ (by omega)⟩

theorem default_e_inRange : 1024 ≤ JobRecord.default.e ∧ JobRecord.default.e ≤ 1048576 := by decide

/-- The Monitor's settings at reset (R2) are in range. -/
theorem Monitor.inRange_of_defaults {m : Monitor} (hc : m.count = 0) (he : m.e = 65536) (hg : m.genNext = 0) :
    m.InRange := by
  unfold Monitor.InRange
  rw [hc, he, hg]
  exact ⟨by decide, fun _ => rfl, by decide, by decide⟩

theorem Monitor.arm_inRange {m : Monitor} {j : JobRecord} (h : m.InRange) (hj : 1024 ≤ j.e ∧ j.e ≤ 1048576) :
    (m.arm j).InRange := by
  unfold Monitor.arm
  split
  · exact h
  · exact ⟨by show 0 < 2 * j.e; omega, fun _ => rfl, hj, by show 0 < j.e; omega⟩

theorem powerOn_countInRange (r a : PerHead Bool) (p : List Instr) : (State.powerOn r a p).CountInRange :=
  (countInRange_iff _).mpr ⟨Monitor.inRange_of_defaults rfl rfl rfl, default_e_inRange⟩

/-- The Monitor's count, E and the generator's place stay in range. -/
theorem Change.keeps_countInRange {s t : State} (hc : Change s t) (h : s.CountInRange) : t.CountInRange := by
  cases hc with
  | other hw => exact holds_of_works (fun _ => rfl) hw h
  | reset hw =>
    exact holds_of_works (P := State.CountInRange) (fun _ => rfl) hw
      ((countInRange_iff _).mpr ⟨Monitor.inRange_of_defaults rfl rfl rfl, default_e_inRange⟩)
  | powerOn r a p => exact powerOn_countInRange r a p
  | strikes tick hr =>
    have hk := strikeAll_kept s tick
    rw [countInRange_iff] at h ⊢
    rw [hk.monitor, hk.job]
    exact h
  | monitor m hm =>
    rw [countInRange_iff] at h ⊢
    exact ⟨hm.keeps_inRange h.1, h.2⟩
  | setJob j ha he =>
    rw [countInRange_iff] at h ⊢
    exact ⟨h.1, he⟩
  | arm ha hp =>
    rw [countInRange_iff] at h ⊢
    exact ⟨Monitor.arm_inRange h.1 h.2, h.2⟩
  | endJob o =>
    rw [countInRange_iff] at h ⊢
    rw [State.endJob_monitor, State.endJob_seq]
    exact h
  | _ => exact h

/-! ## Heads and their lift (R68, R109, R129) -/

theorem isCutting_iff (i : HeadItems) : i.isCutting = true ↔ ∃ j, i.state = .cutting j := by
  unfold HeadItems.isCutting
  cases i.state <;> simp

theorem HeadItems.stopCut_not_cutting (i : HeadItems) : i.stopCut.isCutting = false := by
  unfold HeadItems.stopCut
  split
  · rfl
  · next h => exact Bool.eq_false_iff.mpr h

/-- A head that is OUT stays OUT at a turning back and at the stop of a cut. -/
theorem HeadItems.suspect_out {i : HeadItems} (h : i.state = .out) : i.turnBack.stopCut.state = .out := by
  unfold HeadItems.turnBack HeadItems.stopCut HeadItems.isCutting
  cases i.justCut <;> simp [h]

/-- The lift and the calibration of a head's port after the strikes of a tick: an ENGAGED port has been ENGAGED, and its head
goes on CUTTING in a CUT job if it did before. -/
theorem strikes_engaged {u : State} {tick : Nat} {h : HeadNo} (hl : (portAfter u tick h).lift ≠ .lifted) :
    u.ports[h].lift ≠ .lifted ∧ (u.cutting h = true → (itemsAfter u tick h).isCutting = true) := by
  unfold portAfter at hl
  unfold itemsAfter State.cutting
  cases hd : dueStrike u tick h with
  | none => rw [hd] at hl; exact ⟨hl, id⟩
  | some x =>
    obtain ⟨c, r⟩ := x
    rw [hd] at hl
    dsimp only at hl ⊢
    split at hl
    · next he =>
      simp only [Bool.and_eq_true, decide_eq_true_eq, Bool.not_eq_true'] at he
      rw [if_neg (by rw [he.2]; decide)]
      exact ⟨he.1, fun _ => rfl⟩
    · exact absurd rfl hl

/-- Inside a job a head moves to CUTTING from nowhere but CUTTING, with its next cell. -/
theorem HeadMove.cutting_of {s : State} {h : HeadNo} {i : HeadItems} (hm : HeadMove s h i) {j : Nat}
    (hj : i.state = .cutting j) : s.seq.heads[h].state = .cutting j := by
  cases hm with
  | same => exact hj
  | clearCut => exact hj
  | advance => exact hj
  | suspect hl =>
    have := s.seq.heads[h].turnBack.stopCut_not_cutting
    rw [(isCutting_iff _).mpr ⟨j, hj⟩] at this
    cases this
  | fault hw => cases hj
  | faultCut hc hl => cases hj
  | cleared hm =>
    have hj' : s.clearedState h = .cutting j := hj
    unfold State.clearedState at hj'
    split_ifs at hj'
  | discard hr =>
    unfold HeadItems.discard at hj
    split at hj
    · dsimp only at hj
      split at hj
      · cases hj
      · exact hj
    · exact hj

/-- Inside a job a head that is OUT stays OUT. -/
theorem HeadMove.out_of_out {s : State} {h : HeadNo} {i : HeadItems} (hm : HeadMove s h i)
    (ho : s.seq.heads[h].state = .out) : i.state = .out := by
  cases hm with
  | same => exact ho
  | clearCut => exact ho
  | advance => exact ho
  | suspect hl => exact HeadItems.suspect_out ho
  | fault hw => rw [ho] at hw; simp at hw
  | faultCut hc hl => simp [State.cutting, HeadItems.isCutting, -Fin.getElem_fin, ho] at hc
  | cleared hm => simp [State.mayClearFault, -Fin.getElem_fin, ho] at hm
  | discard hr =>
    unfold HeadItems.discard
    split
    · simp [-Fin.getElem_fin, ho]
    · exact ho

/-- A CUTTING head that moves inside a job goes on CUTTING, unless its port is LIFTED. -/
theorem HeadMove.cutting_or_lifted {s : State} {h : HeadNo} {i : HeadItems} (hm : HeadMove s h i)
    (hc : s.cutting h = true) : i.isCutting = true ∨ s.ports[h].lift = .lifted := by
  obtain ⟨j, hj⟩ := (isCutting_iff _).mp hc
  cases hm with
  | same => exact .inl hc
  | clearCut => exact .inl hc
  | advance => exact .inl hc
  | suspect hl => exact .inr (hl hc)
  | fault hw => rw [hj] at hw; simp at hw
  | faultCut _ hl => exact .inr hl
  | cleared hm => simp [State.mayClearFault, -Fin.getElem_fin, hj] at hm
  | discard hr =>
    refine .inl ((isCutting_iff _).mpr ⟨j, ?_⟩)
    unfold HeadItems.discard
    split
    · simp [-Fin.getElem_fin, hj]
    · exact hj

/-- A law of one head's port and items, kept by a change of one port that leaves its lift. -/
theorem State.EngagedOnlyCutting.updPort {s : State} (h : s.EngagedOnlyCutting) (g : HeadNo) (f : HeadPort → HeadPort)
    (hf : (f s.ports[g]).lift = s.ports[g].lift) : (s.updPort g f).EngagedOnlyCutting := by
  refine ⟨h.1, fun x hx => h.2 x ?_⟩
  rw [State.updPort_get] at hx
  split at hx
  · next hg => subst hg; rwa [hf] at hx
  · exact hx

theorem resetWorks_heads (s : State) (h : HeadNo) :
    (resetWorks s).seq.heads[h] =
      { state := .out, next := s.seq.heads[h].next, interrupted := false, faultPosition := false, justCut := none } := by
  simp only [resetWorks, mapAll_get]

theorem resetWorks_ports (s : State) (h : HeadNo) :
    (resetWorks s).ports[h] = { s.ports[h] with
      lift := .lifted, ready := normal s.ports[h].cal.readyPolarity s.ports[h].readyLine
      alarm := normal s.ports[h].cal.alarmPolarity s.ports[h].alarmLine } := by
  simp only [resetWorks, mapAll_get]

theorem powerOn_heads (r a : PerHead Bool) (p : List Instr) (h : HeadNo) :
    (State.powerOn r a p).seq.heads[h] = .powerOn := by
  simp only [State.powerOn, Sequencer.powerOn, replicate_get]

theorem powerOn_ports (r a : PerHead Bool) (p : List Instr) (h : HeadNo) :
    (State.powerOn r a p).ports[h] = .powerOn r[h] a[h] := by
  simp only [State.powerOn, ofFn_get]

theorem startsFrom_heads (u : State) (src : SlotUse) (heads : HeadNo → Bool) (h : HeadNo) :
    (startsFrom u src heads).seq.heads[h] =
      if heads h then { u.seq.heads[h] with state := .cutting 0, interrupted := false } else u.seq.heads[h] := by
  simp only [startsFrom, mapAll_get]

theorem startsFrom_ports (u : State) (src : SlotUse) (heads : HeadNo → Bool) (h : HeadNo) :
    (startsFrom u src heads).ports[h] =
      if heads h && decide (u.seq.job.mode = .cut) then { u.ports[h] with lift := .engaged u.ports[h].cal.rest }
      else u.ports[h] := by
  simp only [startsFrom, mapAll_get]

theorem powerOn_engagedOnlyCutting (r a : PerHead Bool) (p : List Instr) : (State.powerOn r a p).EngagedOnlyCutting :=
  ⟨fun _ g => congrArg HeadItems.state (powerOn_heads r a p g),
    fun g hl => absurd (congrArg HeadPort.lift (powerOn_ports r a p g)) hl⟩

/-- Heads are OUT and LIFTED outside a job, and ENGAGED only while CUTTING in a CUT job. -/
theorem Change.keeps_engagedOnlyCutting {s t : State} (hc : Change s t) (h : s.EngagedOnlyCutting) :
    t.EngagedOnlyCutting := by
  obtain ⟨hout, hengaged⟩ := h
  have hlifted : s.seq.state.active = false → ∀ g : HeadNo, ¬ s.ports[g].lift ≠ .lifted := fun ha g hl => by
    have hcut := (hengaged g hl).1
    simp [State.cutting, HeadItems.isCutting, -Fin.getElem_fin, hout ha g] at hcut
  cases hc with
  | other hw => exact holds_of_works (P := State.EngagedOnlyCutting) (fun _ => rfl) hw ⟨hout, hengaged⟩
  | reset hw =>
    refine holds_of_works (P := State.EngagedOnlyCutting) (fun _ => rfl) hw ⟨fun _ g => ?_, fun g hl => absurd ?_ hl⟩
    · exact congrArg HeadItems.state (resetWorks_heads s g)
    · exact congrArg HeadPort.lift (resetWorks_ports s g)
  | powerOn r a p => exact powerOn_engagedOnlyCutting r a p
  | endJob o =>
    exact ⟨fun _ g => congrArg HeadItems.state (State.endJob_heads s o g),
      fun g hl => absurd (congrArg HeadPort.lift (State.endJob_ports s o g)) hl⟩
  | lift heads =>
    refine ⟨hout, fun g hl => hengaged g ?_⟩
    rw [State.liftHeads_get] at hl
    split at hl
    · exact absurd rfl hl
    · exact hl
  | lines g ready alarm => exact State.EngagedOnlyCutting.updPort ⟨hout, hengaged⟩ g _ rfl
  | calibrate g cal hr hd => exact State.EngagedOnlyCutting.updPort ⟨hout, hengaged⟩ g _ rfl
  | stylus g => exact State.EngagedOnlyCutting.updPort ⟨hout, hengaged⟩ g _ rfl
  | goTo j hs hj =>
    refine ⟨fun ha => ?_, hengaged⟩
    have hactive : j.active = true := JobState.active_of_runningOrHolding hj
    exact absurd (hactive.symm.trans ha) (by decide)
  | heads v hv =>
    refine ⟨fun ha g => (hv g).out_of_out (hout ha g), fun g hl => ?_⟩
    obtain ⟨hcut, hmode⟩ := hengaged g hl
    exact ⟨((hv g).cutting_or_lifted hcut).resolve_right hl, hmode⟩
  | strikes tick hr =>
    have hk := strikeAll_kept s tick
    refine ⟨fun ha => ?_, fun g hl => ?_⟩
    · rw [hk.state, active_of_running hr] at ha
      cases ha
    · rw [strikeAll_ports] at hl
      obtain ⟨hbefore, hgoes⟩ := strikes_engaged hl
      obtain ⟨hcut, hmode⟩ := hengaged g hbefore
      rw [State.cutting, strikeAll_heads, hk.job]
      exact ⟨hgoes hcut, hmode⟩
  | starts src heads hr hh =>
    refine ⟨fun ha => ?_, fun g hl => ?_⟩
    · exact absurd ((active_of_running hr).symm.trans ha) (by decide)
    · rw [startsFrom_ports] at hl
      rw [State.cutting, startsFrom_heads]
      show _ ∧ s.seq.job.mode = .cut
      split at hl
      · next hg =>
        simp only [Bool.and_eq_true, decide_eq_true_eq] at hg
        rw [if_pos hg.1]
        exact ⟨rfl, hg.2⟩
      · obtain ⟨hcut, hmode⟩ := hengaged g hl
        refine ⟨?_, hmode⟩
        split
        · rfl
        · exact hcut
  | start ha =>
    refine ⟨fun hna => Bool.noConfusion hna, fun g hl => ?_⟩
    obtain ⟨hcut, hmode⟩ := hengaged g hl
    refine ⟨?_, hmode⟩
    obtain ⟨j, hj⟩ := (isCutting_iff _).mp hcut
    rw [State.cutting, State.setJobState_seq_heads, State.mapHeads_get]
    simp [HeadItems.isCutting, -Fin.getElem_fin, hj]
  | setJob j ha he => exact ⟨hout, fun g hl => absurd hl (hlifted ha g)⟩
  | arm ha hp =>
    refine ⟨fun hna => ?_, fun g hl => ?_⟩
    · rw [State.arm_seq] at hna
      cases hna
    · rw [State.arm_ports] at hl
      exact absurd hl (hlifted ha g)
  | _ => exact ⟨hout, hengaged⟩

/-! ## Lanes (R79 to R81, R101, R102) -/

theorem laneAfter_tag (u : State) (tick : Nat) (h : HeadNo) :
    (laneAfter u tick h).map (fun l => (l.tag, l.tracks)) = u.lanes[h].map (fun l => (l.tag, l.tracks)) := by
  unfold laneAfter
  split
  · rfl
  · split
    · rw [Option.map_map]; rfl
    · rfl

/-- The law of lanes for one head: an OPEN lane is a planned head's, with its tag and track count, in a job in hand, and a
ROOM mark is an OPEN lane's. -/
def lanePlanned (job : Bool) (plan : Option (Byte × Nat)) (lane : Option (Byte × Nat)) (room : Bool) : Prop :=
  (∀ l, lane = some l → job = true ∧ plan = some l) ∧ (room = true → lane.isSome = true)

theorem lanesPlanned_iff (s : State) :
    s.LanesPlanned ↔ ∀ h : HeadNo, lanePlanned s.seq.state.active ((s.seq.plan[h]).map fun e => (e.tag, e.tracks))
      (s.lanes[h].map fun l => (l.tag, l.tracks)) s.tx.room[h] := by
  refine forall_congr' fun h => and_congr ⟨fun hl l hm => ?_, fun hl l hm => ?_⟩ (by rw [Option.isSome_map])
  · obtain ⟨m, hlane, rfl⟩ := Option.map_eq_some_iff.mp hm
    exact hl m hlane
  · exact hl _ (by rw [hm]; rfl)

/-- A CLOSED lane with no ROOM mark keeps the law. -/
theorem lanePlanned_closed (job : Bool) (plan : Option (Byte × Nat)) : lanePlanned job plan none false := by
  simp [lanePlanned]

/-- Outside a job every lane is CLOSED and has no ROOM mark. -/
theorem lanePlanned_of_inactive {plan lane : Option (Byte × Nat)} {room : Bool} (h : lanePlanned false plan lane room) :
    lane = none ∧ room = false := by
  obtain ⟨hl, hr⟩ := h
  cases lane with
  | none => exact ⟨rfl, by simpa using hr⟩
  | some l => exact absurd (hl l rfl).1 (by decide)

theorem State.arm_lanes (s : State) (h : HeadNo) : s.arm.lanes[h] = s.laneAtArm h := by
  simp only [State.arm, State.setSeq_lanes, State.setMonitor_lanes, State.setLanes_lanes, mapAll_get]

theorem laneAtArm_tag {s : State} {h : HeadNo} {l : Lane} (hl : s.laneAtArm h = some l) :
    (s.seq.plan[h]).map (fun e => (e.tag, e.tracks)) = some (l.tag, l.tracks) := by
  unfold State.laneAtArm at hl
  split at hl
  · next e he =>
    obtain ⟨x, -, rfl⟩ := Option.map_eq_some_iff.mp hl
    rw [he]; rfl
  · cases hl

theorem startsFrom_lanes (u : State) (src : SlotUse) (heads : HeadNo → Bool) (h : HeadNo) :
    (startsFrom u src heads).lanes[h].map (fun l => (l.tag, l.tracks)) = u.lanes[h].map fun l => (l.tag, l.tracks) := by
  simp only [startsFrom, mapAll_get, Option.map_map]
  congr 1
  funext l
  simp only [Function.comp]
  split <;> rfl

theorem powerOn_lanesPlanned (r a : PerHead Bool) (p : List Instr) : (State.powerOn r a p).LanesPlanned := by
  refine (lanesPlanned_iff _).mpr fun g => ?_
  simp only [State.powerOn, replicate_get]
  exact lanePlanned_closed _ _

/-- Lanes are OPEN only for planned heads of a job in hand, with their tags and track counts. -/
theorem Change.keeps_lanesPlanned {s t : State} (hc : Change s t) (h : s.LanesPlanned) : t.LanesPlanned := by
  have hl := (lanesPlanned_iff s).mp h
  cases hc with
  | other hw => exact holds_of_works (P := State.LanesPlanned) (fun _ => rfl) hw h
  | reset hw =>
    refine holds_of_works (P := State.LanesPlanned) (fun _ => rfl) hw ((lanesPlanned_iff _).mpr fun g => ?_)
    simp only [stateOfWorks, resetWorks, replicate_get]
    exact lanePlanned_closed _ _
  | powerOn r a p => exact powerOn_lanesPlanned r a p
  | endJob o =>
    refine (lanesPlanned_iff _).mpr fun g => ?_
    rw [State.endJob_lanes, State.endJob_room]
    exact lanePlanned_closed _ _
  | lanes v hv =>
    refine (lanesPlanned_iff _).mpr fun g => ?_
    show lanePlanned _ _ (v[g].map _) _
    rw [hv g]
    exact hl g
  | room v hv =>
    refine fun g => ⟨(h g).1, fun hroom => ?_⟩
    exact (hv g hroom).elim (h g).2 id
  | strikes tick hr =>
    have hk := strikeAll_kept s tick
    refine (lanesPlanned_iff _).mpr fun g => ?_
    rw [strikeAll_lanes, laneAfter_tag, hk.state, hk.plan, hk.room]
    exact hl g
  | starts src heads hr hh =>
    refine (lanesPlanned_iff _).mpr fun g => ?_
    rw [startsFrom_lanes]
    exact hl g
  | goTo j hs hj =>
    refine (lanesPlanned_iff _).mpr fun g => ?_
    have hg := hl g
    rw [JobState.active_of_runningOrHolding hs] at hg
    show lanePlanned j.active _ _ _
    rw [JobState.active_of_runningOrHolding hj]
    exact hg
  | start ha =>
    refine (lanesPlanned_iff _).mpr fun g => ?_
    have hg := hl g
    rw [ha] at hg
    exact hg
  | plan v ha hv =>
    refine (lanesPlanned_iff _).mpr fun g => ?_
    have hg := hl g
    rw [ha] at hg
    obtain ⟨hnone, hroom⟩ := lanePlanned_of_inactive hg
    show lanePlanned _ _ (s.lanes[g].map _) s.tx.room[g]
    rw [hnone, hroom]
    exact lanePlanned_closed _ _
  | arm ha hp =>
    intro g
    have hg := hl g
    rw [ha] at hg
    rw [State.arm_lanes, State.arm_seq, State.arm_tx]
    refine ⟨fun l hlane => ⟨rfl, laneAtArm_tag hlane⟩, fun hroom => ?_⟩
    exact absurd (hroom.symm.trans (lanePlanned_of_inactive hg).2) (by decide)
  | _ => exact h

/-! ## The job's laws together -/

/-- Every elementary change keeps the job's laws. -/
theorem Change.keeps_jobLaws {s t : State} (hc : Change s t) (h : JobLaws s) : JobLaws t := by
  obtain ⟨hbinds, hready, hengaged, hhold, hlanes, hcount⟩ := h
  exact ⟨hc.keeps_bindsExact hbinds, hc.keeps_boundReady hready, hc.keeps_engagedOnlyCutting hengaged,
    hc.keeps_holdOnlyRunning hhold, hc.keeps_lanesPlanned hlanes, hc.keeps_countInRange hcount⟩

/-- Settles O57: every step is a chain of elementary changes, and each of them keeps the job's laws. -/
theorem stepKeepsTheJobLaws : Obligations.StepKeepsTheJobLaws :=
  fun _ _ hs hstep => step_keeps_of_change (fun _ _ => Change.keeps_jobLaws) hstep hs

end Sys2Proof.Machine
end

