-- ==== Sys2Proof/Proofs/RangeLaws.lean ====
section
/-! SUPPORT. The ranges of every state, law by law through the elementary changes: inputs, DRIVE codes, captures and
counts. -/

namespace Sys2Proof.Machine

open Sys2Proof Sys2Proof.Claims

/-! ## Inputs (R66) -/

/-- A port's normalized inputs are those of its lines and polarities (R66). -/
def HeadPort.InputsRead (p : HeadPort) : Prop :=
  p.ready = normalized p.cal.readyPolarity p.readyLine ∧ p.alarm = normalized p.cal.alarmPolarity p.alarmLine

theorem HeadPort.reread_inputsRead (p : HeadPort) : p.reread.InputsRead := ⟨rfl, rfl⟩

/-- A law of every Head Port, at the port changed and at the others. -/
theorem updPort_all {P : HeadPort → Prop} {s : State} (h : HeadNo) (f : HeadPort → HeadPort)
    (hs : ∀ g : HeadNo, P s.ports[g]) (hf : P (f s.ports[h])) (g : HeadNo) : P (s.updPort h f).ports[g] := by
  rw [State.updPort_get]
  split
  · next hg => subst hg; exact hf
  · exact hs g

/-- A strike leaves a port its calibration, its lines and its inputs (R55). -/
theorem portAfter_inputs (u : State) (tick : Nat) (h : HeadNo) (hp : u.ports[h].InputsRead) :
    (portAfter u tick h).InputsRead := by
  unfold portAfter
  split <;> exact hp

theorem powerOn_inputsNormalized (r a : PerHead Bool) (p : List Instr) : (State.powerOn r a p).InputsNormalized := by
  intro g
  rw [powerOn_ports]
  exact ⟨rfl, rfl⟩

theorem Change.keeps_inputsNormalized {s t : State} (hc : Change s t) (h : s.InputsNormalized) : t.InputsNormalized := by
  cases hc with
  | other hw => exact holds_of_works (fun _ => rfl) hw h
  | reset hw =>
    refine holds_of_works (P := State.InputsNormalized) (fun _ => rfl) hw fun g => ?_
    show HeadPort.InputsRead (resetWorks s).ports[g]
    rw [resetWorks_ports]
    exact ⟨(normalized_eq_normal _ _).symm, (normalized_eq_normal _ _).symm⟩
  | powerOn r a p => exact powerOn_inputsNormalized r a p
  | strikes tick hr =>
    intro g
    rw [strikeAll_ports]
    exact portAfter_inputs s tick g (h g)
  | endJob o =>
    intro g
    rw [State.endJob_ports]
    exact h g
  | lift heads =>
    intro g
    rw [State.liftHeads_get]
    split <;> exact h g
  | lines g ready alarm => exact updPort_all (P := HeadPort.InputsRead) g _ h (HeadPort.reread_inputsRead _)
  | calibrate g cal hr hd => exact updPort_all (P := HeadPort.InputsRead) g _ h (HeadPort.reread_inputsRead _)
  | stylus g => exact updPort_all (P := HeadPort.InputsRead) g _ h (h g)
  | starts src heads hr hh =>
    intro g
    rw [startsFrom_ports]
    split <;> exact h g
  | arm ha hp =>
    intro g
    rw [State.arm_ports]
    exact h g
  | _ => exact h

/-! ## DRIVE codes (R52, R60, R70, R71) -/

/-- A port's rest code, the code it presents and that of its latest stroke lie in 0..4095. -/
def HeadPort.CodesInRange (p : HeadPort) : Prop := p.cal.rest ≤ 4095 ∧ p.driveLine ≤ 4095 ∧ p.strokeCode ≤ 4095

/-- A port presents its rest code, or the code it is ENGAGED with. -/
theorem HeadPort.driveLine_le {p : HeadPort} (hr : p.cal.rest ≤ 4095)
    (he : ∀ code, p.lift = .engaged code → code ≤ 4095) : p.driveLine ≤ 4095 := by
  unfold HeadPort.driveLine
  split
  · exact hr
  · next code hl => exact he code hl

theorem HeadPort.engaged_le {p : HeadPort} (h : p.CodesInRange) {code : Nat} (hl : p.lift = .engaged code) :
    code ≤ 4095 := by
  have hdrive := h.2.1
  unfold HeadPort.driveLine at hdrive
  rwa [hl] at hdrive

theorem HeadPort.codesInRange_of_lifted {p : HeadPort} (hl : p.lift = .lifted) (hr : p.cal.rest ≤ 4095)
    (hs : p.strokeCode ≤ 4095) : p.CodesInRange :=
  ⟨hr, HeadPort.driveLine_le hr fun code he => (by rw [hl] at he; cases he), hs⟩

theorem clampCode_le (code : Int) : clampCode code ≤ 4095 := by unfold clampCode; omega

/-- A strike's code is the rest code or a clamped one (R52, R56). -/
theorem computeStrike_code_le {i : StrikeInput} (hr : i.cal.rest ≤ 4095) : (computeStrike i).code ≤ 4095 := by
  unfold computeStrike
  simp only []
  split
  · exact hr
  · exact clampCode_le _

theorem portAfter_codes (u : State) (tick : Nat) (h : HeadNo) (hp : u.ports[h].CodesInRange) :
    (portAfter u tick h).CodesInRange := by
  obtain ⟨hrest, hdrive, hstroke⟩ := hp
  unfold portAfter
  split
  · exact ⟨hrest, hdrive, hstroke⟩
  next c r hd =>
  obtain ⟨-, -, rfl⟩ := dueStrike_eq_some.mp hd
  have hcode : (computeStrike (u.strikeInput h c)).code ≤ 4095 := computeStrike_code_le hrest
  have hpresented : (if decide (u.ports[h].lift ≠ .lifted) = true then (computeStrike (u.strikeInput h c)).code
      else u.ports[h].strokeCode) ≤ 4095 := by
    split
    · exact hcode
    · exact hstroke
  refine ⟨hrest, ?_, hpresented⟩
  refine HeadPort.driveLine_le hrest fun code hl => ?_
  dsimp only at hl
  split at hl
  · cases hl; exact hcode
  · cases hl

theorem powerOn_driveInRange (r a : PerHead Bool) (p : List Instr) : (State.powerOn r a p).DriveInRange := by
  intro g
  rw [powerOn_ports]
  exact HeadPort.codesInRange_of_lifted rfl (Nat.zero_le _) (Nat.zero_le _)

theorem Change.keeps_driveInRange {s t : State} (hc : Change s t) (h : s.DriveInRange) : t.DriveInRange := by
  cases hc with
  | other hw => exact holds_of_works (fun _ => rfl) hw h
  | reset hw =>
    refine holds_of_works (P := State.DriveInRange) (fun _ => rfl) hw fun g => ?_
    show HeadPort.CodesInRange (resetWorks s).ports[g]
    rw [resetWorks_ports]
    exact HeadPort.codesInRange_of_lifted rfl (h g).1 (h g).2.2
  | powerOn r a p => exact powerOn_driveInRange r a p
  | strikes tick hr =>
    intro g
    rw [strikeAll_ports]
    exact portAfter_codes s tick g (h g)
  | endJob o =>
    intro g
    rw [State.endJob_ports]
    exact HeadPort.codesInRange_of_lifted rfl (h g).1 (h g).2.2
  | lift heads =>
    intro g
    rw [State.liftHeads_get]
    split
    · exact HeadPort.codesInRange_of_lifted rfl (h g).1 (h g).2.2
    · exact h g
  | lines g ready alarm => exact updPort_all (P := HeadPort.CodesInRange) g _ h (h g)
  | calibrate g cal hr hd =>
    exact updPort_all (P := HeadPort.CodesInRange) g _ h
      ⟨hr, HeadPort.driveLine_le hr fun code hl => HeadPort.engaged_le (h g) hl, (h g).2.2⟩
  | stylus g => exact updPort_all (P := HeadPort.CodesInRange) g _ h (h g)
  | starts src heads hr hh =>
    intro g
    rw [startsFrom_ports]
    split
    · exact ⟨(h g).1, (h g).1, (h g).2.2⟩
    · exact h g
  | arm ha hp =>
    intro g
    rw [State.arm_ports]
    exact h g
  | _ => exact h

/-! ## Captures (R142, R146) -/

/-- A capture of the list holds no more than it reserves, and has room until it is FULL. -/
def Capture.Formed (c : Capture) : Prop :=
  (1 ≤ c.id ∧ c.id ≤ 8) ∧ c.entries.length ≤ c.length ∧ (c.state ≠ .full → c.entries.length < c.length)

theorem endCapture_formed (heads : HeadNo → Bool) {c : Capture} (h : c.Formed) : (endCapture heads c).Formed := by
  unfold endCapture
  split
  · exact ⟨h.1, h.2.1, fun hn => absurd rfl hn⟩
  · exact h

theorem endCapture_id (heads : HeadNo → Bool) (c : Capture) : (endCapture heads c).id = c.id := by
  unfold endCapture
  split <;> rfl

/-- At a tick a capture takes nothing, or it takes one entry and is FULL when that is its last (R144 to R146). -/
theorem captureAfter_cases (u : State) (tick : Nat) (c : Capture) :
    captureAfter u tick c = c ∨ c.state ≠ .full ∧ ∃ (e : CaptureEntry) (st : CaptureState),
      captureAfter u tick c = { c with entries := c.entries ++ [e], state := st } ∧
      (c.length ≤ c.entries.length + 1 → st = .full) := by
  unfold captureAfter
  cases dueStrike u tick c.head with
  | none => exact .inl rfl
  | some x =>
    obtain ⟨x, r⟩ := x
    dsimp only
    by_cases htakes : c.track = x.track ∧ c.state ≠ .full ∧
        x.index = (if c.state = .waiting then c.first else c.first + c.entries.length)
    · rw [if_pos htakes]
      exact .inr ⟨htakes.2.1, _, _, rfl, fun hl => if_pos (.inl hl)⟩
    · rw [if_neg htakes]
      exact .inl rfl

theorem captureAfter_id (u : State) (tick : Nat) (c : Capture) : (captureAfter u tick c).id = c.id := by
  obtain hc | ⟨-, e, st, hc, -⟩ := captureAfter_cases u tick c <;> rw [hc]

theorem captureAfter_formed (u : State) (tick : Nat) {c : Capture} (h : c.Formed) : (captureAfter u tick c).Formed := by
  obtain hc | ⟨hnot, e, st, hc, hfull⟩ := captureAfter_cases u tick c
  · rw [hc]; exact h
  · obtain ⟨hid, hlength, hroom⟩ := h
    have hlt := hroom hnot
    have hentries : (c.entries ++ [e]).length = c.entries.length + 1 := List.length_append
    rw [hc]
    refine ⟨hid, hentries.trans_le hlt, fun hn => ?_⟩
    rw [hentries]
    by_contra hge
    exact hn (hfull (Nat.not_lt.mp hge))

/-- A list of captures stays formed when each capture keeps its id and stays formed. -/
theorem capturesFormed_map {captures : List Capture} {f : Capture → Capture} (hid : ∀ c, (f c).id = c.id)
    (hf : ∀ c : Capture, c.Formed → (f c).Formed)
    (h : (captures.map Capture.id).Nodup ∧ ∀ c ∈ captures, c.Formed) :
    ((captures.map f).map Capture.id).Nodup ∧ ∀ c ∈ captures.map f, c.Formed := by
  constructor
  · rw [List.map_map, show Capture.id ∘ f = Capture.id from funext hid]
    exact h.1
  · intro c hc
    obtain ⟨d, hd, rfl⟩ := List.mem_map.mp hc
    exact hf d (h.2 d hd)

theorem powerOn_capturesFormed (r a : PerHead Bool) (p : List Instr) : (State.powerOn r a p).CapturesFormed :=
  ⟨List.nodup_nil, by simp [State.powerOn]⟩

theorem Change.keeps_capturesFormed {s t : State} (hc : Change s t) (h : s.CapturesFormed) : t.CapturesFormed := by
  cases hc with
  | other hw => exact holds_of_works (fun _ => rfl) hw h
  | reset hw =>
    exact holds_of_works (P := State.CapturesFormed) (fun _ => rfl) hw
      ⟨List.nodup_nil, by simp [stateOfWorks, resetWorks]⟩
  | powerOn r a p => exact powerOn_capturesFormed r a p
  | strikes tick hr =>
    unfold State.CapturesFormed
    rw [strikeAll_captures]
    exact capturesFormed_map (captureAfter_id s tick) (fun c => captureAfter_formed s tick) h
  | endJob o =>
    have hcaptures : (s.endJob o).captures = s.captures.map (endCapture fun _ => true) :=
      congrArg Works.captures (worksOf_endJob s o)
    unfold State.CapturesFormed
    rw [hcaptures]
    exact capturesFormed_map (endCapture_id _) (fun c => endCapture_formed _) h
  | captureEnd heads => exact capturesFormed_map (endCapture_id heads) (fun c => endCapture_formed heads) h
  | define c hid hl he hn =>
    refine ⟨?_, fun d hd => ?_⟩
    · show ((s.captures ++ [c]).map Capture.id).Nodup
      rw [List.map_append]
      refine List.nodup_append.mpr ⟨h.1, List.nodup_singleton _, fun a ha b hb hab => ?_⟩
      obtain ⟨d, hd, rfl⟩ := List.mem_map.mp ha
      obtain rfl := List.mem_singleton.mp hb
      exact List.find?_eq_none.mp hn d hd (decide_eq_true hab)
    · obtain hd | hd := List.mem_append.mp hd
      · exact h.2 d hd
      · obtain rfl := List.mem_singleton.mp hd
        rw [he]
        exact ⟨hid, Nat.zero_le _, fun _ => hl⟩
  | delete id =>
    exact ⟨h.1.sublist (List.filter_sublist.map _), fun c hc => h.2 c (List.mem_of_mem_filter hc)⟩
  | arm ha hp =>
    unfold State.CapturesFormed
    rw [State.arm_captures]
    exact h
  | _ => exact h

/-! ## Counts (R2, R64, R108, R133, R138) -/

/-- A head's strike counter and tally counts are within their widths. -/
def headCounts (strikes : Nat) (t : Tally) : Prop :=
  strikes ≤ Config.max32 ∧ t.job ≤ Config.max48 ∧ t.cut ≤ Config.max32 ∧ t.uncut ≤ Config.max32 ∧
  t.depthClamps ≤ Config.max32 ∧ t.driveClamps ≤ Config.max32

theorem headCounts_clear {n : Nat} (h : n ≤ Config.max32) : headCounts n .clear :=
  ⟨h, Nat.zero_le _, Nat.zero_le _, Nat.zero_le _, Nat.zero_le _, Nat.zero_le _⟩

theorem portAfter_strikes_le (u : State) (tick : Nat) (h : HeadNo) (hp : u.ports[h].strikes ≤ Config.max32) :
    (portAfter u tick h).strikes ≤ Config.max32 := by
  unfold portAfter
  split
  · exact hp
  · dsimp only
    split
    · exact Nat.min_le_left _ _
    · exact hp

theorem headCounts_struck (u : State) (tick : Nat) (h : HeadNo) (hh : headCounts u.ports[h].strikes u.tallies[h]) :
    headCounts (portAfter u tick h).strikes (tallyAfter u tick h) := by
  refine ⟨portAfter_strikes_le u tick h hh.1, ?_⟩
  unfold tallyAfter
  split
  · exact hh.2
  · refine ⟨Nat.min_le_left _ _, ?_, ?_, Nat.min_le_left _ _, Nat.min_le_left _ _⟩ <;>
      dsimp only <;> split <;> exact Nat.min_le_left _ _

theorem indexMonitor_revolutions_le {m : Monitor} (h : m.revolutions ≤ Config.max32) :
    (indexMonitor m).revolutions ≤ Config.max32 := by
  unfold indexMonitor
  split
  · exact h
  · exact Nat.le_of_lt_succ (Nat.mod_lt _ (by decide))

theorem MonitorMove.revolutions_le {m n : Monitor} (hm : MonitorMove m n) (h : m.revolutions ≤ Config.max32) :
    n.revolutions ≤ Config.max32 := by
  cases hm with
  | index => exact indexMonitor_revolutions_le h
  | _ => exact h

theorem Monitor.arm_revolutions (m : Monitor) (j : JobRecord) : (m.arm j).revolutions = m.revolutions := by
  unfold Monitor.arm
  split <;> rfl

theorem startsFrom_strikes (u : State) (src : SlotUse) (heads : HeadNo → Bool) (h : HeadNo) :
    (startsFrom u src heads).ports[h].strikes = u.ports[h].strikes := by
  rw [startsFrom_ports]
  split <;> rfl

theorem startsFrom_tallies (u : State) (src : SlotUse) (heads : HeadNo → Bool) (h : HeadNo) :
    (startsFrom u src heads).tallies[h] =
      if heads h then { u.tallies[h] with currentTrack := 0 } else u.tallies[h] := by
  simp only [startsFrom, mapAll_get]

theorem powerOn_tallies (r a : PerHead Bool) (p : List Instr) (h : HeadNo) : (State.powerOn r a p).tallies[h] = .clear :=
  replicate_get _ h

theorem powerOn_countsInRange (r a : PerHead Bool) (p : List Instr) : (State.powerOn r a p).CountsInRange := by
  refine ⟨Nat.zero_le _, Nat.zero_le _, Nat.zero_le _, Nat.zero_le _, fun g => ?_⟩
  show headCounts (State.powerOn r a p).ports[g].strikes (State.powerOn r a p).tallies[g]
  rw [powerOn_ports, powerOn_tallies]
  exact headCounts_clear (Nat.zero_le _)

theorem Change.keeps_countsInRange {s t : State} (hc : Change s t) (h : s.CountsInRange) : t.CountsInRange := by
  obtain ⟨hmark, hrevolutions, hidle, hconsecutive, hheads⟩ := h
  cases hc with
  | other hw =>
    exact holds_of_works (P := State.CountsInRange) (fun _ => rfl) hw ⟨hmark, hrevolutions, hidle, hconsecutive, hheads⟩
  | reset hw =>
    refine holds_of_works (P := State.CountsInRange) (fun _ => rfl) hw
      ⟨Nat.zero_le _, hrevolutions, hidle, hconsecutive, fun g => ?_⟩
    show headCounts (resetWorks s).ports[g].strikes s.tallies[g]
    rw [resetWorks_ports]
    exact hheads g
  | powerOn r a p => exact powerOn_countsInRange r a p
  | monitor m hm => exact ⟨hmark, hm.revolutions_le hrevolutions, hidle, hconsecutive, hheads⟩
  | counts advances idle consecutive pulses retained stalled hi hc =>
    refine ⟨hmark, hrevolutions, ?_, ?_, hheads⟩
    · exact hi.elim (fun he => he ▸ hidle) id
    · exact hc.elim (fun he => he ▸ hconsecutive) id
  | markCount n markStop hn => exact ⟨hn, hrevolutions, hidle, hconsecutive, hheads⟩
  | strikes tick hr =>
    have hk := strikeAll_kept s tick
    refine ⟨?_, ?_, ?_, ?_, fun g => ?_⟩
    · rw [strikeAll_markCounter s tick hmark]
      exact Nat.le_of_lt_succ (Nat.mod_lt _ (by decide))
    · rw [hk.monitor]; exact hrevolutions
    · rw [hk.idle]; exact hidle
    · rw [hk.consecutiveIdle]; exact hconsecutive
    · rw [strikeAll_ports, strikeAll_tallies]
      exact headCounts_struck s tick g (hheads g)
  | endJob o =>
    unfold State.CountsInRange
    rw [State.endJob_markCounter, State.endJob_monitor, State.endJob_seq, State.endJob_tallies]
    refine ⟨hmark, hrevolutions, hidle, hconsecutive, fun g => ?_⟩
    rw [State.endJob_ports]
    exact hheads g
  | lift heads =>
    refine ⟨hmark, hrevolutions, hidle, hconsecutive, fun g => ?_⟩
    rw [State.liftHeads_get]
    split <;> exact hheads g
  | lines g ready alarm =>
    refine ⟨hmark, hrevolutions, hidle, hconsecutive, fun x => ?_⟩
    rw [State.updPort_get]
    split
    · next hx => subst hx; exact hheads x
    · exact hheads x
  | calibrate g cal hr hd =>
    refine ⟨hmark, hrevolutions, hidle, hconsecutive, fun x => ?_⟩
    rw [State.updPort_get]
    split
    · next hx => subst hx; exact hheads x
    · exact hheads x
  | stylus g =>
    refine ⟨hmark, hrevolutions, hidle, hconsecutive, fun x => ?_⟩
    rw [State.updPort_get]
    split
    · exact ⟨Nat.zero_le _, (hheads x).2⟩
    · exact hheads x
  | starts src heads hr hh =>
    refine ⟨hmark, hrevolutions, hidle, hconsecutive, fun g => ?_⟩
    rw [startsFrom_strikes, startsFrom_tallies]
    split <;> exact hheads g
  | arm ha hp =>
    unfold State.CountsInRange
    rw [State.arm_markCounter, State.arm_monitor, State.arm_seq, State.arm_tallies, State.arm_ports]
    refine ⟨hmark, (Monitor.arm_revolutions _ _).trans_le hrevolutions, Nat.zero_le _, Nat.zero_le _, fun g => ?_⟩
    rw [mapAll_get]
    exact headCounts_clear (hheads g).1
  | _ => exact ⟨hmark, hrevolutions, hidle, hconsecutive, hheads⟩

/-- Every elementary change keeps the ranges of every state. -/
theorem Change.keeps_rangeLaws {s t : State} (hc : Change s t) (h : RangeLaws s) : RangeLaws t := by
  obtain ⟨hinputs, hdrive, hcaptures, hcounts⟩ := h
  exact ⟨hc.keeps_inputsNormalized hinputs, hc.keeps_driveInRange hdrive, hc.keeps_capturesFormed hcaptures,
    hc.keeps_countsInRange hcounts⟩

end Sys2Proof.Machine
end

