-- ==== Sys2Proof/Proofs/TrackLaws.lean ====
section
/-! SUPPORT. How far the cylinder, the heads and their tracks have come, law by law through the elementary changes, given the
job's laws. -/

namespace Sys2Proof.Machine

open Sys2Proof Sys2Proof.Claims

/-! ## The last revolution length (R2, R6) -/

theorem MonitorMove.lastLength_le {m n : Monitor} (hm : MonitorMove m n) (hr : m.InRange)
    (h : m.lastLength ≤ 2 * 1048576) : n.lastLength ≤ 2 * 1048576 := by
  cases hm with
  | index =>
    obtain ⟨hcount, -, he, -⟩ := hr
    unfold indexMonitor
    split
    · exact h
    · show m.count + 1 ≤ 2 * 1048576
      omega
  | _ => exact h

theorem Monitor.arm_lastLength (m : Monitor) (j : JobRecord) : (m.arm j).lastLength = m.lastLength := by
  unfold Monitor.arm
  split <;> rfl

theorem Change.keeps_lastLength {s t : State} (hc : Change s t) (hr : s.CountInRange)
    (h : s.monitor.lastLength ≤ 2 * 1048576) : t.monitor.lastLength ≤ 2 * 1048576 := by
  cases hc with
  | other hw => exact holds_of_works (P := fun s => s.monitor.lastLength ≤ 2 * 1048576) (fun _ => rfl) hw h
  | reset hw => exact holds_of_works (P := fun s => s.monitor.lastLength ≤ 2 * 1048576) (fun _ => rfl) hw h
  | powerOn r a p => exact Nat.zero_le _
  | strikes tick _ => rw [(strikeAll_kept s tick).monitor]; exact h
  | monitor m hm => exact hm.lastLength_le ((countInRange_iff s).mp hr).1 h
  | arm ha hp => rw [State.arm_monitor, Monitor.arm_lastLength]; exact h
  | endJob o => rw [State.endJob_monitor]; exact h
  | _ => exact h

/-! ## The tracks of a head (R105, R109) -/

/-- How far a head of a job in hand has come, given the job's state, the head's plan entry and its items. -/
structure HeadTrack (job : JobState) (plan : Option PlanEntry) (i : HeadItems) : Prop where
  planned : i.state ≠ .out → ∃ e, plan = some e ∧ i.next ≤ e.tracks ∧
    (i.state = .armed ∨ i.state = .waiting ∨ i.isCutting = true ∨ i.interrupted = true → i.next < e.tracks)
  interrupted : i.interrupted = true → i.state = .waiting ∨ i.state = .faulted
  justCut : i.justCut.isSome = true → 1 ≤ i.next ∧ i.interrupted = false ∧
    (i.state = .waiting ∨ i.state = .finished ∨ i.state = .faulted)
  armed : job = .armed → i.interrupted = false ∧ i.justCut = none ∧ i.isCutting = false

/-- A plan entry's track count is in its range (R105). -/
def planRange (plan : Option PlanEntry) : Prop := ∀ e, plan = some e → 1 ≤ e.tracks ∧ e.tracks ≤ 65535

/-- The law of tracks for one head. -/
def trackLaw (job : JobState) (plan : Option PlanEntry) (i : HeadItems) : Prop :=
  i.next ≤ 65535 ∧ planRange plan ∧ (job.active = true → HeadTrack job plan i)

theorem tracksInRange_iff (s : State) :
    s.TracksInRange ↔ ∀ h : HeadNo, trackLaw s.seq.state s.seq.plan[h] s.seq.heads[h] := by
  refine forall_congr' fun h => and_congr_right fun _ => and_congr_right fun _ => imp_congr_right fun _ => ?_
  exact ⟨fun ⟨hp, hi, hj, ha⟩ => ⟨hp, hi, hj, ha⟩, fun ⟨hp, hi, hj, ha⟩ => ⟨hp, hi, hj, ha⟩⟩

/-- A CUTTING head is planned, has its track to cut, no interrupted track and no track just cut. -/
theorem HeadTrack.of_cutting {job : JobState} {plan : Option PlanEntry} {i : HeadItems} (h : HeadTrack job plan i)
    {j : Nat} (hj : i.state = .cutting j) :
    (∃ e, plan = some e ∧ i.next < e.tracks) ∧ i.interrupted = false ∧ i.justCut = none := by
  refine ⟨?_, ?_, ?_⟩
  · obtain ⟨e, he, -, hlt⟩ := h.planned (by rw [hj]; exact fun hn => by cases hn)
    exact ⟨e, he, hlt (.inr (.inr (.inl ((isCutting_iff i).mpr ⟨j, hj⟩))))⟩
  · refine Bool.eq_false_iff.mpr fun hi => ?_
    have := h.interrupted hi
    simp [hj] at this
  · refine Option.not_isSome_iff_eq_none.mp fun hs => ?_
    have := (h.justCut hs).2.2
    simp [hj] at this

/-- A head with an interrupted track has that track to cut. -/
theorem HeadTrack.of_interrupted {job : JobState} {plan : Option PlanEntry} {i : HeadItems} (h : HeadTrack job plan i)
    (hi : i.interrupted = true) : ∃ e, plan = some e ∧ i.next < e.tracks := by
  obtain ⟨e, he, -, hlt⟩ := h.planned (by rcases h.interrupted hi with hs | hs <;> simp [hs])
  exact ⟨e, he, hlt (.inr (.inr (.inr hi)))⟩

theorem HeadItems.turnBack_next_le (i : HeadItems) : i.turnBack.next ≤ i.next := by
  unfold HeadItems.turnBack
  split
  · exact Nat.sub_le _ _
  · exact le_rfl

theorem HeadTrack.stopCut {job : JobState} {plan : Option PlanEntry} {i : HeadItems} (h : HeadTrack job plan i) :
    HeadTrack job plan i.stopCut := by
  unfold HeadItems.stopCut
  split
  · next hc =>
    obtain ⟨j, hj⟩ := (isCutting_iff i).mp hc
    obtain ⟨⟨e, he, hlt⟩, -, hnone⟩ := h.of_cutting hj
    exact {
      planned := fun _ => ⟨e, he, hlt.le, fun _ => hlt⟩
      interrupted := fun _ => .inl rfl
      justCut := fun hs => by simp [hnone] at hs
      armed := fun ha => absurd hc (by simp [(h.armed ha).2.2]) }
  · exact h

theorem HeadTrack.turnBack {job : JobState} {plan : Option PlanEntry} {i : HeadItems} (h : HeadTrack job plan i) :
    HeadTrack job plan i.turnBack := by
  unfold HeadItems.turnBack
  split
  · next k hk =>
    obtain ⟨hpos, -, hstate⟩ := h.justCut (by rw [hk]; rfl)
    obtain ⟨e, he, hle, -⟩ := h.planned (by rcases hstate with hs | hs | hs <;> simp [hs])
    have hlt : i.next - 1 < e.tracks := by omega
    exact {
      planned := fun _ => ⟨e, he, hlt.le, fun _ => hlt⟩
      interrupted := fun _ => by rcases hstate with hs | hs | hs <;> simp [hs]
      justCut := fun hs => by simp at hs
      armed := fun ha => by simp [(h.armed ha).2.1] at hk }
  · exact h

/-- CLEAR FAULT sends a head to a state that its next track allows (R78). -/
theorem HeadTrack.cleared {s : State} {h : HeadNo} (ht : HeadTrack s.seq.state s.seq.plan[h] s.seq.heads[h])
    (hm : s.mayClearFault h = true) :
    HeadTrack s.seq.state s.seq.plan[h] { s.seq.heads[h] with state := s.clearedState h } := by
  have hf : s.seq.heads[h].state = .faulted := by
    simp only [State.mayClearFault, decide_eq_true_eq] at hm
    exact hm.1
  obtain ⟨e, he, hle, hlt⟩ := ht.planned (by rw [hf]; exact fun hn => by cases hn)
  have hstate : s.clearedState h = .finished ∧ e.tracks = s.seq.heads[h].next ∨
      s.seq.heads[h].next < e.tracks ∧
        (s.clearedState h = .armed ∧ s.seq.state = .armed ∨ s.clearedState h = .waiting) := by
    unfold State.clearedState
    simp only [he, Option.map_some, Option.some.injEq]
    by_cases hn : e.tracks = s.seq.heads[h].next
    · exact .inl ⟨if_pos hn, hn⟩
    · refine .inr ⟨by omega, ?_⟩
      rw [if_neg hn]
      by_cases ha : s.seq.state = .armed
      · exact .inl ⟨if_pos ha, ha⟩
      · exact .inr (if_neg ha)
  constructor
  · intro _
    refine ⟨e, he, hle, fun hs => ?_⟩
    obtain ⟨hc, -⟩ | ⟨hless, -⟩ := hstate
    · refine hlt (.inr (.inr (.inr ?_)))
      simpa [HeadItems.isCutting, hc] using hs
    · exact hless
  · intro hi
    have hless := hlt (.inr (.inr (.inr hi)))
    obtain ⟨-, hn⟩ | ⟨-, ⟨-, ha⟩ | hc⟩ := hstate
    · omega
    · exact absurd (hi.symm.trans (ht.armed ha).1) (by decide)
    · exact .inl hc
  · intro hs
    obtain ⟨hpos, hi, -⟩ := ht.justCut hs
    refine ⟨hpos, hi, ?_⟩
    obtain ⟨hc, -⟩ | ⟨-, ⟨-, ha⟩ | hc⟩ := hstate
    · exact .inr (.inl hc)
    · exact absurd hs (Option.not_isSome_iff_eq_none.mpr (ht.armed ha).2.1)
    · exact .inl hc
  · intro ha
    obtain ⟨hi, hj, -⟩ := ht.armed ha
    refine ⟨hi, hj, ?_⟩
    obtain ⟨hc, -⟩ | ⟨-, ⟨hc, -⟩ | hc⟩ := hstate <;> simp [HeadItems.isCutting, hc]

/-- A discarded track is passed over (R127). -/
theorem HeadTrack.discard {job : JobState} {plan : Option PlanEntry} {i : HeadItems} (h : HeadTrack job plan i)
    (hj : job = .running) : HeadTrack job plan (i.discard (plan.map PlanEntry.tracks)) := by
  unfold HeadItems.discard
  split
  · next hi =>
    have hstate := h.interrupted hi
    obtain ⟨e, he, hlt⟩ := h.of_interrupted hi
    have hnone : i.justCut = none := Option.not_isSome_iff_eq_none.mp fun hs => by simp [(h.justCut hs).2.1] at hi
    have hafter : (if i.state = .waiting ∧ plan.map PlanEntry.tracks = some (i.next + 1) then .finished else i.state)
        = HeadState.finished ∨
        (if i.state = .waiting ∧ plan.map PlanEntry.tracks = some (i.next + 1) then .finished else i.state)
        = HeadState.faulted ∨ i.next + 1 < e.tracks := by
      rw [he]
      by_cases hlast : i.state = .waiting ∧ e.tracks = i.next + 1
      · exact .inl (if_pos ⟨hlast.1, congrArg some hlast.2⟩)
      · refine .inr ?_
        rw [if_neg fun hs => hlast ⟨hs.1, Option.some.inj hs.2⟩]
        obtain hw | hf := hstate
        · have hne : e.tracks ≠ i.next + 1 := fun hn => hlast ⟨hw, hn⟩
          exact .inr (by omega)
        · exact .inl hf
    refine ⟨fun _ => ⟨e, he, hlt, fun hwants => ?_⟩, fun hn => Bool.noConfusion hn, fun hs => ?_, fun ha => ?_⟩
    · obtain hs | hs | hless := hafter
      · simp only [hs, HeadItems.isCutting, reduceCtorEq, or_false, Bool.false_eq_true] at hwants
      · simp only [hs, HeadItems.isCutting, reduceCtorEq, or_false, Bool.false_eq_true] at hwants
      · exact hless
    · simp [hnone] at hs
    · rw [hj] at ha; cases ha
  · exact h

/-- A move of a head's items inside a job keeps the law of tracks. -/
theorem HeadMove.keeps_trackLaw {s : State} {h : HeadNo} {i : HeadItems} (hm : HeadMove s h i)
    (ht : trackLaw s.seq.state s.seq.plan[h] s.seq.heads[h]) : trackLaw s.seq.state s.seq.plan[h] i := by
  obtain ⟨hnext, hplan, htrack⟩ := ht
  cases hm with
  | same => exact ⟨hnext, hplan, htrack⟩
  | clearCut =>
    refine ⟨hnext, hplan, fun ha => ?_⟩
    obtain ⟨hp, hi, hj, har⟩ := htrack ha
    exact ⟨hp, hi, fun hs => Bool.noConfusion hs, fun hn => ⟨(har hn).1, rfl, (har hn).2.2⟩⟩
  | advance =>
    refine ⟨hnext, hplan, fun ha => ?_⟩
    obtain ⟨hp, hi, hj, har⟩ := htrack ha
    exact ⟨hp, hi, hj, har⟩
  | suspect hl =>
    refine ⟨?_, hplan, fun ha => (htrack ha).turnBack.stopCut⟩
    rw [HeadItems.stopCut_next]
    exact (HeadItems.turnBack_next_le _).trans hnext
  | fault hw =>
    refine ⟨hnext, hplan, fun ha => ?_⟩
    obtain ⟨hp, hi, hj, har⟩ := htrack ha
    obtain ⟨e, he, hle, hlt⟩ := hp (by rcases hw with hw | hw <;> rw [hw] <;> exact fun hn => by cases hn)
    have hless := hlt (hw.elim (fun hs => .inr (.inl hs)) .inl)
    exact ⟨fun _ => ⟨e, he, hle, fun _ => hless⟩, fun _ => .inr rfl,
      fun hs => ⟨(hj hs).1, (hj hs).2.1, .inr (.inr rfl)⟩, fun hn => ⟨(har hn).1, (har hn).2.1, rfl⟩⟩
  | faultCut hc hl =>
    refine ⟨hnext, hplan, fun ha => ?_⟩
    obtain ⟨j, hj⟩ := (isCutting_iff _).mp hc
    obtain ⟨⟨e, he, hlt⟩, -, hnone⟩ := (htrack ha).of_cutting hj
    refine ⟨fun _ => ⟨e, he, hlt.le, fun _ => hlt⟩, fun _ => .inr rfl, fun hs => ?_, fun hn => ?_⟩
    · exact absurd hs (Option.not_isSome_iff_eq_none.mpr hnone)
    · exact absurd (Eq.symm hc |>.trans ((htrack ha).armed hn).2.2) (by decide)
  | cleared hm => exact ⟨hnext, hplan, fun ha => (htrack ha).cleared hm⟩
  | discard hr =>
    have ht := htrack (active_of_running hr)
    refine ⟨?_, hplan, fun _ => ht.discard hr⟩
    unfold HeadItems.discard
    split
    · next hi =>
      obtain ⟨e, he, hlt⟩ := ht.of_interrupted hi
      exact Nat.le_trans hlt (hplan e he).2
    · exact hnext

theorem planRange_none : planRange none := fun _ he => by cases he

/-- Outside a job only the ranges of the next track and of the plan's track count are left of the law. -/
theorem trackLaw_inactive {job : JobState} {plan : Option PlanEntry} {i : HeadItems} (hj : job.active = false)
    (hnext : i.next ≤ 65535) (hplan : planRange plan) : trackLaw job plan i :=
  ⟨hnext, hplan, fun ha => absurd (ha.symm.trans hj) (by decide)⟩

/-- A head's track after the strikes of a tick: one cell more, or the track complete and the next one to cut (R122,
R123). -/
theorem trackLaw_struck {u : State} (tick : Nat) (h : HeadNo)
    (ht : trackLaw u.seq.state u.seq.plan[h] u.seq.heads[h]) (hr : u.seq.state = .running) :
    trackLaw u.seq.state u.seq.plan[h] (itemsAfter u tick h) := by
  obtain ⟨hnext, hplan, htrack⟩ := ht
  unfold itemsAfter
  split
  · exact ⟨hnext, hplan, htrack⟩
  next c r hd =>
  obtain ⟨hstate, hentry, -⟩ := dueStrike_cutting hd
  obtain ⟨⟨e, he, hlt⟩, hinterrupted, hnone⟩ := (htrack (active_of_running hr)).of_cutting hstate
  obtain rfl : e = c.entry := Option.some.inj (he.symm.trans hentry)
  have harmed : ∀ {P : Prop}, u.seq.state = .armed → P := fun ha => by rw [hr] at ha; cases ha
  split
  · refine ⟨Nat.le_trans hlt (hplan _ he).2, hplan, fun _ => ?_⟩
    by_cases hlast : u.seq.heads[h].next + 1 = c.entry.tracks
    · rw [if_pos hlast]
      refine ⟨fun _ => ⟨_, he, hlt, fun hw => ?_⟩, fun hi => absurd (hi.symm.trans hinterrupted) (by decide),
        fun _ => ⟨Nat.le_add_left 1 _, hinterrupted, .inr (.inl rfl)⟩, harmed⟩
      simp [HeadItems.isCutting, -Fin.getElem_fin, hinterrupted] at hw
    · rw [if_neg hlast]
      exact ⟨fun _ => ⟨_, he, hlt, fun _ => lt_of_le_of_ne hlt hlast⟩,
        fun hi => absurd (hi.symm.trans hinterrupted) (by decide),
        fun _ => ⟨Nat.le_add_left 1 _, hinterrupted, .inl rfl⟩, harmed⟩
  · refine ⟨hnext, hplan, fun _ => ⟨fun _ => ⟨_, he, hlt.le, fun _ => hlt⟩,
      fun hi => absurd (hi.symm.trans hinterrupted) (by decide),
      fun hs => absurd hs (Option.not_isSome_iff_eq_none.mpr hnone), harmed⟩⟩

/-- A WAITING head with no track just cut starts its track (R118, R120). -/
theorem trackLaw_started {job : JobState} {plan : Option PlanEntry} {i : HeadItems} (h : trackLaw job plan i)
    (hj : job = .running) (hw : i.state = .waiting) (hn : i.justCut = none) :
    trackLaw job plan { i with state := .cutting 0, interrupted := false } := by
  obtain ⟨hnext, hplan, htrack⟩ := h
  refine ⟨hnext, hplan, fun ha => ?_⟩
  obtain ⟨e, he, hle, hlt⟩ := (htrack ha).planned (by rw [hw]; exact fun hn => by cases hn)
  have hless := hlt (.inr (.inl hw))
  exact ⟨fun _ => ⟨e, he, hle, fun _ => hless⟩, fun hi => Bool.noConfusion hi,
    fun hs => absurd hs (Option.not_isSome_iff_eq_none.mpr hn), fun har => by rw [hj] at har; cases har⟩

/-- At START an ARMED head is WAITING, and every other head stays as it is (R112). -/
theorem trackLaw_start {plan : Option PlanEntry} {i : HeadItems} (h : trackLaw .armed plan i) :
    trackLaw .running plan { i with state := if i.state = .armed then .waiting else i.state } := by
  obtain ⟨hnext, hplan, htrack⟩ := h
  refine ⟨hnext, hplan, fun _ => ?_⟩
  obtain ⟨hp, hi, hj, har⟩ := htrack rfl
  obtain ⟨hinterrupted, hnone, hcut⟩ := har rfl
  by_cases ha : i.state = .armed
  · rw [if_pos ha]
    obtain ⟨e, he, hle, hlt⟩ := hp (by rw [ha]; exact fun hn => by cases hn)
    have hless := hlt (.inl ha)
    exact ⟨fun _ => ⟨e, he, hle, fun _ => hless⟩, fun _ => .inl rfl,
      fun hs => absurd hs (Option.not_isSome_iff_eq_none.mpr hnone), fun hn => by cases hn⟩
  · rw [if_neg ha]
    exact ⟨hp, hi, hj, fun hn => by cases hn⟩

/-- A head at an accepted ARM (R111). -/
theorem trackLaw_armed (s : State) (h : HeadNo) (hplan : planRange s.seq.plan[h]) :
    trackLaw .armed s.seq.plan[h] (s.itemsAtArm h) := by
  refine ⟨Nat.zero_le _, hplan, fun _ => ⟨fun ho => ?_, fun hi => Bool.noConfusion hi, fun hs => Bool.noConfusion hs,
    fun _ => ⟨rfl, rfl, ?_⟩⟩⟩
  · cases he : s.seq.plan[h] with
    | none => exact absurd (if_neg (by rw [he]; exact Bool.false_ne_true)) ho
    | some e => exact ⟨e, rfl, Nat.zero_le _, fun _ => (hplan e he).1⟩
  · unfold State.itemsAtArm HeadItems.isCutting
    split
    · next j hj => dsimp only at hj; split at hj <;> cases hj
    · rfl

theorem powerOn_tracksInRange (r a : PerHead Bool) (p : List Instr) : (State.powerOn r a p).TracksInRange := by
  refine (tracksInRange_iff _).mpr fun g => ?_
  show trackLaw .idle (Vector.replicate 8 none)[g] (State.powerOn r a p).seq.heads[g]
  rw [replicate_get, powerOn_heads]
  exact trackLaw_inactive rfl (Nat.zero_le _) planRange_none

/-- Each head's next track to cut is within its track count, and its items agree with its state. -/
theorem Change.keeps_tracksInRange {s t : State} (hc : Change s t) (h : s.TracksInRange) : t.TracksInRange := by
  have hl := (tracksInRange_iff s).mp h
  cases hc with
  | other hw => exact holds_of_works (P := State.TracksInRange) (fun _ => rfl) hw h
  | reset hw =>
    refine holds_of_works (P := State.TracksInRange) (fun _ => rfl) hw ((tracksInRange_iff _).mpr fun g => ?_)
    show trackLaw .idle (Vector.replicate 8 none)[g] (resetWorks s).seq.heads[g]
    rw [replicate_get, resetWorks_heads]
    exact trackLaw_inactive rfl (hl g).1 planRange_none
  | powerOn r a p => exact powerOn_tracksInRange r a p
  | endJob o =>
    refine (tracksInRange_iff _).mpr fun g => ?_
    rw [State.endJob_heads, State.endJob_seq]
    exact trackLaw_inactive rfl (hl g).1 (hl g).2.1
  | strikes tick hr =>
    have hk := strikeAll_kept s tick
    refine (tracksInRange_iff _).mpr fun g => ?_
    rw [strikeAll_heads, hk.state, hk.plan]
    exact trackLaw_struck tick g (hl g) hr
  | starts src heads hr hh =>
    refine (tracksInRange_iff _).mpr fun g => ?_
    rw [startsFrom_heads]
    show trackLaw s.seq.state s.seq.plan[g] _
    split
    · next hg => exact trackLaw_started (hl g) hr (hh g hg).1 (hh g hg).2
    · exact hl g
  | start ha =>
    refine (tracksInRange_iff _).mpr fun g => ?_
    rw [State.setJobState_seq_heads, State.mapHeads_get]
    have hg := hl g
    rw [ha] at hg
    exact trackLaw_start hg
  | heads v hv => exact (tracksInRange_iff _).mpr fun g => (hv g).keeps_trackLaw (hl g)
  | goTo j hs hj =>
    refine (tracksInRange_iff _).mpr fun g => ⟨(hl g).1, (hl g).2.1, fun _ => ?_⟩
    obtain ⟨hp, hi, hcut, -⟩ := (hl g).2.2 (JobState.active_of_runningOrHolding hs)
    exact ⟨hp, hi, hcut, fun ha => by rw [show j = .armed from ha] at hj; cases hj⟩
  | plan v ha hv =>
    refine (tracksInRange_iff _).mpr fun g => trackLaw_inactive ha (hl g).1 fun e he => ?_
    exact (hv g e he).elim ((hl g).2.1 e) id
  | arm ha hp =>
    refine (tracksInRange_iff _).mpr fun g => ?_
    rw [State.arm_seq]
    show trackLaw .armed s.seq.plan[g] (mapAll (fun h _ => s.itemsAtArm h) s.seq.heads)[g]
    rw [mapAll_get]
    exact trackLaw_armed s g (hl g).2.1
  | _ => exact h

/-! ## Track sums (R133 to R135) -/

theorem computeStrike_depth_le (i : StrikeInput) : (computeStrike i).depth ≤ i.cal.maxDepth := by
  unfold computeStrike
  simp only []
  split
  · exact Nat.zero_le _
  · exact Nat.min_le_right _ _

/-- What a strike adds to the track sum (R50, R60, R134). -/
def struckAmount (u : State) (r : StrikeResult) : Nat :=
  match u.seq.job.tallySource with
  | .tone => r.cell.tone.toNat
  | .depth => r.depth

theorem struckAmount_le {u : State} {h : HeadNo} {c : StrikeContext} (hmax : u.ports[h].cal.maxDepth ≤ 1000) :
    struckAmount u (computeStrike (u.strikeInput h c)) ≤ 1000 := by
  unfold struckAmount
  split
  · have := (computeStrike (u.strikeInput h c)).cell.tone.isLt
    omega
  · exact (computeStrike_depth_le _).trans hmax

theorem tallyAfter_sums {u : State} {tick : Nat} {h : HeadNo} {c : StrikeContext} {r : StrikeResult}
    (hd : dueStrike u tick h = some (c, r)) :
    (tallyAfter u tick h).currentTrack = u.tallies[h].currentTrack + struckAmount u r ∧
    (tallyAfter u tick h).lastTrack =
      if lastCell c then u.tallies[h].currentTrack + struckAmount u r else u.tallies[h].lastTrack := by
  unfold tallyAfter
  rw [hd]
  exact ⟨rfl, rfl⟩

/-- The law of track sums for one head: its tally's two track sums, and the cells that a CUTTING head has struck, given the
screens. -/
def sumLaw (screens : Vector ScreenSlot 8) (plan : Option PlanEntry) (maxDepth : Nat) (t : Tally) (st : HeadState) :
    Prop :=
  maxDepth ≤ 1000 ∧ t.currentTrack ≤ 32768000 ∧ t.lastTrack ≤ 32768000 ∧
  ∀ j, st = .cutting j → t.currentTrack ≤ 1000 * j ∧
    ∀ e x, plan = some e → screens[e.screen].screen = some x → j < x.cells

/-- Every READY screen's cell count is in its range (R13). -/
def screensInRange (screens : Vector ScreenSlot 8) : Prop :=
  ∀ (i : Fin 8) (x : Screen), screens[i].screen = some x → 1 ≤ x.cells ∧ x.cells ≤ 32768

theorem trackSums_iff (s : State) :
    s.TrackSumsInRange ↔ screensInRange s.screens ∧ ∀ h : HeadNo,
      sumLaw s.screens s.seq.plan[h] s.ports[h].cal.maxDepth s.tallies[h] s.seq.heads[h].state := Iff.rfl

theorem sumLaw_of_notCutting {screens : Vector ScreenSlot 8} {plan : Option PlanEntry} {maxDepth : Nat} {t : Tally}
    {st : HeadState} (hmax : maxDepth ≤ 1000) (hc : t.currentTrack ≤ 32768000) (hl : t.lastTrack ≤ 32768000)
    (hn : ∀ j, st ≠ .cutting j) : sumLaw screens plan maxDepth t st :=
  ⟨hmax, hc, hl, fun j hj => absurd hj (hn j)⟩

/-- A track sum after the strikes of a tick: at most 1000 more, of one cell more (R122, R134, R135). -/
theorem sumLaw_struck {u : State} (tick : Nat) (h : HeadNo) (hscreens : screensInRange u.screens)
    (hs : sumLaw u.screens u.seq.plan[h] u.ports[h].cal.maxDepth u.tallies[h] u.seq.heads[h].state) :
    sumLaw u.screens u.seq.plan[h] (portAfter u tick h).cal.maxDepth (tallyAfter u tick h)
      (itemsAfter u tick h).state := by
  have hcal : (portAfter u tick h).cal = u.ports[h].cal := by
    unfold portAfter
    split <;> rfl
  rw [hcal]
  cases hd : dueStrike u tick h with
  | none =>
    simp only [tallyAfter, itemsAfter, hd]
    exact hs
  | some p =>
    obtain ⟨c, r⟩ := p
    obtain ⟨hmax, -, hlast, hcutting⟩ := hs
    obtain ⟨hstate, hentry, hscreen⟩ := dueStrike_cutting hd
    obtain ⟨hsum, hplace⟩ := hcutting _ hstate
    have hcell : c.index < c.screen.cells := hplace _ _ hentry hscreen
    have hcells : c.screen.cells ≤ 32768 := (hscreens _ _ hscreen).2
    obtain ⟨-, -, rfl⟩ := dueStrike_eq_some.mp hd
    have hamount := struckAmount_le (c := c) hmax
    obtain ⟨hcurrent, hlasttrack⟩ := tallyAfter_sums hd
    refine ⟨hmax, by omega, ?_, fun j hj => ?_⟩
    · rw [hlasttrack]
      split <;> omega
    · unfold itemsAfter at hj
      rw [hd] at hj
      dsimp only at hj
      split at hj
      · dsimp only at hj
        split at hj <;> cases hj
      · next hnot =>
        cases hj
        refine ⟨by omega, fun e x he hx => ?_⟩
        obtain rfl := Option.some.inj (hentry.symm.trans he)
        obtain rfl := Option.some.inj (hscreen.symm.trans hx)
        have hne : c.index + 1 ≠ c.screen.cells := fun hn => hnot ((lastCell_iff c).mpr hn)
        omega

/-- The slot whose screen a CUTTING head cuts is bound (R16). -/
theorem bound_of_cutting {s : State} (hj : JobLaws s) {h : HeadNo} {j : Nat} (hc : s.seq.heads[h].state = .cutting j)
    {e : PlanEntry} (he : s.seq.plan[h] = some e) : s.screens[e.screen].binds ≠ 0 := by
  obtain ⟨hbinds, -, hengaged, -⟩ := hj
  have hactive : s.seq.state.active = true := by
    by_contra hna
    rw [hengaged.1 (Bool.eq_false_iff.mpr hna) h] at hc
    cases hc
  rw [hbinds.1, if_pos hactive]
  exact plannedHeads_ne_zero_of he (decide_eq_true rfl)

/-- Outside a job no head is CUTTING (R109). -/
theorem not_cutting_of_inactive {s : State} (hj : JobLaws s) (ha : s.seq.state.active = false) (h : HeadNo) (j : Nat) :
    s.seq.heads[h].state ≠ .cutting j := by
  obtain ⟨-, -, hengaged, -⟩ := hj
  rw [hengaged.1 ha h]
  exact fun hn => by cases hn

/-- The law of track sums after a change of one port that leaves or bounds its greatest depth. -/
theorem trackSums_updPort {s : State} (h : s.TrackSumsInRange) (g : HeadNo) (f : HeadPort → HeadPort)
    (hf : (f s.ports[g]).cal.maxDepth ≤ 1000) : (s.updPort g f).TrackSumsInRange := by
  refine ⟨h.1, fun x => ?_⟩
  obtain ⟨hmax, hrest⟩ := h.2 x
  refine ⟨?_, hrest⟩
  rw [State.updPort_get]
  split
  · next hx => subst hx; exact hf
  · exact hmax

theorem powerOn_trackSums (r a : PerHead Bool) (p : List Instr) : (State.powerOn r a p).TrackSumsInRange := by
  refine (trackSums_iff _).mpr ⟨fun i x hx => ?_, fun g => ?_⟩
  · rw [powerOn_screens] at hx; cases hx
  · rw [powerOn_ports, powerOn_heads, powerOn_tallies]
    exact sumLaw_of_notCutting le_rfl (Nat.zero_le _) (Nat.zero_le _) fun j hn => by cases hn

/-- The two track sums stay in their range. -/
theorem Change.keeps_trackSums {s t : State} (hc : Change s t) (hj : JobLaws s) (h : s.TrackSumsInRange) :
    t.TrackSumsInRange := by
  obtain ⟨hscreens, hsums⟩ := (trackSums_iff s).mp h
  cases hc with
  | other hw => exact holds_of_works (P := State.TrackSumsInRange) (fun _ => rfl) hw h
  | reset hw =>
    refine holds_of_works (P := State.TrackSumsInRange) (fun _ => rfl) hw
      ((trackSums_iff _).mpr ⟨fun i x hx => ?_, fun g => ?_⟩)
    · refine hscreens i x ?_
      rw [← hx]
      exact (congrArg ScreenSlot.screen (resetWorks_screens s i)).symm
    · show sumLaw _ _ (resetWorks s).ports[g].cal.maxDepth s.tallies[g] (resetWorks s).seq.heads[g].state
      rw [resetWorks_ports, resetWorks_heads]
      exact sumLaw_of_notCutting (hsums g).1 (hsums g).2.1 (hsums g).2.2.1 fun j hn => by cases hn
  | powerOn r a p => exact powerOn_trackSums r a p
  | endJob o =>
    refine (trackSums_iff _).mpr ⟨fun i x hx => ?_, fun g => ?_⟩
    · rw [State.endJob_screens] at hx; exact hscreens i x hx
    · rw [State.endJob_ports, State.endJob_heads, State.endJob_tallies]
      exact sumLaw_of_notCutting (hsums g).1 (hsums g).2.1 (hsums g).2.2.1 fun j hn => by cases hn
  | strikes tick hr =>
    have hk := strikeAll_kept s tick
    refine (trackSums_iff _).mpr ⟨by rw [hk.screens]; exact hscreens, fun g => ?_⟩
    rw [strikeAll_ports, strikeAll_heads, strikeAll_tallies, hk.screens, hk.plan]
    exact sumLaw_struck tick g hscreens (hsums g)
  | starts src heads hr hh =>
    refine (trackSums_iff _).mpr ⟨hscreens, fun g => ?_⟩
    have hcal : (startsFrom s src heads).ports[g].cal = s.ports[g].cal := by
      rw [startsFrom_ports]
      split <;> rfl
    rw [hcal, startsFrom_heads, startsFrom_tallies]
    split
    · refine ⟨(hsums g).1, Nat.zero_le _, (hsums g).2.2.1, fun j hcut => ?_⟩
      cases hcut
      exact ⟨Nat.zero_le _, fun e x _ hx => (hscreens _ x hx).1⟩
    · exact hsums g
  | start ha =>
    refine (trackSums_iff _).mpr ⟨hscreens, fun g => ?_⟩
    rw [State.setJobState_seq_heads, State.mapHeads_get]
    obtain ⟨hmax, hcurrent, hlast, hcutting⟩ := hsums g
    refine ⟨hmax, hcurrent, hlast, fun j hcut => ?_⟩
    dsimp only at hcut
    split at hcut
    · cases hcut
    · exact hcutting j hcut
  | heads v hv =>
    refine (trackSums_iff _).mpr ⟨hscreens, fun g => ?_⟩
    obtain ⟨hmax, hcurrent, hlast, hcutting⟩ := hsums g
    exact ⟨hmax, hcurrent, hlast, fun j hcut => hcutting j ((hv g).cutting_of hcut)⟩
  | lift heads =>
    refine (trackSums_iff _).mpr ⟨hscreens, fun g => ?_⟩
    rw [State.liftHeads_get]
    split <;> exact hsums g
  | lines g ready alarm => exact trackSums_updPort h g _ (hsums g).1
  | calibrate g cal hr hd => exact trackSums_updPort h g _ hd
  | stylus g => exact trackSums_updPort h g _ (hsums g).1
  | plan v ha hv =>
    refine (trackSums_iff _).mpr ⟨hscreens, fun g => ?_⟩
    exact sumLaw_of_notCutting (hsums g).1 (hsums g).2.1 (hsums g).2.2.1 (not_cutting_of_inactive hj ha g)
  | arm ha hp =>
    refine (trackSums_iff _).mpr ⟨fun i x hx => ?_, fun g => ?_⟩
    · rw [State.arm_screens] at hx; exact hscreens i x hx
    · rw [State.arm_ports, State.arm_tallies, State.arm_seq, mapAll_get]
      refine sumLaw_of_notCutting (hsums g).1 (Nat.zero_le _) (Nat.zero_le _) fun j hn => ?_
      rw [mapAll_get] at hn
      unfold State.itemsAtArm at hn
      dsimp only at hn
      split at hn <;> cases hn
  | screen slot x hb hx =>
    refine (trackSums_iff _).mpr ⟨fun i y hy => ?_, fun g => ?_⟩
    · rw [State.setScreen_get] at hy
      split at hy
      · exact ⟨(hx y hy).1, (hx y hy).2⟩
      · exact hscreens i y hy
    · obtain ⟨hmax, hcurrent, hlast, hcutting⟩ := hsums g
      refine ⟨hmax, hcurrent, hlast, fun j hcut => ⟨(hcutting j hcut).1, fun e y he hy => ?_⟩⟩
      rw [State.setScreen_get, if_neg] at hy
      · exact (hcutting j hcut).2 e y he hy
      · exact fun hs => bound_of_cutting hj hcut he (hs ▸ hb)
  | _ => exact h

/-! ## The ranges together -/

/-- Every elementary change keeps how far the cylinder, the heads and their tracks have come. -/
theorem Change.keeps_trackLaws {s t : State} (hc : Change s t) (hj : JobLaws s) (h : TrackLaws s) : TrackLaws t := by
  obtain ⟨hlength, htracks, hsums⟩ := h
  have ⟨_, _, _, _, _, hcount⟩ := hj
  exact ⟨hc.keeps_lastLength hcount hlength, hc.keeps_tracksInRange htracks, hc.keeps_trackSums hj hsums⟩

/-- Settles O58: every step is a chain of elementary changes; each keeps the ranges of every state, and each keeps the
job's laws and the ranges that rest on them together. -/
theorem stepKeepsTheRanges : Obligations.StepKeepsTheRanges := by
  intro s t hstep
  refine ⟨step_keeps_of_change (fun _ _ => Change.keeps_rangeLaws) hstep, fun hj ht => ?_⟩
  exact (step_keeps_of_change (P := fun s => JobLaws s ∧ TrackLaws s)
    (fun _ _ hc ⟨hj, ht⟩ => ⟨hc.keeps_jobLaws hj, hc.keeps_trackLaws hj ht⟩) hstep ⟨hj, ht⟩).2

end Sys2Proof.Machine
end

