-- ==== Sys2Proof/Proofs/Geometry.lean ====
section
/-! SUPPORT. The arithmetic of strike ticks and stagger phases (R17, R18, R19). -/

namespace Sys2Proof.Machine

open Sys2Proof

/-! ## The stagger phase (R17) -/

/-- A step taken 256 / gcd(256, step) times is a whole number of 256s. -/
theorem period_mul_step (step : Nat) : 256 / Nat.gcd 256 step * step = 256 * (step / Nat.gcd 256 step) := by
  obtain ⟨m, hm⟩ := Nat.gcd_dvd_right 256 step
  obtain ⟨n, hn⟩ := Nat.gcd_dvd_left 256 step
  have hpos : 0 < Nat.gcd 256 step := Nat.gcd_pos_of_pos_left step (by decide)
  generalize Nat.gcd 256 step = g at *
  calc 256 / g * step = n * (g * m) := by rw [hn, Nat.mul_div_cancel_left _ hpos, ← hm]
    _ = 256 * m := by rw [← Nat.mul_assoc, Nat.mul_comm n g, ← hn]
    _ = 256 * (step / g) := by rw [hm, Nat.mul_div_cancel_left _ hpos]

theorem staggerPhase_period (step k : Nat) :
    staggerPhase step (k + 256 / Nat.gcd 256 step) = staggerPhase step k := by
  unfold staggerPhase
  rw [Nat.add_mul, period_mul_step, Nat.add_mul_mod_self_left]

/-- Settles O33: after a period the track number times the step has grown by a multiple of 256. -/
theorem staggerPhaseRepeats : Obligations.StaggerPhaseRepeats := by
  intro step k
  refine ⟨rfl, Nat.mod_lt _ (by decide), staggerPhase_period step k, rfl, ?_, ?_⟩ <;> unfold staggerPhase <;> omega

/-! ## Strike ticks (R18, R19) -/

/-- A cell more is 256 E more in the numerator of the strike tick, and that is at least twice its denominator. -/
theorem strikeTick_succ {e : Nat} {x : Screen} (k j : Nat) (hx : 0 < x.cells) (he : 2 * x.cells ≤ e) :
    strikeTick e x k j + 2 ≤ strikeTick e x k (j + 1) := by
  have hpos : 0 < 256 * x.cells := by omega
  unfold strikeTick
  rw [← Nat.add_mul_div_right _ _ hpos]
  refine Nat.div_le_div_right ?_
  calc (256 * j + staggerPhase x.stagger k) * e + 2 * (256 * x.cells)
      ≤ (256 * j + staggerPhase x.stagger k) * e + 256 * e := by omega
    _ = (256 * (j + 1) + staggerPhase x.stagger k) * e := by ring

/-- The cells of a track lie below cell N, and so in a revolution of E ticks. -/
theorem strikeTick_lt {e : Nat} {x : Screen} (k : Nat) {j : Nat} (hj : j < x.cells) (he : 0 < e) :
    strikeTick e x k j < e := by
  have hphase : staggerPhase x.stagger k < 256 := Nat.mod_lt _ (by decide)
  unfold strikeTick
  rw [Nat.div_lt_iff_lt_mul (by omega), Nat.mul_comm e]
  exact Nat.mul_lt_mul_of_pos_right (by omega) he

/-- Settles O34, from the difference of successive strike ticks and the bound on them. -/
theorem strikesFallInsideTheRevolution : Obligations.StrikesFallInsideTheRevolution :=
  fun _ _ k j hx he =>
    ⟨rfl, strikeTick_succ k j hx he, fun hj => Nat.le_pred_of_lt (strikeTick_lt k hj (by omega))⟩

end Sys2Proof.Machine
end

