-- ==== Sys2Proof/Proofs/Reset.lean ====
section
/-! SUPPORT. The state after power-on reset, and the laws it keeps. -/

namespace Sys2Proof.Machine

open Sys2Proof Sys2Proof.Claims

section
variable (r a : PerHead Bool) (p : List Instr)

theorem powerOn_lanes (h : HeadNo) : (State.powerOn r a p).lanes[h] = none := replicate_get _ h

theorem powerOn_plan (h : HeadNo) : (State.powerOn r a p).seq.plan[h] = none := replicate_get _ h

theorem powerOn_room (h : HeadNo) : (State.powerOn r a p).tx.room[h] = false := replicate_get _ h

/-- Power-on reset leaves the power-on values, whatever the lines' levels and the commands that wait. -/
theorem powerOn_values : PowerOnValues (State.powerOn r a p) := by
  refine ⟨⟨rfl, rfl, rfl, rfl, rfl⟩, ⟨rfl, rfl, rfl, powerOn_room r a p, rfl, rfl⟩, ⟨rfl, rfl⟩, powerOn_screens r a p,
    powerOn_grads r a p, ⟨rfl, powerOn_lanes r a p⟩, ⟨rfl, rfl, rfl, rfl, rfl, rfl, rfl⟩, rfl,
    ⟨powerOn_plan r a p, rfl, rfl, rfl, rfl, rfl, rfl, rfl⟩, powerOn_heads r a p, fun h => ?_, powerOn_tallies r a p,
    rfl, rfl, rfl, rfl, rfl⟩
  rw [powerOn_ports]
  exact ⟨rfl, rfl, rfl, rfl⟩

/-- Power-on reset leaves 0 in what the model adds (log entries 9, 11, 19 and 24). -/
theorem powerOn_ownValues : OwnPowerOnValues (State.powerOn r a p) := by
  refine ⟨rfl, rfl, rfl, fun h => ?_⟩
  rw [powerOn_ports]
  exact ⟨rfl, rfl⟩

/-- After power-on reset each input has the level given, under normal polarity (R66). -/
theorem powerOn_inputs (h : HeadNo) :
    (State.powerOn r a p).ports[h].readyLine = r[h] ∧ (State.powerOn r a p).ports[h].alarmLine = a[h] ∧
    (State.powerOn r a p).ports[h].ready = r[h] ∧ (State.powerOn r a p).ports[h].alarm = a[h] := by
  rw [powerOn_ports]
  exact ⟨rfl, rfl, rfl, rfl⟩

/-- With nothing queued, posted, loading or claiming, the link's laws hold. -/
theorem powerOn_linkLaws : LinkLaws (State.powerOn r a p) := by
  refine ⟨?_, ⟨Nat.zero_le _, by simp [State.powerOn]⟩, fun h => Bool.noConfusion h, rfl, ?_, ?_, List.nodup_nil, ?_⟩
  · exact ⟨Nat.zero_le _, Nat.zero_le _, Nat.zero_le _, Nat.zero_le _, Nat.zero_le _⟩
  · refine ⟨fun hf => Bool.noConfusion hf, fun hclaim => ?_, by simp [State.powerOn]⟩
    simp [State.powerOn, InterpState.holdsResult, InterpState.holdsReadback] at hclaim
  · intro i
    rw [powerOn_grads]
    simp [State.powerOn]
  · simp [State.powerOn]

theorem powerOn_jobLaws : JobLaws (State.powerOn r a p) :=
  ⟨powerOn_bindsExact r a p, powerOn_boundReady r a p, powerOn_engagedOnlyCutting r a p, powerOn_holdOnlyRunning r a p,
    powerOn_lanesPlanned r a p, powerOn_countInRange r a p⟩

theorem powerOn_rangeLaws : RangeLaws (State.powerOn r a p) :=
  ⟨powerOn_inputsNormalized r a p, powerOn_driveInRange r a p, powerOn_capturesFormed r a p, powerOn_countsInRange r a p⟩

theorem powerOn_trackLaws : TrackLaws (State.powerOn r a p) :=
  ⟨Nat.zero_le _, powerOn_tracksInRange r a p, powerOn_trackSums r a p⟩

end

/-- Settles O2: the state after reset is the power-on state with all lines low and no command waiting. -/
theorem resetHoldsPowerOnValues : Obligations.ResetHoldsPowerOnValues := by
  refine ⟨powerOn_values _ _ _, fun h => ?_, rfl, powerOn_ownValues _ _ _⟩
  have hinputs := powerOn_inputs (Vector.replicate 8 false) (Vector.replicate 8 false) [] h
  rw [replicate_get] at hinputs
  exact hinputs

/-- Settles O3: POWER_ON_RESET keeps the lines' levels and the commands that wait, and nothing else. -/
theorem powerOnResetRestoresEverything : Obligations.PowerOnResetRestoresEverything := by
  intro s
  refine ⟨_, rfl, powerOn_values _ _ _, powerOn_ownValues _ _ _, rfl, fun h => ?_⟩
  have hinputs := powerOn_inputs (mapAll (fun _ q => q.readyLine) s.ports) (mapAll (fun _ q => q.alarmLine) s.ports)
    s.pending h
  rw [mapAll_get, mapAll_get] at hinputs
  exact hinputs

/-- Settles O59, from the laws of every power-on state. -/
theorem resetKeepsEveryLaw : Obligations.ResetKeepsEveryLaw :=
  ⟨powerOn_linkLaws _ _ _, powerOn_jobLaws _ _ _, powerOn_rangeLaws _ _ _, powerOn_trackLaws _ _ _⟩

end Sys2Proof.Machine
end

