-- ==== Sys2Proof/Proofs/Positions.lean ====
section
/-! SUPPORT. Positions of the cylinder: what a TICK and an INDEX do to the works, and what they post and raise. -/

namespace Sys2Proof.Machine

open Sys2Proof Sys2Proof.Claims

/-! ## A suspect revolution (R72, R95, R96, R115, R124, R147) -/

/-- A slot of a suspect revolution, in the terms of the model's moves: the slot being cut is INTERRUPTED, and that of the
track just cut is turned back (R95, R96). -/
theorem suspectSlot_eq (i : HeadItems) (t : TrackSlot) :
    suspectSlot i t =
      (match i.justCut with
        | some k => TrackSlot.move .retained .interrupted (· = k)
        | none => id)
      ((if i.isCutting then TrackSlot.move .cutting .interrupted (fun _ => true) else id) t) := by
  cases t with
  | free => cases i.justCut <;> cases i.isCutting <;> rfl
  | held u k cells =>
    cases u with
    | cutting => cases hj : i.justCut <;> cases hc : i.isCutting <;> simp [TrackSlot.move, suspectSlot, hc]
    | retained =>
      cases hj : i.justCut with
      | none => cases hc : i.isCutting <;> simp [TrackSlot.move, suspectSlot, hj]
      | some m =>
        by_cases hk : k = m
        · cases hc : i.isCutting <;> simp [TrackSlot.move, suspectSlot, hj, hk]
        · cases hc : i.isCutting <;> simp [TrackSlot.move, suspectSlot, hj, hk, Ne.symm hk]
    | _ => cases hj : i.justCut <;> cases hc : i.isCutting <;> simp [TrackSlot.move, suspectSlot]

theorem Lane.suspect_eq (i : HeadItems) (l : Lane) : l.suspect i = bothSlots (suspectSlot i) l := by
  unfold Lane.suspect bothSlots
  rw [suspectSlot_eq, suspectSlot_eq]
  cases i.justCut <;> cases i.isCutting <;> rfl

theorem HeadItems.suspect_eq (i : HeadItems) : i.turnBack.stopCut = suspectItems i := by
  obtain ⟨state, next, interrupted, faultPosition, justCut⟩ := i
  cases justCut <;> cases state <;> simp [HeadItems.turnBack, HeadItems.stopCut, suspectItems, HeadItems.isCutting]

/-- The Sequencer's part of a suspect revolution, as a change of the works. -/
def holdSuspect (w : Works) : Works :=
  { w with seq := { w.seq with
      state := .holding, hold := false, heads := mapAll (fun _ i => i.turnBack.stopCut) w.seq.heads } }

/-- The works after a suspect revolution are those of `Claims.suspectWorks`. -/
theorem worksOf_suspectRevolution (s : State) : worksOf s.suspectRevolution = suspectWorks s := by
  have hlane : (fun h => Option.map (Lane.suspect s.seq.heads[h])) =
      fun (h : HeadNo) => Option.map (bothSlots (suspectSlot s.seq.heads[h])) :=
    funext fun h => congrArg Option.map (funext (Lane.suspect_eq s.seq.heads[h]))
  have hheads : (fun (_ : HeadNo) (i : HeadItems) => i.turnBack.stopCut) = fun _ i => suspectItems i :=
    funext fun _ => funext HeadItems.suspect_eq
  calc worksOf s.suspectRevolution
      = holdSuspect (worksOf (((s.mapLanes fun h => Lane.suspect s.seq.heads[h]).liftHeads s.cutting).endCaptures
          s.cutting)) := rfl
    _ = suspectWorks s := by
        rw [worksOf_endCaptures, State.mapLanes, hlane, holdSuspect, hheads]
        rfl

theorem LinkKept.changeCaptures (s : State) (f : Capture → Capture) : LinkKept s (s.changeCaptures f) := by
  rw [State.changeCaptures_eq]
  split <;> exact ⟨rfl, rfl, rfl, rfl, rfl, rfl, rfl⟩

theorem suspectRevolution_kept (s : State) : LinkKept s s.suspectRevolution := by
  have hlanes : LinkKept s ((s.mapLanes fun h => Lane.suspect s.seq.heads[h]).liftHeads s.cutting) :=
    ⟨rfl, rfl, rfl, rfl, rfl, rfl, rfl⟩
  exact (hlanes.trans (.changeCaptures _ (endCapture s.cutting))).trans ⟨rfl, rfl, rfl, rfl, rfl, rfl, rfl⟩

/-- A suspect revolution raises no bit but that of the captures that become FULL, and posts nothing (R147). -/
theorem suspectRevolution_signals (s : State) :
    Signals s s.suspectRevolution (bitIf (someFull s.captures (endCapture s.cutting)) .captureFull) [] := by
  have hlanes : Signals s ((s.mapLanes fun h => Lane.suspect s.seq.heads[h]).liftHeads s.cutting) 0 [] := .of_kept rfl rfl
  exact (hlanes.silent_trans (State.changeCaptures_signals _ (endCapture s.cutting))).trans_silent (.of_kept rfl rfl)

/-! ## The Monitor's part of a position (R4 to R8) -/

theorem exec_tick_external {s : State} (he : s.monitor.source = .external) :
    exec .tick s = .next (s.latch s.takeTick) :=
  congrArg Host.Outcome.next (if_pos he)

theorem exec_index_external {s : State} (he : s.monitor.source = .external) :
    exec .index s = .next (s.latch s.takeIndex) :=
  congrArg Host.Outcome.next (if_pos he)

theorem takeTick_unsynced {s : State} (hs : s.monitor.sync = .unsynced) : s.takeTick = s := by
  unfold State.takeTick
  rw [hs]

theorem takeTick_counted {s : State} (hs : s.monitor.sync = .synced) (hn : s.monitor.count + 1 ≠ 2 * s.monitor.e) :
    s.takeTick = (s.setMonitor { s.monitor with count := s.monitor.count + 1 }).seqTick (s.monitor.count + 1) := by
  unfold State.takeTick
  rw [hs]
  exact if_neg hn

theorem takeTick_lost {s : State} (hs : s.monitor.sync = .synced) (hn : s.monitor.count + 1 = 2 * s.monitor.e) :
    s.takeTick = s.loseIndex := by
  unfold State.takeTick
  rw [hs]
  exact if_pos hn

/-- The Monitor's part of an INDEX: it takes the index, and a slip is posted for a RUNNING or HOLDING job (R4, R6, R7). -/
def indexTaken (s : State) : State :=
  if slips s.monitor && s.seq.state.runningOrHolding then (s.setMonitor (indexMonitor s.monitor)).post .encoderSlip
  else s.setMonitor (indexMonitor s.monitor)

theorem takeIndex_eq (s : State) : s.takeIndex = (indexTaken s).seqIndex (slips s.monitor) := by
  unfold State.takeIndex indexTaken
  cases hs : s.monitor.sync with
  | unsynced => simp [slips, indexMonitor_unsynced hs, hs]
  | synced => simp [slips, indexMonitor_synced hs, hs]

/-- A new setting of the Monitor posts and raises nothing and leaves the link. -/
theorem setMonitor_signals (s : State) (m : Monitor) : Signals s (s.setMonitor m) 0 [] := .of_kept rfl rfl

theorem setMonitor_kept (s : State) (m : Monitor) : LinkKept s (s.setMonitor m) := ⟨rfl, rfl, rfl, rfl, rfl, rfl, rfl⟩

/-- An event that changes the Monitor alone, and posts one entry or none. -/
theorem monitor_event (s : State) (m : Monitor) (b : Bool) (code : ErrorCode) :
    Event s (s.latch (if b then (s.setMonitor m).post code else s.setMonitor m)) { worksOf s with monitor := m } 0
      (if b then [entry (s.setMonitor m) code] else []) := by
  cases b with
  | false => exact event_of_action rfl (setMonitor_kept s m) (setMonitor_signals s m)
  | true =>
    exact event_of_action rfl ((setMonitor_kept s m).trans (.post ..)) ((setMonitor_signals s m).silent_trans (.post ..))

/-- An event that changes the Monitor, posts one entry, and makes the revolution of a running job suspect. -/
theorem suspect_event (s : State) (m : Monitor) (code : ErrorCode) :
    Event s (s.latch ((s.setMonitor m).post code).suspectRevolution) { suspectWorks s with monitor := m }
      (bitIf (someFull s.captures (endCapture s.cutting)) .captureFull) [entry (s.setMonitor m) code] := by
  have hkept : LinkKept s ((s.setMonitor m).post code) := (setMonitor_kept s m).trans (.post ..)
  have hsignals : Signals s ((s.setMonitor m).post code) 0 [entry (s.setMonitor m) code] :=
    (setMonitor_signals s m).silent_trans (.post ..)
  refine event_of_action ((worksOf_suspectRevolution _).trans rfl) (hkept.trans (suspectRevolution_kept _)) ?_
  have hall := hsignals.trans (suspectRevolution_signals _)
  rwa [show ∀ b : BitVec 14, 0 ||| b = b from fun _ => BitVec.zero_or] at hall

theorem runningOrHolding_of_not_running {j : JobState} (h : j ≠ .running) :
    j.runningOrHolding = decide (j = .holding) := by
  cases j with
  | running => exact absurd rfl h
  | _ => rfl

/-- Settles O4: the Sequencer takes no part, and the Monitor's part is a change of the Monitor with a post or none. -/
theorem positionsOutsideARunningJob : Obligations.PositionsOutsideARunningJob := by
  intro s
  refine ⟨fun hi => ?_, fun he hs => ?_, fun he hs hn hr => ?_, fun he hr => ?_⟩
  · have hne : s.monitor.source ≠ .external := by rw [hi]; decide
    exact ⟨congrArg Host.Outcome.next (if_neg hne), congrArg Host.Outcome.next (if_neg hne)⟩
  · refine ⟨_, exec_tick_external he, ?_⟩
    rw [takeTick_unsynced hs]
    exact event_of_action rfl (.refl s) (.refl s)
  · refine ⟨_, exec_tick_external he, ?_⟩
    rw [takeTick_counted hs hn, State.seqTick, if_neg (by exact hr)]
    exact monitor_event s _ false .encoderSlip
  · refine ⟨_, exec_index_external he, ?_⟩
    have hnot : (indexTaken s).seq.state ≠ .running := by
      unfold indexTaken
      split <;> exact hr
    rw [takeIndex_eq, State.seqIndex, if_neg hnot, indexTaken, runningOrHolding_of_not_running hr]
    have hevent := monitor_event s (indexMonitor s.monitor) (slips s.monitor && decide (s.seq.state = .holding))
      .encoderSlip
    simp only [Bool.and_eq_true, decide_eq_true_eq] at hevent ⊢
    exact hevent

/-- Settles O5: the strikes are those of all heads at once, and the Monitor counts. -/
theorem tickStrikesTheDueCells : Obligations.TickStrikesTheDueCells := by
  intro s he hs hn hr hm u
  have hcounted : s.takeTick = u.strikeAll (s.monitor.count + 1) := by
    rw [takeTick_counted hs hn, State.seqTick, if_pos (by exact hr)]
    rfl
  refine ⟨_, exec_tick_external he, ?_⟩
  rw [hcounted]
  exact event_of_action (worksOf_strikeAll u _ hm) ((setMonitor_kept s _).trans (strikeAll_kept u _).link)
    ((setMonitor_signals s _).silent_trans (strikeAll_signals u _ hm))

/-- The TICK that loses the index of a running job: posted, and the revolution suspect (R8, R124). -/
theorem loseIndex_running {s : State} (hr : s.seq.state = .running) :
    s.loseIndex = ((s.setMonitor { s.monitor with sync := .unsynced, count := 0 }).post .indexLost).suspectRevolution := by
  have hposted : s.seq.state.runningOrHolding = true := by rw [hr]; rfl
  unfold State.loseIndex
  simp only [hposted, if_true]
  exact if_pos hr

/-- The TICK that loses the index outside a running job: posted in a HOLDING job (R8). -/
theorem loseIndex_of_not_running {s : State} (hr : s.seq.state ≠ .running) :
    s.loseIndex =
      if decide (s.seq.state = .holding) then
        (s.setMonitor { s.monitor with sync := .unsynced, count := 0 }).post .indexLost
      else s.setMonitor { s.monitor with sync := .unsynced, count := 0 } := by
  unfold State.loseIndex State.seqIndexLost
  rw [runningOrHolding_of_not_running hr]
  refine if_neg ?_
  split <;> exact hr

/-- Settles O7: the index is lost, and a running job's revolution is suspect. -/
theorem indexLostHoldsTheJob : Obligations.IndexLostHoldsTheJob := by
  intro s he hs hn
  have hlost : exec .indexLost s = exec .tick s :=
    congrArg Host.Outcome.next (if_pos (by simp [State.indexAboutToBeLost, he, hs, hn]))
  refine ⟨_, hlost.trans (exec_tick_external he), exec_tick_external he, ?_⟩
  rw [takeTick_lost hs hn]
  dsimp only
  split
  · next hr =>
    rw [loseIndex_running hr]
    exact suspect_event s _ .indexLost
  · next hr =>
    rw [loseIndex_of_not_running hr]
    have hevent := monitor_event s { s.monitor with sync := .unsynced, count := 0 }
      (decide (s.seq.state = .holding)) .indexLost
    simp only [decide_eq_true_eq] at hevent ⊢
    exact hevent

/-- Settles O8: a slip of a running job is posted and makes its revolution suspect. -/
theorem slipTurnsBackAndHolds : Obligations.SlipTurnsBackAndHolds := by
  intro s he hr hslip
  have htaken : s.takeIndex = ((s.setMonitor (indexMonitor s.monitor)).post .encoderSlip).suspectRevolution := by
    have hposted : (slips s.monitor && s.seq.state.runningOrHolding) = true := by rw [hslip, hr]; rfl
    rw [takeIndex_eq, indexTaken, if_pos hposted, hslip]
    exact if_pos hr
  refine ⟨_, exec_index_external he, ?_⟩
  rw [htaken]
  exact suspect_event s _ .encoderSlip

end Sys2Proof.Machine
end

