-- ==== Sys2Proof/Proofs/GeneratorPositions.lean ====
section
/-! SUPPORT. No action reads which source is in force, once a position is taken: changing the source commutes with every
action of the Monitor, the Sequencer, the Tally Unit and the Capture Unit. With that, a position of the internal generator
is the position on the lines (R11). -/

namespace Sys2Proof.Machine

open Sys2Proof Sys2Proof.Claims

/-- The state with another position source in force. -/
def State.setSource (s : State) (x : Source) : State := s.setMonitor { s.monitor with source := x }

section
variable (s : State) (x : Source)

/-- A choice between two states, each with its source changed. -/
theorem ite_setSource (c : Prop) [Decidable c] (t u : State) :
    (if c then t.setSource x else u.setSource x) = (if c then t else u).setSource x :=
  (apply_ite (fun v => State.setSource v x) c t u).symm

theorem changeCaptures_setSource (f : Capture → Capture) :
    (s.setSource x).changeCaptures f = (s.changeCaptures f).setSource x :=
  ite_setSource x _ ((s.setCaptures (s.captures.map f)).raise .captureFull) (s.setCaptures (s.captures.map f))

theorem endCaptures_setSource (heads : HeadNo → Bool) :
    (s.setSource x).endCaptures heads = (s.endCaptures heads).setSource x :=
  changeCaptures_setSource s x (endCapture heads)

theorem tallyStrike_setSource (r : StrikeResult) : (s.setSource x).tallyStrike r = (s.tallyStrike r).setSource x :=
  congrArg (fun u : State => u.updTally r.head fun t => t.add s.seq.job.tallySource r)
    (ite_setSource x ((r.driveClamped && s.noDriveClamps) = true) (s.raise .driveClamped) s)

/-- The mark counter's step of a strike that counts (R139). -/
theorem countMark_setSource (r : StrikeResult) : (s.setSource x).countMark r = (s.countMark r).setSource x := by
  have hcounted := ite_setSource x (wrapSucc32 s.markCounter = 0 ∧ s.seq.job.markStop = true)
    ((((s.setMarkCounter (wrapSucc32 s.markCounter)).setSeq { s.seq with hold := true }).raise .markStop))
    (s.setMarkCounter (wrapSucc32 s.markCounter))
  unfold State.countMark
  split
  · exact hcounted
  · rfl

theorem strikeCell_setSource (h : HeadNo) (c : StrikeContext) :
    (s.setSource x).strikeCell h c = (s.strikeCell h c).setSource x := by
  have htally := tallyStrike_setSource (s.placeStrike h c) x (computeStrike (s.strikeInput h c))
  have hmark := (congrArg (fun u : State => u.countMark (computeStrike (s.strikeInput h c))) htally).trans
    (countMark_setSource _ x _)
  have hcapture := (congrArg (fun u : State => u.captureStrike (computeStrike (s.strikeInput h c)) c.screen.cells)
    hmark).trans (changeCaptures_setSource _ x _)
  unfold State.strikeCell
  dsimp only
  split
  · exact congrArg (fun u : State => u.completeTrack h c) hcapture
  · exact hcapture

theorem strikeHead_setSource (tick : Nat) (h : HeadNo) :
    (s.setSource x).strikeHead tick h = (s.strikeHead tick h).setSource x := by
  have hcontext : (s.setSource x).strikeContext h = s.strikeContext h := rfl
  rw [State.strikeHead_eq, State.strikeHead_eq, hcontext]
  cases s.strikeContext h with
  | none => rfl
  | some c =>
    refine Eq.trans ?_ (ite_setSource x (c.tick s.seq.job.e = tick) (s.strikeCell h c) s)
    rw [← strikeCell_setSource]
    rfl

theorem strikeList_setSource (tick : Nat) (heads : List HeadNo) :
    (s.setSource x).strikeList tick heads = (s.strikeList tick heads).setSource x := by
  induction heads generalizing s with
  | nil => rfl
  | cons h rest ih => rw [State.strikeList_cons, State.strikeList_cons, strikeHead_setSource, ih]

theorem strikeAll_setSource (tick : Nat) : (s.setSource x).strikeAll tick = (s.strikeAll tick).setSource x :=
  strikeList_setSource s x tick allHeads

theorem seqTick_setSource (tick : Nat) : (s.setSource x).seqTick tick = (s.seqTick tick).setSource x := by
  refine Eq.trans ?_ (ite_setSource x (s.seq.state = .running) (s.strikeAll tick) s)
  rw [← strikeAll_setSource]
  rfl

theorem suspectRevolution_setSource : (s.setSource x).suspectRevolution = s.suspectRevolution.setSource x := by
  have hcaptures : ((((s.setSource x).mapLanes fun h => Lane.suspect (s.setSource x).seq.heads[h]).liftHeads
        (s.setSource x).cutting).endCaptures (s.setSource x).cutting) =
      (((s.mapLanes fun h => Lane.suspect s.seq.heads[h]).liftHeads s.cutting).endCaptures s.cutting).setSource x :=
    endCaptures_setSource ((s.mapLanes fun h => Lane.suspect s.seq.heads[h]).liftHeads s.cutting) x s.cutting
  unfold State.suspectRevolution
  dsimp only
  rw [hcaptures]
  generalize ((s.mapLanes fun h => Lane.suspect s.seq.heads[h]).liftHeads s.cutting).endCaptures s.cutting = u
  rfl

theorem startHeads_setSource (heads : HeadNo → Bool) (recut : Bool) :
    (s.setSource x).startHeads heads recut = (s.startHeads heads recut).setSource x := by
  rw [startHeads_eq, startHeads_eq, ← strikeAll_setSource]
  rfl

theorem advance_setSource : (s.setSource x).advance = s.advance.setSource x := by
  have hretained : (s.setSource x).seq.retained = s.seq.retained := rfl
  unfold State.advance
  rw [hretained]
  split <;> rfl

theorem passGate_setSource : (s.setSource x).passGate = s.passGate.setSource x := by
  have hwaiting : (s.setSource x).waiting = s.waiting := rfl
  unfold State.passGate
  rw [hwaiting, advance_setSource, startHeads_setSource]
  generalize s.advance.startHeads s.waiting false = u
  rfl

theorem idleRevolution_setSource (back : HeadNo → Bool) :
    (s.setSource x).idleRevolution back = (s.idleRevolution back).setSource x := by
  unfold State.idleRevolution
  refine Eq.trans ?_ (ite_setSource x _ _ _)
  cases allHeads.find? back <;> rfl

theorem repairStep_setSource : (s.setSource x).repairStep = s.repairStep.setSource x := by
  unfold State.repairStep
  refine Eq.trans ?_ (ite_setSource x _ _ _)
  rw [← startHeads_setSource, ← idleRevolution_setSource]
  rfl

theorem endJob_setSource (o : JobOutcome) : (s.setSource x).endJob o = (s.endJob o).setSource x := by
  have hcaptures : (((s.setSource x).liftHeads fun _ => true).endCaptures fun _ => true) =
      ((s.liftHeads fun _ => true).endCaptures fun _ => true).setSource x :=
    endCaptures_setSource (s.liftHeads fun _ => true) x fun _ => true
  unfold State.endJob
  dsimp only
  rw [hcaptures]
  generalize (s.liftHeads fun _ => true).endCaptures (fun _ => true) = u
  rfl

theorem indexSteps_setSource : (s.setSource x).indexSteps = s.indexSteps.setSource x := by
  unfold State.indexSteps
  refine Eq.trans ?_ (ite_setSource x _ _ _)
  rw [← ite_setSource, ← ite_setSource, ← ite_setSource, ← endJob_setSource, ← repairStep_setSource, ← passGate_setSource,
    ← idleRevolution_setSource]
  rfl

theorem seqIndex_setSource (slip : Bool) : (s.setSource x).seqIndex slip = (s.seqIndex slip).setSource x := by
  have hcleared : (s.setSource x).clearJustCut = s.clearJustCut.setSource x := rfl
  unfold State.seqIndex
  refine Eq.trans ?_ (ite_setSource x _ _ _)
  rw [hcleared, ← ite_setSource, ← suspectRevolution_setSource, ← indexSteps_setSource]
  rfl

theorem seqIndexLost_setSource : (s.setSource x).seqIndexLost = s.seqIndexLost.setSource x := by
  unfold State.seqIndexLost
  refine Eq.trans ?_ (ite_setSource x _ _ _)
  rw [← suspectRevolution_setSource]
  rfl

theorem loseIndex_setSource : (s.setSource x).loseIndex = s.loseIndex.setSource x := by
  have hposted := ite_setSource x (s.seq.state.runningOrHolding = true)
    ((s.setMonitor { s.monitor with sync := .unsynced, count := 0 }).post .indexLost)
    (s.setMonitor { s.monitor with sync := .unsynced, count := 0 })
  exact (congrArg State.seqIndexLost hposted).trans (seqIndexLost_setSource _ x)

theorem takeTick_setSource : (s.setSource x).takeTick = s.takeTick.setSource x := by
  cases hs : s.monitor.sync with
  | unsynced => rw [takeTick_unsynced hs, takeTick_unsynced (s := s.setSource x) hs]
  | synced =>
    by_cases hn : s.monitor.count + 1 = 2 * s.monitor.e
    · rw [takeTick_lost hs hn, takeTick_lost (s := s.setSource x) hs hn, loseIndex_setSource]
    · rw [takeTick_counted hs hn, takeTick_counted (s := s.setSource x) hs hn, ← seqTick_setSource]
      rfl

theorem indexTaken_setSource : indexTaken (s.setSource x) = (indexTaken s).setSource x := by
  have hmonitor : (s.setSource x).setMonitor (indexMonitor (s.setSource x).monitor) =
      (s.setMonitor (indexMonitor s.monitor)).setSource x := by
    cases hs : s.monitor.sync with
    | unsynced => rw [indexMonitor_unsynced hs, indexMonitor_unsynced (m := (s.setSource x).monitor) hs]; rfl
    | synced => rw [indexMonitor_synced hs, indexMonitor_synced (m := (s.setSource x).monitor) hs]; rfl
  unfold indexTaken
  rw [hmonitor]
  exact ite_setSource x ((slips s.monitor && s.seq.state.runningOrHolding) = true)
    ((s.setMonitor (indexMonitor s.monitor)).post .encoderSlip) _

theorem takeIndex_setSource : (s.setSource x).takeIndex = s.takeIndex.setSource x := by
  rw [takeIndex_eq, takeIndex_eq, indexTaken_setSource, seqIndex_setSource]
  rfl

theorem latch_setSource (b c : State) (hc : b.conditions = c.conditions) :
    b.latch (s.setSource x) = (c.latch s).setSource x := by
  unfold State.latch
  rw [hc]
  rfl

end

/-- Settles O14: the source in force is read only to take a position or not, so a position of the generator is the one on
the line with the source changed back. -/
theorem generatorPositionsAreTakenAsLines : Obligations.GeneratorPositionsAreTakenAsLines := by
  intro s
  refine ⟨fun he => congrArg Host.Outcome.next (if_neg (by rw [he]; decide)), fun hi => ?_⟩
  have hline : (s.setMonitor { s.monitor with genNext := (s.monitor.genNext + 1) % s.monitor.e }) =
      (asLine s).setSource .internal := by
    rw [← hi]
    rfl
  have hgenerator : exec .internalTickGenerator s = .next (s.latch
      (if s.monitor.genNext = 0 then ((asLine s).setSource .internal).takeIndex
        else ((asLine s).setSource .internal).takeTick)) := by
    rw [← hline]
    exact congrArg Host.Outcome.next (if_pos hi)
  rw [hgenerator]
  split
  · exact ⟨_, exec_index_external rfl, by rw [takeIndex_setSource, latch_setSource _ _ s (asLine s) rfl]; rfl⟩
  · exact ⟨_, exec_tick_external rfl, by rw [takeTick_setSource, latch_setSource _ _ s (asLine s) rfl]; rfl⟩

end Sys2Proof.Machine
end

