-- ==== Sys2Proof/Proofs/ScreenRecords.lean ====
section
/-! SUPPORT. A record at the head of the FIFO, with the Interpreter FREE: the link's side of its taking once for every
record, and then SET SCREEN and CLEAR SCREEN (R14, R15). -/

namespace Sys2Proof.Machine

open Sys2Proof Sys2Proof.Claims

/-! ## The frame leaves the FIFO (R155 to R157) -/

theorem leaveIntake_rx (s : State) :
    s.leaveIntake.rx = { s.rx with fifo := s.rx.fifo.tail, flow := flowAfterFall s (fillOf s.rx.fifo.tail) } := by
  rw [State.leaveIntake_eq]
  unfold flowAfterFall
  split <;> rfl

theorem leaveIntake_flowMark (s : State) :
    s.leaveIntake.tx.flowMark = markAfter s (flowAfterFall s (fillOf s.rx.fifo.tail)) := by
  rw [State.leaveIntake_eq]
  unfold markAfter flowAfterFall
  split
  · next h => rw [h.1]; rfl
  · exact (if_pos rfl).symm

/-- The frame's leaving posts and raises nothing. -/
theorem leaveIntake_signals (s : State) : Signals s s.leaveIntake 0 [] := .of_kept (by simp) (by simp)

/-! ## The reply (R170, R172) -/

/-- What a record's own rule leaves of the link, with no reply given. -/
theorem leavesAndReplies_silent {s t : State} (hl : LinkKept s.leaveIntake t) :
    LeavesAndReplies s (s.latch t) .silent s.interp.syncs := by
  refine ⟨?_, ?_, ?_, ?_, ?_, ?_, ?_⟩
  · exact hl.pending.trans (by simp)
  · exact hl.rx.trans (leaveIntake_rx s)
  · exact hl.flowMark.trans (leaveIntake_flowMark s)
  · exact hl.announced.trans (by simp)
  · exact hl.sending.trans (by simp)
  · exact hl.queue.trans (State.leaveIntake_tx_queue s)
  · exact hl.interp.trans (State.leaveIntake_interp s)

/-- What a record's own rule leaves of the link, with a RESULT placed or waiting. -/
theorem leavesAndReplies_result {s t : State} (hl : LinkKept s.leaveIntake t) (f : UpFrame) :
    LeavesAndReplies s (s.latch (t.answer f)) (.result f) s.interp.syncs := by
  have hqueue : t.tx.queue = s.tx.queue := hl.queue.trans (by simp)
  have hinterp : t.interp = s.interp := hl.interp.trans (by simp)
  rw [State.answer_eq, hqueue, hinterp]
  obtain ⟨hpending, hrx, hmark, hannounced, hsending, -, -⟩ := leavesAndReplies_silent hl
  exact ⟨hpending, hrx, hmark, hannounced, hsending, rfl, rfl⟩

theorem answer_signals (s : State) (f : UpFrame) : Signals s (s.answer f) 0 [] :=
  .of_kept (by simp) (by rw [State.answer_eq])

/-! ## Records at the head of the FIFO -/

/-- The command of a record at the head, the Interpreter being FREE, runs the record's own rule (R160, R169). -/
theorem exec_atHead {s : State} {k : RecordKind} {h : Header} {p : List Byte} (ha : AtHead s k h p) (hk : k ≠ .reset)
    (hlen : k.lengthOk p = true) :
    exec (k.command h p) s =
      .next (s.latch ((ruleOf k h p s.leaveIntake).conclude s.leaveIntake k.code k.alwaysAnswered h)) := by
  obtain ⟨hhead, hfree, hnotify⟩ := ha
  rw [exec_record_at_head k h p s hk hhead hfree, checkedRule_ok k h p _ hlen hnotify]

/-- A record that its rule refuses at the head of the FIFO is Refused (R169, R170). -/
theorem refused_atHead {s : State} {k : RecordKind} {h : Header} {p : List Byte} (ha : AtHead s k h p) (hk : k ≠ .reset)
    (hlen : k.lengthOk p = true) {code : Completion} {payload : List Byte}
    (hrule : ruleOf k h p s.leaveIntake = .refused code payload) :
    Completes (k.command h p) s fun t => Refused s t k.code h code payload := by
  refine ⟨_, exec_atHead ha hk hlen, ?_⟩
  rw [hrule, Verdict.conclude_refused]
  refine ⟨by simp, leavesAndReplies_result (LinkKept.raise _ _) _, Signals.posts ?_⟩
  exact ((leaveIntake_signals s).silent_trans (.raise _ _)).trans_silent (answer_signals _ _)

/-- A record whose rule succeeds at the head of the FIFO, with an effect on the works alone, Succeeds (R170). -/
theorem succeeds_atHead {s t : State} {k : RecordKind} {h : Header} {p : List Byte} (ha : AtHead s k h p) (hk : k ≠ .reset)
    (hlen : k.lengthOk p = true) {code : Completion} {payload : List Byte}
    (hrule : ruleOf k h p s.leaveIntake = .done t code payload) (hl : LinkKept s.leaveIntake t)
    (hs : Signals s.leaveIntake t 0 []) :
    Completes (k.command h p) s fun u => Succeeds s u (worksOf t) k h code payload := by
  refine ⟨_, exec_atHead ha hk hlen, ?_⟩
  have hsignals : Signals s t 0 [] := (leaveIntake_signals s).silent_trans hs
  rw [hrule, Verdict.conclude_done]
  unfold Succeeds successReply
  split
  · exact ⟨by simp, leavesAndReplies_result hl _, (hsignals.trans_silent (answer_signals _ _)).posts⟩
  · exact ⟨by simp, leavesAndReplies_silent hl, hsignals.posts⟩

/-! ## Screens (R13 to R15) -/

theorem setScreenOperands_eq (p : List Byte) (slot : Fin 8) (hslot : u8At p 0 = slot.val)
    (hn : 256 ≤ u16At p 1 ∧ u16At p 1 ≤ 32768) (hd : u16At p 4 ≤ 1000) :
    setScreenOperands p = some (slot, { cells := u16At p 1, stagger := u8At p 3, minDepth := u16At p 4 }) := by
  simp [setScreenOperands, guardIn, (finOf_eq slot).mpr hslot, hn, hd]

theorem setScreenOperands_none {p : List Byte}
    (hn : ¬ (u8At p 0 < 8 ∧ 256 ≤ u16At p 1 ∧ u16At p 1 ≤ 32768 ∧ u16At p 4 ≤ 1000)) : setScreenOperands p = none := by
  refine Option.eq_none_iff_forall_not_mem.mpr fun ⟨slot, x⟩ hx => hn ?_
  obtain ⟨hslot, hmin, hmax, hdepth, -⟩ := setScreenOperands_some hx
  exact ⟨by omega, hmin, hmax, hdepth⟩

/-- The works with a screen slot written, once the frame has left the FIFO. -/
theorem worksOf_setScreen_leaveIntake (s : State) (slot : Fin 8) (x : Option Screen) :
    worksOf (s.leaveIntake.setScreen slot x) =
      { worksOf s with screens := updAt s.screens slot fun g => { g with screen := x } } := by
  simp [worksOf, State.setScreen]

theorem setScreen_kept (s : State) (slot : Fin 8) (x : Option Screen) : LinkKept s (s.setScreen slot x) :=
  ⟨rfl, rfl, rfl, rfl, rfl, rfl, rfl⟩

theorem setScreen_signals (s : State) (slot : Fin 8) (x : Option Screen) : Signals s (s.setScreen slot x) 0 [] :=
  .of_kept rfl rfl

/-- A screen record that names a slot: SLOT_BOUND for a bound one, and otherwise the slot is written (R14, R15). -/
theorem screenRecord_completes {s : State} {k : RecordKind} {h : Header} {p : List Byte} (ha : AtHead s k h p)
    (hk : k ≠ .reset) (hlen : k.lengthOk p = true) (slot : Fin 8) (x : Option Screen)
    (hrule : ruleOf k h p s.leaveIntake =
      if s.leaveIntake.screens[slot].binds ≠ 0 then .refuse .slotBound else .ok (s.leaveIntake.setScreen slot x)) :
    Completes (k.command h p) s fun t =>
      if s.screens[slot].binds ≠ 0 then Refused s t k.code h .slotBound
      else Succeeds s t { worksOf s with screens := updAt s.screens slot fun g => { g with screen := x } } k h := by
  rw [State.leaveIntake_screens] at hrule
  by_cases hb : s.screens[slot].binds ≠ 0
  · rw [if_pos hb] at hrule
    simp only [if_pos hb]
    exact refused_atHead ha hk hlen hrule
  · rw [if_neg hb] at hrule
    simp only [if_neg hb]
    rw [← worksOf_setScreen_leaveIntake]
    exact succeeds_atHead ha hk hlen hrule (setScreen_kept _ _ _) (setScreen_signals _ _ _)

/-- Settles O27, from the two rules and what every record at the head does. -/
theorem screenRecordsWriteUnboundSlots : Obligations.ScreenRecordsWriteUnboundSlots := by
  refine fun s h p => ⟨fun hlen ha => ⟨fun hn => ?_, fun hok slot hslot => ?_⟩,
    fun hlen ha => ⟨fun hn => ?_, fun slot hslot => ?_⟩⟩
  · refine refused_atHead ha (by decide) (decide_eq_true hlen) ?_
    show ruleSetScreen p s.leaveIntake = _
    rw [ruleSetScreen, setScreenOperands_none hn, withOperands_none]
  · refine screenRecord_completes ha (by decide) (decide_eq_true hlen) slot _ ?_
    show ruleSetScreen p s.leaveIntake = _
    obtain ⟨-, hmin, hmax, hdepth⟩ := hok
    rw [ruleSetScreen, setScreenOperands_eq p slot hslot ⟨hmin, hmax⟩ hdepth, withOperands_some]
  · refine refused_atHead ha (by decide) (decide_eq_true hlen) ?_
    show ruleClearScreen p s.leaveIntake = _
    have hnone : screenSlotOperand p = none := dif_neg (by omega)
    rw [ruleClearScreen, hnone, withOperands_none]
  · refine screenRecord_completes ha (by decide) (decide_eq_true hlen) slot none ?_
    show ruleClearScreen p s.leaveIntake = _
    have hsome : screenSlotOperand p = some slot := (finOf_eq ..).mpr hslot
    rw [ruleClearScreen, hsome, withOperands_some]

end Sys2Proof.Machine
end

