-- ==== Sys2Proof/Proofs/NamedEvents.lean ====
section
/-! SUPPORT. The commands that name what comes about inside another event: each is that event or changes nothing (log entries
3 and 4). -/

namespace Sys2Proof.Machine

open Sys2Proof Sys2Proof.Claims

/-! ## Names of a position: STALL, MARK_STOP and INDEX_LOST -/

theorem exec_positionCommand (p : PositionEvent) (s : State) :
    exec (positionCommand p) s = .next (s.takePosition p) := by
  cases p <;> rfl

theorem exec_stall (p : PositionEvent) (s : State) :
    exec (.stall p) s =
      .next (if s.seq.stalled = false ∧ (s.takePosition p).seq.stalled = true then s.takePosition p else s) := by
  have hcondition : (!s.seq.stalled && (s.takePosition p).seq.stalled) = true ↔
      s.seq.stalled = false ∧ (s.takePosition p).seq.stalled = true := by
    rw [Bool.and_eq_true, Bool.not_eq_true']
  exact congrArg Host.Outcome.next (ite_congr (propext hcondition) (fun _ => rfl) fun _ => rfl)

theorem exec_markStop (p : PositionEvent) (s : State) :
    exec (.markStop p) s =
      .next (if (s.takePosition p).markCounter < s.markCounter then s.takePosition p else s) := rfl

/-- What a position leaves of the Sequencer and the mark counter when no running job takes it. -/
def SequencerKept (s t : State) : Prop := t.seq = s.seq ∧ t.markCounter = s.markCounter

theorem takeTick_keeps {s : State} (hr : s.seq.state ≠ .running) : SequencerKept s s.takeTick := by
  cases hs : s.monitor.sync with
  | unsynced => rw [takeTick_unsynced hs]; exact ⟨rfl, rfl⟩
  | synced =>
    by_cases hn : s.monitor.count + 1 = 2 * s.monitor.e
    · rw [takeTick_lost hs hn, loseIndex_of_not_running hr]
      split <;> exact ⟨rfl, rfl⟩
    · rw [takeTick_counted hs hn, State.seqTick, if_neg (by exact hr)]
      exact ⟨rfl, rfl⟩

theorem indexTaken_keeps (s : State) : SequencerKept s (indexTaken s) := by
  unfold indexTaken
  split <;> exact ⟨rfl, rfl⟩

theorem takeIndex_keeps {s : State} (hr : s.seq.state ≠ .running) : SequencerKept s s.takeIndex := by
  have hkept := indexTaken_keeps s
  rw [takeIndex_eq, State.seqIndex, if_neg (by rw [hkept.1]; exact hr)]
  exact hkept

/-- Outside a running job no position changes the Sequencer or the mark counter (R113). -/
theorem takePosition_keeps {s : State} (hr : s.seq.state ≠ .running) (p : PositionEvent) :
    SequencerKept s (s.takePosition p) := by
  cases p with
  | tick =>
    show SequencerKept s s.tickLine
    unfold State.tickLine
    split
    · exact takeTick_keeps hr
    · exact ⟨rfl, rfl⟩
  | index =>
    show SequencerKept s s.indexLine
    unfold State.indexLine
    split
    · exact takeIndex_keeps hr
    · exact ⟨rfl, rfl⟩
  | generator =>
    show SequencerKept s s.generatorPeriod
    unfold State.generatorPeriod
    split
    · dsimp only
      split
      · exact takeIndex_keeps (s := s.setMonitor { s.monitor with genNext := (s.monitor.genNext + 1) % s.monitor.e }) hr
      · exact takeTick_keeps (s := s.setMonitor { s.monitor with genNext := (s.monitor.genNext + 1) % s.monitor.e }) hr
    · exact ⟨rfl, rfl⟩

/-- Outside a running job neither STALLED rises nor the mark counter falls. -/
theorem named_position_idle {s : State} (hr : s.seq.state ≠ .running) (p : PositionEvent) :
    exec (.stall p) s = .next s ∧ exec (.markStop p) s = .next s := by
  obtain ⟨hseq, hmark⟩ := takePosition_keeps hr p
  rw [exec_stall, exec_markStop, hseq, hmark]
  refine ⟨congrArg Host.Outcome.next (if_neg ?_), congrArg Host.Outcome.next (if_neg (Nat.lt_irrefl _))⟩
  rintro ⟨hclear, hset⟩
  rw [hclear] at hset
  cases hset

theorem exec_indexLost_idle {s : State}
    (hn : ¬ (s.monitor.source = .external ∧ s.monitor.sync = .synced ∧ s.monitor.count + 1 = 2 * s.monitor.e)) :
    exec .indexLost s = .next s :=
  congrArg Host.Outcome.next (if_neg fun ha => hn (of_decide_eq_true ha))

/-! ## Names of a completion and of the placings -/

/-- With no load in work nothing completes (R32). -/
theorem exec_expansionComplete_idle {s : State} (hq : s.expander.queue = []) : exec .expansionComplete s = .next s := by
  have hfinish : s.finishExpansion = s := by
    unfold State.finishExpansion
    rw [hq]
  have hevent : s.event State.finishExpansion = s := by
    rw [State.event_eq, hfinish]
    exact State.latch_of_conditions s s rfl
  exact congrArg Host.Outcome.next hevent

/-- A FREE Interpreter has nothing to place (R172). -/
theorem exec_placed_idle {s : State} (hf : s.interp.state = .free) :
    exec .resultPlaced s = .next s ∧ exec .captureDataPlaced s = .next s := by
  have hholds : s.interp.state.holdsResult = false := by rw [hf]; rfl
  refine ⟨congrArg Host.Outcome.next (if_neg ?_), ?_⟩
  · rw [hholds]
    exact Bool.false_ne_true
  · show execCaptureDataPlaced s = .next s
    unfold execCaptureDataPlaced
    rw [hf]

/-- With no SYNC due there is no answer to place (R174). -/
theorem exec_syncAnswerPlaced_idle {s : State} (hd : dueOf s.interp.syncs = []) : exec .syncAnswerPlaced s = .next s := by
  have hnone : s.interp.syncs.any SyncEntry.due = false :=
    List.any_eq_false.mpr fun e he => List.filter_eq_nil_iff.mp hd e he
  refine congrArg Host.Outcome.next (if_neg ?_)
  rw [hnone]
  exact Bool.false_ne_true

/-- Settles O60: the names of a position, of a completion and of the placings, one by one. -/
theorem namedEventsHappenOnlyWhereTheyCan : Obligations.NamedEventsHappenOnlyWhereTheyCan := by
  intro s
  refine ⟨fun p t ht => ?_, exec_indexLost_idle, named_position_idle, exec_expansionComplete_idle, exec_placed_idle,
    exec_syncAnswerPlaced_idle⟩
  rw [exec_positionCommand] at ht
  cases ht
  exact ⟨exec_stall p s, exec_markStop p s⟩

end Sys2Proof.Machine
end

