-- ==== Sys2Proof/Proofs/LinkAside.lean ====
section
/-! SUPPORT. What the link's laws read of a state: a view of the queues, marks, claims and tables, and the form of the
Error Queue and the notice. An action stands aside from the link when it leaves the view and keeps that form; every
action of the Monitor, the Sequencer, the Head Ports and the Track Assembler does. -/

namespace Sys2Proof.Machine

open Sys2Proof Sys2Proof.Claims

/-! ## What the laws read -/

/-- What the link's laws read of a state, apart from the Status Unit and the notice: of the FIFO its fill, of the
captures the entries they reserve, of the gradation slots their tables. -/
structure LinkView where
  fill : Nat
  flow : FlowState
  flowMark : Option FlowState
  announced : FlowState
  queue : List UpFrame
  interp : Interpreter
  expander : Expander
  tables : Vector Table 16
  reserved : Nat

/-- The view of a state. -/
def linkView (s : State) : LinkView where
  fill := s.fill
  flow := s.rx.flow
  flowMark := s.tx.flowMark
  announced := s.tx.announced
  queue := s.tx.queue
  interp := s.interp
  expander := s.expander
  tables := mapAll (fun _ g => g.table) s.grads
  reserved := reservedOf s.captures

/-- The Error Queue has its form, and a notice is pending only while the summary is 1 (R181, R183). -/
def State.StatusFormed (s : State) : Prop := s.ErrorsFormed ∧ s.NoticeBacked

/-- From one state to the other nothing has come about on the link, at the Interpreter or at the Expander; at most an
error is posted or an event raised. -/
structure Aside (s t : State) : Prop where
  view : linkView t = linkView s
  status : s.StatusFormed → t.StatusFormed

theorem Aside.refl (s : State) : Aside s s := ⟨rfl, id⟩

theorem Aside.trans {s t u : State} (h : Aside s t) (k : Aside t u) : Aside s u :=
  ⟨k.view.trans h.view, fun hs => k.status (h.status hs)⟩

/-- The form of the Status Unit is read from its block and from the notice. -/
theorem State.StatusFormed.congr {s t : State} (h : s.StatusFormed) (hs : t.status = s.status)
    (hn : t.tx.notice = s.tx.notice) : t.StatusFormed := by
  unfold State.StatusFormed State.ErrorsFormed State.NoticeBacked State.summary
  rw [hs, hn]
  exact h

/-- An action that leaves the view, the Status Unit and the notice stands aside. -/
theorem Aside.of_eq {s t : State} (hv : linkView t = linkView s) (hs : t.status = s.status)
    (hn : t.tx.notice = s.tx.notice) : Aside s t :=
  ⟨hv, fun h => h.congr hs hn⟩

theorem Aside.ite {s t u : State} {c : Prop} [Decidable c] (h : Aside s t) (k : Aside s u) :
    Aside s (if c then t else u) := by
  split
  · exact h
  · exact k

section
variable {s t : State}

theorem Aside.setSeq (h : Aside s t) (x : Sequencer) : Aside s (t.setSeq x) := h.trans (.of_eq rfl rfl rfl)

theorem Aside.setMonitor (h : Aside s t) (x : Monitor) : Aside s (t.setMonitor x) := h.trans (.of_eq rfl rfl rfl)

theorem Aside.setLanes (h : Aside s t) (x : PerHead (Option Lane)) : Aside s (t.setLanes x) :=
  h.trans (.of_eq rfl rfl rfl)

theorem Aside.setPorts (h : Aside s t) (x : PerHead HeadPort) : Aside s (t.setPorts x) := h.trans (.of_eq rfl rfl rfl)

theorem Aside.setTallies (h : Aside s t) (x : PerHead Tally) : Aside s (t.setTallies x) := h.trans (.of_eq rfl rfl rfl)

theorem Aside.setScreens (h : Aside s t) (x : Vector ScreenSlot 8) : Aside s (t.setScreens x) :=
  h.trans (.of_eq rfl rfl rfl)

theorem Aside.setMarkCounter (h : Aside s t) (x : Nat) : Aside s (t.setMarkCounter x) := h.trans (.of_eq rfl rfl rfl)

theorem Aside.setRoom (h : Aside s t) (x : PerHead Bool) : Aside s (t.setTx { t.tx with room := x }) :=
  h.trans (.of_eq rfl rfl rfl)

/-- Bind counts are no concern of the link (R24). -/
theorem Aside.setBinds (h : Aside s t) (f : Fin 16 → Nat → Nat) :
    Aside s (t.setGrads (mapAll (fun i g => { g with binds := f i g.binds }) t.grads)) := by
  refine h.trans (.of_eq ?_ rfl rfl)
  unfold linkView
  rw [State.setGrads_grads, mapAll_mapAll]
  rfl

end

/-! ## Posts, events and captures -/

/-- Whatever the register and the mask become, the notice follows the summary (R181). -/
theorem writeStatus_aside (s : State) (events enable : BitVec 14) : Aside s (s.writeStatus events enable) := by
  refine ⟨rfl, fun ⟨herrors, hnotice⟩ => ⟨herrors, fun hn => ?_⟩⟩
  show summaryOf events enable = true
  rw [State.writeStatus_eq] at hn
  replace hn : noticeGoing s.summary (summaryOf events enable) s.tx.notice = true := hn
  cases hnow : summaryOf events enable with
  | true => rfl
  | false =>
    rw [hnow] at hn
    cases hwas : s.summary with
    | true => rw [hwas] at hn; cases hn
    | false =>
      rw [hwas] at hn
      exact absurd (hnotice hn) (by rw [hwas]; exact Bool.false_ne_true)

theorem raise_aside (s : State) (e : OneShot) : Aside s (s.raise e) := writeStatus_aside s _ _

theorem latch_aside (s t : State) : Aside t (s.latch t) := writeStatus_aside t _ _

/-- A post keeps QUEUE_OVERFLOW out of every place but the newest (R183). -/
theorem postTo_formed {q : List ErrorEntry} (e : ErrorEntry) (hq : ∀ x ∈ q.dropLast, x.code ≠ .queueOverflow) :
    ∀ x ∈ (postTo q e).dropLast, x.code ≠ .queueOverflow := by
  unfold postTo
  split
  · exact hq
  next hlast =>
  split
  · rw [List.dropLast_concat]
    intro x hx
    obtain rfl | ⟨front, newest, rfl⟩ := List.eq_nil_or_concat' q
    · cases hx
    rw [List.dropLast_concat] at hq
    rw [List.getLast?_concat] at hlast
    obtain hfront | hnewest := List.mem_append.mp hx
    · exact hq x hfront
    · rw [List.mem_singleton.mp hnewest]
      exact fun hcode => hlast (congrArg some hcode)
  · rw [List.dropLast_concat]
    exact hq

theorem post_aside (s : State) (code : ErrorCode) (head : Option HeadNo) (lane : Option Byte)
    (track cell : Option Nat) : Aside s (s.post code head lane track cell) := by
  have hposted : Aside s (s.setStatus { s.status with
      errors := postTo s.status.errors (entry s code head lane track cell) }) :=
    ⟨rfl, fun ⟨⟨hlength, hformed⟩, hnotice⟩ => ⟨⟨postTo_length _ _ hlength, postTo_formed _ hformed⟩, hnotice⟩⟩
  exact hposted.trans (raise_aside _ .errorQueued)

theorem reservedOf_map {captures : List Capture} {f : Capture → Capture} (hf : ∀ c, (f c).length = c.length) :
    reservedOf (captures.map f) = reservedOf captures := by
  unfold reservedOf
  rw [List.map_map]
  exact congrArg List.sum (List.map_congr_left fun c _ => hf c)

/-- Captures that fill or become FULL reserve what they reserved (R142). -/
theorem changeCaptures_aside (s : State) {f : Capture → Capture} (hf : ∀ c, (f c).length = c.length) :
    Aside s (s.changeCaptures f) := by
  have hset : Aside s (s.setCaptures (s.captures.map f)) := by
    refine .of_eq ?_ rfl rfl
    unfold linkView
    rw [State.setCaptures_captures, reservedOf_map hf]
    rfl
  exact .ite (hset.trans (raise_aside _ _)) hset

theorem captureStrike_aside (s : State) (r : StrikeResult) (cells : Nat) : Aside s (s.captureStrike r cells) :=
  changeCaptures_aside s fun c => by unfold Capture.strike; split <;> rfl

theorem endCaptures_aside (s : State) (heads : HeadNo → Bool) : Aside s (s.endCaptures heads) :=
  changeCaptures_aside s fun c => by split <;> rfl

/-! ## Strikes -/

theorem tallyStrike_aside (s : State) (r : StrikeResult) : Aside s (s.tallyStrike r) :=
  (Aside.ite (raise_aside s _) (.refl s)).setTallies _

theorem countMark_aside (s : State) (r : StrikeResult) : Aside s (s.countMark r) := by
  have hcounted := (Aside.refl s).setMarkCounter (wrapSucc32 s.markCounter)
  exact .ite (.ite ((hcounted.setSeq _).trans (raise_aside _ _)) hcounted) (.refl s)

theorem completeTrack_aside (s : State) (h : HeadNo) (c : StrikeContext) : Aside s (s.completeTrack h c) :=
  (((((Aside.refl s).setSeq _).setSeq _).setLanes _).setPorts _).setTallies _

theorem strikeCell_aside (s : State) (h : HeadNo) (c : StrikeContext) : Aside s (s.strikeCell h c) := by
  have hstruck := ((Aside.refl s).setSeq { s.seq with
    heads := updAt s.seq.heads h fun i => { i with state := .cutting (c.index + 1) } }).setPorts
      (updAt s.ports h fun p => p.strike (computeStrike (s.strikeInput h c)))
  have hdelivered := ((hstruck.trans (tallyStrike_aside _ (computeStrike (s.strikeInput h c)))).trans
    (countMark_aside _ (computeStrike (s.strikeInput h c)))).trans
      (captureStrike_aside _ (computeStrike (s.strikeInput h c)) c.screen.cells)
  exact .ite (hdelivered.trans (completeTrack_aside _ h c)) hdelivered

theorem strikeHead_aside (s : State) (tick : Nat) (h : HeadNo) : Aside s (s.strikeHead tick h) :=
  State.strikeHead_induct _ (.refl s) fun c => strikeCell_aside s h c

theorem strikeAll_aside (s : State) (tick : Nat) : Aside s (s.strikeAll tick) :=
  State.strikeAll_induct (Aside s) s tick (.refl s) fun t h ht => ht.trans (strikeHead_aside t tick h)

/-! ## The Sequencer and the Monitor -/

theorem suspectRevolution_aside (s : State) : Aside s s.suspectRevolution :=
  ((((((Aside.refl s).setLanes _).setPorts _).trans (endCaptures_aside _ s.cutting)).setSeq _).setSeq _)

theorem endJob_aside (s : State) (o : JobOutcome) : Aside s (s.endJob o) := by
  have hended := ((Aside.refl s).setPorts _).trans (endCaptures_aside (s.liftHeads fun _ => true) fun _ => true)
  exact (((((((hended.setSeq _).setSeq _).setLanes _).setRoom _).setScreens _).setBinds fun _ _ => 0)).trans
    (raise_aside _ .jobEnded)

theorem startHeads_aside (s : State) (heads : HeadNo → Bool) (recut : Bool) : Aside s (s.startHeads heads recut) :=
  (((((Aside.refl s).setLanes _).setSeq _).setPorts _).setTallies _).trans (strikeAll_aside _ 0)

theorem advance_aside (s : State) : Aside s s.advance :=
  .ite ((((Aside.refl s).setSeq _).setRoom _).setLanes _) (.refl s)

theorem passGate_aside (s : State) : Aside s s.passGate :=
  ((advance_aside s).trans (startHeads_aside _ s.waiting false)).setSeq _

theorem idleRevolution_aside (s : State) (back : HeadNo → Bool) : Aside s (s.idleRevolution back) := by
  have hcounted := (Aside.refl s).setSeq { s.seq with
    idle := satAdd Config.max32 s.seq.idle 1, consecutiveIdle := satAdd Config.max32 s.seq.consecutiveIdle 1 }
  refine .ite ?_ hcounted
  split
  · exact (hcounted.setSeq _).trans (post_aside _ _ _ _ _ _)
  · exact (hcounted.setSeq _).trans (post_aside _ _ _ _ _ _)

theorem repairStep_aside (s : State) : Aside s s.repairStep :=
  .ite (startHeads_aside s _ true) (idleRevolution_aside s _)

theorem indexSteps_aside (s : State) : Aside s s.indexSteps :=
  .ite ((Aside.refl s).setSeq _) (.ite (endJob_aside s _) (.ite (repairStep_aside s)
    (.ite (passGate_aside s) (idleRevolution_aside s _))))

theorem seqIndex_aside (s : State) (slip : Bool) : Aside s (s.seqIndex slip) := by
  have hsteps := ((Aside.refl s).setSeq _).trans (indexSteps_aside s.clearJustCut)
  exact .ite (.ite (suspectRevolution_aside s) hsteps) (.refl s)

theorem loseIndex_aside (s : State) : Aside s s.loseIndex := by
  have hlost := (Aside.refl s).setMonitor { s.monitor with sync := .unsynced, count := 0 }
  have hposted := Aside.ite (c := s.seq.state.runningOrHolding)
    (hlost.trans (post_aside _ .indexLost none none none none)) hlost
  exact hposted.trans (.ite (suspectRevolution_aside _) (.refl _))

theorem takeTick_aside (s : State) : Aside s s.takeTick := by
  unfold State.takeTick
  split
  · exact .refl s
  · exact .ite (loseIndex_aside s) (((Aside.refl s).setMonitor _).trans (.ite (strikeAll_aside _ _) (.refl _)))

theorem takeIndex_aside (s : State) : Aside s s.takeIndex := by
  rw [takeIndex_eq]
  refine Aside.trans ?_ (seqIndex_aside _ _)
  have hcounted := (Aside.refl s).setMonitor (indexMonitor s.monitor)
  exact .ite (hcounted.trans (post_aside _ _ _ _ _ _)) hcounted

/-- Positions stand aside from the link, by each of their ways (R1, R11). -/
theorem takePosition_aside (s : State) (p : PositionEvent) : Aside s (s.takePosition p) := by
  cases p with
  | tick => exact .ite ((takeTick_aside s).trans (latch_aside s _)) (.refl s)
  | index => exact .ite ((takeIndex_aside s).trans (latch_aside s _)) (.refl s)
  | generator =>
    have hstepped := (Aside.refl s).setMonitor { s.monitor with genNext := (s.monitor.genNext + 1) % s.monitor.e }
    have htaken := Aside.ite (c := s.monitor.genNext = 0) (hstepped.trans (takeIndex_aside _))
      (hstepped.trans (takeTick_aside _))
    exact .ite (htaken.trans (latch_aside s _)) (.refl s)

/-! ## Head Ports and lanes -/

theorem faultPolicy_aside (s : State) : Aside s s.faultPolicy := .ite ((Aside.refl s).setSeq _) (.refl s)

theorem faultCut_aside (s : State) (h : HeadNo) (code : ErrorCode) (cell : Nat) : Aside s (s.faultCut h code cell) := by
  have hposted := post_aside s code (some h) (s.laneTag h) (some s.seq.heads[h].next) (some cell)
  exact ((((hposted.setPorts _).setLanes _).trans (endCaptures_aside _ (· = h))).setSeq _).trans (faultPolicy_aside _)

theorem alarmEdge_aside (s : State) (h : HeadNo) : Aside s (s.alarmEdge h) := by
  have hposted := post_aside s .headAlarm (some h) (s.laneTag h) (some s.seq.heads[h].next) none
  unfold State.alarmEdge
  split
  · exact faultCut_aside s h _ _
  · exact (hposted.setSeq _).trans (faultPolicy_aside _)
  · exact (hposted.setSeq _).trans (faultPolicy_aside _)
  · exact post_aside s _ _ _ _ _
  · exact post_aside s _ _ _ _ _
  · exact .refl s

theorem readyLossEdge_aside (s : State) (h : HeadNo) : Aside s (s.readyLossEdge h) := by
  unfold State.readyLossEdge
  split
  · exact faultCut_aside s h _ _
  · exact .refl s

theorem alarmLevel_aside (s : State) (h : HeadNo) (high : Bool) : Aside s (s.alarmLevel h high) := by
  have hread := (Aside.refl s).setPorts (updAt s.ports h fun q => { q with alarmLine := high }.reread)
  exact .ite (hread.trans (alarmEdge_aside _ h)) hread

theorem readyLevel_aside (s : State) (h : HeadNo) (high : Bool) : Aside s (s.readyLevel h high) := by
  have hread := (Aside.refl s).setPorts (updAt s.ports h fun q => { q with readyLine := high }.reread)
  exact .ite (hread.trans (readyLossEdge_aside _ h)) hread

theorem takeCells_aside (s : State) (body : List Byte) : Aside s (s.takeCells body) := by
  unfold State.takeCells
  split
  · exact post_aside s _ _ _ _ _
  split
  · exact post_aside s _ _ _ _ _
  dsimp only
  split
  · exact ((Aside.refl s).setLanes _).trans (post_aside _ _ _ _ _ _)
  · exact (Aside.refl s).setLanes _

end Sys2Proof.Machine
end

