-- ==== Sys2Proof/Proofs/LinkLaws.lean ====
section
/-! SUPPORT. The link's laws: what stands aside from the link keeps them, and so does every action of the Link Receiver,
the Interpreter, the Expander and the Transmitter. A frame that leaves a full Upstream Queue breaks the law of waiting
claims until the claims have been granted; `LinkHeld` are the laws that hold in between. -/

namespace Sys2Proof.Machine

open Sys2Proof Sys2Proof.Claims

/-! ## The laws, with the waiting claims apart -/

/-- The Upstream Queue has no free entry. -/
def State.QueueFull (s : State) : Prop := Config.upstreamCapacity ≤ s.tx.queue.length

/-- Some outstanding SYNC is due (R174). -/
def State.SyncDue (s : State) : Prop := ∃ e ∈ s.interp.syncs, e.load = none

/-- The Interpreter waits with a RESULT or with a frame of a readback (R167). -/
def InterpState.holdsFrame (i : InterpState) : Prop := i.holdsResult = true ∨ i.holdsReadback = true

/-- The link's laws but for the waiting of claims; a completion that waits has its load. -/
structure LinkHeld (s : State) : Prop where
  bounded : s.QueuesBounded
  status : s.StatusFormed
  mark : s.FlowMarkExact
  expansion : s.ExpansionExact
  loaded : s.expander.finished = true → s.expander.queue ≠ []

theorem free_holds_nothing : ¬ InterpState.free.holdsFrame := fun h => h.elim Bool.noConfusion Bool.noConfusion

theorem streaming_holds_nothing (rb : Readback) : ¬ (InterpState.streaming rb).holdsFrame :=
  fun h => h.elim Bool.noConfusion Bool.noConfusion

theorem linkLaws_iff (s : State) :
    LinkLaws s ↔ LinkHeld s ∧ (s.expander.finished = true → s.QueueFull) ∧ (s.SyncDue → s.QueueFull) ∧
      (s.interp.state.holdsFrame → s.QueueFull) := by
  constructor
  · rintro ⟨hbounded, herrors, hnotice, hmark, ⟨hfinished, hframe, hsyncs⟩, hexpansion⟩
    exact ⟨⟨hbounded, ⟨herrors, hnotice⟩, hmark, hexpansion, fun h => (hfinished h).1⟩, fun h => (hfinished h).2,
      fun ⟨e, he, hdue⟩ => hsyncs e he hdue, hframe⟩
  · rintro ⟨⟨hbounded, ⟨herrors, hnotice⟩, hmark, hexpansion, hloaded⟩, hfinished, hsyncs, hframe⟩
    exact ⟨hbounded, herrors, hnotice, hmark, ⟨fun h => ⟨hloaded h, hfinished h⟩, hframe,
      fun e he hdue => hsyncs ⟨e, he, hdue⟩⟩, hexpansion⟩

theorem LinkLaws.held {s : State} (h : LinkLaws s) : LinkHeld s := ((linkLaws_iff s).mp h).1

/-- Every claim that waited waits on, and the queue is as full as it was. -/
theorem LinkHeld.laws {s t : State} (ht : LinkHeld t) (hs : LinkLaws s) (hq : s.QueueFull → t.QueueFull)
    (hf : t.expander.finished = true → s.expander.finished = true ∨ t.QueueFull)
    (hd : t.SyncDue → s.SyncDue ∨ t.QueueFull)
    (hi : t.interp.state.holdsFrame → s.interp.state.holdsFrame ∨ t.QueueFull) : LinkLaws t := by
  obtain ⟨-, hfinished, hsyncs, hframe⟩ := (linkLaws_iff s).mp hs
  exact (linkLaws_iff t).mpr ⟨ht, fun h => (hf h).elim (hq ∘ hfinished) id, fun h => (hd h).elim (hq ∘ hsyncs) id,
    fun h => (hi h).elim (hq ∘ hframe) id⟩

/-! ## What stands aside -/

theorem Aside.held {s t : State} (h : Aside s t) (hs : LinkHeld s) : LinkHeld t := by
  obtain ⟨hview, hstatus⟩ := h
  simp only [linkView, LinkView.mk.injEq] at hview
  obtain ⟨hfill, hflow, hmark, hannounced, hqueue, hinterp, hexpander, htables, hreserved⟩ := hview
  have htable : ∀ i : Fin 16, t.grads[i].table = s.grads[i].table := fun i => by
    have := congrArg (·[i]) htables
    simpa only [mapAll_get] using this
  refine ⟨?_, hstatus hs.status, ?_, ?_, ?_⟩
  · unfold State.QueuesBounded
    rw [hqueue, hexpander, hinterp, hfill, hreserved]
    exact hs.bounded
  · unfold State.FlowMarkExact
    rw [hmark, hflow, hannounced]
    exact hs.mark
  · unfold State.ExpansionExact
    simp only [htable, hexpander, hinterp]
    exact hs.expansion
  · rw [hexpander]
    exact hs.loaded

/-- What stands aside from the link keeps its laws. -/
theorem Aside.keeps {s t : State} (h : Aside s t) (hs : LinkLaws s) : LinkLaws t := by
  have hqueue : t.tx.queue = s.tx.queue := congrArg LinkView.queue h.view
  have hinterp : t.interp = s.interp := congrArg LinkView.interp h.view
  have hexpander : t.expander = s.expander := congrArg LinkView.expander h.view
  refine (h.held hs.held).laws hs ?_ ?_ ?_ ?_
  · unfold State.QueueFull; rw [hqueue]; exact id
  · rw [hexpander]; exact .inl
  · unfold State.SyncDue; rw [hinterp]; exact .inl
  · rw [hinterp]; exact .inl

/-! ## The Intake FIFO and its flow state -/

/-- The flow state and the mark change together (R157). -/
theorem changeFlow_keeps {s : State} (f : FlowState) (hs : LinkLaws s) : LinkLaws (s.changeFlow f) :=
  LinkHeld.laws ⟨hs.held.bounded, hs.held.status, rfl, hs.held.expansion, hs.held.loaded⟩ hs id .inl .inl .inl

theorem judgeRise_keeps {s : State} (hs : LinkLaws s) : LinkLaws s.judgeRise := by
  rw [State.judgeRise_eq]
  split
  · exact changeFlow_keeps _ hs
  · exact hs

theorem judgeFall_keeps {s : State} (hs : LinkLaws s) : LinkLaws s.judgeFall := by
  rw [State.judgeFall_eq]
  split
  · exact changeFlow_keeps _ hs
  · exact hs

/-- Frames that fit into the FIFO keep the laws. -/
theorem setFifo_keeps {s : State} (fifo : List Frame) (hf : fillOf fifo ≤ Config.intakeCapacity) (hs : LinkLaws s) :
    LinkLaws (s.setRx { s.rx with fifo := fifo }) := by
  obtain ⟨hqueue, hloads, hsyncs, -, hreserved⟩ := hs.held.bounded
  exact LinkHeld.laws ⟨⟨hqueue, hloads, hsyncs, hf, hreserved⟩, hs.held.status, hs.held.mark, hs.held.expansion,
    hs.held.loaded⟩ hs id .inl .inl .inl

theorem State.QueuesBounded.fill_le {s : State} (h : s.QueuesBounded) : s.fill ≤ Config.intakeCapacity := by
  obtain ⟨-, -, -, hfill, -⟩ := h
  exact hfill

theorem leaveIntake_keeps {s : State} (hs : LinkLaws s) : LinkLaws s.leaveIntake :=
  judgeFall_keeps (setFifo_keeps _ (Nat.le_trans (fillOf_tail_le _) hs.held.bounded.fill_le) hs)

theorem joinIntake_keeps {s : State} (f : Frame) (hs : LinkLaws s) : LinkLaws (s.joinIntake f) := by
  rw [State.joinIntake_eq]
  split
  · next hfit =>
    refine judgeRise_keeps (setFifo_keeps (s.rx.fifo ++ [f]) ?_ hs)
    have hfill : fillOf s.rx.fifo ≤ Config.intakeCapacity := hs.held.bounded.fill_le
    replace hfit : f.size ≤ Config.intakeCapacity - fillOf s.rx.fifo := hfit
    rw [fillOf_append, fillOf_cons, fillOf_nil]
    omega
  · exact (post_aside s _ _ _ _ _).keeps hs

theorem receive_keeps {s : State} (bytes : List Byte) (hs : LinkLaws s) : LinkLaws (s.receive bytes) := by
  unfold State.receive
  split
  · exact joinIntake_keeps _ hs
  · exact (post_aside s _ _ _ _ _).keeps hs

theorem latch_keeps {t : State} (s : State) (ht : LinkLaws t) : LinkLaws (s.latch t) := (latch_aside s t).keeps ht

/-! ## The Interpreter's answers -/

theorem queueFull_of_not_room {s : State} (h : ¬ s.upstreamRoom = true) : s.QueueFull := by
  simpa [State.upstreamRoom, State.QueueFull] using h

/-- Frames that join the Upstream Queue leave it as full as it was. -/
theorem State.QueueFull.append {s t : State} (h : s.QueueFull) {frames : List UpFrame}
    (ht : t.tx.queue = s.tx.queue ++ frames) : t.QueueFull := by
  unfold State.QueueFull
  rw [ht, List.length_append]
  exact Nat.le_add_right_of_le h

/-- A frame placed at a free entry keeps the queue within its capacity (R162). -/
theorem place_held {s : State} (f : UpFrame) (hr : s.upstreamRoom = true) (hs : LinkHeld s) : LinkHeld (s.place f) := by
  have hroom : s.tx.queue.length < Config.upstreamCapacity := of_decide_eq_true hr
  obtain ⟨-, hrest⟩ := hs.bounded
  refine ⟨⟨?_, hrest⟩, hs.status, hs.mark, hs.expansion, hs.loaded⟩
  show (s.tx.queue ++ [f]).length ≤ _
  rw [List.length_append]
  exact hroom

theorem queueFull_place {s : State} (f : UpFrame) (h : s.QueueFull) : (s.place f).QueueFull := h.append rfl

/-- The Interpreter's state is bound by the law of claims alone. -/
theorem setInterpState_held {s : State} (i : InterpState) (hs : LinkHeld s) :
    LinkHeld (s.setInterp { s.interp with state := i }) :=
  ⟨hs.bounded, hs.status, hs.mark, hs.expansion, hs.loaded⟩

theorem setInterpState_keeps {s : State} (i : InterpState) (hi : i.holdsFrame → s.QueueFull) (hs : LinkLaws s) :
    LinkLaws (s.setInterp { s.interp with state := i }) :=
  (setInterpState_held i hs.held).laws hs id .inl .inl fun h => .inr (hi h)

theorem place_keeps {s : State} (f : UpFrame) (hr : s.upstreamRoom = true) (hs : LinkLaws s) : LinkLaws (s.place f) :=
  (place_held f hr hs.held).laws hs (queueFull_place f) .inl .inl .inl

theorem answer_keeps {s : State} (f : UpFrame) (hs : LinkLaws s) : LinkLaws (s.answer f) := by
  unfold State.answer
  split
  · next hr => exact place_keeps f hr hs
  · next hr => exact setInterpState_keeps _ (fun _ => queueFull_of_not_room hr) hs

/-- The state that a verdict leaves, if it leaves one, keeps the link's laws. -/
def Verdict.Keeps : Verdict → Prop
  | .refused _ _ => True
  | .done t _ _ => LinkLaws t
  | .later t => LinkLaws t

theorem Verdict.Keeps.conclude {v : Verdict} {s : State} (hv : v.Keeps) (hs : LinkLaws s) (kind : Byte) (always : Bool)
    (h : Header) : LinkLaws (v.conclude s kind always h) := by
  cases v with
  | refused code payload => exact answer_keeps _ ((raise_aside s _).keeps hs)
  | done t code payload =>
    rw [Verdict.conclude_done]
    split
    · exact answer_keeps _ hv
    · exact hv
  | later t => exact hv

theorem withOperands_keeps {α : Type} {operands : Option α} {rule : α → Verdict} (h : ∀ a, (rule a).Keeps) :
    (withOperands operands rule).Keeps := by
  cases operands with
  | none => trivial
  | some a => exact h a

theorem Verdict.Keeps.ite {c : Prop} [Decidable c] {v w : Verdict} (hv : c → v.Keeps) (hw : ¬ c → w.Keeps) :
    (if c then v else w).Keeps := by
  split
  · next h => exact hv h
  · next h => exact hw h

/-! ## Gradation slots and loads -/

/-- A slot that is not EXPANDING is written with a state other than EXPANDING (R33, R35). -/
theorem setTable_keeps {s : State} (slot : Fin 16) (x : Table) (hslot : s.grads[slot].table ≠ .expanding)
    (hx : x ≠ .expanding) (hs : LinkLaws s) : LinkLaws (s.setTable slot x) := by
  obtain ⟨hexpanding, hnodup, hsyncs⟩ := hs.held.expansion
  have hexact : (s.setTable slot x).ExpansionExact := by
    refine ⟨fun i => ?_, hnodup, hsyncs⟩
    rw [State.setTable_get]
    split
    · next hi =>
      subst hi
      exact iff_of_false hx fun hmem => hslot ((hexpanding i).mpr hmem)
    · exact hexpanding i
  exact LinkHeld.laws ⟨hs.held.bounded, hs.held.status, hs.held.mark, hexact, hs.held.loaded⟩ hs id .inl .inl .inl

/-- A load for a slot that is not EXPANDING joins a queue that is not full (R28, R29). -/
theorem queueLoad_keeps {s : State} (load : Load) (hslot : s.grads[load.slot].table ≠ .expanding)
    (hroom : s.expander.queue.length < Config.expansionCapacity) (hs : LinkLaws s) :
    LinkLaws ((s.setTable load.slot .expanding).setExpander
      { s.expander with queue := s.expander.queue ++ [load] }) := by
  obtain ⟨hqueue, -, hrest⟩ := hs.held.bounded
  obtain ⟨hexpanding, hnodup, hsyncs⟩ := hs.held.expansion
  have hnew : load.slot ∉ s.expander.queue.map Load.slot := fun hmem => hslot ((hexpanding _).mpr hmem)
  have hslots : (s.expander.queue ++ [load]).map Load.slot = s.expander.queue.map Load.slot ++ [load.slot] :=
    List.map_append
  refine LinkHeld.laws ⟨⟨hqueue, ?_, hrest⟩, hs.held.status, hs.held.mark, ⟨fun i => ?_, ?_, fun e he i hi => ?_⟩,
    fun _ => ?_⟩ hs id .inl .inl .inl
  · rw [State.setExpander_expander, List.length_append]
    exact hroom
  · rw [State.setExpander_grads, State.setTable_get, State.setExpander_expander, hslots, List.mem_append,
      List.mem_singleton, ← hexpanding i]
    split
    · next hi => exact iff_of_true rfl (.inr hi)
    · next hi => exact (or_iff_left hi).symm
  · rw [State.setExpander_expander, hslots]
    exact List.nodup_append.mpr ⟨hnodup, List.nodup_singleton _, fun a ha b hb hab => by
      rw [List.mem_singleton.mp hb] at hab
      exact hnew (hab ▸ ha)⟩
  · rw [State.setExpander_expander, hslots]
    exact List.mem_append_left _ (hsyncs e he i hi)
  · rw [State.setExpander_expander]
    exact List.append_ne_nil_of_right_ne_nil _ (List.cons_ne_nil _ _)

/-! ## Captures, ARM and RESET -/

theorem State.QueuesBounded.reserved_le {s : State} (h : s.QueuesBounded) :
    reservedOf s.captures ≤ Config.captureMemory := by
  obtain ⟨-, -, -, -, hreserved⟩ := h
  exact hreserved

/-- A list of captures that reserves no more than Capture Memory has (R142). -/
theorem setCaptures_keeps {s : State} {captures : List Capture} (hc : reservedOf captures ≤ Config.captureMemory)
    (hs : LinkLaws s) : LinkLaws (s.setCaptures captures) := by
  obtain ⟨hqueue, hloads, hsyncs, hfill, -⟩ := hs.held.bounded
  exact LinkHeld.laws ⟨⟨hqueue, hloads, hsyncs, hfill, hc⟩, hs.held.status, hs.held.mark, hs.held.expansion,
    hs.held.loaded⟩ hs id .inl .inl .inl

theorem reservedOf_filter_le (captures : List Capture) (keep : Capture → Bool) :
    reservedOf (captures.filter keep) ≤ reservedOf captures :=
  (List.filter_sublist.map Capture.length).sum_le_sum fun _ _ => Nat.zero_le _

theorem arm_aside (s : State) : Aside s s.arm :=
  ((((((Aside.refl s).setScreens _).setBinds fun i n => n + plannedHeads s.seq.plan fun e => e.grad = i).setTallies
    _).setLanes _).setMonitor _).setSeq _

/-- RESET leaves no slot EXPANDING (R36). -/
theorem softReset_table (s : State) (tag : Tag) (i : Fin 16) : (s.softReset tag).grads[i].table ≠ .expanding := by
  have hgrads : (s.softReset tag).grads = (resetWorks s).grads := congrArg Works.grads (worksOf_softReset s tag)
  rw [hgrads, resetWorks_grads]
  split
  · exact Table.noConfusion
  · assumption

/-- RESET leaves nothing queued, posted, loading or claiming but its own RESULT (R176, R177). -/
theorem softReset_held (s : State) (tag : Tag) : LinkHeld (s.softReset tag) where
  bounded := ⟨show 1 ≤ 64 by omega, Nat.zero_le _, Nat.zero_le _, Nat.zero_le _, Nat.zero_le _⟩
  status := ⟨⟨Nat.zero_le _, fun _ h => by cases h⟩, fun h => Bool.noConfusion h⟩
  mark := rfl
  expansion := ⟨fun i => iff_of_false (softReset_table s tag i) List.not_mem_nil, List.nodup_nil, fun _ h => by cases h⟩
  loaded := fun h => Bool.noConfusion h

theorem softReset_keeps (s : State) (tag : Tag) : LinkLaws (s.softReset tag) :=
  (linkLaws_iff _).mpr ⟨softReset_held s tag, fun h => Bool.noConfusion h, fun ⟨_, h, _⟩ => (by cases h),
    fun h => absurd h free_holds_nothing⟩

/-! ## The records' own rules -/

section
variable (h : Header) (p : List Byte) {s : State} (hs : LinkLaws s)
include hs

theorem ruleLoadCurve_keeps : (ruleLoadCurve h p s).Keeps :=
  withOperands_keeps fun _ => .ite (fun _ => trivial) fun _ => .ite (fun _ => trivial) fun hslot =>
    .ite (fun _ => trivial) fun hroom => queueLoad_keeps _ hslot (Nat.lt_of_not_le hroom) hs

theorem ruleLoadTable_keeps : (ruleLoadTable p s).Keeps :=
  withOperands_keeps fun _ => .ite (fun _ => trivial) fun _ => .ite (fun _ => trivial) fun hslot =>
    setTable_keeps _ _ hslot Table.noConfusion hs

theorem ruleReadTable_keeps : (ruleReadTable p s).Keeps := by
  refine withOperands_keeps fun slot => ?_
  split
  · exact hs
  · trivial

theorem ruleClearTable_keeps : (ruleClearTable p s).Keeps :=
  withOperands_keeps fun _ => .ite (fun _ => trivial) fun _ => .ite (fun _ => trivial) fun hslot =>
    setTable_keeps _ _ hslot Table.noConfusion hs

theorem ruleSetScreen_keeps : (ruleSetScreen p s).Keeps :=
  withOperands_keeps fun _ => .ite (fun _ => trivial) fun _ => ((Aside.refl s).setScreens _).keeps hs

theorem ruleClearScreen_keeps : (ruleClearScreen p s).Keeps :=
  withOperands_keeps fun _ => .ite (fun _ => trivial) fun _ => ((Aside.refl s).setScreens _).keeps hs

theorem ruleSetHead_keeps : (ruleSetHead p s).Keeps :=
  withOperands_keeps fun _ => .ite (fun _ => trivial) fun _ => ((Aside.refl s).setPorts _).keeps hs

theorem ruleReadHead_keeps : (ruleReadHead p s).Keeps := withOperands_keeps fun _ => hs

theorem ruleStylusChange_keeps : (ruleStylusChange p s).Keeps :=
  withOperands_keeps fun _ => .ite (fun _ => trivial) fun _ => ((Aside.refl s).setPorts _).keeps hs

theorem ruleClearFault_keeps : (ruleClearFault p s).Keeps :=
  withOperands_keeps fun _ => .ite (fun _ => ((Aside.refl s).setSeq _).keeps hs) fun _ => trivial

theorem ruleSetJob_keeps : (ruleSetJob p s).Keeps :=
  withOperands_keeps fun _ => .ite (fun _ => trivial) fun _ => ((Aside.refl s).setSeq _).keeps hs

theorem rulePlanHead_keeps : (rulePlanHead p s).Keeps :=
  withOperands_keeps fun _ => .ite (fun _ => trivial) fun _ => ((Aside.refl s).setSeq _).keeps hs

theorem ruleClearPlan_keeps : (ruleClearPlan p s).Keeps :=
  withOperands_keeps fun _ => .ite (fun _ => trivial) fun _ => ((Aside.refl s).setSeq _).keeps hs

theorem ruleArm_keeps : (ruleArm s).Keeps := by
  refine .ite (fun _ => trivial) fun _ => ?_
  split
  · trivial
  · exact (arm_aside s).keeps hs

theorem ruleStart_keeps : (ruleStart s).Keeps :=
  .ite (fun _ => trivial) fun _ => (((Aside.refl s).setSeq _).setSeq _).keeps hs

theorem ruleHold_keeps : (ruleHold s).Keeps := by
  unfold ruleHold
  split
  · exact ((Aside.refl s).setSeq _).keeps hs
  · exact hs
  · trivial

theorem ruleResume_keeps : (ruleResume p s).Keeps := by
  refine withOperands_keeps fun o => .ite (fun _ => ?_) fun _ => trivial
  have hresumed : Aside s s.resumed := (Aside.refl s).setSeq _
  cases o with
  | repair => exact hresumed.keeps hs
  | discard => exact (((hresumed.setLanes _).setSeq _).setSeq _).keeps hs

theorem ruleAbort_keeps : (ruleAbort s).Keeps := .ite (fun _ => (endJob_aside s _).keeps hs) fun _ => trivial

theorem ruleSetMarkCount_keeps : (ruleSetMarkCount p s).Keeps :=
  withOperands_keeps fun _ => (((Aside.refl s).setMarkCounter _).setSeq _).keeps hs

theorem ruleReadTally_keeps : (ruleReadTally p s).Keeps := withOperands_keeps fun _ => hs

theorem ruleDefineCapture_keeps : (ruleDefineCapture p s).Keeps := by
  refine withOperands_keeps fun c => .ite (fun _ => trivial) fun _ => .ite (fun _ => trivial) fun hfree => ?_
  refine setCaptures_keeps ?_ hs
  have hreserved := hs.held.bounded.reserved_le
  unfold State.freeEntries at hfree
  unfold reservedOf at hfree hreserved ⊢
  rw [List.map_append, List.sum_append, List.map_singleton, List.sum_singleton]
  omega

theorem ruleDeleteCapture_keeps : (ruleDeleteCapture p s).Keeps :=
  .ite (fun _ => setCaptures_keeps (Nat.le_trans (reservedOf_filter_le _ _) hs.held.bounded.reserved_le) hs)
    fun _ => trivial

theorem ruleReadCapture_keeps : (ruleReadCapture h p s).Keeps := by
  unfold ruleReadCapture
  split
  · exact setInterpState_keeps _ (fun hi => absurd hi (streaming_holds_nothing _)) hs
  · trivial

theorem ruleReadStatus_keeps : (ruleReadStatus s).Keeps := (writeStatus_aside s _ _).keeps hs

theorem ruleSetEnable_keeps : (ruleSetEnable p s).Keeps :=
  withOperands_keeps fun _ => (writeStatus_aside s _ _).keeps hs

/-- READ ERROR removes the oldest entry, and the newest stays the newest (R183, R184). -/
theorem ruleReadError_keeps : (ruleReadError s).Keeps := by
  unfold ruleReadError
  split
  · exact hs
  next e rest herrors =>
  refine Aside.keeps (s := s) ⟨rfl, fun ⟨⟨hlength, hformed⟩, hnotice⟩ => ⟨⟨?_, fun x hx => hformed x ?_⟩, hnotice⟩⟩ hs
  · rw [herrors] at hlength
    exact Nat.le_of_succ_le hlength
  · have hrest : x ∈ rest.dropLast := hx
    rw [herrors]
    cases rest with
    | nil => cases hrest
    | cons y more => exact List.mem_cons_of_mem _ hrest

theorem ruleSetFlow_keeps : (ruleSetFlow p s).Keeps := by
  refine withOperands_keeps fun ⟨high, low⟩ => ?_
  have hwritten : LinkLaws (s.setRx { s.rx with high := high, low := low }) := (Aside.of_eq rfl rfl rfl).keeps hs
  show LinkLaws _
  split
  · exact judgeRise_keeps hwritten
  · exact judgeFall_keeps hwritten

/-- SYNC's entry names a load of the Expansion Queue, and is not due (R173). -/
theorem ruleSync_keeps : (ruleSync h s).Keeps := by
  unfold ruleSync
  split
  · exact hs
  next load hlast =>
  refine .ite (fun hroom => ?_) fun _ => trivial
  obtain ⟨hqueue, hloads, -, hrest⟩ := hs.held.bounded
  obtain ⟨hexpanding, hnodup, hsyncs⟩ := hs.held.expansion
  refine LinkHeld.laws ⟨⟨hqueue, hloads, ?_, hrest⟩, hs.held.status, hs.held.mark, ⟨hexpanding, hnodup,
    fun e he i hi => ?_⟩, hs.held.loaded⟩ hs id .inl ?_ .inl
  · rw [State.setInterp_interp, List.length_append]
    exact hroom
  · rw [State.setInterp_interp] at he
    obtain hold | hnew := List.mem_append.mp he
    · exact hsyncs e hold i hi
    · rw [List.mem_singleton.mp hnew] at hi
      cases hi
      exact List.mem_map_of_mem (List.mem_of_getLast? hlast)
  · rintro ⟨e, he, hdue⟩
    rw [State.setInterp_interp] at he
    obtain hold | hnew := List.mem_append.mp he
    · exact .inl ⟨e, hold, hdue⟩
    · rw [List.mem_singleton.mp hnew] at hdue
      cases hdue

/-- Every record's own rule keeps the link's laws. -/
theorem ruleOf_keeps (k : RecordKind) : (ruleOf k h p s).Keeps := by
  cases k with
  | loadCurve => exact ruleLoadCurve_keeps h p hs
  | loadTable => exact ruleLoadTable_keeps p hs
  | readTable => exact ruleReadTable_keeps p hs
  | clearTable => exact ruleClearTable_keeps p hs
  | setScreen => exact ruleSetScreen_keeps p hs
  | clearScreen => exact ruleClearScreen_keeps p hs
  | setHead => exact ruleSetHead_keeps p hs
  | readHead => exact ruleReadHead_keeps p hs
  | stylusChange => exact ruleStylusChange_keeps p hs
  | clearFault => exact ruleClearFault_keeps p hs
  | setJob => exact ruleSetJob_keeps p hs
  | planHead => exact rulePlanHead_keeps p hs
  | clearPlan => exact ruleClearPlan_keeps p hs
  | arm => exact ruleArm_keeps hs
  | start => exact ruleStart_keeps hs
  | hold => exact ruleHold_keeps hs
  | resume => exact ruleResume_keeps p hs
  | abort => exact ruleAbort_keeps hs
  | setMarkCount => exact ruleSetMarkCount_keeps p hs
  | readTally => exact ruleReadTally_keeps p hs
  | defineCapture => exact ruleDefineCapture_keeps p hs
  | deleteCapture => exact ruleDeleteCapture_keeps p hs
  | listCaptures => exact hs
  | readCapture => exact ruleReadCapture_keeps h p hs
  | readStatus => exact ruleReadStatus_keeps hs
  | setEnable => exact ruleSetEnable_keeps p hs
  | readError => exact ruleReadError_keeps hs
  | setFlow => exact ruleSetFlow_keeps p hs
  | sync => exact ruleSync_keeps h hs
  | reset => exact softReset_keeps s h.tag

end

/-! ## Frames handed on -/

theorem execute_keeps {s : State} (k : RecordKind) (h : Header) (p : List Byte) (hs : LinkLaws s) :
    LinkLaws (s.execute k h p) :=
  Verdict.Keeps.conclude (v := checkedRule k h p s)
    (.ite (fun _ => trivial) fun _ => .ite (fun _ => trivial) fun _ => ruleOf_keeps h p hs k) hs _ _ _

theorem interpret_keeps {s : State} (before : State) (body : List Byte) (hs : LinkLaws s) :
    LinkLaws (s.interpret before body) := by
  unfold State.interpret
  split
  · dsimp only
    split
    · exact latch_keeps _ (Verdict.Keeps.conclude (v := .refuse .unknownKind) trivial hs _ _ _)
    · exact softReset_keeps s _
    · exact latch_keeps _ (execute_keeps _ _ _ hs)
  · exact latch_keeps _ ((post_aside s _ _ _ _ _).keeps hs)

theorem handOn_keeps {s : State} (f : Frame) (hs : LinkLaws s) : LinkLaws (s.handOn f) := by
  have hleft := leaveIntake_keeps hs
  unfold State.handOn
  split
  · exact latch_keeps _ ((takeCells_aside _ _).keeps hleft)
  · exact interpret_keeps _ _ hleft

theorem handOnUpTo_keeps (n : Nat) {s : State} (hs : LinkLaws s) : LinkLaws (State.handOnUpTo n s) := by
  induction n generalizing s with
  | zero => exact hs
  | succ n ih =>
    unfold State.handOnUpTo
    split
    · exact hs
    · split
      · exact ih (handOn_keeps _ hs)
      · exact hs

theorem handOnIfFreed_keeps {s : State} (before : State) (hs : LinkLaws s) : LinkLaws (s.handOnIfFreed before) := by
  unfold State.handOnIfFreed
  split
  · split
    · exact handOn_keeps _ hs
    · exact hs
  · exact hs

theorem deliver_keeps {s : State} (f : Frame) (hs : LinkLaws s) : LinkLaws (s.deliver f) := by
  have hjoined : LinkLaws (s.event fun t => t.joinIntake f) := latch_keeps _ (joinIntake_keeps f hs)
  unfold State.deliver
  split
  · exact handOnUpTo_keeps 1 hs
  split
  · exact hs
  split
  · exact latch_keeps _ ((post_aside s _ _ _ _ _).keeps hs)
  · dsimp only
    split
    · exact handOnUpTo_keeps _ hjoined
    · exact hjoined

/-! ## The Expander -/

/-- The completion of the load at the head of the queue (R31, R32): the slot, the queue, the DONE if it is owed, and the
SYNC entries that become due. -/
theorem completeExpansion_eq {s : State} {load : Load} {rest : List Load} (hq : s.expander.queue = load :: rest) :
    s.completeExpansion =
      { s.setTable load.slot (.ready (expandCurve load.points)) with
        expander := { queue := rest, finished := false }
        tx := { s.tx with queue := s.tx.queue ++ loadAnswer load }
        interp := { s.interp with syncs := markDue load.slot s.interp.syncs } } := by
  unfold State.completeExpansion loadAnswer
  rw [hq]
  dsimp only
  cases load.notify with
  | true => rfl
  | false => rw [if_neg Bool.false_ne_true, if_neg Bool.false_ne_true, List.append_nil]; rfl

theorem markDue_named {slot : Fin 16} {syncs : List SyncEntry} {e : SyncEntry} {i : Fin 16}
    (he : e ∈ markDue slot syncs) (hi : e.load = some i) : i ≠ slot ∧ e ∈ syncs := by
  obtain ⟨x, hx, rfl⟩ := List.mem_map.mp he
  split at hi
  · cases hi
  · next hn =>
    rw [if_neg hn]
    exact ⟨fun heq => hn (heq ▸ hi), hx⟩

/-- A completion keeps the laws when the DONE that it owes has a free entry. -/
theorem completeExpansion_held {s : State} {load : Load} {rest : List Load} (hq : s.expander.queue = load :: rest)
    (hroom : load.notify = true → s.upstreamRoom = true) (hs : LinkHeld s) : LinkHeld s.completeExpansion := by
  obtain ⟨hqueue, hloads, hsyncs, hrest⟩ := hs.bounded
  obtain ⟨hexpanding, hnodup, hnamed⟩ := hs.expansion
  rw [hq] at hloads
  rw [hq, List.map_cons] at hexpanding hnodup hnamed
  obtain ⟨hgone, hnodup⟩ := List.nodup_cons.mp hnodup
  rw [completeExpansion_eq hq]
  refine ⟨⟨?_, Nat.le_of_succ_le hloads, ?_, hrest⟩, hs.status, hs.mark, ⟨fun i => ?_, hnodup, fun e he i hi => ?_⟩,
    fun hf => Bool.noConfusion hf⟩
  · show (s.tx.queue ++ loadAnswer load).length ≤ Config.upstreamCapacity
    unfold loadAnswer
    rw [List.length_append]
    split
    · next hn => exact of_decide_eq_true (hroom hn)
    · exact hqueue
  · show (markDue load.slot s.interp.syncs).length ≤ _
    rw [markDue_length]
    exact hsyncs
  · show (s.setTable load.slot _).grads[i].table = .expanding ↔ i ∈ rest.map Load.slot
    rw [State.setTable_get]
    split
    · next hi =>
      subst hi
      exact iff_of_false Table.noConfusion hgone
    · next hi => exact (hexpanding i).trans ⟨fun hm => (List.mem_cons.mp hm).resolve_left hi, List.mem_cons_of_mem _⟩
  · obtain ⟨hother, hold⟩ := markDue_named he hi
    exact (List.mem_cons.mp (hnamed e hold i hi)).resolve_left hother

/-! ## Due SYNC answers -/

theorem dropDue_length_le (n : Nat) (es : List SyncEntry) : (dropDue n es).length ≤ es.length := by
  induction es generalizing n with
  | nil => rw [dropDue_nil]
  | cons e es ih =>
    cases n with
    | zero => exact Nat.le_refl _
    | succ n =>
      rw [dropDue_succ]
      split
      · exact Nat.le_succ_of_le (ih n)
      · exact Nat.succ_le_succ (ih (n + 1))

theorem placeDueSyncs_held {s : State} (hs : LinkHeld s) : LinkHeld s.placeDueSyncs := by
  obtain ⟨hqueue, hloads, hsyncs, hrest⟩ := hs.bounded
  obtain ⟨hexpanding, hnodup, hnamed⟩ := hs.expansion
  exact ⟨⟨State.placeDueSyncs_length s hqueue, hloads, Nat.le_trans (dropDue_length_le _ _) hsyncs, hrest⟩, hs.status,
    hs.mark, ⟨hexpanding, hnodup, fun e he => hnamed e (dropDue_subset _ _ e he)⟩, hs.loaded⟩

theorem placeDueSyncs_full {s : State} (h : s.QueueFull) : s.placeDueSyncs.QueueFull := h.append rfl

/-- A SYNC answer that is due stays behind only at a full queue (R162, R174). -/
theorem placeDueSyncs_settles {s : State} (hdue : s.placeDueSyncs.SyncDue) : s.placeDueSyncs.QueueFull := by
  obtain ⟨e, he, hload⟩ := hdue
  have hleft : e ∈ (s.placeDueSyncs.interp.syncs).filter SyncEntry.due :=
    List.mem_filter.mpr ⟨he, decide_eq_true hload⟩
  unfold State.placeDueSyncs at hleft
  rw [State.setInterp_interp, dropDue_due] at hleft
  have hpos := List.length_pos_of_mem hleft
  show _ ≤ (s.tx.queue ++ _).length
  rw [List.length_drop, List.length_take] at hpos
  rw [List.length_append, List.length_map, List.length_take]
  omega

/-- The computation of an expansion has finished: it completes, or waits at a full queue (R32). -/
theorem finishExpansion_keeps {s : State} (hs : LinkLaws s) : LinkLaws s.finishExpansion := by
  unfold State.finishExpansion
  split
  · exact hs
  next load rest hq =>
  split
  · next hwait =>
    rw [Bool.and_eq_true, Bool.not_eq_true'] at hwait
    have hfull : s.QueueFull := queueFull_of_not_room (Bool.eq_false_iff.mp hwait.2)
    exact LinkHeld.laws ⟨hs.held.bounded, hs.held.status, hs.held.mark, hs.held.expansion, fun _ => by
      rw [State.setExpander_expander, hq]; exact List.cons_ne_nil _ _⟩ hs id (fun _ => .inr hfull) .inl .inl
  · next hgo =>
    have hroom : load.notify = true → s.upstreamRoom = true := by
      intro hn
      rw [hn] at hgo
      simpa using hgo
    have hcompleted := completeExpansion_held hq hroom hs.held
    have hfull : s.QueueFull → s.completeExpansion.QueueFull := fun h => by
      rw [completeExpansion_eq hq]
      exact h.append rfl
    refine (placeDueSyncs_held hcompleted).laws hs (placeDueSyncs_full ∘ hfull) (fun hf => ?_)
      (fun hd => .inr (placeDueSyncs_settles hd)) fun hi => .inl ?_
    · rw [State.placeDueSyncs_expander, completeExpansion_eq hq] at hf
      cases hf
    · rw [completeExpansion_eq hq] at hi
      exact hi

/-! ## Claims on a freed entry, and the Transmitter's choice -/

theorem claimExpansion_held {s : State} (hs : LinkHeld s) : LinkHeld s.claimExpansion := by
  unfold State.claimExpansion
  split
  · next hc =>
    rw [Bool.and_eq_true] at hc
    obtain ⟨load, rest, hq⟩ := List.exists_cons_of_ne_nil (hs.loaded hc.1)
    exact completeExpansion_held hq (fun _ => hc.2) hs
  · exact hs

/-- A completion stays behind only at a full queue (R32). -/
theorem claimExpansion_settles {s : State} (hs : LinkHeld s) (hf : s.claimExpansion.expander.finished = true) :
    s.claimExpansion.QueueFull := by
  unfold State.claimExpansion at hf ⊢
  split at hf
  · next hc =>
    rw [Bool.and_eq_true] at hc
    obtain ⟨load, rest, hq⟩ := List.exists_cons_of_ne_nil (hs.loaded hc.1)
    rw [completeExpansion_eq hq] at hf
    cases hf
  · next hc =>
    rw [if_neg hc]
    rw [hf, Bool.true_and] at hc
    exact queueFull_of_not_room hc

theorem placeReadback_held {s : State} (rb : Readback) (hr : s.upstreamRoom = true) (hs : LinkHeld s) :
    LinkHeld (s.placeReadback rb) := setInterpState_held _ (place_held _ hr hs)

theorem afterFrame_holds_nothing (rb : Readback) : ¬ rb.afterFrame.holdsFrame := by
  unfold Readback.afterFrame
  split
  · exact streaming_holds_nothing _
  · exact free_holds_nothing

/-- What the Interpreter's claim does: it places a frame at a free entry, and the Interpreter then waits with none; or
it does nothing, for no entry is free or no frame waits (R172). -/
theorem claimInterpreter_cases (s : State) :
    (s.upstreamRoom = true ∧ ∃ (f : UpFrame) (i : InterpState), ¬ i.holdsFrame ∧
      s.claimInterpreter = (s.place f).setInterp { s.interp with state := i }) ∨
    (s.claimInterpreter = s ∧ (s.interp.state.holdsFrame → s.QueueFull)) := by
  unfold State.claimInterpreter
  split
  · next hr =>
    split
    · exact .inl ⟨hr, _, .free, free_holds_nothing, rfl⟩
    · next rb _ => exact .inl ⟨hr, _, _, afterFrame_holds_nothing rb, rfl⟩
    · next hwaiting hreadback =>
      refine .inr ⟨rfl, fun hholds => ?_⟩
      cases hi : s.interp.state with
      | waiting f => exact absurd hi (hwaiting f)
      | waitingReadback rb => exact absurd hi (hreadback rb)
      | free => exact absurd (hi ▸ hholds) free_holds_nothing
      | streaming rb => exact absurd (hi ▸ hholds) (streaming_holds_nothing rb)
  · next hr => exact .inr ⟨rfl, fun _ => queueFull_of_not_room hr⟩

/-- When the claims have been granted in their order, those that wait on do so at a full queue (R172). -/
theorem grantEntries_laws {s : State} (hs : LinkHeld s) : LinkLaws s.grantEntries := by
  have hclaimed := claimExpansion_held hs
  have hplaced := placeDueSyncs_held hclaimed
  have hfinished : s.claimExpansion.placeDueSyncs.expander.finished = true → s.claimExpansion.placeDueSyncs.QueueFull :=
    fun hf => placeDueSyncs_full (claimExpansion_settles hs hf)
  have hsyncs : s.claimExpansion.placeDueSyncs.SyncDue → s.claimExpansion.placeDueSyncs.QueueFull :=
    placeDueSyncs_settles
  unfold State.grantEntries
  obtain ⟨hr, f, i, hi, heq⟩ | ⟨heq, hframe⟩ := claimInterpreter_cases s.claimExpansion.placeDueSyncs
  · rw [heq]
    exact (linkLaws_iff _).mpr ⟨setInterpState_held i (place_held f hr hplaced),
      fun hf => queueFull_place f (hfinished hf), fun hd => queueFull_place f (hsyncs hd), fun h => absurd h hi⟩
  · rw [heq]
    exact (linkLaws_iff _).mpr ⟨hplaced, hfinished, hsyncs, hframe⟩

/-- The frame chosen leaves its source: a mark is announced, a notice is withdrawn, a queue is shorter (R163). -/
theorem chooseFrame_held {s t : State} {f : UpFrame} (h : s.chooseFrame = some (f, t)) (hs : LinkHeld s) :
    LinkHeld t := by
  unfold State.chooseFrame at h
  split at h
  · next flow hmark =>
    cases h
    have hflow : s.rx.flow = flow := by
      have hexact := hs.mark
      unfold State.FlowMarkExact at hexact
      rw [hmark] at hexact
      split at hexact
      · cases hexact
      · exact (Option.some.inj hexact).symm
    exact ⟨hs.bounded, hs.status, (if_pos hflow).symm, hs.expansion, hs.loaded⟩
  split at h
  · cases h
    exact ⟨hs.bounded, hs.status, hs.mark, hs.expansion, hs.loaded⟩
  split at h
  · cases h
    exact ⟨hs.bounded, ⟨hs.status.1, fun hn => Bool.noConfusion hn⟩, hs.mark, hs.expansion, hs.loaded⟩
  split at h
  · next frame rest hq =>
    cases h
    obtain ⟨hqueue, hrest⟩ := hs.bounded
    rw [hq] at hqueue
    exact ⟨⟨Nat.le_of_succ_le hqueue, hrest⟩, hs.status, hs.mark, hs.expansion, hs.loaded⟩
  · cases h

theorem setSending_held {s : State} (f : Option UpFrame) (hs : LinkHeld s) :
    LinkHeld (s.setTx { s.tx with sending := f }) :=
  ⟨hs.bounded, hs.status, hs.mark, hs.expansion, hs.loaded⟩

theorem sendEvent_keeps {s : State} (hs : LinkLaws s) : LinkLaws s.sendEvent := by
  unfold State.sendEvent
  split
  · refine latch_keeps _ ?_
    unfold State.beginSending
    split
    · next f t h => exact grantEntries_laws (setSending_held _ (chooseFrame_held h hs.held))
    · exact hs
  · exact hs

theorem sendBegin_keeps {s : State} (hs : LinkLaws s) : LinkLaws s.sendBegin :=
  handOnIfFreed_keeps _ (sendEvent_keeps hs)

/-- A readback's next frame is placed at a free entry, or waits at a full queue (R151, R172). -/
theorem streamFrame_keeps {s : State} (rb : Readback) (hs : LinkLaws s) : LinkLaws (s.streamFrame rb) := by
  unfold State.streamFrame
  split
  · next hr =>
    exact setInterpState_keeps (s := s.place (s.readbackFrame rb)) _ (fun h => absurd h (afterFrame_holds_nothing rb))
      (place_keeps _ hr hs)
  · next hr => exact setInterpState_keeps _ (fun _ => queueFull_of_not_room hr) hs

theorem captureDataPlaced_keeps {s t : State} (h : execCaptureDataPlaced s = .next t) (hs : LinkLaws s) :
    LinkLaws t := by
  unfold execCaptureDataPlaced at h
  cases h
  split
  · exact handOnIfFreed_keeps _ (latch_keeps _ (streamFrame_keeps _ hs))
  · split
    · exact sendBegin_keeps hs
    · exact hs
  · exact hs

/-! ## Every command -/

theorem LinkLaws.ite {s t : State} {c : Prop} [Decidable c] (hs : LinkLaws s) (ht : LinkLaws t) :
    LinkLaws (if c then s else t) := by
  split
  · exact hs
  · exact ht

/-- Every command keeps the link's laws: one that hands a frame on by what the frame's taking keeps, and the others by
their own event. -/
theorem exec_keeps_linkLaws {i : Instr} {s t : State} (h : exec i s = .next t) (hs : LinkLaws s) : LinkLaws t := by
  cases hf : handedFrame i with
  | some f =>
    rw [exec_of_handedFrame hf] at h
    cases h
    exact deliver_keeps f hs
  | none =>
    cases i with
    | powerOnReset => cases h; exact powerOn_linkLaws _ _ _
    | tick => cases h; exact (takePosition_aside s .tick).keeps hs
    | index => cases h; exact (takePosition_aside s .index).keeps hs
    | internalTickGenerator => cases h; exact (takePosition_aside s .generator).keeps hs
    | indexLost => cases h; exact .ite ((takePosition_aside s .tick).keeps hs) hs
    | stall p => cases h; exact .ite ((takePosition_aside s p).keeps hs) hs
    | markStop p => cases h; exact .ite ((takePosition_aside s p).keeps hs) hs
    | alarmLineChange g high => cases h; exact latch_keeps _ ((alarmLevel_aside s g high).keeps hs)
    | readyLineChange g high => cases h; exact latch_keeps _ ((readyLevel_aside s g high).keeps hs)
    | linkSyncLost => cases h; exact latch_keeps _ ((Aside.of_eq rfl rfl rfl).keeps hs)
    | linkSyncGained => cases h; exact latch_keeps _ ((Aside.of_eq rfl rfl rfl).keeps hs)
    | frameReceived bytes => cases h; exact .ite hs (latch_keeps _ (receive_keeps bytes hs))
    | expansionComplete => cases h; exact latch_keeps _ (finishExpansion_keeps hs)
    | captureDataPlaced => exact captureDataPlaced_keeps h hs
    | syncAnswerPlaced => cases h; exact .ite (sendBegin_keeps hs) hs
    | resultPlaced => cases h; exact .ite (sendBegin_keeps hs) hs
    | upstreamSendBegin => cases h; exact sendBegin_keeps hs
    | upstreamSendEnd => cases h; exact (Aside.of_eq rfl rfl rfl).keeps hs
    | _ => exact absurd hf (by simp [handedFrame])

/-- Settles O56: the command at the front of the queue keeps the link's laws, and the queue is none of their concern. -/
theorem stepKeepsTheLinkLaws : Obligations.StepKeepsTheLinkLaws := by
  intro s t hs h
  unfold step at h
  split at h
  · cases h; exact hs
  · exact exec_keeps_linkLaws h ((Aside.of_eq rfl rfl rfl).keeps hs)

end Sys2Proof.Machine
end

