-- ==== Sys2Proof/Proofs/GradationRecords.lean ====
section
/-! SUPPORT. The records of the gradation slots: LOAD CURVE, LOAD TABLE, READ TABLE and CLEAR TABLE (R26 to R28, R33 to
R35), whose checks of the slot are the same two. -/

namespace Sys2Proof.Machine

open Sys2Proof Sys2Proof.Claims

/-! ## Parameter bytes -/

theorem u8At_drop (p : List Byte) (k i : Nat) : u8At (p.drop k) i = u8At p (k + i) := by
  simp [u8At, List.getD_eq_getElem?_getD]

theorem u16At_drop (p : List Byte) (k i : Nat) : u16At (p.drop k) i = u16At p (k + i) := by
  simp only [u16At, u8At_drop, Nat.add_assoc]

/-- The 16-bit fields of a run of bytes, field by field. -/
theorem wordsOf_eq (n : Nat) (p : List Byte) (hp : p.length = 2 * n) :
    wordsOf p = (List.range n).map fun i => u16At p (2 * i) := by
  induction n generalizing p with
  | zero => rw [List.length_eq_zero_iff.mp hp]; rfl
  | succ n ih =>
    match p, hp with
    | lo :: hi :: rest, hp =>
      have hrest : rest.length = 2 * n := by simp only [List.length_cons] at hp; omega
      rw [wordsOf, ih rest hrest, List.range_succ_eq_map, List.map_cons, List.map_map]
      rfl

/-- The breakpoints of a run of bytes, breakpoint by breakpoint. -/
theorem breakpointsOf_eq (n : Nat) (p : List Byte) (hp : p.length = 3 * n) :
    breakpointsOf p = (List.range n).map fun i => { tone := u8At p (3 * i), depth := u16At p (3 * i + 1) } := by
  induction n generalizing p with
  | zero => rw [List.length_eq_zero_iff.mp hp]; rfl
  | succ n ih =>
    match p, hp with
    | t :: lo :: hi :: rest, hp =>
      have hrest : rest.length = 3 * n := by simp only [List.length_cons] at hp; omega
      rw [breakpointsOf, ih rest hrest, List.range_succ_eq_map, List.map_cons, List.map_map]
      rfl

/-- The depths that a LOAD TABLE's parameters list (R33, R186). -/
def tableDepths (p : List Byte) : List Nat := (List.range 256).map fun i => u16At p (1 + 2 * i)

theorem wordsOf_loadTable {p : List Byte} (hp : p.length = 513) : wordsOf (p.drop 1) = tableDepths p := by
  rw [tableDepths, wordsOf_eq 256 (p.drop 1) (by rw [List.length_drop, hp])]
  simp only [u16At_drop]

/-- The breakpoints of a LOAD CURVE's parameters (R26, R186). -/
theorem breakpointsOf_loadCurve {p : List Byte} (hp : p.length = 2 + 3 * u8At p 1) :
    breakpointsOf (p.drop 2) = curvePoints p := by
  rw [breakpointsOf_eq (u8At p 1) (p.drop 2) (by rw [List.length_drop]; omega)]
  refine List.map_congr_left fun i _ => ?_
  rw [u8At_drop, u16At_drop, show 2 + (3 * i + 1) = 3 + 3 * i by omega]

/-! ## The conditions on a curve (R26) -/

theorem tonesRise_iff_isChain (points : List Breakpoint) :
    tonesRise points = true ↔ points.IsChain fun a b => a.tone < b.tone := by
  induction points with
  | nil => exact iff_of_true rfl .nil
  | cons a rest ih =>
    cases rest with
    | nil => exact iff_of_true rfl (.singleton a)
    | cons b rest => rw [tonesRise, Bool.and_eq_true, decide_eq_true_eq, ih, List.isChain_cons_cons]

/-- Tones that rise from each breakpoint to the next rise strictly over the whole curve. -/
theorem tonesRise_iff (points : List Breakpoint) :
    tonesRise points = true ↔ points.Pairwise fun a b => a.tone < b.tone := by
  have htrans : IsTrans Breakpoint fun a b => a.tone < b.tone := ⟨fun _ _ _ => Nat.lt_trans⟩
  rw [tonesRise_iff_isChain, List.isChain_iff_pairwise]

theorem curveOk_iff (points : List Breakpoint) : curveOk points = true ↔ curveValid points := by
  unfold curveOk curveValid
  rw [decide_eq_true_eq, tonesRise_iff]
  simp only [List.all_eq_true, decide_eq_true_eq]

theorem loadCurveOperands_some {p : List Byte} (hp : p.length = 2 + 3 * u8At p 1) (slot : Fin 16)
    (hslot : u8At p 0 = slot.val) (hc : curveValid (curvePoints p)) :
    loadCurveOperands p = some (slot, curvePoints p) := by
  simp only [loadCurveOperands, (finOf_eq slot).mpr hslot, breakpointsOf_loadCurve hp, (curveOk_iff _).mpr hc,
    guardIn_true, Option.bind_eq_bind, Option.bind_some]

theorem loadCurveOperands_none {p : List Byte} (hp : p.length = 2 + 3 * u8At p 1)
    (hn : ¬ (u8At p 0 < 16 ∧ curveValid (curvePoints p))) : loadCurveOperands p = none := by
  refine Option.eq_none_iff_forall_not_mem.mpr fun ⟨slot, points⟩ hx => hn ?_
  simp only [loadCurveOperands, Option.bind_eq_bind, Option.mem_def, Option.bind_eq_some_iff, guardIn_eq_some, finOf_eq,
    breakpointsOf_loadCurve hp, curveOk_iff] at hx
  obtain ⟨slot, hslot, hc, -⟩ := hx
  exact ⟨by omega, hc⟩

/-! ## Records of a gradation slot at the head of the FIFO -/

/-- A record that is taken at the head of the FIFO and answered at a later event. -/
theorem later_atHead {s t : State} {k : RecordKind} {h : Header} {p : List Byte} (ha : AtHead s k h p) (hk : k ≠ .reset)
    (hlen : k.lengthOk p = true) (hrule : ruleOf k h p s.leaveIntake = .later t) (hl : LinkKept s.leaveIntake t)
    (hs : Signals s.leaveIntake t 0 []) :
    Completes (k.command h p) s fun u => Takes s u (worksOf t) 0 [] .silent s.interp.syncs := by
  refine ⟨_, exec_atHead ha hk hlen, ?_⟩
  rw [hrule, Verdict.conclude_later]
  exact ⟨rfl, leavesAndReplies_silent hl, ((leaveIntake_signals s).silent_trans hs).posts⟩

/-- The works with a gradation slot written, once the frame has left the FIFO. -/
theorem worksOf_setTable_leaveIntake (s : State) (slot : Fin 16) (x : Table) :
    worksOf (s.leaveIntake.setTable slot x) = withTable s slot x := by
  simp [worksOf, withTable, State.setTable]

theorem setTable_kept (s : State) (slot : Fin 16) (x : Table) : LinkKept s (s.setTable slot x) :=
  ⟨rfl, rfl, rfl, rfl, rfl, rfl, rfl⟩

theorem setTable_signals (s : State) (slot : Fin 16) (x : Table) : Signals s (s.setTable slot x) 0 [] :=
  .of_kept rfl rfl

/-- A record that writes a gradation slot refuses a bound slot with SLOT_BOUND and then an EXPANDING one with SLOT_BUSY;
what it does with any other is `post`. -/
theorem slotRecord_completes {s : State} {k : RecordKind} {h : Header} {p : List Byte} (ha : AtHead s k h p)
    (hk : k ≠ .reset) (hlen : k.lengthOk p = true) (slot : Fin 16) (v : Verdict) {post : State → Prop}
    (hrule : ruleOf k h p s.leaveIntake =
      if s.leaveIntake.grads[slot].binds ≠ 0 then .refuse .slotBound
      else if s.leaveIntake.grads[slot].table = .expanding then .refuse .slotBusy else v)
    (hpost : ruleOf k h p s.leaveIntake = v → Completes (k.command h p) s post) :
    Completes (k.command h p) s fun t =>
      if s.grads[slot].binds ≠ 0 then Refused s t k.code h .slotBound
      else if s.grads[slot].table = .expanding then Refused s t k.code h .slotBusy else post t := by
  rw [State.leaveIntake_grads] at hrule
  by_cases hb : s.grads[slot].binds ≠ 0
  · rw [if_pos hb] at hrule
    simp only [if_pos hb]
    exact refused_atHead ha hk hlen hrule
  rw [if_neg hb] at hrule
  simp only [if_neg hb]
  by_cases hx : s.grads[slot].table = .expanding
  · rw [if_pos hx] at hrule
    simp only [if_pos hx]
    exact refused_atHead ha hk hlen hrule
  · rw [if_neg hx] at hrule
    simp only [if_neg hx]
    exact hpost hrule

/-- A record whose rule writes a gradation slot, and nothing else, Succeeds. -/
theorem setTable_succeeds {s : State} {k : RecordKind} {h : Header} {p : List Byte} (ha : AtHead s k h p)
    (hk : k ≠ .reset) (hlen : k.lengthOk p = true) (slot : Fin 16) (x : Table) {code : Completion}
    (hrule : ruleOf k h p s.leaveIntake = .done (s.leaveIntake.setTable slot x) code []) :
    Completes (k.command h p) s fun t => Succeeds s t (withTable s slot x) k h code := by
  rw [← worksOf_setTable_leaveIntake]
  exact succeeds_atHead ha hk hlen hrule (setTable_kept _ _ _) (setTable_signals _ _ _)

/-! ## LOAD CURVE (R26 to R28) -/

/-- The load that a LOAD CURVE asks for (R28). -/
def loadOf (h : Header) (p : List Byte) (slot : Fin 16) : Load :=
  { slot := slot, points := curvePoints p, notify := h.notify = 1, tag := h.tag }

/-- A LOAD CURVE that names a slot with a valid curve: the slot's two checks, and the load queued or refused. -/
theorem ruleLoadCurve_eq {p : List Byte} (h : Header) (t : State) (hp : p.length = 2 + 3 * u8At p 1) (slot : Fin 16)
    (hslot : u8At p 0 = slot.val) (hc : curveValid (curvePoints p)) :
    ruleLoadCurve h p t =
      if t.grads[slot].binds ≠ 0 then .refuse .slotBound
      else if t.grads[slot].table = .expanding then .refuse .slotBusy
      else if 4 ≤ t.expander.queue.length then .refuse .expanderFull
      else .later ((t.setTable slot .expanding).setExpander
        { t.expander with queue := t.expander.queue ++ [loadOf h p slot] }) := by
  rw [ruleLoadCurve, loadCurveOperands_some hp slot hslot hc, withOperands_some]
  rfl

/-- Settles O28: the operands in range or refused, the slot's two checks, and the queue's room. -/
theorem loadCurveQueuesItsLoad : Obligations.LoadCurveQueuesItsLoad := by
  intro s h p hmin hlen ha
  have hok : RecordKind.lengthOk .loadCurve p = true := decide_eq_true ⟨hmin, hlen⟩
  refine ⟨fun hn => refused_atHead ha (by decide) hok ?_, fun hc slot hslot => ?_⟩
  · show ruleLoadCurve h p s.leaveIntake = _
    rw [ruleLoadCurve, loadCurveOperands_none hlen hn, withOperands_none]
  refine slotRecord_completes ha (by decide) hok slot _ (ruleLoadCurve_eq h _ hlen slot hslot hc) fun hrule => ?_
  rw [State.leaveIntake_expander] at hrule
  by_cases hfull : 4 ≤ s.expander.queue.length
  · rw [if_pos hfull] at hrule
    simp only [if_pos hfull]
    exact refused_atHead ha (by decide) hok hrule
  · rw [if_neg hfull] at hrule
    simp only [if_neg hfull]
    have hkept : LinkKept s.leaveIntake ((s.leaveIntake.setTable slot .expanding).setExpander
        { s.expander with queue := s.expander.queue ++ [loadOf h p slot] }) := ⟨rfl, rfl, rfl, rfl, rfl, rfl, rfl⟩
    have hworks : worksOf ((s.leaveIntake.setTable slot .expanding).setExpander
        { s.expander with queue := s.expander.queue ++ [loadOf h p slot] }) =
        { withTable s slot .expanding with
          expander := { s.expander with queue := s.expander.queue ++ [loadOf h p slot] } } := by
      rw [← worksOf_setTable_leaveIntake]
      rfl
    have htaken := later_atHead ha (by decide) hok hrule hkept (.of_kept rfl rfl)
    rw [hworks] at htaken
    exact htaken

/-! ## LOAD TABLE, READ TABLE and CLEAR TABLE (R33 to R35) -/

/-- A LOAD TABLE that names a slot: the slot's two checks, and the depths written with those over 1000 clamped. -/
theorem ruleLoadTable_eq {p : List Byte} (t : State) (hp : p.length = 513) (slot : Fin 16)
    (hslot : u8At p 0 = slot.val) :
    ruleLoadTable p t =
      if t.grads[slot].binds ≠ 0 then .refuse .slotBound
      else if t.grads[slot].table = .expanding then .refuse .slotBusy
      else .done (t.setTable slot (.ready ((tableDepths p).map (min 1000))))
        (if ∃ d ∈ tableDepths p, 1000 < d then .doneClamped else .done) [] := by
  have hoperands : loadTableOperands p = some (slot, wordsOf (p.drop 1)) := by
    simp only [loadTableOperands, (finOf_eq slot).mpr hslot, Option.bind_eq_bind, Option.bind_some]
  rw [ruleLoadTable, hoperands, wordsOf_loadTable hp, withOperands_some]
  simp only [List.any_eq_true, decide_eq_true_eq]

/-- Settles O29, from the depths that the parameters carry and the slot's two checks. -/
theorem loadTableClampsDepths : Obligations.LoadTableClampsDepths := by
  intro s h p hlen ha
  have hok : RecordKind.lengthOk .loadTable p = true := decide_eq_true hlen
  refine ⟨fun hn => refused_atHead ha (by decide) hok ?_, fun slot hslot => ?_⟩
  · show ruleLoadTable p s.leaveIntake = _
    have hnone : loadTableOperands p = none := by
      simp only [loadTableOperands, finOf_none.mpr hn, Option.bind_eq_bind, Option.bind_none]
    rw [ruleLoadTable, hnone, withOperands_none]
  · exact slotRecord_completes ha (by decide) hok slot _ (ruleLoadTable_eq _ hlen slot hslot)
      (setTable_succeeds ha (by decide) hok slot _)

theorem tableSlotOperand_some {p : List Byte} (slot : Fin 16) (hslot : u8At p 0 = slot.val) :
    tableSlotOperand p = some slot := (finOf_eq slot).mpr hslot

theorem tableSlotOperand_none {p : List Byte} (hn : 16 ≤ u8At p 0) : tableSlotOperand p = none := finOf_none.mpr hn

/-- READ TABLE refuses a slot that is not READY (R34). -/
theorem readTable_refused {s : State} {h : Header} {p : List Byte} (ha : AtHead s .readTable h p) (hlen : p.length = 1)
    (slot : Fin 16) (hslot : u8At p 0 = slot.val) (hn : ∀ depths, s.grads[slot].table ≠ .ready depths) :
    Completes (.readTable h p) s fun t => Refused s t 0x03 h .notReady := by
  refine refused_atHead ha (by decide) (decide_eq_true hlen) ?_
  show ruleReadTable p s.leaveIntake = _
  rw [ruleReadTable, tableSlotOperand_some slot hslot, withOperands_some, State.leaveIntake_grads]
  split
  · next depths hd => exact absurd hd (hn depths)
  · rfl

/-- READ TABLE answers with a READY slot's depths, and changes nothing (R34). -/
theorem readTable_succeeds {s : State} {h : Header} {p : List Byte} (ha : AtHead s .readTable h p) (hlen : p.length = 1)
    (slot : Fin 16) (hslot : u8At p 0 = slot.val) {depths : List Nat} (hd : s.grads[slot].table = .ready depths) :
    Completes (.readTable h p) s fun t => Succeeds s t (worksOf s) .readTable h .done (depths.flatMap (leBytes 2)) := by
  have hrule : ruleOf .readTable h p s.leaveIntake = .done s.leaveIntake .done (depths.flatMap (leBytes 2)) := by
    show ruleReadTable p s.leaveIntake = _
    rw [ruleReadTable, tableSlotOperand_some slot hslot, withOperands_some, State.leaveIntake_grads, hd]
    rfl
  rw [← worksOf_leaveIntake]
  exact succeeds_atHead ha (by decide) (decide_eq_true hlen) hrule (.refl _) (.refl _)

/-- Settles O30: READ TABLE by the slot's state, and CLEAR TABLE by the slot's two checks. -/
theorem tablesAreReadAndCleared : Obligations.TablesAreReadAndCleared := by
  refine fun s h p hlen => ⟨fun ha => ⟨fun hn => ?_, fun slot hslot => ?_⟩,
    fun ha => ⟨fun hn => ?_, fun slot hslot => ?_⟩⟩
  · refine refused_atHead ha (by decide) (decide_eq_true hlen) ?_
    show ruleReadTable p s.leaveIntake = _
    rw [ruleReadTable, tableSlotOperand_none hn, withOperands_none]
  · cases hd : s.grads[slot].table with
    | ready depths => exact readTable_succeeds ha hlen slot hslot hd
    | empty => exact readTable_refused ha hlen slot hslot fun _ hr => by rw [hd] at hr; cases hr
    | expanding => exact readTable_refused ha hlen slot hslot fun _ hr => by rw [hd] at hr; cases hr
  · refine refused_atHead ha (by decide) (decide_eq_true hlen) ?_
    show ruleClearTable p s.leaveIntake = _
    rw [ruleClearTable, tableSlotOperand_none hn, withOperands_none]
  · refine slotRecord_completes ha (by decide) (decide_eq_true hlen) slot _ ?_
      (setTable_succeeds ha (by decide) (decide_eq_true hlen) slot .empty)
    show ruleClearTable p s.leaveIntake = _
    rw [ruleClearTable, tableSlotOperand_some slot hslot, withOperands_some]
    rfl

end Sys2Proof.Machine
end

