-- ==== Sys2Proof/Proofs/Expansion.lean ====
section
/-! SUPPORT. The Expander: the entries of an expanded curve (R31), and the completion of an expansion with the SYNC
answers that it makes due (R30 to R32, R174). -/

namespace Sys2Proof.Machine

open Sys2Proof Sys2Proof.Claims

/-! ## The breakpoints of a curve, in the order of their tones -/

/-- The tones of the breakpoints rise strictly. -/
abbrev TonesRise (points : List Breakpoint) : Prop := points.Pairwise fun a b => a.tone < b.tone

theorem TonesRise.tone_le {points : List Breakpoint} (hrise : TonesRise points) {i j : Nat} {a b : Breakpoint}
    (ha : points[i]? = some a) (hb : points[j]? = some b) (hij : i ≤ j) : a.tone ≤ b.tone := by
  obtain ⟨hi, rfl⟩ := List.getElem?_eq_some_iff.mp ha
  obtain ⟨hj, rfl⟩ := List.getElem?_eq_some_iff.mp hb
  obtain hlt | rfl := Nat.lt_or_eq_of_le hij
  · exact Nat.le_of_lt (List.pairwise_iff_getElem.mp hrise i j hi hj hlt)
  · exact Nat.le_refl _

theorem TonesRise.tone_le_last {points : List Breakpoint} (hrise : TonesRise points) {last : Breakpoint}
    (hlast : points.getLast? = some last) {b : Breakpoint} (hb : b ∈ points) : b.tone ≤ last.tone := by
  obtain ⟨i, hi, rfl⟩ := List.mem_iff_getElem.mp hb
  rw [List.getLast?_eq_getElem?] at hlast
  exact hrise.tone_le (List.getElem?_eq_getElem hi) hlast (by omega)

/-- The tone lies on the pair of breakpoints that begins at place `i`. -/
def OnPair (points : List Breakpoint) (t i : Nat) : Prop :=
  ∃ a b : Breakpoint, points[i]? = some a ∧ points[i + 1]? = some b ∧ a.tone ≤ t ∧ t < b.tone

/-- A tone from the first breakpoint's on and below the last one's lies on some pair. -/
theorem exists_onPair {a : Breakpoint} {rest : List Breakpoint} {t : Nat} {last : Breakpoint} (ha : a.tone ≤ t)
    (hlast : (a :: rest).getLast? = some last) (ht : t < last.tone) : ∃ i, OnPair (a :: rest) t i := by
  induction rest generalizing a with
  | nil =>
    rw [List.getLast?_singleton, Option.some.injEq] at hlast
    subst hlast
    omega
  | cons b rest ih =>
    by_cases hb : t < b.tone
    · exact ⟨0, a, b, rfl, rfl, ha, hb⟩
    · obtain ⟨i, hi⟩ := ih (Nat.le_of_not_lt hb) (List.getLast?_cons_cons ▸ hlast)
      exact ⟨i + 1, hi⟩

/-- No tone lies on two pairs. -/
theorem onPair_unique {points : List Breakpoint} (hrise : TonesRise points) {t i j : Nat} (hi : OnPair points t i)
    (hj : OnPair points t j) : i = j := by
  have hle : ∀ {m n : Nat}, OnPair points t m → OnPair points t n → ¬ m < n := by
    rintro m n ⟨-, b, -, hb, -, hbelow⟩ ⟨a, -, ha, -, habove, -⟩ hmn
    exact absurd (hrise.tone_le hb ha hmn) (by omega)
  exact Nat.le_antisymm (Nat.le_of_not_lt (hle hj hi)) (Nat.le_of_not_lt (hle hi hj))

/-! ## The entries (R31) -/

@[simp] theorem expandCurve_length (points : List Breakpoint) : (expandCurve points).length = 256 := by
  simp [expandCurve]

theorem expandCurve_get (points : List Breakpoint) {t : Nat} (ht : t < 256) :
    (expandCurve points)[t]? = some (curveEntry points t) := by
  simp [expandCurve, ht]

/-- A tone on a pair of breakpoints has that pair's entry. -/
theorem curveEntry_onPair {points : List Breakpoint} (hrise : TonesRise points) {t i : Nat} {a b : Breakpoint}
    (ha : points[i]? = some a) (hb : points[i + 1]? = some b) (habove : a.tone ≤ t) (hbelow : t < b.tone) :
    curveEntry points t = segmentEntry a b t := by
  induction i generalizing points with
  | zero =>
    match points, ha, hb with
    | x :: y :: rest, ha, hb =>
      cases ha
      cases hb
      exact if_pos hbelow
  | succ i ih =>
    match points, ha, hb with
    | x :: y :: rest, ha, hb =>
      have htail : TonesRise (y :: rest) := List.Pairwise.of_cons hrise
      have hpassed : ¬ t < y.tone := by
        have := htail.tone_le (i := 0) rfl ha (Nat.zero_le _)
        omega
      rw [curveEntry, if_neg hpassed]
      exact ih htail ha hb

/-- A tone that no breakpoint lies above has the last depth. -/
theorem curveEntry_last {points : List Breakpoint} {t : Nat} {last : Breakpoint} (hlast : points.getLast? = some last)
    (ht : ∀ b ∈ points, b.tone ≤ t) : curveEntry points t = last.depth := by
  induction points with
  | nil => cases hlast
  | cons a rest ih =>
    cases rest with
    | nil => cases hlast; rfl
    | cons b rest =>
      have hpassed : ¬ t < b.tone := Nat.not_lt.mpr (ht b (List.mem_cons_of_mem _ List.mem_cons_self))
      rw [curveEntry, if_neg hpassed]
      exact ih (List.getLast?_cons_cons ▸ hlast) fun x hx => ht x (List.mem_cons_of_mem _ hx)

/-- The interpolated step from one depth to the other, rounded with a half up, for a part `x` of a run of `den` tones:
it leads no further than the other depth, and is 0 at the breakpoint. -/
theorem interpolated_between {rise x den : Int} (hx : 0 ≤ x) (hden : x < den) :
    min 0 rise ≤ (2 * (rise * x) + den) / (2 * den) ∧ (2 * (rise * x) + den) / (2 * den) ≤ max 0 rise ∧
    (x = 0 → (2 * (rise * x) + den) / (2 * den) = 0) := by
  have hpos : 0 < 2 * den := by omega
  have htwice : rise * (2 * den) = 2 * (rise * den) := Int.mul_left_comm ..
  refine ⟨?_, ?_, fun h0 => ?_⟩
  · obtain hr | hr := Int.le_total 0 rise
    · have : 0 ≤ rise * x := Int.mul_nonneg hr hx
      rw [min_eq_left hr]
      exact Int.ediv_nonneg (by omega) (by omega)
    · have : rise * den ≤ rise * x := Int.mul_le_mul_of_nonpos_left hr (by omega)
      rw [min_eq_right hr]
      exact Int.le_ediv_of_mul_le hpos (by omega)
  · refine Int.le_of_lt_add_one (Int.ediv_lt_of_lt_mul hpos ?_)
    obtain hr | hr := Int.le_total 0 rise
    · have : rise * x ≤ rise * den := Int.mul_le_mul_of_nonneg_left (by omega) hr
      rw [max_eq_right hr, Int.add_mul]
      omega
    · have : rise * x ≤ 0 := Int.mul_nonpos_of_nonpos_of_nonneg hr hx
      rw [max_eq_left hr]
      omega
  · subst h0
    exact Int.ediv_eq_zero_of_lt (by omega) (by omega)

/-- The entry of a tone on a pair of breakpoints (R31): interpolated, between the two depths, and exact at the
breakpoint. -/
theorem segmentEntry_spec {a b : Breakpoint} {t : Nat} (habove : a.tone ≤ t) (hbelow : t < b.tone) :
    (segmentEntry a b t : Int) = a.depth +
      (2 * (((b.depth : Int) - a.depth) * ((t : Int) - a.tone)) + ((b.tone : Int) - a.tone)) /
        (2 * ((b.tone : Int) - a.tone)) ∧
    min a.depth b.depth ≤ segmentEntry a b t ∧ segmentEntry a b t ≤ max a.depth b.depth ∧
    (t = a.tone → segmentEntry a b t = a.depth) := by
  obtain ⟨hmin, hmax, hexact⟩ := interpolated_between (rise := (b.depth : Int) - a.depth) (x := (t : Int) - a.tone)
    (den := (b.tone : Int) - a.tone) (by omega) (by omega)
  unfold segmentEntry
  dsimp only
  generalize (2 * (((b.depth : Int) - a.depth) * ((t : Int) - a.tone)) + ((b.tone : Int) - a.tone)) /
    (2 * ((b.tone : Int) - a.tone)) = step at hmin hmax hexact
  omega

/-- Settles O31: each tone below the last lies on one pair, which gives its entry, and tone 255 has passed them all. -/
theorem expandedCurveInterpolates : Obligations.ExpandedCurveInterpolates := by
  rintro points ⟨hmin, -, hfirst, hlast, hrise, hdepth⟩
  obtain ⟨last, hlast, htone⟩ := Option.map_eq_some_iff.mp hlast
  have htones : ∀ b ∈ points, b.tone ≤ 255 := fun b hb => htone ▸ TonesRise.tone_le_last hrise hlast hb
  refine ⟨expandCurve_length points, ?_, fun t ht => ?_, fun i t a b ha hb habove hbelow => ?_⟩
  · rw [expandCurve_get points (by omega), curveEntry_last hlast htones, hlast]
    rfl
  · match points, hfirst with
    | x :: rest, hfirst =>
      have hzero : x.tone = 0 := Option.some.inj hfirst
      obtain ⟨i, hi⟩ := exists_onPair (t := t) (by omega) hlast (by omega)
      exact ⟨i, hi, fun j hj => onPair_unique hrise hj hi⟩
  · have hbmem : b ∈ points := List.mem_of_getElem? hb
    have hamem : a ∈ points := List.mem_of_getElem? ha
    obtain ⟨heq, hlow, hhigh, hexact⟩ := segmentEntry_spec habove hbelow
    refine ⟨segmentEntry a b t, ?_, heq, hlow, hhigh,
      Nat.le_trans hhigh (Nat.max_le.mpr ⟨hdepth a hamem, hdepth b hbmem⟩), hexact⟩
    rw [expandCurve_get points (Nat.lt_of_lt_of_le hbelow (Nat.le_succ_of_le (htones b hbmem))),
      curveEntry_onPair hrise ha hb habove hbelow]

/-! ## SYNC answers that are due (R174) -/

/-- One entry of the outstanding SYNC set as the statements pass over it, `n` of those that are due being left out. -/
def passSync (n : Nat) (acc : List SyncEntry × Nat) (e : SyncEntry) : List SyncEntry × Nat :=
  if e.load = none ∧ acc.2 < n then (acc.1, acc.2 + 1) else (acc.1 ++ [e], acc.2)

theorem withoutDue_eq_foldl (n : Nat) (syncs : List SyncEntry) :
    withoutDue n syncs = (syncs.foldl (passSync n) ([], 0)).1 := rfl

theorem foldl_passSync (n : Nat) (syncs kept : List SyncEntry) (dropped : Nat) :
    (syncs.foldl (passSync n) (kept, dropped)).1 = kept ++ dropDue (n - dropped) syncs := by
  induction syncs generalizing kept dropped with
  | nil => simp
  | cons e rest ih =>
    rw [List.foldl_cons, passSync]
    split
    · next hpass =>
      obtain ⟨hdue, hlt⟩ := hpass
      obtain ⟨m, hm⟩ : ∃ m, n - dropped = m + 1 := ⟨n - dropped - 1, by dsimp only at hlt; omega⟩
      have hdue : e.due = true := decide_eq_true hdue
      rw [ih, hm, dropDue_succ, if_pos hdue]
      dsimp only
      rw [show n - (dropped + 1) = m by omega]
    · next hkeep =>
      rw [ih, List.append_assoc]
      congr 1
      cases hm : n - dropped with
      | zero => rw [dropDue_zero, dropDue_zero]; rfl
      | succ m =>
        have hnotDue : ¬ e.due = true := fun hdue => hkeep ⟨of_decide_eq_true hdue, by dsimp only; omega⟩
        rw [dropDue_succ, if_neg hnotDue]
        rfl

/-- The statements' words for the set without its first due entries are the model's. -/
theorem withoutDue_eq_dropDue (n : Nat) (syncs : List SyncEntry) : withoutDue n syncs = dropDue n syncs := by
  rw [withoutDue_eq_foldl, foldl_passSync]
  rfl

/-! ## EXPANSION_COMPLETE (R30 to R32) -/

theorem finishExpansion_waits {s : State} {load : Load} {rest : List Load} (hq : s.expander.queue = load :: rest)
    (hn : load.notify = true) (hfull : s.tx.queue.length = 64) :
    s.finishExpansion = s.setExpander { s.expander with finished := true } := by
  have hroom : s.upstreamRoom = false := by simp [State.upstreamRoom, hfull]
  unfold State.finishExpansion
  rw [hq]
  dsimp only
  rw [hn, hroom]
  rfl

theorem finishExpansion_completes {s : State} {load : Load} {rest : List Load} (hq : s.expander.queue = load :: rest)
    (hlen : s.tx.queue.length ≤ 64) (hn : ¬ (load.notify = true ∧ s.tx.queue.length = 64)) :
    s.finishExpansion = s.completeExpansion.placeDueSyncs := by
  unfold State.finishExpansion
  rw [hq]
  refine if_neg fun hwait => hn ?_
  rw [Bool.and_eq_true, Bool.not_eq_true'] at hwait
  have hfull : ¬ s.tx.queue.length < 64 := of_decide_eq_false hwait.2
  exact ⟨hwait.1, by omega⟩

/-- Settles O32: the completion waits at a full queue, or takes its load and places what it owes. -/
theorem expansionCompletes : Obligations.ExpansionCompletes := by
  intro s load rest hq hlen
  refine ⟨s.latch s.finishExpansion, rfl, ?_⟩
  beta_reduce
  by_cases hn : load.notify = true ∧ s.tx.queue.length = 64
  · rw [if_pos hn, finishExpansion_waits hq hn.1 hn.2]
    exact event_of_action rfl ⟨rfl, rfl, rfl, rfl, rfl, rfl, rfl⟩ (.of_kept rfl rfl)
  · rw [if_neg hn, finishExpansion_completes hq hlen hn, completeExpansion_eq hq]
    dsimp only
    refine ⟨rfl, rfl, rfl, rfl, ?_, rfl, rfl, rfl, Signals.posts (.of_kept rfl rfl)⟩
    rw [withoutDue_eq_dropDue]
    rfl

end Sys2Proof.Machine
end

