-- ==== Sys2Proof/Proofs/DepthUnit.lean ====
section
/-! SUPPORT. The Depth Unit's strike result, stage by stage (R45 to R53, R56). -/

namespace Sys2Proof.Machine

open Sys2Proof

/-! ## The blank test (R46, R47) -/

theorem isBlank_iff (cell : Cell) (depth minDepth : Nat) :
    isBlank cell depth minDepth = true ↔ cell.nocut = true ∨ depth = 0 ∨ depth < minDepth :=
  decide_eq_true_iff

theorem computeStrike_of_isBlank {i : StrikeInput} (h : isBlank i.cell i.depth i.minDepth = true) :
    computeStrike i =
      { head := i.head, track := i.track, index := i.index, cell := i.cell, blank := true, cut := false, depth := 0,
        code := i.cal.rest, depthClamped := false, driveClamped := false } :=
  if_pos h

/-- A non-blank strike's table depth is at least 1, whatever the minimum depth is (R46). -/
theorem one_le_depth_of_not_isBlank {cell : Cell} {depth minDepth : Nat} (h : ¬ isBlank cell depth minDepth = true) :
    1 ≤ depth :=
  Nat.one_le_iff_ne_zero.mpr fun h0 => h ((isBlank_iff cell depth minDepth).mpr (.inr (.inl h0)))

/-! ## Wear, depth and the depth clamp (R48, R50) -/

/-- The depth of a non-blank strike: the table depth and the wear, up to the head's maximum depth. -/
def strikeDepth (i : StrikeInput) : Nat := min (i.depth + wearOf i.cal i.strikes) i.cal.maxDepth

theorem computeStrike_of_not_isBlank {i : StrikeInput} (h : ¬ isBlank i.cell i.depth i.minDepth = true) :
    computeStrike i =
      { head := i.head, track := i.track, index := i.index, cell := i.cell, blank := false, cut := i.mode = .cut,
        depth := strikeDepth i, code := clampCode (rawCode i.cal (strikeDepth i)),
        depthClamped := i.cal.maxDepth < i.depth + wearOf i.cal i.strikes,
        driveClamped := rawCode i.cal (strikeDepth i) < 0 ∨ 4095 < rawCode i.cal (strikeDepth i) } :=
  if_neg h

theorem one_le_strikeDepth {i : StrikeInput} (hdepth : 1 ≤ i.depth) (hmax : 1 ≤ i.cal.maxDepth) : 1 ≤ strikeDepth i :=
  Nat.le_min.mpr ⟨Nat.le_add_right_of_le hdepth, hmax⟩

/-! ## The drive code's clamp (R52) -/

theorem clampCode_of_neg {code : Int} (h : code < 0) : clampCode code = 0 := by unfold clampCode; omega

theorem clampCode_of_gt {code : Int} (h : 4095 < code) : clampCode code = 4095 := by unfold clampCode; omega

theorem clampCode_of_range {code : Int} (hlow : 0 ≤ code) (hhigh : code ≤ 4095) : (clampCode code : Int) = code := by
  unfold clampCode; omega

/-! ## The strike result (R53, R56) -/

/-- Settles O35: the blank test chooses between the two forms of the strike result, and each clause is read off its form. -/
theorem depthUnitComputesTheStrike : Obligations.DepthUnitComputesTheStrike := by
  intro i hmax
  refine ⟨computeStrike_head i, computeStrike_track i, computeStrike_index i, computeStrike_cell i, ?_⟩
  rw [← isBlank_iff]
  by_cases hb : isBlank i.cell i.depth i.minDepth = true
  · rw [computeStrike_of_isBlank hb]
    exact ⟨iff_of_true rfl hb, iff_of_false Bool.false_ne_true fun hcut => hcut.1 hb,
      fun _ => ⟨rfl, rfl, rfl, rfl⟩, fun hcuts => absurd hb hcuts⟩
  · have hdepth : 1 ≤ strikeDepth i := one_le_strikeDepth (one_le_depth_of_not_isBlank hb) hmax
    rw [computeStrike_of_not_isBlank hb]
    refine ⟨iff_of_false Bool.false_ne_true hb, decide_eq_true_iff.trans (and_iff_right hb).symm,
      fun hblank => absurd hblank hb, fun _ => ⟨rfl, hdepth, Nat.min_le_right _ _, decide_eq_true_iff, ?_, ?_, ?_, ?_⟩⟩
    · exact fun hneg => ⟨clampCode_of_neg hneg, decide_eq_true (.inl hneg)⟩
    · exact fun hgt => ⟨clampCode_of_gt hgt, decide_eq_true (.inr hgt)⟩
    · exact fun hlow hhigh => ⟨clampCode_of_range hlow hhigh,
        decide_eq_false (not_or.mpr ⟨Int.not_lt.mpr hlow, Int.not_lt.mpr hhigh⟩)⟩
    · exact clampCode_le _

end Sys2Proof.Machine
end

