-- ==== Sys2Proof/Proofs/HeadFaults.lean ====
section
/-! SUPPORT. The READY and ALARM lines of a head: the port as the line leaves it (R66), and what an edge does to the head
(R67, R73 to R76). -/

namespace Sys2Proof.Machine

open Sys2Proof Sys2Proof.Claims

/-! ## The port as the line leaves it (R66) -/

theorem updAt_updAt {α : Type} {n : Nat} (v : Vector α n) (i : Fin n) (f g : α → α) :
    updAt (updAt v i f) i g = updAt v i fun a => g (f a) :=
  bank_ext fun j => by
    simp only [updAt_get, if_true]
    split <;> rfl

/-- The state with one Head Port replaced. -/
def State.setPort (s : State) (h : HeadNo) (q : HeadPort) : State := s.updPort h fun _ => q

theorem State.setPort_get (s : State) (h : HeadNo) (q : HeadPort) : (s.setPort h q).ports[h] = q := by
  rw [State.setPort, State.updPort_get, if_pos rfl]

theorem reread_alarmLine (q : HeadPort) (high : Bool) : { q with alarmLine := high }.reread = alarmPort q high := by
  simp only [HeadPort.reread, normalized_eq_normal, alarmPort]

theorem reread_readyLine (q : HeadPort) (high : Bool) : { q with readyLine := high }.reread = readyPort q high := by
  simp only [HeadPort.reread, normalized_eq_normal, readyPort]

/-- The line leaves the head's port re-read, and an ALARM assertion edge acts on the head. -/
theorem alarmLevel_eq (s : State) (h : HeadNo) (high : Bool) :
    s.alarmLevel h high =
      if (alarmPort s.ports[h] high).alarm = true ∧ s.ports[h].alarm = false then
        (s.setPort h (alarmPort s.ports[h] high)).alarmEdge h
      else s.setPort h (alarmPort s.ports[h] high) := by
  have hread : (s.updPort h fun q => { q with alarmLine := high }.reread) = s.setPort h (alarmPort s.ports[h] high) := by
    rw [← reread_alarmLine]; rfl
  unfold State.alarmLevel
  rw [hread]
  simp only [State.setPort_get, Bool.and_eq_true, Bool.not_eq_true', and_comm]

/-- The line leaves the head's port re-read, and a READY deassertion edge acts on the head. -/
theorem readyLevel_eq (s : State) (h : HeadNo) (high : Bool) :
    s.readyLevel h high =
      if (readyPort s.ports[h] high).ready = false ∧ s.ports[h].ready = true then
        (s.setPort h (readyPort s.ports[h] high)).readyLossEdge h
      else s.setPort h (readyPort s.ports[h] high) := by
  have hread : (s.updPort h fun q => { q with readyLine := high }.reread) = s.setPort h (readyPort s.ports[h] high) := by
    rw [← reread_readyLine]; rfl
  unfold State.readyLevel
  rw [hread]
  simp only [State.setPort_get, Bool.and_eq_true, Bool.not_eq_true', and_comm]

section
variable (s : State) (h : HeadNo) (q : HeadPort)

theorem setPort_kept : LinkKept s (s.setPort h q) := ⟨rfl, rfl, rfl, rfl, rfl, rfl, rfl⟩

theorem setPort_signals : Signals s (s.setPort h q) 0 [] := .of_kept rfl rfl

/-- A line change without effect on the head is an event of its port alone. -/
theorem portOnly_silent : PortOnly s (s.latch (s.setPort h q)) h q [] :=
  event_of_action rfl (setPort_kept s h q) (setPort_signals s h q)

/-- A line change that is only posted is an event of the port alone. -/
theorem portOnly_post (code : ErrorCode) (head : Option HeadNo) (lane : Option Byte) :
    PortOnly s (s.latch ((s.setPort h q).post code head lane)) h q [entry s code head lane] :=
  event_of_action rfl ((setPort_kept s h q).trans (.post ..)) ((setPort_signals s h q).silent_trans (.post ..))

end

/-! ## Head faults (R73 to R76) -/

/-- Two signals in a row, the first of an action that only posts, the second of one that only raises. -/
theorem Signals.trans_raised {s t u : State} {a : BitVec 14} {p : List ErrorEntry} (h : Signals s t 0 p)
    (k : Signals t u a []) : Signals s u a p := by
  simpa using h.trans k

theorem worksOf_faultPolicy (s : State) :
    worksOf s.faultPolicy = { worksOf s with seq := { s.seq with hold := faultHold s } } := by
  unfold State.faultPolicy faultHold
  split
  · next hp => rw [decide_eq_true hp, Bool.or_true]; rfl
  · next hp => rw [decide_eq_false hp, Bool.or_false]; rfl

theorem faultPolicy_kept (s : State) : LinkKept s s.faultPolicy := by
  unfold State.faultPolicy
  split
  · exact ⟨rfl, rfl, rfl, rfl, rfl, rfl, rfl⟩
  · exact .refl s

theorem faultPolicy_signals (s : State) : Signals s s.faultPolicy 0 [] := by
  unfold State.faultPolicy
  split
  · exact .of_kept rfl rfl
  · exact .refl s

/-- A head's going to FAULTED, by the change `f` of its items, with the hold request that the policy sets (R76). -/
def State.toFaulted (s : State) (h : HeadNo) (f : HeadItems → HeadItems) : State := (s.updHead h f).faultPolicy

section
variable (s : State) (h : HeadNo) (f : HeadItems → HeadItems)

theorem worksOf_toFaulted :
    worksOf (s.toFaulted h f) =
      { worksOf s with seq := { s.seq with hold := faultHold s, heads := updAt s.seq.heads h f } } :=
  worksOf_faultPolicy (s.updHead h f)

theorem toFaulted_kept : LinkKept s (s.toFaulted h f) :=
  have hitems : LinkKept s (s.updHead h f) := ⟨rfl, rfl, rfl, rfl, rfl, rfl, rfl⟩
  hitems.trans (faultPolicy_kept _)

theorem toFaulted_signals : Signals s (s.toFaulted h f) 0 [] :=
  have hitems : Signals s (s.updHead h f) 0 [] := .of_kept rfl rfl
  hitems.silent_trans (faultPolicy_signals _)

end

/-- A head's cut stops: the head lifts and the slot being cut is INTERRUPTED (R72, R95). -/
def State.stopHead (s : State) (h : HeadNo) : State :=
  (s.updPort h fun p => { p with lift := .lifted }).updLane h Lane.interrupt

theorem worksOf_stopHead (s : State) (h : HeadNo) :
    worksOf (s.stopHead h) =
      { worksOf s with
        ports := updAt s.ports h fun p => { p with lift := .lifted }
        lanes := updAt s.lanes h (Option.map Lane.interrupt) } := rfl

theorem stopHead_kept (s : State) (h : HeadNo) : LinkKept s (s.stopHead h) := ⟨rfl, rfl, rfl, rfl, rfl, rfl, rfl⟩

theorem stopHead_signals (s : State) (h : HeadNo) : Signals s (s.stopHead h) 0 [] := .of_kept rfl rfl

theorem worksOf_setCaptures (s : State) (x : List Capture) :
    worksOf (s.setCaptures x) = { worksOf s with captures := x } := rfl

/-- Items of a head whose cut a fault interrupts (R73, R74). -/
def HeadItems.faultInCut (i : HeadItems) : HeadItems :=
  { i with state := .faulted, interrupted := true, faultPosition := true }

/-- Items of a WAITING or ARMED head after a fault (R73). -/
def HeadItems.faultAtRest (i : HeadItems) : HeadItems := { i with state := .faulted, faultPosition := true }

/-- A fault that interrupts a cut, action by action: posted, the cut stopped, its capture ended, the head FAULTED. -/
theorem faultCut_eq (s : State) (h : HeadNo) (code : ErrorCode) (j : Nat) :
    s.faultCut h code j =
      ((((s.post code (some h) (tagOf s h) (some s.seq.heads[h].next) (some j)).stopHead h).endCaptures
        (· = h)).toFaulted h HeadItems.faultInCut) := rfl

theorem faultCut_kept (s : State) (h : HeadNo) (code : ErrorCode) (j : Nat) : LinkKept s (s.faultCut h code j) := by
  have hposted := LinkKept.post s code (some h) (tagOf s h) (some s.seq.heads[h].next) (some j)
  have hended := (hposted.trans (stopHead_kept _ h)).trans (.changeCaptures _ (endCapture (· = h)))
  exact hended.trans (toFaulted_kept _ h HeadItems.faultInCut)

/-- A fault that interrupts a cut posts one entry, and raises no bit but that of the captures that become FULL (R75,
R147). -/
theorem faultCut_signals (s : State) (h : HeadNo) (code : ErrorCode) (j : Nat) :
    Signals s (s.faultCut h code j) (bitIf (someFull s.captures (endCapture (· = h))) .captureFull)
      [entry s code (some h) (tagOf s h) (some s.seq.heads[h].next) (some j)] := by
  have hposted := Signals.post s code (some h) (tagOf s h) (some s.seq.heads[h].next) (some j)
  have hstopped := hposted.trans_silent (stopHead_signals _ h)
  have hended := hstopped.trans_raised (State.changeCaptures_signals _ (endCapture (· = h)))
  exact hended.trans_silent (toFaulted_signals _ h HeadItems.faultInCut)

theorem Lane.interrupt_eq : Lane.interrupt = bothSlots (slotTo .cutting .interrupted fun _ => true) :=
  funext fun l => (bothSlots_move _ _ _ l).symm

section
variable (s : State) (h : HeadNo) (q : HeadPort)

/-- The works of a fault that interrupts a cut: the hold request is judged on a Sequencer that the stop has not changed. -/
theorem worksOf_faultCut (code : ErrorCode) (j : Nat) :
    worksOf ((s.setPort h q).faultCut h code j) = faultedWorks s h q true := by
  have hports : updAt (updAt s.ports h fun _ => q) h (fun p => { p with lift := .lifted }) =
      updAt s.ports h fun _ => { q with lift := .lifted } := updAt_updAt ..
  have hitems : HeadItems.faultInCut =
      fun i => { i with state := .faulted, faultPosition := true, interrupted := i.interrupted || true } :=
    funext fun i => by rw [Bool.or_true]; rfl
  rw [faultCut_eq, worksOf_toFaulted, worksOf_endCaptures, faultHold, State.endCaptures_seq, hitems,
    worksOf_setCaptures, worksOf_stopHead, Lane.interrupt_eq]
  simp only [faultedWorks, if_true, ← hports]
  rfl

theorem faultCut_event (code : ErrorCode) (j : Nat) :
    Event s (s.latch ((s.setPort h q).faultCut h code j)) (faultedWorks s h q true)
      (bitIf (someFull s.captures (endCapture (· = h))) .captureFull)
      [entry s code (some h) (tagOf s h) (some s.seq.heads[h].next) (some j)] :=
  event_of_action (worksOf_faultCut s h q code j) ((setPort_kept s h q).trans (faultCut_kept ..))
    ((setPort_signals s h q).silent_trans (faultCut_signals ..))

/-- A fault of a WAITING or ARMED head. -/
theorem faultAtRest_event (code : ErrorCode) :
    Event s (s.latch (((s.setPort h q).post code (some h) (tagOf s h) (some s.seq.heads[h].next)).toFaulted h
        HeadItems.faultAtRest)) (faultedWorks s h q false) 0
      [entry s code (some h) (tagOf s h) (some s.seq.heads[h].next)] := by
  have hitems : HeadItems.faultAtRest =
      fun i => { i with state := .faulted, faultPosition := true, interrupted := i.interrupted || false } :=
    funext fun i => by rw [Bool.or_false]; rfl
  have hlanes : updAt s.lanes h (fun l => l) = s.lanes := updAt_id ..
  refine event_of_action ?_ (((setPort_kept s h q).trans (.post ..)).trans (toFaulted_kept ..))
    (((setPort_signals s h q).silent_trans (.post ..)).trans_silent (toFaulted_signals ..))
  rw [worksOf_toFaulted, hitems]
  simp only [faultedWorks, Bool.false_eq_true, if_false, hlanes]
  rfl

end

/-! ## Edges (R67, R73, R74) -/

section
variable {s : State} {h : HeadNo}

theorem alarmEdge_of_cutting {j : Nat} (hs : s.seq.heads[h].state = .cutting j) :
    s.alarmEdge h = s.faultCut h .headAlarm j := by
  unfold State.alarmEdge
  rw [hs]

theorem alarmEdge_of_atRest (hs : s.seq.heads[h].state = .waiting ∨ s.seq.heads[h].state = .armed) :
    s.alarmEdge h = (s.post .headAlarm (some h) (tagOf s h) (some s.seq.heads[h].next)).toFaulted h
      HeadItems.faultAtRest := by
  unfold State.alarmEdge
  obtain hs | hs := hs <;> rw [hs] <;> rfl

theorem alarmEdge_of_done (hs : s.seq.heads[h].state = .faulted ∨ s.seq.heads[h].state = .finished) :
    s.alarmEdge h = s.post .headAlarm (some h) (tagOf s h) := by
  unfold State.alarmEdge
  obtain hs | hs := hs <;> rw [hs] <;> rfl

theorem alarmEdge_of_out (hs : s.seq.heads[h].state = .out) : s.alarmEdge h = s := by
  unfold State.alarmEdge
  rw [hs]

theorem readyLossEdge_of_cutting {j : Nat} (hs : s.seq.heads[h].state = .cutting j) :
    s.readyLossEdge h = s.faultCut h .headNotReady j := by
  unfold State.readyLossEdge
  rw [hs]

theorem readyLossEdge_of_not_cutting (hs : ∀ j, s.seq.heads[h].state ≠ .cutting j) : s.readyLossEdge h = s := by
  unfold State.readyLossEdge
  split
  · next j hj => exact absurd hj (hs j)
  · rfl

end

/-- Settles O15: the port as the line leaves it, and on an assertion edge the fault, post or nothing of each head state. -/
theorem alarmEdgeFaultsTheHead : Obligations.AlarmEdgeFaultsTheHead := by
  intro s h high q edge
  refine ⟨s.latch (s.alarmLevel h high), rfl, fun hno => ?_, fun hedge => ?_⟩
  · rw [alarmLevel_eq, if_neg hno]
    exact portOnly_silent s h q
  rw [alarmLevel_eq, if_pos hedge]
  cases hs : s.seq.heads[h].state with
  | cutting j =>
    rw [alarmEdge_of_cutting (s := s.setPort h _) hs]
    exact faultCut_event s h q .headAlarm j
  | waiting =>
    rw [alarmEdge_of_atRest (s := s.setPort h _) (.inl hs)]
    exact faultAtRest_event s h q .headAlarm
  | armed =>
    rw [alarmEdge_of_atRest (s := s.setPort h _) (.inr hs)]
    exact faultAtRest_event s h q .headAlarm
  | faulted =>
    rw [alarmEdge_of_done (s := s.setPort h _) (.inl hs)]
    exact portOnly_post s h q .headAlarm (some h) (tagOf s h)
  | finished =>
    rw [alarmEdge_of_done (s := s.setPort h _) (.inr hs)]
    exact portOnly_post s h q .headAlarm (some h) (tagOf s h)
  | out =>
    rw [alarmEdge_of_out (s := s.setPort h _) hs]
    exact portOnly_silent s h q

/-- Settles O16: the port as the line leaves it, and on a deassertion edge the fault of a CUTTING head. -/
theorem readyLossFaultsACuttingHead : Obligations.ReadyLossFaultsACuttingHead := by
  intro s h high q edge
  refine ⟨s.latch (s.readyLevel h high), rfl, fun hno => ?_, fun hedge => ?_⟩
  · rw [readyLevel_eq, if_neg hno]
    exact portOnly_silent s h q
  rw [readyLevel_eq, if_pos hedge]
  cases hs : s.seq.heads[h].state with
  | cutting j =>
    rw [readyLossEdge_of_cutting (s := s.setPort h _) hs]
    exact faultCut_event s h q .headNotReady j
  | _ =>
    rw [readyLossEdge_of_not_cutting (s := s.setPort h _) fun j hj => nomatch hs.symm.trans hj]
    exact portOnly_silent s h q

end Sys2Proof.Machine
end

