-- ==== Sys2Proof/Proofs/HeadRecords.lean ====
section
/-! SUPPORT. The records of the Head Ports: SET HEAD, READ HEAD, STYLUS CHANGE and CLEAR FAULT (R60 to R65, R78). -/

namespace Sys2Proof.Machine

open Sys2Proof Sys2Proof.Claims

/-! ## Operands (R60, R187) -/

theorem codeOf_eq_some {α : Type} {zero one a : α} {v : Nat} :
    codeOf zero one v = some a ↔ v ≤ 1 ∧ (if v = 0 then zero else one) = a := by
  by_cases hv : v ≤ 1
  · simp [codeOf_some zero one v hv, hv]
  · simp [(codeOf_none zero one v).mpr (by omega), hv]

/-- SET HEAD's operands are in range exactly as R60 says, and then name the head and the calibration. -/
theorem setHeadOperands_iff {p : List Byte} {head : HeadNo} {cal : Calibration} :
    setHeadOperands p = some (head, cal) ↔ calibrationOk p ∧ u8At p 0 = head.val ∧ cal = calibrationIn p := by
  simp only [setHeadOperands, Option.bind_eq_bind, Option.bind_eq_some_iff, guardIn_eq_some, finOf_eq, codeOf_eq_some,
    decide_eq_true_eq, Option.some.injEq, Prod.mk.injEq]
  constructor
  · rintro ⟨_, hhead, _, ⟨hgain, rfl⟩, _, ⟨hoffset, rfl⟩, _, ⟨hrest, rfl⟩, _, ⟨hdepth, rfl⟩, _, ⟨hcap, rfl⟩, _,
      ⟨hready, rfl⟩, _, ⟨halarm, rfl⟩, rfl, rfl⟩
    exact ⟨⟨by omega, hgain, hoffset.1, hoffset.2, hrest, hdepth.1, hdepth.2, hcap, hready, halarm⟩, hhead, rfl⟩
  · rintro ⟨⟨-, hgain, hlow, hhigh, hrest, hmin, hmax, hcap, hready, halarm⟩, hhead, rfl⟩
    exact ⟨head, hhead, _, ⟨hgain, rfl⟩, _, ⟨⟨hlow, hhigh⟩, rfl⟩, _, ⟨hrest, rfl⟩, _, ⟨⟨hmin, hmax⟩, rfl⟩, _, ⟨hcap, rfl⟩,
      _, ⟨hready, rfl⟩, _, ⟨halarm, rfl⟩, rfl, rfl⟩

theorem setHeadOperands_none {p : List Byte} (hn : ¬ calibrationOk p) : setHeadOperands p = none :=
  Option.eq_none_iff_forall_not_mem.mpr fun _ hx => hn (setHeadOperands_iff.mp hx).1

theorem headOperand_some {p : List Byte} {head : HeadNo} (hhead : u8At p 0 = head.val) : headOperand p = some head :=
  (finOf_eq head).mpr hhead

theorem headOperand_none {p : List Byte} (hn : 8 ≤ u8At p 0) : headOperand p = none := finOf_none.mpr hn

/-! ## Head records at the head of the FIFO -/

/-- A record with one check of its own: refused where the check fails, and otherwise a change of the works alone. -/
theorem checkedRecord_completes {s t : State} {k : RecordKind} {h : Header} {p : List Byte} (ha : AtHead s k h p)
    (hk : k ≠ .reset) (hlen : k.lengthOk p = true) {c : Prop} [Decidable c] {code : Completion} {works : Works}
    (hrule : ruleOf k h p s.leaveIntake = if c then .refuse code else .ok t) (hl : LinkKept s.leaveIntake t)
    (hs : Signals s.leaveIntake t 0 []) (hworks : worksOf t = works) :
    Completes (k.command h p) s fun u => if c then Refused s u k.code h code else Succeeds s u works k h := by
  by_cases hc : c
  · rw [if_pos hc] at hrule
    simp only [if_pos hc]
    exact refused_atHead ha hk hlen hrule
  · rw [if_neg hc] at hrule
    simp only [if_neg hc]
    rw [← hworks]
    exact succeeds_atHead ha hk hlen hrule hl hs

section
variable (s : State) (head : HeadNo)

theorem worksOf_updPort_leaveIntake (f : HeadPort → HeadPort) :
    worksOf (s.leaveIntake.updPort head f) = { worksOf s with ports := updAt s.ports head f } := by
  rw [← worksOf_leaveIntake s, ← State.leaveIntake_ports s]
  rfl

theorem worksOf_updHead_leaveIntake (f : HeadItems → HeadItems) :
    worksOf (s.leaveIntake.updHead head f) =
      { worksOf s with seq := { s.seq with heads := updAt s.seq.heads head f } } := by
  rw [← worksOf_leaveIntake s, ← State.leaveIntake_seq s]
  rfl

theorem updPort_kept (f : HeadPort → HeadPort) : LinkKept s (s.updPort head f) := ⟨rfl, rfl, rfl, rfl, rfl, rfl, rfl⟩

theorem updPort_signals (f : HeadPort → HeadPort) : Signals s (s.updPort head f) 0 [] := .of_kept rfl rfl

theorem updHead_kept (f : HeadItems → HeadItems) : LinkKept s (s.updHead head f) := ⟨rfl, rfl, rfl, rfl, rfl, rfl, rfl⟩

theorem updHead_signals (f : HeadItems → HeadItems) : Signals s (s.updHead head f) 0 [] := .of_kept rfl rfl

end

/-! ## SET HEAD (R60 to R62) -/

theorem ruleSetHead_eq {p : List Byte} (t : State) (hok : calibrationOk p) {head : HeadNo} (hhead : u8At p 0 = head.val) :
    ruleSetHead p t =
      if t.seq.heads[head].state ≠ .out then .refuse .wrongState
      else .ok (t.updPort head fun q => { q with cal := calibrationIn p, calibrated := true }.reread) := by
  rw [ruleSetHead, setHeadOperands_iff.mpr ⟨hok, hhead, rfl⟩, withOperands_some]

/-- Settles O36: the operands in range or refused, the check of the head's state, and the port re-read. -/
theorem setHeadReplacesTheCalibration : Obligations.SetHeadReplacesTheCalibration := by
  refine fun s h p hlen ha => ⟨fun hn => ?_, fun hok head hhead => ?_⟩
  · refine refused_atHead ha (by decide) (decide_eq_true hlen) ?_
    show ruleSetHead p s.leaveIntake = _
    rw [ruleSetHead, setHeadOperands_none hn, withOperands_none]
  · have hrule := ruleSetHead_eq s.leaveIntake hok hhead
    rw [State.leaveIntake_seq] at hrule
    refine checkedRecord_completes ha (by decide) (decide_eq_true hlen) hrule (updPort_kept ..) (updPort_signals ..) ?_
    rw [worksOf_updPort_leaveIntake]
    simp only [HeadPort.reread, normalized_eq_normal]

/-! ## READ HEAD and STYLUS CHANGE (R63, R65) -/

/-- A polarity's code byte is the flag of an inverted line (R187). -/
theorem polarity_code_byte (x : Polarity) : le1 x.code = [flagByte (x = .inverted)] := by
  cases x <;> rfl

/-- READ HEAD's payload in the words of the statement (R63, R187). -/
theorem headPayload_eq (q : HeadPort) (i : HeadItems) :
    headPayload q i =
      leBytes 2 q.cal.gain ++ leBytes 2 (q.cal.offset % 65536).toNat ++ leBytes 2 q.cal.rest ++
        leBytes 2 q.cal.maxDepth ++ code1 q.cal.wearRate ++ code1 q.cal.wearCap ++
        [flagByte (q.cal.readyPolarity = .inverted), flagByte (q.cal.alarmPolarity = .inverted),
         flagByte q.calibrated] ++
        leBytes 4 q.strikes ++ [flagByte q.ready, flagByte q.alarm] ++ code1 i.state.code := by
  unfold headPayload
  rw [polarity_code_byte, polarity_code_byte]
  simp only [List.append_assoc]
  rfl

/-- READ HEAD names a head, answers with its payload, and changes nothing (R63). -/
theorem readHead_succeeds {s : State} {h : Header} {p : List Byte} (ha : AtHead s .readHead h p) (hlen : p.length = 1)
    {head : HeadNo} (hhead : u8At p 0 = head.val) :
    Completes (.readHead h p) s fun t =>
      Succeeds s t (worksOf s) .readHead h .done (headPayload s.ports[head] s.seq.heads[head]) := by
  have hrule : ruleOf .readHead h p s.leaveIntake =
      .done s.leaveIntake .done (headPayload s.ports[head] s.seq.heads[head]) := by
    show ruleReadHead p s.leaveIntake = _
    rw [ruleReadHead, headOperand_some hhead, withOperands_some, State.leaveIntake_ports, State.leaveIntake_seq]
  rw [← worksOf_leaveIntake]
  exact succeeds_atHead ha (by decide) (decide_eq_true hlen) hrule (.refl _) (.refl _)

/-- Settles O37: READ HEAD by its payload, and STYLUS CHANGE by its check of a CUTTING head. -/
theorem readHeadAndStylusChange : Obligations.ReadHeadAndStylusChange := by
  refine fun s h p hlen => ⟨fun ha => ⟨fun hn => ?_, fun head hhead => ?_⟩,
    fun ha => ⟨fun hn => ?_, fun head hhead => ?_⟩⟩
  · refine refused_atHead ha (by decide) (decide_eq_true hlen) ?_
    show ruleReadHead p s.leaveIntake = _
    rw [ruleReadHead, headOperand_none hn, withOperands_none]
  · have hread := readHead_succeeds ha hlen hhead
    rw [headPayload_eq] at hread
    exact hread
  · refine refused_atHead ha (by decide) (decide_eq_true hlen) ?_
    show ruleStylusChange p s.leaveIntake = _
    rw [ruleStylusChange, headOperand_none hn, withOperands_none]
  · refine checkedRecord_completes ha (by decide) (decide_eq_true hlen) ?_ (updPort_kept ..) (updPort_signals ..)
      (worksOf_updPort_leaveIntake ..)
    show ruleStylusChange p s.leaveIntake = _
    rw [ruleStylusChange, headOperand_some hhead, withOperands_some, State.cutting, State.leaveIntake_seq]
    rfl

/-! ## CLEAR FAULT (R78) -/

theorem mayClearFault_iff (s : State) (head : HeadNo) :
    s.mayClearFault head = true ↔
      s.seq.heads[head].state = .faulted ∧ s.ports[head].alarm = false ∧
        (s.seq.state = .armed ∨ s.seq.state = .holding ∧ s.seq.heads[head].faultPosition = true) :=
  decide_eq_true_iff

/-- The state that a cleared head goes to, by its items (R78). -/
def clearedTo (s : State) (head : HeadNo) (i : HeadItems) : HeadState :=
  if s.seq.plan[head].map PlanEntry.tracks = some i.next then .finished
  else if s.seq.state = .armed then .armed else .waiting

theorem clearedTo_leaveIntake (s : State) : clearedTo s.leaveIntake = clearedTo s := by
  unfold clearedTo
  rw [State.leaveIntake_seq]

/-- CLEAR FAULT refuses a head that may not be cleared, and gives any other the state that R78 says. -/
theorem ruleClearFault_eq {p : List Byte} (t : State) {head : HeadNo} (hhead : u8At p 0 = head.val) :
    ruleClearFault p t =
      if ¬ (t.seq.heads[head].state = .faulted ∧ t.ports[head].alarm = false ∧
          (t.seq.state = .armed ∨ t.seq.state = .holding ∧ t.seq.heads[head].faultPosition = true)) then
        .refuse .wrongState
      else .ok (t.updHead head fun i => { i with state := clearedTo t head i }) := by
  rw [ruleClearFault, headOperand_some hhead, withOperands_some]
  simp only [← mayClearFault_iff, ite_not]
  rfl

/-- Settles O38: the head number in range or refused, the check of the fault, and the state that the head goes to. -/
theorem clearFaultReturnsTheHead : Obligations.ClearFaultReturnsTheHead := by
  refine fun s h p hlen ha => ⟨fun hn => ?_, fun head hhead => ?_⟩
  · refine refused_atHead ha (by decide) (decide_eq_true hlen) ?_
    show ruleClearFault p s.leaveIntake = _
    rw [ruleClearFault, headOperand_none hn, withOperands_none]
  · have hrule := ruleClearFault_eq s.leaveIntake hhead
    rw [State.leaveIntake_ports, State.leaveIntake_seq, clearedTo_leaveIntake] at hrule
    have hcleared := checkedRecord_completes ha (by decide) (decide_eq_true hlen) hrule (updHead_kept ..)
      (updHead_signals ..) (worksOf_updHead_leaveIntake ..)
    simp only [ite_not] at hcleared
    exact hcleared

end Sys2Proof.Machine
end

