-- ==== Sys2Proof/Proofs/CellFrames.lean ====
section
/-! SUPPORT. CELL frames: the segment read back from its body (R84, R186), the checks of the Track Assembler in the words of
the statements (R86 to R91), and the taking of a CELL frame from the head of the FIFO (R84, R85, R92). -/

namespace Sys2Proof.Machine

open Sys2Proof Sys2Proof.Claims

/-! ## The layout of a segment (R84, R186) -/

/-- Two flags written at bits 0 and 1 of a byte are read back from it. -/
theorem twoFlags_getLsbD (a b : Bool) :
    (((if a then 1 else 0) ||| (if b then 2 else 0) : Byte).getLsbD 0 = a) ∧
    (((if a then 1 else 0) ||| (if b then 2 else 0) : Byte).getLsbD 1 = b) := by
  cases a <;> cases b <;> decide

theorem Cell.flags_getLsbD (c : Cell) : c.flags.getLsbD 0 = c.mark ∧ c.flags.getLsbD 1 = c.nocut :=
  twoFlags_getLsbD c.mark c.nocut

/-- The cells of a segment are read back from their bytes. -/
theorem cellsOf_flatMap (cells : List Cell) : cellsOf (cells.flatMap fun c => [c.tone, c.flags]) = cells := by
  induction cells with
  | nil => rfl
  | cons c rest ih =>
    obtain ⟨hmark, hnocut⟩ := c.flags_getLsbD
    simp only [List.flatMap_cons, List.cons_append, List.nil_append, cellsOf, hmark, hnocut, ih]

theorem segmentBody_length (g : Segment) : (segmentBody g).length = 8 + 2 * g.cells.length := by
  simp [segmentBody]
  omega

/-- A 16-bit field is read back where its two bytes stand. -/
theorem u16At_of_drop {p rest : List Byte} {i v : Nat} (hv : v < 65536) (hp : p.drop i = leBytes 2 v ++ rest) :
    u16At p i = v := by
  rw [← Nat.add_zero i, ← u16At_drop, hp, u16At_leBytes v hv]

theorem segmentBody_track {g : Segment} (h : g.track < 65536) : u16At (segmentBody g) 2 = g.track :=
  u16At_of_drop h rfl

theorem segmentBody_firstCell {g : Segment} (h : g.firstCell < 65536) : u16At (segmentBody g) 4 = g.firstCell :=
  u16At_of_drop h rfl

theorem segmentBody_count {g : Segment} (h : g.cells.length < 65536) : u16At (segmentBody g) 6 = g.cells.length :=
  u16At_of_drop h rfl

theorem segmentBody_cells (g : Segment) : cellsOf ((segmentBody g).drop 8) = g.cells := cellsOf_flatMap g.cells

/-- A body whose count and length fit one another is read field by field (R84). -/
theorem segmentOf_of_wellFormed {body : List Byte} (hmin : 1 ≤ u16At body 6) (hmax : u16At body 6 ≤ 2000)
    (hlen : body.length = 8 + 2 * u16At body 6) :
    segmentOf body = some { tag := body.getD 0 0, first := (body.getD 1 0).getLsbD 0, last := (body.getD 1 0).getLsbD 1,
                            track := u16At body 2, firstCell := u16At body 4, cells := cellsOf (body.drop 8) } :=
  if_pos ⟨by omega, hmin, hmax, hlen⟩

theorem segmentOf_segmentBody {g : Segment} (hmin : 1 ≤ g.cells.length) (hmax : g.cells.length ≤ 2000)
    (htrack : g.track < 65536) (hcell : g.firstCell < 65536) : segmentOf (segmentBody g) = some g := by
  have hcount := segmentBody_count (g := g) (by omega)
  obtain ⟨hfirst, hlast⟩ := twoFlags_getLsbD g.first g.last
  rw [segmentOf_of_wellFormed (hcount ▸ hmin) (hcount ▸ hmax) (hcount ▸ segmentBody_length g),
    segmentBody_track htrack, segmentBody_firstCell hcell, segmentBody_cells]
  simp only [segmentBody, List.getD_cons_zero, List.getD_cons_succ, hfirst, hlast]

/-- Settles O24: the fields read back one by one, and the one guard that a malformed body fails. -/
theorem segmentLayoutIsReadBack : Obligations.SegmentLayoutIsReadBack :=
  ⟨fun _ hmin hmax htrack hcell => segmentOf_segmentBody hmin hmax htrack hcell,
    fun _ hbad => if_neg fun ⟨hlen, hmin, hmax, heq⟩ => by omega⟩

/-! ## The Track Assembler's words and the statements' (R87 to R91) -/

/-- A side as the statements name it: slot 0 is `false`. -/
def Side.isSecond : Side → Bool
  | .s0 => false
  | .s1 => true

theorem putSlot_isSecond (l : Lane) (a : Side) (t : TrackSlot) : putSlot l a.isSecond t = l.setSlot a t := by
  cases a <;> rfl

theorem freeSlot_eq (l : Lane) : freeSlot l = l.freeSide.map Side.isSecond := by
  unfold freeSlot Lane.freeSide
  simp only [TrackSlot.isFree_iff]
  split_ifs <;> rfl

theorem TrackSlot.isIn_eq_false {t : TrackSlot} {u : SlotUse} (ok : Nat → Bool) (h : ∀ k cells, t ≠ .held u k cells) :
    t.isIn u ok = false := by
  cases t with
  | free => rfl
  | held v k cells =>
    have hv : v ≠ u := fun hv => h k cells (hv ▸ rfl)
    simp [hv]

/-- The statements' search for the slot ASSEMBLING a track is the model's, slot 0 before slot 1 (R87). -/
theorem assembling_eq (l : Lane) (k : Nat) :
    assembling l k = (l.assemblingSide k).map fun a => (a.isSecond, (l.slot a).cells) := by
  unfold assembling Lane.assemblingSide
  split
  · next n cells h0 =>
    rw [h0, TrackSlot.isIn_held]
    by_cases hn : n = k
    · simp [hn, h0, Side.isSecond, Lane.slot, TrackSlot.cells]
    · rw [if_neg hn]
      split
      · next m more h1 => by_cases hm : m = k <;> simp [h1, hn, hm, Side.isSecond, Lane.slot, TrackSlot.cells]
      · next h1 => simp [hn, TrackSlot.isIn_eq_false _ h1]
  · next m more h1 h0 =>
    by_cases hm : m = k <;> simp [h1, TrackSlot.isIn_eq_false _ h0, hm, Side.isSecond, Lane.slot, TrackSlot.cells]
  · next h1 h0 => simp [TrackSlot.isIn_eq_false _ h0, TrackSlot.isIn_eq_false _ h1]

theorem discarded_eq (l : Lane) (k : Nat) :
    discarded l k = ((l.assemblingSide k).map fun a => l.setSlot a .free).getD l := by
  rw [discarded, assembling_eq]
  cases l.assemblingSide k with
  | none => rfl
  | some a => exact putSlot_isSecond l a .free

theorem assembling_eq_none (l : Lane) (k : Nat) : assembling l k = none ↔ l.assemblingSide k = none := by
  rw [assembling_eq, Option.map_eq_none_iff]

/-- A segment finds no slot exactly if no slot is ASSEMBLING its track and none is FREE (R87). -/
theorem noRoom_iff (l : Lane) (k : Nat) :
    assembling l k = none ∧ freeSlot l = none ↔ (l.assemblingSide k).or l.freeSide = none := by
  rw [assembling_eq_none, freeSlot_eq, Option.map_eq_none_iff, Option.or_eq_none_iff]

/-- A segment that is not FIRST goes on with nothing if no slot is ASSEMBLING its track (R88). -/
theorem goesOnNothing_iff (l : Lane) (g : Segment) :
    (!g.first && (l.assemblingSide g.track).isNone) = true ↔ g.first = false ∧ assembling l g.track = none := by
  rw [assembling_eq_none, Bool.and_eq_true, Bool.not_eq_true', Option.isNone_iff_eq_none]

section
variable {l : Lane} {g : Segment} {a : Side} (hside : (l.assemblingSide g.track).or l.freeSide = some a)
include hside

/-- The cells held for a segment that starts its track or goes on with one are those of its slot (R88). -/
theorem heldFor_of_side (hstart : ¬ (g.first = false ∧ assembling l g.track = none)) :
    (if g.first then [] else (l.slot a).cells) = heldFor l g := by
  unfold heldFor
  rw [assembling_eq_none] at hstart
  cases hfirst : g.first with
  | true => rfl
  | false =>
    obtain ⟨b, hb⟩ := Option.ne_none_iff_exists'.mp fun h => hstart ⟨hfirst, h⟩
    rw [hb, Option.some_or, Option.some.injEq] at hside
    simp [assembling_eq, hb, hside]

theorem accepted_of_side :
    accepted l g =
      if g.last then { l.setSlot a (.held .complete g.track (heldFor l g ++ g.cells)) with next := l.next + 1 }
      else l.setSlot a (.held .assembling g.track (heldFor l g ++ g.cells)) := by
  unfold accepted
  cases hb : l.assemblingSide g.track with
  | some b =>
    rw [hb, Option.some_or, Option.some.injEq] at hside
    simp only [assembling_eq, hb, hside, Option.map_some, putSlot_isSecond]
    cases g.last <;> rfl
  | none =>
    rw [hb, Option.none_or] at hside
    simp only [assembling_eq, freeSlot_eq, hb, hside, Option.map_none, Option.map_some, Option.getD_some,
      putSlot_isSecond]
    cases g.last <;> rfl

/-- A segment of the next track that finds a slot meets checks 4 to 7 in their order (R88 to R91). -/
theorem takeSegment_of_side (hseq : ¬ (g.track ≠ l.next ∨ l.tracks ≤ l.next)) :
    takeSegment l g =
      if g.first = false ∧ assembling l g.track = none then (some .segmentGap, l)
      else if g.firstCell ≠ (heldFor l g).length then (some .segmentGap, l)
      else if l.pattern < (heldFor l g).length + g.cells.length then (some .trackOverlong, discarded l g.track)
      else if g.last = true ∧ (heldFor l g).length + g.cells.length ≠ l.pattern then
        (some .trackSeam, discarded l g.track)
      else (none, accepted l g) := by
  unfold takeSegment
  simp only [if_neg hseq, hside, goesOnNothing_iff]
  by_cases hstart : g.first = false ∧ assembling l g.track = none
  · rw [if_pos hstart, if_pos hstart]
  · rw [if_neg hstart, if_neg hstart, heldFor_of_side hside hstart, accepted_of_side hside, discarded_eq]
    cases l.assemblingSide g.track <;> cases g.last <;> simp

end

/-- The Track Assembler refuses the segments that the statement's checks refuse, in their order, and accepts the others
(R86 to R91). -/
theorem takeSegment_eq (l : Lane) (g : Segment) :
    takeSegment l g =
      ((segmentRefusal l g).map Prod.fst, ((segmentRefusal l g).map Prod.snd).getD (accepted l g)) := by
  by_cases hseq : g.track ≠ l.next ∨ l.tracks ≤ l.next
  · rw [takeSegment, segmentRefusal, if_pos hseq, if_pos hseq]
    rfl
  cases hside : (l.assemblingSide g.track).or l.freeSide with
  | none =>
    rw [segmentRefusal, if_neg hseq, if_pos ((noRoom_iff ..).mpr hside)]
    simp only [takeSegment, if_neg hseq, hside]
    rfl
  | some a =>
    have hroom : ¬ (assembling l g.track = none ∧ freeSlot l = none) := by simp [noRoom_iff, hside]
    rw [takeSegment_of_side hside hseq, segmentRefusal, if_neg hseq, if_neg hroom]
    split_ifs <;> rfl

/-! ## The OPEN lane of a tag (R85) -/

theorem laneOf_eq_none {s : State} {tag : Byte} (h : ∀ k : HeadNo, ∀ m, s.lanes[k] = some m → m.tag ≠ tag) :
    s.laneOf tag = none := by
  refine Option.eq_none_iff_forall_not_mem.mpr fun ⟨k, m⟩ hm => ?_
  obtain ⟨hlane, htag⟩ := laneOf_some hm
  exact h k m hlane htag

/-- An OPEN lane whose tag no other head's lane carries is the lane of its tag. -/
theorem laneOf_eq_some {s : State} {h : HeadNo} {l : Lane} (hl : s.lanes[h] = some l)
    (honly : ∀ k : HeadNo, ∀ m, s.lanes[k] = some m → m.tag = l.tag → k = h) : s.laneOf l.tag = some (h, l) := by
  cases hfound : s.laneOf l.tag with
  | none =>
    have hhead := List.findSome?_eq_none_iff.mp hfound h (mem_allHeads h)
    simp [hl] at hhead
  | some found =>
    obtain ⟨k, m⟩ := found
    obtain ⟨hlane, htag⟩ := laneOf_some hfound
    obtain rfl := honly k m hlane htag
    rw [hl] at hlane
    cases hlane
    rfl

theorem laneOf_leaveIntake (s : State) (tag : Byte) : s.leaveIntake.laneOf tag = s.laneOf tag := by
  simp only [State.laneOf, State.leaveIntake_lanes]

/-! ## The taking of a CELL frame (R84 to R92, R160) -/

theorem takeCells_malformed {s : State} {body : List Byte} (hb : segmentOf body = none) :
    s.takeCells body = s.post .unknownFrame := by
  rw [State.takeCells, hb]

theorem takeCells_noLane {s : State} {body : List Byte} {g : Segment} (hb : segmentOf body = some g)
    (hl : s.laneOf g.tag = none) : s.takeCells body = s.post .unknownLane none (some g.tag) (some g.track) := by
  simp only [State.takeCells, hb, hl]

theorem takeCells_refused {s : State} {body : List Byte} {g : Segment} {h : HeadNo} {l after : Lane} {code : ErrorCode}
    (hb : segmentOf body = some g) (hl : s.laneOf g.tag = some (h, l)) (hr : segmentRefusal l g = some (code, after)) :
    s.takeCells body = (s.updLane h fun _ => after).post code (some h) (some g.tag) (some g.track) := by
  simp only [State.takeCells, hb, hl, takeSegment_eq, hr, Option.map_some, Option.getD_some]

theorem takeCells_accepted {s : State} {body : List Byte} {g : Segment} {h : HeadNo} {l : Lane}
    (hb : segmentOf body = some g) (hl : s.laneOf g.tag = some (h, l)) (hr : segmentRefusal l g = none) :
    s.takeCells body = s.updLane h fun _ => accepted l g := by
  simp only [State.takeCells, hb, hl, takeSegment_eq, hr, Option.map_none, Option.getD_none]

/-- A CELL frame at the head of the FIFO is taken whatever the Interpreter does, with what the Track Assembler makes of its
body: the works it leaves and the entries it posts. -/
theorem cellFrame_completes {s t : State} {body : List Byte} {works : Works} {posts : List ErrorEntry}
    (hhead : s.rx.fifo.head? = some { kind := .cell, body := body }) (ht : s.leaveIntake.takeCells body = t)
    (hl : LinkKept s.leaveIntake t) (hs : Signals s.leaveIntake t 0 posts) (hw : worksOf t = works) :
    Completes (.cellFrame body) s fun u => Takes s u works 0 posts .silent s.interp.syncs := by
  refine ⟨s.latch t, ?_, hw, leavesAndReplies_silent hl, ((leaveIntake_signals s).silent_trans hs).posts⟩
  rw [exec_of_handedFrame rfl, State.deliver_head _ _ hhead, State.mayHandOn_cell, if_pos rfl, State.handOn_cell, ht]

/-- A post names the revolution, which the frame's leaving does not change. -/
theorem entry_leaveIntake (s : State) (code : ErrorCode) (head : Option HeadNo) (lane : Option Byte)
    (track cell : Option Nat) : entry s.leaveIntake code head lane track cell = entry s code head lane track cell := by
  unfold entry
  rw [State.leaveIntake_monitor]

/-- A CELL frame that is refused with a post and leaves every lane. -/
theorem cellFrame_posts {s : State} {body : List Byte} {code : ErrorCode} {head : Option HeadNo} {lane : Option Byte}
    {track : Option Nat} (hhead : s.rx.fifo.head? = some { kind := .cell, body := body })
    (ht : s.leaveIntake.takeCells body = s.leaveIntake.post code head lane track) :
    Completes (.cellFrame body) s fun t =>
      Takes s t (worksOf s) 0 [entry s code head lane track] .silent s.interp.syncs := by
  refine cellFrame_completes hhead ht (.post ..) ?_ (by simp)
  rw [← entry_leaveIntake]
  exact .post ..

/-- Settles O25: either body is refused with its post alone. -/
theorem cellFrameWithoutALaneIsRefused : Obligations.CellFrameWithoutALaneIsRefused := by
  refine fun s body hhead => ⟨fun hb => ?_, fun g hb hnone => ?_⟩
  · exact cellFrame_posts hhead (takeCells_malformed hb)
  · exact cellFrame_posts hhead (takeCells_noLane hb ((laneOf_leaveIntake s g.tag).trans (laneOf_eq_none hnone)))

section
variable (s : State) (h : HeadNo) (after : Lane)

theorem updLane_kept (f : Lane → Lane) : LinkKept s (s.updLane h f) := ⟨rfl, rfl, rfl, rfl, rfl, rfl, rfl⟩

theorem updLane_signals (f : Lane → Lane) : Signals s (s.updLane h f) 0 [] := .of_kept rfl rfl

/-- The works with an OPEN lane replaced, once the frame has left the FIFO. -/
theorem worksOf_updLane_leaveIntake {l : Lane} (hl : s.lanes[h] = some l) :
    worksOf (s.leaveIntake.updLane h fun _ => after) =
      { worksOf s with lanes := updAt s.lanes h fun _ => some after } := by
  have hlanes : (s.leaveIntake.updLane h fun _ => after).lanes = updAt s.lanes h fun _ => some after := by
    rw [← State.leaveIntake_lanes s] at hl ⊢
    refine bank_ext fun g => ?_
    rw [State.updLane_get, updAt_get, hl]
    rfl
  rw [← worksOf_leaveIntake s, ← hlanes]
  rfl

end

/-- Settles O26: the checks in the statement's words, and then one post or none beside the lane. -/
theorem segmentIsCheckedInOrder : Obligations.SegmentIsCheckedInOrder := by
  intro s body g h l hhead hb hl htag honly
  have hlane : s.leaveIntake.laneOf g.tag = some (h, l) := by
    rw [laneOf_leaveIntake, ← htag]
    exact laneOf_eq_some hl fun k m hm hmtag => honly k m hm (hmtag.trans htag)
  have hworks := fun after => worksOf_updLane_leaveIntake s h after hl
  cases hr : segmentRefusal l g with
  | none =>
    exact cellFrame_completes hhead (takeCells_accepted hb hlane hr) (updLane_kept ..) (updLane_signals ..) (hworks _)
  | some refusal =>
    obtain ⟨code, after⟩ := refusal
    refine cellFrame_completes hhead (takeCells_refused hb hlane hr) ((updLane_kept ..).trans (.post ..)) ?_ (hworks _)
    rw [← entry_leaveIntake]
    exact (updLane_signals ..).silent_trans (.post ..)

end Sys2Proof.Machine
end

