-- ==== Sys2Proof/Proofs/WorksOnly.lean ====
section
/-! SUPPORT. Actions on the works alone, which leave the link, the Interpreter, the Status Unit and the notice: the
replacement of a block of the works is one, and they chain. -/

namespace Sys2Proof.Machine

open Sys2Proof Sys2Proof.Claims

/-- Between two states the works alone change: not the link, the Interpreter, the Status Unit or the notice. -/
structure WorksOnly (s t : State) : Prop where
  link : LinkKept s t
  status : t.status = s.status
  notice : t.tx.notice = s.tx.notice

theorem WorksOnly.refl (s : State) : WorksOnly s s := ⟨.refl s, rfl, rfl⟩

theorem WorksOnly.trans {s t u : State} (h : WorksOnly s t) (k : WorksOnly t u) : WorksOnly s u :=
  ⟨h.link.trans k.link, k.status.trans h.status, k.notice.trans h.notice⟩

theorem WorksOnly.signals {s t : State} (h : WorksOnly s t) : Signals s t 0 [] := .of_kept h.status h.notice

section
variable {s t : State} (h : WorksOnly s t)
include h

theorem WorksOnly.setSeq (x : Sequencer) : WorksOnly s (t.setSeq x) :=
  h.trans ⟨⟨rfl, rfl, rfl, rfl, rfl, rfl, rfl⟩, rfl, rfl⟩

theorem WorksOnly.setMonitor (x : Monitor) : WorksOnly s (t.setMonitor x) :=
  h.trans ⟨⟨rfl, rfl, rfl, rfl, rfl, rfl, rfl⟩, rfl, rfl⟩

theorem WorksOnly.setLanes (x : PerHead (Option Lane)) : WorksOnly s (t.setLanes x) :=
  h.trans ⟨⟨rfl, rfl, rfl, rfl, rfl, rfl, rfl⟩, rfl, rfl⟩

theorem WorksOnly.setPorts (x : PerHead HeadPort) : WorksOnly s (t.setPorts x) :=
  h.trans ⟨⟨rfl, rfl, rfl, rfl, rfl, rfl, rfl⟩, rfl, rfl⟩

theorem WorksOnly.setTallies (x : PerHead Tally) : WorksOnly s (t.setTallies x) :=
  h.trans ⟨⟨rfl, rfl, rfl, rfl, rfl, rfl, rfl⟩, rfl, rfl⟩

theorem WorksOnly.setScreens (x : Vector ScreenSlot 8) : WorksOnly s (t.setScreens x) :=
  h.trans ⟨⟨rfl, rfl, rfl, rfl, rfl, rfl, rfl⟩, rfl, rfl⟩

theorem WorksOnly.setGrads (x : Vector GradSlot 16) : WorksOnly s (t.setGrads x) :=
  h.trans ⟨⟨rfl, rfl, rfl, rfl, rfl, rfl, rfl⟩, rfl, rfl⟩

theorem WorksOnly.setRoom (x : PerHead Bool) : WorksOnly s (t.setTx { t.tx with room := x }) :=
  h.trans ⟨⟨rfl, rfl, rfl, rfl, rfl, rfl, rfl⟩, rfl, rfl⟩

end

theorem setSeq_worksOnly (s : State) (q : Sequencer) : WorksOnly s (s.setSeq q) := (WorksOnly.refl s).setSeq q

theorem worksOf_setSeq (s : State) (q : Sequencer) : worksOf (s.setSeq q) = { worksOf s with seq := q } := rfl

end Sys2Proof.Machine
end

