-- ==== Sys2Proof/Proofs/IndexSteps.lean ====
section
/-! SUPPORT. The index of a running job with no slip (R114): which of its steps is taken, and what each does to the works,
posts and raises: the hold, the closing index, the repair revolution, the passing gate and the idle revolution (R116 to
R121). -/

namespace Sys2Proof.Machine

open Sys2Proof Sys2Proof.Claims

/-! ## Heads and lanes in the words of the statements -/

/-- A use that both slots of a lane are searched for, in the terms of the model's test of a lane. -/
theorem anySlot_eq_holds {f : TrackSlot → Bool} {u : SlotUse} {ok : Nat → Bool} (hf : ∀ t, f t = t.isIn u ok)
    (l : Option Lane) : (l.any fun l => [l.slot0, l.slot1].any f) = l.any fun l => l.holds u ok := by
  cases l with
  | none => rfl
  | some l => simp only [Option.any_some, List.any_cons, List.any_nil, Bool.or_false, Lane.holds, hf]

theorem holdsComplete_eq (l : Option Lane) (k : Nat) :
    holdsComplete l k = l.any fun l => l.holds .complete (· = k) := by
  refine anySlot_eq_holds (fun t => ?_) l
  cases t with
  | free => rfl
  | held u n cells => cases u <;> simp

theorem holdsRetained_eq (l : Option Lane) : holdsRetained l = l.any fun l => l.holds .retained fun _ => true := by
  refine anySlot_eq_holds (fun t => ?_) l
  cases t with
  | free => rfl
  | held u n cells => cases u <;> rfl

theorem nextComplete_eq (s : State) (h : HeadNo) :
    s.nextComplete h = holdsComplete s.lanes[h] s.seq.heads[h].next := by
  rw [holdsComplete_eq]
  unfold State.nextComplete
  cases s.lanes[h] <;> rfl

/-- The first head of which a test holds is the lowest-numbered one. -/
theorem find?_allHeads {back : HeadNo → Bool} {h : HeadNo} (hb : back h = true)
    (hlowest : ∀ g : HeadNo, g < h → back g = false) : allHeads.find? back = some h := by
  refine List.find?_eq_some_iff_getElem.mpr ⟨hb, h.val, by simp [allHeads], by simp [allHeads], fun j hj => ?_⟩
  rw [hlowest _ (by simpa [allHeads, Fin.lt_def] using hj)]
  rfl

/-! ## The state once the index is taken (R4, R6, R114) -/

section
variable (s : State)

theorem indexed_worksOnly : WorksOnly s (indexed s) := ⟨⟨rfl, rfl, rfl, rfl, rfl, rfl, rfl⟩, rfl, rfl⟩

theorem indexed_head (h : HeadNo) : (indexed s).seq.heads[h] = { s.seq.heads[h] with justCut := none } := mapAll_get ..

theorem waiting_indexed : (indexed s).waiting = isWaiting s :=
  funext fun h => by rw [State.waiting, indexed_head, isWaiting]

theorem cutting_indexed (h : HeadNo) : (indexed s).cutting h = s.cutting h := by
  rw [State.cutting, indexed_head]
  rfl

theorem awaitsRecut_indexed : (indexed s).awaitsRecut = wantsRecut s :=
  funext fun h => by rw [State.awaitsRecut, waiting_indexed, indexed_head, wantsRecut]

theorem holdsGate_indexed : (indexed s).holdsGate = gateFails s :=
  funext fun h => by rw [State.holdsGate, nextComplete_eq, waiting_indexed, indexed_head, gateFails]; rfl

end

/-- An INDEX of a running job with no slip is the Monitor's change, the clearing of the tracks just cut, and steps 2 to 5
(R114). -/
theorem takeIndex_running {s : State} (hx : RunningIndex s) : s.takeIndex = (indexed s).indexSteps := by
  obtain ⟨-, hr, hslip, -⟩ := hx
  have htaken : indexTaken s = s.setMonitor (indexMonitor s.monitor) := by
    rw [indexTaken, hslip]
    rfl
  rw [takeIndex_eq, hslip, htaken, State.seqIndex, if_pos (by exact hr)]
  rfl

/-- The event of an index of a running job, from what its steps do to the state once the index is taken. -/
theorem runningIndex_event {s t : State} {works : Works} {raised : BitVec 14} {posts : List ErrorEntry}
    (hx : RunningIndex s) (hsteps : (indexed s).indexSteps = t) (hw : worksOf t = works) (hl : LinkKept (indexed s) t)
    (hs : Signals (indexed s) t raised posts) : Completes .index s fun u => Event s u works raised posts := by
  obtain ⟨hexternal, -⟩ := id hx
  refine ⟨_, exec_index_external hexternal, ?_⟩
  rw [takeIndex_running hx, hsteps]
  exact event_of_action hw ((indexed_worksOnly s).link.trans hl) ((indexed_worksOnly s).signals.silent_trans hs)

/-! ## Which step is taken (R114) -/

section
variable (u : State)

theorem headAtWork_of_waiting {u : State} {h : HeadNo} (hw : u.waiting h = true) : u.headAtWork = true :=
  (allHeads_any _).mpr ⟨h, by rw [hw]; rfl⟩

theorem indexSteps_hold (hh : u.seq.hold = true) :
    u.indexSteps = u.setSeq { u.seq with state := .holding, hold := false } := if_pos hh

theorem indexSteps_close (hh : u.seq.hold = false) (hw : u.headAtWork = false) :
    u.indexSteps = u.endJob (if allHeads.any fun h => u.seq.heads[h].state = .faulted then .part else .complete) := by
  unfold State.indexSteps
  rw [hh, hw]
  rfl

theorem indexSteps_repair (hh : u.seq.hold = false) {h : HeadNo} (hr : u.awaitsRecut h = true) :
    u.indexSteps = u.repairStep := by
  have hany : allHeads.any u.awaitsRecut = true := (allHeads_any _).mpr ⟨h, hr⟩
  have hwaiting : u.waiting h = true := (Bool.and_eq_true_iff.mp hr).1
  unfold State.indexSteps
  rw [hh, headAtWork_of_waiting hwaiting, hany]
  rfl

theorem indexSteps_gate (hh : u.seq.hold = false) {h : HeadNo} (hw : u.waiting h = true)
    (hr : ∀ g, u.awaitsRecut g = false) :
    u.indexSteps = if u.gatePasses then u.passGate else u.idleRevolution u.holdsGate := by
  have hany : allHeads.any u.awaitsRecut = false := List.any_eq_false.mpr fun g _ => by
    rw [hr g]
    exact Bool.false_ne_true
  unfold State.indexSteps
  rw [hh, headAtWork_of_waiting hw, hany]
  rfl

theorem gatePasses_iff {u : State} : u.gatePasses = true ↔ ∀ h, u.holdsGate h = false := by
  simp only [State.gatePasses, allHeads_all, Bool.not_eq_true']

end

/-! ## The hold (R116) and the closing index (R117, R129) -/

/-- Settles O9: step 2 takes the index. -/
theorem holdRequestHoldsAtIndex : Obligations.HoldRequestHoldsAtIndex := fun s hx hh =>
  runningIndex_event hx (indexSteps_hold (indexed s) hh) (worksOf_setSeq ..) (setSeq_worksOnly ..).link
    (setSeq_worksOnly ..).signals

section
variable (s : State) (o : JobOutcome)

/-- The end of a job lifts the heads and ends the captures, then changes the works, and last raises JOB_ENDED (R129). -/
theorem endJob_eq_raise :
    ∃ t, WorksOnly ((s.liftHeads fun _ => true).endCaptures fun _ => true) t ∧ s.endJob o = t.raise .jobEnded :=
  ⟨_, ((((((WorksOnly.refl _).setSeq _).setSeq _).setLanes _).setRoom _).setScreens _).setGrads _, rfl⟩

theorem endJob_kept : LinkKept s (s.endJob o) := by
  obtain ⟨t, hreleased, hraised⟩ := endJob_eq_raise s o
  have hlifted : WorksOnly s (s.liftHeads fun _ => true) := (WorksOnly.refl s).setPorts _
  have hended := hlifted.link.trans (.changeCaptures _ (endCapture fun _ => true))
  rw [hraised]
  exact (hended.trans hreleased.link).trans (.raise ..)

/-- The end of a job raises JOB_ENDED and the bit of the captures that become FULL, and posts nothing (R129, R147). -/
theorem endJob_signals : Signals s (s.endJob o) (endedRaised s) [] := by
  obtain ⟨t, hreleased, hraised⟩ := endJob_eq_raise s o
  have hlifted : WorksOnly s (s.liftHeads fun _ => true) := (WorksOnly.refl s).setPorts _
  have hended := hlifted.signals.silent_trans (State.changeCaptures_signals _ (endCapture fun _ => true))
  rw [hraised, endedRaised, BitVec.or_comm]
  exact (hended.trans_silent hreleased.signals).trans (.raise ..)

end

/-- Settles O10: step 3 takes the index, and the outcome goes by the FAULTED heads. -/
theorem closingIndexEndsTheJob : Obligations.ClosingIndexEndsTheJob := by
  intro s hx hh hidle
  have hwork : (indexed s).headAtWork = false := List.any_eq_false.mpr fun h _ => by
    rw [waiting_indexed, cutting_indexed, (hidle h).1, (hidle h).2]
    exact Bool.false_ne_true
  have hfaulted : (allHeads.any fun h => decide ((indexed s).seq.heads[h].state = .faulted)) = true ↔
      ∃ h : HeadNo, s.seq.heads[h].state = .faulted := by
    simp only [allHeads_any, indexed_head, decide_eq_true_eq]
  have hclose := indexSteps_close (indexed s) hh hwork
  rw [if_congr hfaulted rfl rfl] at hclose
  exact runningIndex_event hx hclose (worksOf_endJob ..) (endJob_kept ..) (endJob_signals ..)

/-! ## Heads that start (R118, R120) -/

theorem startsFrom_worksOnly (u : State) (src : SlotUse) (heads : HeadNo → Bool) :
    WorksOnly u (startsFrom u src heads) :=
  ⟨⟨rfl, rfl, rfl, rfl, rfl, rfl, rfl⟩, rfl, rfl⟩

/-- The strikes at tick 0 in a state that the index has led to by changes of the works alone (R122). -/
theorem strikesAtIndex_event {s u t : State} (hx : RunningIndex s) (hu : WorksOnly (indexed s) u)
    (hm : u.markCounter = s.markCounter) (ht : WorksOnly (u.strikeAll 0) t) (hsteps : (indexed s).indexSteps = t)
    {works : Works} (hworks : u.markCounter ≤ 4294967295 → worksOf t = works) :
    Completes .index s fun v => Event s v works (struckRaised u 0) [] := by
  obtain ⟨-, -, -, hmark⟩ := id hx
  have hbound := hm.trans_le hmark
  exact runningIndex_event hx hsteps (hworks hbound) ((hu.link.trans (strikeAll_kept ..).link).trans ht.link)
    ((hu.signals.silent_trans (strikeAll_signals u 0 hbound)).trans_silent ht.signals)

/-- The repair step starts the heads that want a recut and have READY asserted, if there is one (R118). -/
theorem repairStep_starts {u : State} {h : HeadNo} (hr : u.awaitsRecut h = true) (hready : u.ports[h].ready = true) :
    u.repairStep = (startsFrom u .interrupted fun h => u.awaitsRecut h && u.ports[h].ready).strikeAll 0 := by
  have hany : (allHeads.any fun h => u.awaitsRecut h && u.ports[h].ready) = true :=
    (allHeads_any _).mpr ⟨h, by rw [hr, hready]; rfl⟩
  unfold State.repairStep
  rw [if_pos hany]
  exact startHeads_eq u _ true

/-- With no head that can start its recut the repair step is an idle revolution (R118). -/
theorem repairStep_idle {u : State} (hr : ∀ h, u.awaitsRecut h = true → u.ports[h].ready = false) :
    u.repairStep = u.idleRevolution u.awaitsRecut := by
  refine if_neg (Bool.not_eq_true _ ▸ List.any_eq_false.mpr fun h _ hboth => ?_)
  obtain ⟨hwants, hready⟩ := Bool.and_eq_true_iff.mp hboth
  rw [hr h hwants] at hready
  cases hready

/-- Settles O11: step 4 takes the index, and the heads that can start do. -/
theorem repairRevolutionStartsRecuts : Obligations.RepairRevolutionStartsRecuts := by
  intro s hx hh ⟨h, hwants, hready⟩
  have hawaits : (indexed s).awaitsRecut h = true := by rw [awaitsRecut_indexed, hwants]
  have hsteps := (indexSteps_repair (indexed s) hh hawaits).trans (repairStep_starts hawaits hready)
  rw [awaitsRecut_indexed] at hsteps
  exact strikesAtIndex_event hx (startsFrom_worksOnly ..) rfl (.refl _) hsteps (worksOf_strikeAll (repairStart s) 0)

/-! ## The passing gate (R99, R101, R120) -/

theorem Lane.release_eq : Lane.release = bothSlots releaseSlot := by
  have hslot : TrackSlot.release = releaseSlot := by
    funext t
    cases t with
    | free => rfl
    | held u k cells => cases u <;> rfl
  unfold Lane.release
  rw [hslot]
  rfl

theorem advance_eq (u : State) : u.advance = advanced u := by
  have hroom : (fun (h : HeadNo) (b : Bool) => b || holdsRetained u.lanes[h]) = fun h b => b || (match u.lanes[h] with
      | some l => l.holds .retained fun _ => true
      | none => false) := by
    funext h b
    rw [holdsRetained_eq]
    cases u.lanes[h] <;> rfl
  unfold State.advance advanced
  rw [hroom, Lane.release_eq]
  rfl

section
variable (u : State)

theorem advanced_worksOnly : WorksOnly u (advanced u) := by
  unfold advanced
  split
  · exact ⟨⟨rfl, rfl, rfl, rfl, rfl, rfl, rfl⟩, rfl, rfl⟩
  · exact .refl u

theorem advanced_markCounter : (advanced u).markCounter = u.markCounter := by
  unfold advanced
  split <;> rfl

/-- The consecutive idle count and STALLED cleared (R120). -/
def State.clearIdle : State := u.setSeq { u.seq with consecutiveIdle := 0, stalled := false }

theorem clearIdle_worksOnly : WorksOnly u u.clearIdle := setSeq_worksOnly ..

theorem worksOf_clearIdle :
    worksOf u.clearIdle =
      { worksOf u with seq := { (worksOf u).seq with consecutiveIdle := 0, stalled := false } } := rfl

theorem dueStrike_clearIdle : dueStrike u.clearIdle = dueStrike u := rfl

theorem marksStruck_clearIdle (tick : Nat) : marksStruck u.clearIdle tick = marksStruck u tick := by
  rw [marksStruck, dueStrike_clearIdle, marksStruck]

theorem wraps_clearIdle (tick : Nat) : wraps u.clearIdle tick = wraps u tick := by
  rw [wraps, marksStruck_clearIdle]
  rfl

/-- No strike reads what the passing gate clears: clearing it before the strikes or after them leaves the same works. -/
theorem struckWorks_clearIdle (tick : Nat) :
    struckWorks u.clearIdle tick =
      { struckWorks u tick with
        seq := { (struckWorks u tick).seq with consecutiveIdle := 0, stalled := false } } := by
  unfold struckWorks
  rw [dueStrike_clearIdle, wraps_clearIdle, marksStruck_clearIdle]
  rfl

theorem struckRaised_clearIdle (tick : Nat) : struckRaised u.clearIdle tick = struckRaised u tick := by
  unfold struckRaised
  rw [dueStrike_clearIdle, wraps_clearIdle]
  rfl

theorem worksOf_clearIdle_strikeAll (tick : Nat) (hm : u.markCounter ≤ 4294967295) :
    worksOf (u.strikeAll tick).clearIdle = struckWorks u.clearIdle tick := by
  rw [worksOf_clearIdle, worksOf_strikeAll u tick hm, struckWorks_clearIdle]

theorem passGate_eq :
    u.passGate = ((startsFrom (advanced u) .complete u.waiting).strikeAll 0).clearIdle := by
  unfold State.passGate
  rw [advance_eq, startHeads_eq, show startSource false = .complete from rfl]
  generalize (startsFrom (advanced u) .complete u.waiting).strikeAll 0 = struck
  rfl

end

/-- Settles O12: step 5 takes the index, and the gate passes. -/
theorem passingGateAdvancesAndStarts : Obligations.PassingGateAdvancesAndStarts := by
  intro s hx hh ⟨⟨h, hw⟩, hgate⟩
  have hwaiting : (indexed s).waiting h = true := by rw [waiting_indexed, hw]
  have hrecut : ∀ g, (indexed s).awaitsRecut g = false := fun g => by rw [awaitsRecut_indexed, (hgate g).1]
  have hpasses : (indexed s).gatePasses = true := gatePasses_iff.mpr fun g => by rw [holdsGate_indexed, (hgate g).2]
  have hsteps := (indexSteps_gate (indexed s) hh hwaiting hrecut).trans ((if_pos hpasses).trans (passGate_eq _))
  rw [waiting_indexed] at hsteps
  have hstart : gateStart s = (startsFrom (advanced (indexed s)) .complete (isWaiting s)).clearIdle := rfl
  rw [hstart, struckRaised_clearIdle]
  exact strikesAtIndex_event hx ((advanced_worksOnly _).trans (startsFrom_worksOnly ..)) (advanced_markCounter _)
    (clearIdle_worksOnly _) hsteps (worksOf_clearIdle_strikeAll _ 0)

/-! ## The idle revolution (R121) -/

/-- An idle revolution: the Sequencer counts, and one STALL entry names the lowest-numbered head that held the revolution
back if the stall limit is reached. -/
theorem idleRevolution_eq {u : State} {back : HeadNo → Bool} {h : HeadNo} (hfind : allHeads.find? back = some h) :
    u.idleRevolution back =
      if reachesStall u then
        (u.setSeq (idleWorks u).seq).post .stall (some h) (u.seq.plan[h].map PlanEntry.tag) (some u.seq.heads[h].next)
      else u.setSeq (idleWorks u).seq := by
  by_cases hstall : u.seq.job.stallLimit ≠ 0 ∧ min 4294967295 (u.seq.consecutiveIdle + 1) = u.seq.job.stallLimit
  · have hreaches : reachesStall u = true := decide_eq_true hstall
    have hseq : (idleWorks u).seq = { u.seq with
        idle := satAdd Config.max32 u.seq.idle 1, consecutiveIdle := satAdd Config.max32 u.seq.consecutiveIdle 1
        stalled := true } := by
      unfold idleWorks
      simp only [decide_eq_true hstall, Bool.or_true]
      rfl
    unfold State.idleRevolution
    rw [hreaches, hseq, hfind]
    exact if_pos hstall
  · have hreaches : reachesStall u = false := decide_eq_false hstall
    have hseq : (idleWorks u).seq = { u.seq with
        idle := satAdd Config.max32 u.seq.idle 1, consecutiveIdle := satAdd Config.max32 u.seq.consecutiveIdle 1 } := by
      unfold idleWorks
      simp only [decide_eq_false hstall, Bool.or_false]
      rfl
    unfold State.idleRevolution
    rw [hreaches, hseq]
    exact if_neg hstall

/-- The index of an idle revolution, by the heads that hold it back (R121). -/
theorem idleRevolution_event {s : State} {back : HeadNo → Bool} {h : HeadNo} (hx : RunningIndex s)
    (hsteps : (indexed s).indexSteps = (indexed s).idleRevolution back) (hb : back h = true)
    (hlowest : ∀ g : HeadNo, g < h → back g = false) :
    Completes .index s fun t =>
      Event s t (idleWorks (indexed s)) 0 (if reachesStall s then [stallEntry (indexed s) h] else []) := by
  have hcounted := setSeq_worksOnly (indexed s) (idleWorks (indexed s)).seq
  have hreaches : reachesStall (indexed s) = reachesStall s := rfl
  rw [idleRevolution_eq (find?_allHeads hb hlowest), hreaches] at hsteps
  split
  · next hr =>
    rw [if_pos hr] at hsteps
    exact runningIndex_event hx hsteps rfl (hcounted.link.trans (.post ..))
      (hcounted.signals.silent_trans (.post ..))
  · next hr =>
    rw [if_neg hr] at hsteps
    exact runningIndex_event hx hsteps rfl hcounted.link hcounted.signals

/-- The INDEX at which STALLED rises, under the name STALL (R121). -/
theorem stall_of_index {s : State} {h : HeadNo} (hr : reachesStall s = true) (hclear : s.seq.stalled = false)
    (hindex : Completes .index s fun t =>
      Event s t (idleWorks (indexed s)) 0 (if reachesStall s then [stallEntry (indexed s) h] else [])) :
    Completes (.stall .index) s fun t =>
      exec .index s = .next t ∧ t.seq.stalled = true ∧
      Event s t (idleWorks (indexed s)) 0 [stallEntry (indexed s) h] := by
  obtain ⟨t, ht, hevent⟩ := hindex
  rw [if_pos hr] at hevent
  have hposition : s.takePosition .index = t := Host.Outcome.next.inj ((exec_positionCommand .index s).symm.trans ht)
  have hworks : worksOf t = idleWorks (indexed s) := hevent.1
  have hstalled : t.seq.stalled = true := by
    have hrises : (idleWorks (indexed s)).seq.stalled = (s.seq.stalled || reachesStall s) := rfl
    rw [show t.seq.stalled = (idleWorks (indexed s)).seq.stalled from congrArg (·.seq.stalled) hworks, hrises, hr,
      Bool.or_true]
  refine ⟨t, ?_, ht, hstalled, hevent⟩
  rw [exec_stall, hposition, if_pos ⟨hclear, hstalled⟩]

/-- Settles O13: at the gate or at the repair step the revolution is idle, and its INDEX may be named STALL. -/
theorem idleRevolutionCountsAndStalls : Obligations.IdleRevolutionCountsAndStalls := by
  intro s h hx hh hback
  have hindex : Completes .index s fun t =>
      Event s t (idleWorks (indexed s)) 0 (if reachesStall s then [stallEntry (indexed s) h] else []) := by
    obtain ⟨hrecut, hfails, hlowest⟩ | ⟨hready, hwants, hlowest⟩ := hback
    · have hwaiting : (indexed s).waiting h = true := by
        rw [waiting_indexed]
        exact (Bool.and_eq_true_iff.mp hfails).1
      have hblocked : ¬ (indexed s).gatePasses = true := fun hpasses => by
        have hholds := gatePasses_iff.mp hpasses h
        rw [holdsGate_indexed, hfails] at hholds
        cases hholds
      have hsteps := (indexSteps_gate (indexed s) hh hwaiting fun g => by rw [awaitsRecut_indexed, hrecut g]).trans
        (if_neg hblocked)
      rw [holdsGate_indexed] at hsteps
      exact idleRevolution_event hx hsteps hfails hlowest
    · have hawaits : (indexed s).awaitsRecut h = true := by rw [awaitsRecut_indexed, hwants]
      have hsteps := (indexSteps_repair (indexed s) hh hawaits).trans (repairStep_idle fun g hg => by
        rw [awaitsRecut_indexed] at hg
        exact hready g hg)
      rw [awaitsRecut_indexed] at hsteps
      exact idleRevolution_event hx hsteps hwants hlowest
  exact ⟨hindex, fun hr hclear => stall_of_index hr hclear hindex⟩

end Sys2Proof.Machine
end

