-- ==== Sys2Proof/Proofs/JobRecords.lean ====
section
/-! SUPPORT. The records of the Track Sequencer but ARM: SET JOB, PLAN HEAD, CLEAR PLAN, START, HOLD, RESUME and ABORT
(R104, R106, R107, R112, R126, R127, R130). -/

namespace Sys2Proof.Machine

open Sys2Proof Sys2Proof.Claims

/-! ## Job records at the head of the FIFO -/

theorem active_iff_jobInHand (s : State) : s.seq.state.active = true ↔ jobInHand s := by
  unfold jobInHand
  cases s.seq.state <;> simp [JobState.active]

theorem worksOf_setSeq_leaveIntake (s : State) (q : Sequencer) : worksOf (s.leaveIntake.setSeq q) = withSeq s q := by
  rw [worksOf_setSeq, worksOf_leaveIntake, withSeq]

/-- A record whose rule writes the Track Sequencer, and nothing else, Succeeds. -/
theorem setSeq_succeeds {s : State} {k : RecordKind} {h : Header} {p : List Byte} (ha : AtHead s k h p) (hk : k ≠ .reset)
    (hlen : k.lengthOk p = true) (q : Sequencer)
    (hrule : ruleOf k h p s.leaveIntake = .ok (s.leaveIntake.setSeq q)) :
    Completes (k.command h p) s fun t => Succeeds s t (withSeq s q) k h := by
  rw [← worksOf_setSeq_leaveIntake]
  exact succeeds_atHead ha hk hlen hrule (setSeq_worksOnly ..).link (setSeq_worksOnly ..).signals

/-- A record that writes the Track Sequencer while no job is in hand: WRONG_STATE with one, and otherwise the writing. -/
theorem outsideJob_completes {s : State} {k : RecordKind} {h : Header} {p : List Byte} (ha : AtHead s k h p)
    (hk : k ≠ .reset) (hlen : k.lengthOk p = true) (write : Sequencer → Sequencer)
    (hrule : ruleOf k h p s.leaveIntake =
      if s.leaveIntake.seq.state.active then .refuse .wrongState
      else .ok (s.leaveIntake.setSeq (write s.leaveIntake.seq))) :
    (jobInHand s → Completes (k.command h p) s fun t => Refused s t k.code h .wrongState) ∧
    (¬ jobInHand s → Completes (k.command h p) s fun t => Succeeds s t (withSeq s (write s.seq)) k h) := by
  rw [State.leaveIntake_seq] at hrule
  refine ⟨fun hj => ?_, fun hj => ?_⟩
  · rw [if_pos ((active_iff_jobInHand s).mpr hj)] at hrule
    exact refused_atHead ha hk hlen hrule
  · rw [if_neg (mt (active_iff_jobInHand s).mp hj)] at hrule
    exact setSeq_succeeds ha hk hlen _ hrule

/-! ## SET JOB, PLAN HEAD and CLEAR PLAN (R103 to R107) -/

/-- SET JOB's operands are in range exactly as R103 says, and then are the job record that R104 writes. -/
theorem setJobOperands_iff {p : List Byte} {j : JobRecord} : setJobOperands p = some j ↔ jobOk p ∧ j = jobIn p := by
  have hflag : ∀ v : Nat, v ≤ 1 → (if v = 0 then false else true) = decide (v = 1) := by decide
  simp only [setJobOperands, Option.bind_eq_bind, Option.bind_eq_some_iff, guardIn_eq_some, codeOf_eq_some,
    decide_eq_true_eq, Option.some.injEq]
  constructor
  · rintro ⟨_, ⟨hmode, rfl⟩, _, ⟨hsource, rfl⟩, _, ⟨he, rfl⟩, _, ⟨hperiod, rfl⟩, _, ⟨hpolicy, rfl⟩, _, ⟨htally, rfl⟩, _,
      ⟨hstop, rfl⟩, rfl⟩
    exact ⟨⟨hmode, hsource, he.1, he.2, hperiod, hpolicy, htally, hstop⟩, by rw [jobIn, hflag _ hstop]⟩
  · rintro ⟨⟨hmode, hsource, hmin, hmax, hperiod, hpolicy, htally, hstop⟩, rfl⟩
    exact ⟨_, ⟨hmode, rfl⟩, _, ⟨hsource, rfl⟩, _, ⟨⟨hmin, hmax⟩, rfl⟩, _, ⟨hperiod, rfl⟩, _, ⟨hpolicy, rfl⟩, _,
      ⟨htally, rfl⟩, _, ⟨hstop, rfl⟩, by rw [jobIn, hflag _ hstop]⟩

theorem setJobOperands_none {p : List Byte} (hn : ¬ jobOk p) : setJobOperands p = none :=
  Option.eq_none_iff_forall_not_mem.mpr fun _ hj => hn (setJobOperands_iff.mp hj).1

/-- The plan entry that PLAN HEAD's parameters carry, given its two slots (R105, R186). -/
def planEntryIn (p : List Byte) (screen : Fin 8) (grad : Fin 16) : PlanEntry :=
  { tag := p.getD 1 0, screen := screen, grad := grad, repeats := u8At p 4, tracks := u16At p 5 }

/-- PLAN HEAD's operands are in range exactly as R105 says, and then name the head and its plan entry. -/
theorem planHeadOperands_iff {p : List Byte} {head : HeadNo} {e : PlanEntry} :
    planHeadOperands p = some (head, e) ↔
      planOk p ∧ u8At p 0 = head.val ∧ u8At p 2 = e.screen.val ∧ u8At p 3 = e.grad.val ∧
        e = planEntryIn p e.screen e.grad := by
  simp only [planHeadOperands, Option.bind_eq_bind, Option.bind_eq_some_iff, guardIn_eq_some, finOf_eq,
    decide_eq_true_eq, Option.some.injEq, Prod.mk.injEq]
  constructor
  · rintro ⟨_, hhead, _, hscreen, _, hgrad, _, ⟨hrepeats, rfl⟩, _, ⟨htracks, rfl⟩, rfl, rfl⟩
    exact ⟨⟨by omega, by omega, by omega, hrepeats.1, hrepeats.2, htracks⟩, hhead, hscreen, hgrad, rfl⟩
  · rintro ⟨⟨-, -, -, hmin, hmax, htracks⟩, hhead, hscreen, hgrad, he⟩
    exact ⟨head, hhead, e.screen, hscreen, e.grad, hgrad, _, ⟨⟨hmin, hmax⟩, rfl⟩, _, ⟨htracks, rfl⟩, rfl, he.symm⟩

theorem planHeadOperands_none {p : List Byte} (hn : ¬ planOk p) : planHeadOperands p = none :=
  Option.eq_none_iff_forall_not_mem.mpr fun _ he => hn (planHeadOperands_iff.mp he).1

theorem selectorOperand_none {p : List Byte} (hmin : 8 ≤ u8At p 0) (hall : u8At p 0 ≠ 255) :
    selectorOperand p = none := by
  rw [selectorOperand, if_neg hall, finOf_none.mpr hmin, Option.map_none]

/-- CLEAR PLAN's selector names one head or all, and clears the entries that R107 says. -/
theorem selectorOperand_some {p : List Byte} (hsel : u8At p 0 < 8 ∨ u8At p 0 = 255) :
    ∃ sel, selectorOperand p = some sel ∧ ∀ plan, clearedPlan plan sel =
      mapAll (fun g x => if u8At p 0 = 255 ∨ u8At p 0 = g.val then none else x) plan := by
  by_cases hall : u8At p 0 = 255
  · refine ⟨.all, if_pos hall, fun plan => bank_ext fun g => ?_⟩
    rw [clearedPlan, mapAll_get, mapAll_get, if_pos (.inl hall)]
  · have hlt : u8At p 0 < 8 := hsel.resolve_right hall
    refine ⟨.one ⟨u8At p 0, hlt⟩, ?_, fun plan => bank_ext fun g => ?_⟩
    · rw [selectorOperand, if_neg hall, (finOf_eq ⟨u8At p 0, hlt⟩).mpr rfl, Option.map_some]
    · have hnamed : (u8At p 0 = 255 ∨ u8At p 0 = g.val) ↔ g = ⟨u8At p 0, hlt⟩ := by
        rw [or_iff_right hall, Fin.ext_iff, eq_comm]
      rw [clearedPlan, updAt_get, mapAll_get, if_congr hnamed rfl rfl]

section
variable {s : State} {h : Header} {p : List Byte}

/-- SET JOB in range: the check of the job state, and the job record replaced (R104). -/
theorem setJob_completes (hlen : p.length = 12) (ha : AtHead s .setJob h p) (hok : jobOk p) :
    (jobInHand s → Completes (.setJob h p) s fun t => Refused s t 0x20 h .wrongState) ∧
    (¬ jobInHand s → Completes (.setJob h p) s fun t =>
      Succeeds s t (withSeq s { s.seq with job := jobIn p }) .setJob h) := by
  refine outsideJob_completes ha (by decide) (decide_eq_true hlen) (fun q => { q with job := jobIn p }) ?_
  show ruleSetJob p s.leaveIntake = _
  rw [ruleSetJob, setJobOperands_iff.mpr ⟨hok, rfl⟩, withOperands_some]

/-- PLAN HEAD in range: the check of the job state, and the head's plan entry replaced (R106). -/
theorem planHead_completes (hlen : p.length = 7) (ha : AtHead s .planHead h p) (hok : planOk p) {head screen : Fin 8}
    {grad : Fin 16} (hhead : u8At p 0 = head.val) (hscreen : u8At p 2 = screen.val) (hgrad : u8At p 3 = grad.val) :
    (jobInHand s → Completes (.planHead h p) s fun t => Refused s t 0x21 h .wrongState) ∧
    (¬ jobInHand s → Completes (.planHead h p) s fun t =>
      Succeeds s t (withSeq s { s.seq with plan := updAt s.seq.plan head fun _ => some (planEntryIn p screen grad) })
        .planHead h) := by
  refine outsideJob_completes ha (by decide) (decide_eq_true hlen)
    (fun q => { q with plan := updAt q.plan head fun _ => some (planEntryIn p screen grad) }) ?_
  have hoperands : planHeadOperands p = some (head, planEntryIn p screen grad) :=
    planHeadOperands_iff.mpr ⟨hok, hhead, hscreen, hgrad, rfl⟩
  show rulePlanHead p s.leaveIntake = _
  rw [rulePlanHead, hoperands, withOperands_some]

/-- CLEAR PLAN in range: the check of the job state, and the named entries cleared (R107). -/
theorem clearPlan_completes (hlen : p.length = 1) (ha : AtHead s .clearPlan h p) (hsel : u8At p 0 < 8 ∨ u8At p 0 = 255) :
    (jobInHand s → Completes (.clearPlan h p) s fun t => Refused s t 0x22 h .wrongState) ∧
    (¬ jobInHand s → Completes (.clearPlan h p) s fun t =>
      Succeeds s t (withSeq s { s.seq with plan := mapAll (fun g x =>
        if u8At p 0 = 255 ∨ u8At p 0 = g.val then none else x) s.seq.plan }) .clearPlan h) := by
  obtain ⟨sel, hoperand, hcleared⟩ := selectorOperand_some hsel
  refine outsideJob_completes ha (by decide) (decide_eq_true hlen) (fun q =>
    { q with plan := mapAll (fun g x => if u8At p 0 = 255 ∨ u8At p 0 = g.val then none else x) q.plan }) ?_
  show ruleClearPlan p s.leaveIntake = _
  rw [ruleClearPlan, hoperand, withOperands_some, hcleared]

end

/-- Settles O39: for each record the operands in range or refused, and then the check of the job state. -/
theorem jobAndPlanRecordsWriteWhole : Obligations.JobAndPlanRecordsWriteWhole := by
  refine fun s h p => ⟨fun hlen ha => ⟨fun hn => ?_, fun hok => (setJob_completes hlen ha hok).1,
      fun hok => (setJob_completes hlen ha hok).2⟩,
    fun hlen ha => ⟨fun hn => ?_, fun hok => ?_, fun hok hj head screen grad hhead hscreen hgrad => ?_⟩,
    fun hlen ha => ⟨fun hmin hall => ?_, fun hsel => (clearPlan_completes hlen ha hsel).1,
      fun hsel => (clearPlan_completes hlen ha hsel).2⟩⟩
  · refine refused_atHead ha (by decide) (decide_eq_true hlen) ?_
    show ruleSetJob p s.leaveIntake = _
    rw [ruleSetJob, setJobOperands_none hn, withOperands_none]
  · refine refused_atHead ha (by decide) (decide_eq_true hlen) ?_
    show rulePlanHead p s.leaveIntake = _
    rw [rulePlanHead, planHeadOperands_none hn, withOperands_none]
  · obtain ⟨hhead, hscreen, hgrad, -⟩ := id hok
    exact (planHead_completes hlen ha hok (head := ⟨_, hhead⟩) (screen := ⟨_, hscreen⟩) (grad := ⟨_, hgrad⟩)
      rfl rfl rfl).1
  · exact (planHead_completes hlen ha hok hhead hscreen hgrad).2 hj
  · refine refused_atHead ha (by decide) (decide_eq_true hlen) ?_
    show ruleClearPlan p s.leaveIntake = _
    rw [ruleClearPlan, selectorOperand_none hmin hall, withOperands_none]

/-! ## START and HOLD (R112, R126) -/

/-- The items of a head at START (R112). -/
def HeadItems.started (i : HeadItems) : HeadItems := if i.state = .armed then { i with state := .waiting } else i

theorem ruleStart_eq (t : State) :
    ruleStart t =
      if t.seq.state ≠ .armed then .refuse .wrongState
      else .ok (t.setSeq { t.seq with state := .running, heads := mapAll (fun _ => HeadItems.started) t.seq.heads }) := by
  have hitems : (fun (_ : HeadNo) (i : HeadItems) =>
      { i with state := if i.state = .armed then .waiting else i.state }) = fun _ => HeadItems.started := by
    funext _ i
    unfold HeadItems.started
    split <;> rfl
  unfold ruleStart
  rw [hitems]
  rfl

/-- HOLD sets the hold request of a RUNNING job (R126). -/
theorem ruleHold_running {t : State} (hr : t.seq.state = .running) :
    ruleHold t = .ok (t.setSeq { t.seq with hold := true }) := by
  unfold ruleHold
  rw [hr]
  rfl

theorem ruleHold_holding {t : State} (hr : t.seq.state = .holding) : ruleHold t = .ok t := by
  unfold ruleHold
  rw [hr]

theorem ruleHold_refused {t : State} (hr : t.seq.state ≠ .running) (hh : t.seq.state ≠ .holding) :
    ruleHold t = .refuse .wrongState := by
  unfold ruleHold
  split
  · next h => exact absurd h hr
  · next h => exact absurd h hh
  · rfl

/-- Settles O41: START by its check of an ARMED job, HOLD by the job state. -/
theorem startAndHold : Obligations.StartAndHold := by
  refine fun s h => ⟨fun ha => ?_, fun ha => ?_⟩
  · have hrule := ruleStart_eq s.leaveIntake
    rw [State.leaveIntake_seq] at hrule
    have hstarted := checkedRecord_completes ha (by decide) rfl hrule (setSeq_worksOnly ..).link
      (setSeq_worksOnly ..).signals (worksOf_setSeq_leaveIntake ..)
    simp only [ite_not] at hstarted
    exact hstarted
  · have hseq := congrArg Sequencer.state (State.leaveIntake_seq s)
    by_cases hr : s.seq.state = .running
    · simp only [if_pos hr]
      have hrule := ruleHold_running (hseq.trans hr)
      rw [State.leaveIntake_seq] at hrule
      exact setSeq_succeeds ha (by decide) rfl _ hrule
    by_cases hh : s.seq.state = .holding
    · simp only [if_neg hr, if_pos hh]
      rw [← worksOf_leaveIntake]
      exact succeeds_atHead ha (by decide) rfl (ruleHold_holding (hseq.trans hh)) (.refl _) (.refl _)
    · simp only [if_neg hr, if_neg hh]
      exact refused_atHead ha (by decide) rfl (ruleHold_refused (hseq ▸ hr) (hseq ▸ hh))

/-! ## RESUME (R97, R127) -/

theorem holdsInterrupted_eq (l : Option Lane) :
    holdsInterrupted l = l.any fun l => l.holds .interrupted fun _ => true := by
  refine anySlot_eq_holds (fun t => ?_) l
  cases t with
  | free => rfl
  | held u n cells => cases u <;> rfl

theorem Lane.discard_eq : Lane.discard = bothSlots (slotTo .interrupted .retained fun _ => true) :=
  funext fun l => (bothSlots_move _ _ _ l).symm

/-- The works after DISCARD in a job that runs again are those of `Claims.discardedWorks`. -/
theorem worksOf_resumed_discardTracks (s : State) : worksOf s.resumed.discardTracks = discardedWorks s := by
  have hturned : (fun h : HeadNo => s.seq.heads[h].interrupted && (match s.lanes[h] with
      | some l => l.holds .interrupted fun _ => true
      | none => false)) = fun h => s.seq.heads[h].interrupted && holdsInterrupted s.lanes[h] := by
    funext h
    rw [holdsInterrupted_eq]
    cases s.lanes[h] <;> rfl
  unfold discardedWorks
  rw [← hturned, ← Lane.discard_eq]
  rfl

theorem discardedWorks_leaveIntake (s : State) : discardedWorks s.leaveIntake = discardedWorks s := by
  rw [State.leaveIntake_eq]
  split <;> rfl

/-- RESUME's effect by its option (R127). -/
def State.resumeBy (s : State) : ResumeOption → State
  | .repair => s.resumed
  | .discard => s.resumed.discardTracks

theorem resumeBy_worksOnly (s : State) (o : ResumeOption) : WorksOnly s (s.resumeBy o) := by
  have hresumed : WorksOnly s s.resumed := setSeq_worksOnly ..
  cases o with
  | repair => exact hresumed
  | discard => exact ((hresumed.setLanes _).setSeq _).setSeq _

theorem worksOf_resumeBy_leaveIntake (s : State) {p : List Byte} :
    worksOf (s.leaveIntake.resumeBy (if u8At p 0 = 0 then .repair else .discard)) =
      if u8At p 0 = 0 then withSeq s { s.seq with state := .running, hold := false } else discardedWorks s := by
  split
  · rw [State.resumeBy, State.resumed, worksOf_setSeq_leaveIntake, State.leaveIntake_seq]
  · rw [State.resumeBy, worksOf_resumed_discardTracks, discardedWorks_leaveIntake]

theorem runningOrHolding_iff (j : JobState) : j.runningOrHolding = true ↔ j = .running ∨ j = .holding := by
  cases j <;> simp [JobState.runningOrHolding]

theorem ruleResume_eq {p : List Byte} (hopt : u8At p 0 ≤ 1) (t : State) :
    ruleResume p t =
      if ¬ (t.seq.state = .running ∨ t.seq.state = .holding) then .refuse .wrongState
      else .ok (t.resumeBy (if u8At p 0 = 0 then .repair else .discard)) := by
  rw [ruleResume, resumeOperand, codeOf_some _ _ _ hopt, withOperands_some, ite_not,
    if_congr (runningOrHolding_iff _) rfl rfl]
  rfl

/-- Settles O42: the option in range or refused, the check of the job state, and each option's works. -/
theorem resumeRunsTheJobAgain : Obligations.ResumeRunsTheJobAgain := by
  refine fun s h p hlen ha => ⟨fun hn => ?_, fun hopt => ?_⟩
  · refine refused_atHead ha (by decide) (decide_eq_true hlen) ?_
    show ruleResume p s.leaveIntake = _
    rw [ruleResume, resumeOperand, (codeOf_none _ _ _).mpr hn, withOperands_none]
  · have hrule := ruleResume_eq hopt s.leaveIntake
    rw [State.leaveIntake_seq] at hrule
    have hresumed := checkedRecord_completes ha (by decide) (decide_eq_true hlen) hrule (resumeBy_worksOnly ..).link
      (resumeBy_worksOnly ..).signals (worksOf_resumeBy_leaveIntake s)
    simp only [ite_not] at hresumed
    exact hresumed

/-! ## ABORT (R129, R130) -/

/-- A record whose rule succeeds at the head of the FIFO, and raises one-shot events. -/
theorem raises_atHead {s t : State} {k : RecordKind} {h : Header} {p : List Byte} (ha : AtHead s k h p) (hk : k ≠ .reset)
    (hlen : k.lengthOk p = true) {raised : BitVec 14} (hrule : ruleOf k h p s.leaveIntake = .ok t)
    (hl : LinkKept s.leaveIntake t) (hs : Signals s.leaveIntake t raised []) :
    Completes (k.command h p) s fun u =>
      Takes s u (worksOf t) raised [] (successReply k h) s.interp.syncs := by
  refine ⟨_, exec_atHead ha hk hlen, ?_⟩
  have hsignals : Signals s t raised [] := (leaveIntake_signals s).silent_trans hs
  rw [hrule, Verdict.ok, Verdict.conclude_done]
  unfold successReply
  split
  · exact ⟨by simp, leavesAndReplies_result hl _, (hsignals.trans_silent (answer_signals _ _)).posts⟩
  · exact ⟨rfl, leavesAndReplies_silent hl, hsignals.posts⟩

/-- Settles O43: the check of the job state, and the end of the job. -/
theorem abortEndsTheJob : Obligations.AbortEndsTheJob := by
  refine fun s h ha => ⟨fun hj => ?_, fun hj => ?_⟩
  · refine refused_atHead ha (by decide) rfl ?_
    show ruleAbort s.leaveIntake = _
    rw [ruleAbort, State.leaveIntake_seq, if_neg (mt (active_iff_jobInHand s).mp hj)]
    rfl
  · have hrule : ruleOf .abort h [] s.leaveIntake = .ok (s.leaveIntake.endJob .aborted) := by
      show ruleAbort s.leaveIntake = _
      rw [ruleAbort, State.leaveIntake_seq, if_pos ((active_iff_jobInHand s).mpr hj)]
    have hraised : endedRaised s.leaveIntake = endedRaised s := by
      rw [endedRaised, State.leaveIntake_captures, endedRaised]
    have hended := raises_atHead ha (by decide) rfl hrule (endJob_kept ..) (endJob_signals ..)
    rw [worksOf_endJob, worksOf_leaveIntake, hraised] at hended
    exact hended

end Sys2Proof.Machine
end

