-- ==== Sys2Proof/Proofs/ArmRecord.lean ====
section
/-! SUPPORT. ARM (R110, R111): the conditions on the plan in the order of the table of R110, and the works that an accepted
ARM leaves. -/

namespace Sys2Proof.Machine

open Sys2Proof Sys2Proof.Claims

/-! ## The conditions of R110 -/

/-- Condition 3a: no planned head of lower number carries the same lane tag. -/
theorem duplicateTag_eq (s : State) (h : HeadNo) (e : PlanEntry) :
    (allHeads.all fun g => !(decide (g < h) && decide (s.seq.plan[g].map PlanEntry.tag = some e.tag))) =
      !s.duplicateTag h e := by
  rw [State.duplicateTag, List.not_any_eq_all_not]
  simp only [Bool.decide_and]

/-- The first of the conditions 3a to 3g that a planned head fails is the one that the model reports, with its code. -/
theorem armChecks_find? (s : State) (h : HeadNo) (e : PlanEntry) :
    (armChecks s h e).find? (fun c => !c.1) = (s.headPlanFault h e).map fun f => (false, f.code) := by
  unfold armChecks State.headPlanFault
  rw [duplicateTag_eq]
  cases s.duplicateTag h e with
  | true => rfl
  | false =>
  cases s.ports[h].calibrated with
  | false => rfl
  | true =>
  cases s.screens[e.screen].screen with
  | none => rfl
  | some x =>
  cases s.grads[e.grad].table with
  | empty => rfl
  | expanding => rfl
  | ready depths =>
  by_cases hdense : s.seq.job.e < 2 * x.cells
  · simp [hdense, PlanFault.code]
  by_cases hrepeat : x.cells % e.repeats = 0
  · cases s.ports[h].alarm <;> simp [hdense, hrepeat, PlanFault.code]
  · simp [hdense, hrepeat, PlanFault.code]

/-- The head that a plan fault names, or 255 (R187). -/
def faultHead (f : PlanFault × Option HeadNo) : Nat := (f.2.map Fin.val).getD 255

theorem planFaultPayload_eq (f : PlanFault × Option HeadNo) :
    planFaultPayload f = code1 f.1.code ++ code1 (faultHead f) := by
  obtain ⟨reason, head⟩ := f
  cases head <;> rfl

/-- The plan fault of one head's entry, if it is planned and fails a condition (R110). -/
def State.entryFault (s : State) (h : HeadNo) : Option (PlanFault × Option HeadNo) :=
  s.seq.plan[h].bind fun e => (s.headPlanFault h e).map fun f => (f, some h)

/-- Conditions 1 and 2 of R110 on the whole plan, and then those on each planned head in turn. -/
theorem planFault_eq (s : State) :
    s.planFault =
      if (allHeads.any fun h => s.seq.plan[h].isSome) = false then some (.noHead, none)
      else if (decide (s.seq.job.source = .external) || decide (s.seq.job.mode = .dry)) = false then
        some (.internalCut, none)
      else allHeads.findSome? s.entryFault := by
  have hempty : (allHeads.all fun h => s.seq.plan[h].isNone) = true ↔
      (allHeads.any fun h => s.seq.plan[h].isSome) = false := by
    simp only [List.all_eq_true, List.any_eq_false, Option.isNone_iff_eq_none, Option.isSome_iff_ne_none, not_not]
  have hinternal : (s.seq.job.source = .internal ∧ s.seq.job.mode ≠ .dry) ↔
      (decide (s.seq.job.source = .external) || decide (s.seq.job.mode = .dry)) = false := by
    cases s.seq.job.source <;> simp
  have hentry : s.entryFault = fun h => match s.seq.plan[h] with
      | some e => (s.headPlanFault h e).map fun f => (f, some h)
      | none => none := by
    funext h
    unfold State.entryFault
    cases s.seq.plan[h] <;> rfl
  rw [hentry, ← if_congr hempty rfl rfl, ← if_congr hinternal rfl rfl]
  rfl

/-- The first condition of R110 that fails is the plan fault, with the code of its reason and its head. -/
theorem allArmChecks_find? (s : State) :
    (allArmChecks s).find? (fun c => !c.1) = s.planFault.map fun f => (false, f.1.code, faultHead f) := by
  rw [planFault_eq]
  unfold allArmChecks
  cases allHeads.any fun h => s.seq.plan[h].isSome with
  | false => rfl
  | true =>
  cases decide (s.seq.job.source = .external) || decide (s.seq.job.mode = .dry) with
  | false => rfl
  | true =>
    simp only [List.cons_append, List.nil_append, List.find?_cons, Bool.not_true, List.find?_flatMap]
    refine Eq.trans (congrArg (allHeads.findSome? ·) (funext fun h => ?_)) List.map_findSome?.symm
    rw [Function.comp, State.entryFault]
    cases s.seq.plan[h] with
    | none => rfl
    | some e =>
      have hfirst : ((fun c : Bool × Nat × Nat => !c.1) ∘ fun c : Bool × Nat => (c.1, c.2, h.val)) = fun c => !c.1 :=
        rfl
      simp only [List.find?_map, hfirst, armChecks_find?, Option.bind_some, Option.map_map]
      rfl

/-! ## The works after an accepted ARM (R111) -/

theorem plannedHeads_eq (s : State) (ok : PlanEntry → Bool) : plannedHeads s.seq.plan ok = planned s ok := by
  refine List.countP_congr fun h _ => ?_
  cases s.seq.plan[h] <;> rfl

theorem Monitor.arm_eq (m : Monitor) (j : JobRecord) : m.arm j = armedMonitor m j := by
  have hkept : (j.source = .external ∧ m.source = j.source ∧ m.e = j.e) ↔
      ¬ (j.source = .internal ∨ m.source ≠ j.source ∨ m.e ≠ j.e) := by
    cases j.source <;> simp
  unfold Monitor.arm armedMonitor
  rw [if_congr hkept rfl rfl, ite_not]

theorem laneAtArm_eq (s : State) (h : HeadNo) :
    s.laneAtArm h = s.seq.plan[h].bind fun e => (s.screens[e.screen].screen).map (openLane e) := by
  unfold State.laneAtArm
  cases s.seq.plan[h] <;> rfl

/-- The works after an accepted ARM are those of `Claims.armedWorks`. -/
theorem worksOf_arm (s : State) : worksOf s.arm = armedWorks s := by
  refine Works.eq_of_fields ?_ ?_ rfl ?_ ?_ ?_ (State.arm_ports s) ?_ (State.arm_markCounter s) (State.arm_captures s)
    (congrArg Transmitter.room (State.arm_tx s))
  · show s.arm.screens = (armedWorks s).screens
    exact bank_ext fun i => by rw [State.arm_screens, plannedHeads_eq, armedWorks, mapAll_get]
  · show s.arm.grads = (armedWorks s).grads
    exact bank_ext fun i => by rw [State.arm_grads, plannedHeads_eq, armedWorks, mapAll_get]
  · show s.arm.lanes = (armedWorks s).lanes
    refine bank_ext fun h => ?_
    rw [State.arm_lanes, laneAtArm_eq, armedWorks, mapAll_get]
    rfl
  · exact (State.arm_monitor s).trans (Monitor.arm_eq ..)
  · have hheads : mapAll (fun h _ => s.itemsAtArm h) s.seq.heads = (armedWorks s).seq.heads :=
      bank_ext fun h => by rw [mapAll_get, armedWorks, mapAll_get, State.itemsAtArm]
    show s.arm.seq = (armedWorks s).seq
    rw [State.arm_seq, hheads]
    rfl
  · exact (State.arm_tallies s).trans (mapAll_const ..)

theorem arm_worksOnly (s : State) : WorksOnly s s.arm :=
  ((((((WorksOnly.refl s).setScreens _).setGrads _).setTallies _).setLanes _).setMonitor _).setSeq _

theorem planFault_leaveIntake (s : State) : s.leaveIntake.planFault = s.planFault := by
  rw [State.leaveIntake_eq]
  split <;> rfl

theorem armedWorks_leaveIntake (s : State) : armedWorks s.leaveIntake = armedWorks s := by
  rw [State.leaveIntake_eq]
  split <;> rfl

section
variable {t : State} (hj : t.seq.state.active = false)
include hj

theorem ruleArm_refused {f : PlanFault × Option HeadNo} (hf : t.planFault = some f) :
    ruleArm t = .refused .planInvalid (planFaultPayload f) := by
  rw [ruleArm, if_neg (Bool.eq_false_iff.mp hj), hf]

theorem ruleArm_accepted (hf : t.planFault = none) : ruleArm t = .ok t.arm := by
  rw [ruleArm, if_neg (Bool.eq_false_iff.mp hj), hf]

end

/-- Settles O40: the check of the job state, the conditions of R110, and the works of an accepted ARM. -/
theorem armTestsThePlanAndArms : Obligations.ArmTestsThePlanAndArms := by
  refine fun s h ha => ⟨fun hj => ?_, fun hj => ?_⟩
  · refine refused_atHead ha (by decide) rfl (if_pos ?_)
    rw [State.leaveIntake_seq]
    exact (active_iff_jobInHand s).mpr hj
  have hidle : s.leaveIntake.seq.state.active = false := by
    rw [State.leaveIntake_seq]
    exact Bool.eq_false_iff.mpr (mt (active_iff_jobInHand s).mp hj)
  rw [allArmChecks_find?]
  cases hf : s.planFault with
  | some f =>
    have hrule := ruleArm_refused hidle ((planFault_leaveIntake s).trans hf)
    have hrefused := refused_atHead ha (by decide) rfl hrule
    rw [planFaultPayload_eq] at hrefused
    exact hrefused
  | none =>
    have hrule := ruleArm_accepted hidle ((planFault_leaveIntake s).trans hf)
    have harmed := succeeds_atHead ha (by decide) rfl hrule (arm_worksOnly _).link (arm_worksOnly _).signals
    rw [worksOf_arm, armedWorks_leaveIntake] at harmed
    exact harmed

end Sys2Proof.Machine
end

