-- ==== Sys2Proof/Proofs/MarkStop.lean ====
section
/-! SUPPORT. The position whose strikes wrap the mark counter, by each of its three ways: a TICK, an INDEX and a period of
the internal generator (R125, R139, R141). -/

namespace Sys2Proof.Machine

open Sys2Proof Sys2Proof.Claims

/-! ## What the strikes of a position find -/

/-- Between two states what mark-stop reads is the same: the job state, the job record, the hold request and the mark
counter. -/
structure MarkItemsKept (s u : State) : Prop where
  state : u.seq.state = s.seq.state
  job : u.seq.job = s.seq.job
  hold : u.seq.hold = s.seq.hold
  markCounter : u.markCounter = s.markCounter

theorem MarkItemsKept.trans {s t u : State} (h : MarkItemsKept s t) (k : MarkItemsKept t u) : MarkItemsKept s u where
  state := k.state.trans h.state
  job := k.job.trans h.job
  hold := k.hold.trans h.hold
  markCounter := k.markCounter.trans h.markCounter

section
variable {s u : State} {tick : Nat}

theorem markItemsKept_indexed (s : State) : MarkItemsKept s (indexed s) := ⟨rfl, rfl, rfl, rfl⟩

theorem markItemsKept_advanced (s : State) : MarkItemsKept s (advanced s) := by
  unfold advanced
  split <;> exact ⟨rfl, rfl, rfl, rfl⟩

theorem markItemsKept_startsFrom (s : State) (src : SlotUse) (heads : HeadNo → Bool) :
    MarkItemsKept s (startsFrom s src heads) := ⟨rfl, rfl, rfl, rfl⟩

theorem markItemsKept_tick (hx : StrikesAtTick s u tick) : MarkItemsKept s u := by
  obtain ⟨-, -, -, -, -, -, rfl⟩ := hx
  exact ⟨rfl, rfl, rfl, rfl⟩

/-- Neither the advance nor the start of heads at an index changes what mark-stop reads (R118, R120). -/
theorem markItemsKept_index (hx : StrikesAtIndex s u tick) : MarkItemsKept s u := by
  obtain ⟨-, -, -, ⟨-, rfl⟩ | ⟨-, rfl⟩⟩ := hx
  · exact (markItemsKept_indexed s).trans (markItemsKept_startsFrom ..)
  · have hstarted := ((markItemsKept_indexed s).trans (markItemsKept_advanced _)).trans
      (markItemsKept_startsFrom _ .complete (isWaiting s))
    exact hstarted.trans ⟨rfl, rfl, rfl, rfl⟩

/-- A job runs at a position that strikes, and the mark counter is in its range. -/
theorem running_tick (hx : StrikesAtTick s u tick) : s.seq.state = .running ∧ s.markCounter ≤ 4294967295 := by
  obtain ⟨-, -, -, hr, hm, -⟩ := hx
  exact ⟨hr, hm⟩

theorem running_index (hx : StrikesAtIndex s u tick) : s.seq.state = .running ∧ s.markCounter ≤ 4294967295 := by
  obtain ⟨⟨-, hr, -, hm⟩, -⟩ := hx
  exact ⟨hr, hm⟩

theorem indexMonitor_source (m : Monitor) : (indexMonitor m).source = m.source := by
  unfold indexMonitor
  split <;> rfl

theorem source_tick (hx : StrikesAtTick s u tick) : u.monitor.source = s.monitor.source := by
  obtain ⟨-, -, -, -, -, -, rfl⟩ := hx
  rfl

theorem source_index (hx : StrikesAtIndex s u tick) : u.monitor.source = s.monitor.source := by
  obtain ⟨-, -, -, ⟨-, rfl⟩ | ⟨-, rfl⟩⟩ := hx
  · exact indexMonitor_source s.monitor
  · have hadvanced : (advanced (indexed s)).monitor = (indexed s).monitor := by
      unfold advanced
      split <;> rfl
    exact (congrArg Monitor.source hadvanced).trans (indexMonitor_source s.monitor)

/-! ## The event of a position that strikes -/

theorem tick_strikes (hx : StrikesAtTick s u tick) :
    Completes .tick s fun t => Event s t (struckWorks u tick) (struckRaised u tick) [] := by
  obtain ⟨he, hs, hn, hr, hm, rfl, rfl⟩ := hx
  exact tickStrikesTheDueCells s he hs hn hr hm

theorem index_strikes (hx : StrikesAtIndex s u tick) :
    Completes .index s fun t => Event s t (struckWorks u tick) (struckRaised u tick) [] := by
  obtain ⟨hindex, hh, rfl, ⟨hrepairs, rfl⟩ | ⟨hpasses, rfl⟩⟩ := hx
  · exact repairRevolutionStartsRecuts s hindex hh hrepairs
  · exact passingGateAdvancesAndStarts s hindex hh hpasses

/-- The works after the strikes, with the source in force that there was before the position. -/
def struckUnder (x : Source) (u : State) (tick : Nat) : Works :=
  { struckWorks u tick with monitor := { u.monitor with source := x } }

theorem struckUnder_same {x : Source} (hx : u.monitor.source = x) : struckUnder x u tick = struckWorks u tick := by
  subst hx
  rfl

/-- An event on the lines in force for the generator is an event of the state before the generator's period, once the
source is changed back (R11). -/
theorem event_asLine {t : State} {works : Works} {raised : BitVec 14} {posts : List ErrorEntry} (x : Source)
    (h : Event (asLine s) t works raised posts) :
    Event s (t.setSource x) { works with monitor := { works.monitor with source := x } } raised posts := by
  obtain ⟨hworks, hrest⟩ := h
  exact ⟨by rw [← hworks]; rfl, hrest⟩

/-- A period of the generator whose position strikes has the effects of that position on the line (R11). -/
theorem generator_strikes (hi : s.monitor.source = .internal)
    (hx : if s.monitor.genNext = 0 then StrikesAtIndex (asLine s) u tick else StrikesAtTick (asLine s) u tick) :
    Completes .internalTickGenerator s fun t => Event s t (struckUnder .internal u tick) (struckRaised u tick) [] := by
  obtain ⟨t, hline, hgenerator⟩ := (generatorPositionsAreTakenAsLines s).2 hi
  have hstrikes : Completes (if s.monitor.genNext = 0 then .index else .tick) (asLine s) fun t =>
      Event (asLine s) t (struckWorks u tick) (struckRaised u tick) [] := by
    split at hx
    · next hplace => rw [if_pos hplace]; exact index_strikes hx
    · next hplace => rw [if_neg hplace]; exact tick_strikes hx
  obtain ⟨v, hstruck, hevent⟩ := hstrikes
  obtain rfl : t = v := Host.Outcome.next.inj (hline.symm.trans hstruck)
  exact ⟨_, hgenerator, event_asLine .internal hevent⟩

/-! ## The wrap (R139) -/

/-- At most one strike of a tick counts for each head (R57, R139). -/
theorem marksStruck_le (u : State) (tick : Nat) : marksStruck u tick ≤ 8 := List.countP_le_length

/-- Strikes that wrap the mark counter leave it less than it was, and its sum less one turn. -/
theorem markCounter_wrapped (hw : wraps u tick = true) (hm : u.markCounter ≤ 4294967295) :
    (u.markCounter + marksStruck u tick) % 4294967296 = u.markCounter + marksStruck u tick - 4294967296 ∧
    u.markCounter + marksStruck u tick - 4294967296 < u.markCounter := by
  have hwrap : 4294967296 ≤ u.markCounter + marksStruck u tick := of_decide_eq_true hw
  have hmarks := marksStruck_le u tick
  omega

/-- A wrap with mark-stop on raises MARK_STOP among the strikes' events. -/
theorem struckRaised_markStop (hw : wraps u tick = true) (hstop : u.seq.job.markStop = true) :
    (struckRaised u tick).getLsbD 11 = true := by
  have hbit : bitIf (wraps u tick && u.seq.job.markStop) .markStop = OneShot.markStop.bit := by
    rw [hw, hstop]
    rfl
  have hset : OneShot.markStop.bit.getLsbD 11 = true := by decide
  rw [struckRaised, hbit, BitVec.getLsbD_or, BitVec.getLsbD_or, hset, Bool.or_true, Bool.true_or]

/-- An event that raises MARK_STOP leaves its bit set: no bit is cleared (R180). -/
theorem markStop_latched {t : State} {works : Works} {raised : BitVec 14} {posts : List ErrorEntry}
    (h : Event s t works raised posts) (hr : raised.getLsbD 11 = true) :
    t.status.events &&& OneShot.markStop.bit ≠ 0 := by
  obtain ⟨-, -, -, -, -, -, -, -, -, hevents, -⟩ := h
  have hset : OneShot.markStop.bit.getLsbD 11 = true := by decide
  intro hclear
  have hbit : (t.status.events &&& OneShot.markStop.bit).getLsbD 11 = false := by rw [hclear]; rfl
  simp only [BitVec.getLsbD_and, hevents, BitVec.getLsbD_or, hr, hset, Bool.or_true, Bool.true_or, Bool.and_true,
    Bool.true_eq_false] at hbit

/-- A position whose strikes wrap the mark counter holds the job under the name MARK_STOP too (R125, R139). -/
theorem wrapHolds_of_event {p : PositionEvent} (hw : wraps u tick = true) (hu : MarkItemsKept s u)
    (hr : s.seq.state = .running ∧ s.markCounter ≤ 4294967295) (hposition : Completes (positionCommand p) s fun t =>
      Event s t (struckUnder s.monitor.source u tick) (struckRaised u tick) []) : WrapHolds p s u tick := by
  obtain ⟨hr, hm⟩ := hr
  obtain ⟨t, ht, hevent⟩ := hposition
  obtain ⟨hworks, -⟩ := id hevent
  obtain ⟨hcount, hfalls⟩ := markCounter_wrapped hw (hu.markCounter.trans_le hm)
  have hmark : t.markCounter = u.markCounter + marksStruck u tick - 4294967296 :=
    (congrArg Works.markCounter hworks).trans hcount
  have hhold : t.seq.hold = (u.seq.hold || (wraps u tick && u.seq.job.markStop)) :=
    congrArg (fun w : Works => w.seq.hold) hworks
  have hrunning : t.seq.state = u.seq.state := congrArg (fun w : Works => w.seq.state) hworks
  have htaken : s.takePosition p = t := Host.Outcome.next.inj ((exec_positionCommand p s).symm.trans ht)
  refine ⟨t, ?_, ht, ?_, ?_, fun hstop => ?_, hrunning.trans (hu.state.trans hr), hevent⟩
  · rw [exec_markStop, htaken, if_pos]
    rw [hmark, ← hu.markCounter]
    exact hfalls
  · rw [hhold, hw, hu.hold, hu.job, Bool.true_and]
  · rw [hmark, hu.markCounter]
  · exact markStop_latched hevent (struckRaised_markStop hw (by rw [hu.job, hstop]))

end

/-- Settles O6: each way's strikes are an event of the position, and their wrap holds the job. -/
theorem markStopHoldsTheJob : Obligations.MarkStopHoldsTheJob := by
  refine fun s u tick hw => ⟨fun hx => ?_, fun hx => ?_, fun hi hx => ?_⟩
  · refine wrapHolds_of_event hw (markItemsKept_tick hx) (running_tick hx) ?_
    rw [struckUnder_same (source_tick hx)]
    exact tick_strikes hx
  · refine wrapHolds_of_event hw (markItemsKept_index hx) (running_index hx) ?_
    rw [struckUnder_same (source_index hx)]
    exact index_strikes hx
  · have hline : MarkItemsKept s (asLine s) := ⟨rfl, rfl, rfl, rfl⟩
    have hposition : Completes (positionCommand .generator) s fun t =>
        Event s t (struckUnder s.monitor.source u tick) (struckRaised u tick) [] := by
      rw [hi]
      exact generator_strikes hi hx
    split at hx
    · exact wrapHolds_of_event hw (hline.trans (markItemsKept_index hx)) (running_index (s := asLine s) hx) hposition
    · exact wrapHolds_of_event hw (hline.trans (markItemsKept_tick hx)) (running_tick (s := asLine s) hx) hposition

end Sys2Proof.Machine
end

