-- ==== Sys2Proof/Proofs/GatherRecords.lean ====
section
/-! SUPPORT. The records of the Tally Unit and the Capture Unit: SET MARK COUNT, READ TALLY, DEFINE CAPTURE, DELETE CAPTURE
and LIST CAPTURES (R137, R140, R143, R149, R150). -/

namespace Sys2Proof.Machine

open Sys2Proof Sys2Proof.Claims

/-! ## SET MARK COUNT and READ TALLY (R137, R140) -/

/-- SET MARK COUNT's operands are in range exactly with a mark-stop byte of 0 or 1 (R140). -/
theorem setMarkCountOperands_iff {p : List Byte} {count : Nat} {markStop : Bool} :
    setMarkCountOperands p = some (count, markStop) ↔
      u8At p 4 ≤ 1 ∧ count = u32At p 0 ∧ markStop = decide (u8At p 4 = 1) := by
  have hflag : ∀ v : Nat, v ≤ 1 → (if v = 0 then false else true) = decide (v = 1) := by decide
  simp only [setMarkCountOperands, Option.bind_eq_bind, Option.bind_eq_some_iff, codeOf_eq_some, Option.some.injEq,
    Prod.mk.injEq]
  constructor
  · rintro ⟨_, ⟨hstop, rfl⟩, rfl, rfl⟩
    exact ⟨hstop, rfl, hflag _ hstop⟩
  · rintro ⟨hstop, rfl, rfl⟩
    exact ⟨_, ⟨hstop, hflag _ hstop⟩, rfl, rfl⟩

theorem setMarkCountOperands_none {p : List Byte} (hn : 1 < u8At p 4) : setMarkCountOperands p = none :=
  Option.eq_none_iff_forall_not_mem.mpr fun _ hx => absurd (setMarkCountOperands_iff.mp hx).1 (Nat.not_le.mpr hn)

/-- The state with the mark counter and the mark-stop setting written (R140). -/
def State.writeMarkCount (s : State) (count : Nat) (markStop : Bool) : State :=
  (s.setMarkCounter count).setSeq { s.seq with job := { s.seq.job with markStop := markStop } }

theorem ruleSetMarkCount_eq (p : List Byte) (t : State) :
    ruleSetMarkCount p t =
      if 1 < u8At p 4 then .refuse .badValue else .ok (t.writeMarkCount (u32At p 0) (decide (u8At p 4 = 1))) := by
  rw [ruleSetMarkCount]
  split
  · next hn => rw [setMarkCountOperands_none hn, withOperands_none, Verdict.refuse]
  · next hn => rw [setMarkCountOperands_iff.mpr ⟨Nat.not_lt.mp hn, rfl, rfl⟩, withOperands_some, State.writeMarkCount]

theorem writeMarkCount_worksOnly (s : State) (count : Nat) (markStop : Bool) :
    WorksOnly s (s.writeMarkCount count markStop) := ⟨⟨rfl, rfl, rfl, rfl, rfl, rfl, rfl⟩, rfl, rfl⟩

theorem worksOf_writeMarkCount_leaveIntake (s : State) (count : Nat) (markStop : Bool) :
    worksOf (s.leaveIntake.writeMarkCount count markStop) =
      { worksOf s with
        markCounter := count
        seq := { s.seq with job := { s.seq.job with markStop := markStop } } } := by
  rw [← worksOf_leaveIntake s, ← State.leaveIntake_seq s]
  rfl

/-- The heads that a selector names (R137). -/
def HeadSelector.heads : HeadSelector → List HeadNo
  | .one head => [head]
  | .all => allHeads

/-- READ TALLY with a selector in range answers with the tallies selected, and changes nothing (R137, R187). -/
theorem readTally_succeeds {s : State} {h : Header} {p : List Byte} (ha : AtHead s .readTally h p) (hlen : p.length = 1)
    {sel : HeadSelector} (hsel : selectorOperand p = some sel) :
    Completes (.readTally h p) s fun t => Succeeds s t (worksOf s) .readTally h .done (tallyReply s sel.heads) := by
  have hrule : ruleOf .readTally h p s.leaveIntake = .done s.leaveIntake .done (tallyReply s sel.heads) := by
    show ruleReadTally p s.leaveIntake = _
    rw [ruleReadTally, hsel, withOperands_some, State.leaveIntake_seq, State.leaveIntake_markCounter,
      State.leaveIntake_tallies]
    cases sel <;> rfl
  rw [← worksOf_leaveIntake]
  exact succeeds_atHead ha (by decide) (decide_eq_true hlen) hrule (.refl _) (.refl _)

/-- Settles O44: SET MARK COUNT by its mark-stop byte, and READ TALLY by its selector. -/
theorem markCountAndTallyRecords : Obligations.MarkCountAndTallyRecords := by
  refine fun s h p => ⟨fun hlen ha => ?_, fun hlen ha => ⟨fun hmin hall => ?_, fun hall => ?_, fun head hhead => ?_⟩⟩
  · have hwritten := writeMarkCount_worksOnly s.leaveIntake (u32At p 0) (decide (u8At p 4 = 1))
    exact checkedRecord_completes ha (by decide) (decide_eq_true hlen) (ruleSetMarkCount_eq p s.leaveIntake) hwritten.link
      hwritten.signals (worksOf_writeMarkCount_leaveIntake ..)
  · refine refused_atHead ha (by decide) (decide_eq_true hlen) ?_
    show ruleReadTally p s.leaveIntake = _
    rw [ruleReadTally, selectorOperand_none hmin hall, withOperands_none]
  · rw [← allHeads_eq]
    exact readTally_succeeds ha hlen (if_pos hall)
  · refine readTally_succeeds ha hlen (sel := .one head) ?_
    have hone : u8At p 0 ≠ 255 := by omega
    rw [selectorOperand, if_neg hone, (finOf_eq head).mpr hhead, Option.map_some]

/-! ## The capture list (R142) -/

/-- An id is in use exactly when some capture of the list has it. -/
theorem captureOf_isSome_iff (s : State) (id : Nat) : (s.captureOf id).isSome = true ↔ ∃ c ∈ s.captures, c.id = id := by
  simp only [State.captureOf, List.find?_isSome, decide_eq_true_eq]

theorem captureOf_leaveIntake (s : State) (id : Nat) : s.leaveIntake.captureOf id = s.captureOf id := by
  rw [State.captureOf, State.leaveIntake_captures, State.captureOf]

theorem freeEntries_eq (s : State) : s.freeEntries = 16384 - reserved s := rfl

theorem freeEntries_leaveIntake (s : State) : s.leaveIntake.freeEntries = s.freeEntries := by
  rw [State.freeEntries, State.leaveIntake_captures, State.freeEntries]

theorem setCaptures_worksOnly (s : State) (captures : List Capture) : WorksOnly s (s.setCaptures captures) :=
  ⟨⟨rfl, rfl, rfl, rfl, rfl, rfl, rfl⟩, rfl, rfl⟩

theorem worksOf_setCaptures_leaveIntake (s : State) (captures : List Capture) :
    worksOf (s.leaveIntake.setCaptures captures) = { worksOf s with captures := captures } := by
  rw [← worksOf_leaveIntake s]
  rfl

/-- A record with one check of its own that otherwise writes the capture list. -/
theorem captureRecord_completes {s : State} {k : RecordKind} {h : Header} {p : List Byte} (ha : AtHead s k h p)
    (hk : k ≠ .reset) (hlen : k.lengthOk p = true) {c : Prop} [Decidable c] {code : Completion} {captures : List Capture}
    (hrule : ruleOf k h p s.leaveIntake = if c then .refuse code else .ok (s.leaveIntake.setCaptures captures)) :
    Completes (k.command h p) s fun t =>
      if c then Refused s t k.code h code else Succeeds s t { worksOf s with captures := captures } k h :=
  checkedRecord_completes ha hk hlen hrule (setCaptures_worksOnly ..).link (setCaptures_worksOnly ..).signals
    (worksOf_setCaptures_leaveIntake ..)

/-! ## DEFINE CAPTURE, DELETE CAPTURE and LIST CAPTURES (R143, R149, R150) -/

/-- The capture that DEFINE CAPTURE's parameters ask for, given its head (R142, R186). -/
def captureIn (p : List Byte) (head : HeadNo) : Capture :=
  { id := u8At p 0, head := head, track := u16At p 2, first := u16At p 4, length := u16At p 6, state := .waiting,
    entries := [] }

/-- DEFINE CAPTURE's operands are in range exactly as R142 says, and then are the capture asked for. -/
theorem defineCaptureOperands_iff {p : List Byte} {c : Capture} :
    defineCaptureOperands p = some c ↔ captureOk p ∧ u8At p 1 = c.head.val ∧ c = captureIn p c.head := by
  simp only [defineCaptureOperands, Option.bind_eq_bind, Option.bind_eq_some_iff, guardIn_eq_some, finOf_eq,
    decide_eq_true_eq, Option.some.injEq]
  constructor
  · rintro ⟨_, ⟨hid, rfl⟩, head, hhead, _, ⟨htrack, rfl⟩, _, ⟨hfirst, rfl⟩, _, ⟨hlength, rfl⟩, rfl⟩
    exact ⟨⟨hid.1, hid.2, by omega, htrack, hfirst, hlength.1, hlength.2⟩, hhead, rfl⟩
  · rintro ⟨⟨hidMin, hidMax, -, htrack, hfirst, hmin, hmax⟩, hhead, hc⟩
    exact ⟨_, ⟨⟨hidMin, hidMax⟩, rfl⟩, c.head, hhead, _, ⟨htrack, rfl⟩, _, ⟨hfirst, rfl⟩, _, ⟨⟨hmin, hmax⟩, rfl⟩, hc.symm⟩

theorem defineCaptureOperands_none {p : List Byte} (hn : ¬ captureOk p) : defineCaptureOperands p = none :=
  Option.eq_none_iff_forall_not_mem.mpr fun _ hc => hn (defineCaptureOperands_iff.mp hc).1

/-- DEFINE CAPTURE in range: the check of the id, the check of the free entries, and the list with the capture (R143). -/
theorem ruleDefineCapture_eq {p : List Byte} (t : State) (hok : captureOk p) {head : HeadNo} (hhead : u8At p 1 = head.val) :
    ruleDefineCapture p t =
      if ∃ c ∈ t.captures, c.id = u8At p 0 then .refuse .badValue
      else if 16384 < reserved t + u16At p 6 then .refuse .noSpace
      else .ok (t.setCaptures (t.captures ++ [captureIn p head])) := by
  have hoperands : defineCaptureOperands p = some (captureIn p head) := defineCaptureOperands_iff.mpr ⟨hok, hhead, rfl⟩
  have hroom : t.freeEntries < u16At p 6 ↔ 16384 < reserved t + u16At p 6 := by
    obtain ⟨-, -, -, -, -, hmin, -⟩ := hok
    rw [freeEntries_eq]
    omega
  rw [ruleDefineCapture, hoperands, withOperands_some]
  exact if_congr (captureOf_isSome_iff t _) rfl (if_congr hroom rfl rfl)

/-- Settles O45: for each record its checks in order, and then what it does to the list or answers of it. -/
theorem captureListRecords : Obligations.CaptureListRecords := by
  refine fun s h p => ⟨fun hlen ha => ⟨fun hn => ?_, fun hok head hhead => ?_⟩, fun hlen ha => ?_, fun ha => ?_⟩
  · refine refused_atHead ha (by decide) (decide_eq_true hlen) ?_
    show ruleDefineCapture p s.leaveIntake = _
    rw [ruleDefineCapture, defineCaptureOperands_none hn, withOperands_none]
  · have hrule : ruleOf .defineCapture h p s.leaveIntake = _ := ruleDefineCapture_eq s.leaveIntake hok hhead
    rw [reserved, State.leaveIntake_captures, ← reserved] at hrule
    by_cases hused : ∃ c ∈ s.captures, c.id = u8At p 0
    · rw [if_pos hused] at hrule
      simp only [if_pos hused]
      exact refused_atHead ha (by decide) (decide_eq_true hlen) hrule
    · rw [if_neg hused] at hrule
      simp only [if_neg hused]
      exact captureRecord_completes ha (by decide) (decide_eq_true hlen) hrule
  · have hrule : ruleOf .deleteCapture h p s.leaveIntake = if ¬ ∃ c ∈ s.captures, c.id = u8At p 0 then .refuse .badValue
        else .ok (s.leaveIntake.setCaptures (s.captures.filter fun c => c.id ≠ u8At p 0)) := by
      show ruleDeleteCapture p s.leaveIntake = _
      rw [ruleDeleteCapture, captureOf_leaveIntake, State.leaveIntake_captures, ite_not]
      exact if_congr (captureOf_isSome_iff s _) rfl rfl
    have hdeleted := captureRecord_completes ha (by decide) (decide_eq_true hlen) hrule
    simp only [ite_not] at hdeleted
    exact hdeleted
  · have hrule : ruleOf .listCaptures h [] s.leaveIntake = .done s.leaveIntake .done
        (leBytes 2 s.freeEntries ++ code1 s.captures.length ++ s.captures.flatMap capturePayload) := by
      show ruleListCaptures s.leaveIntake = _
      rw [ruleListCaptures, freeEntries_leaveIntake, State.leaveIntake_captures]
      rfl
    have hlisted := succeeds_atHead ha (by decide) rfl hrule (.refl _) (.refl _)
    rw [worksOf_leaveIntake] at hlisted
    exact hlisted

end Sys2Proof.Machine
end

