-- ==== Sys2Proof/Proofs/Readback.lean ====
section
/-! SUPPORT. READ CAPTURE and the frames of its readback (R151, R172, R188), and the handing on of a waiting CTRL frame by the
event that frees the Interpreter (R160). -/

namespace Sys2Proof.Machine

open Sys2Proof Sys2Proof.Claims

/-! ## The command of a frame (R166) -/

theorem tag_low_byte (t1 t0 : Byte) : (t1 ++ t0 : Tag).setWidth 8 = t0 := by
  refine BitVec.eq_of_getLsbD_eq fun i hi => ?_
  rw [BitVec.getLsbD_setWidth, BitVec.getLsbD_append, if_pos hi, decide_eq_true hi, Bool.true_and]

theorem tag_high_byte (t1 t0 : Byte) : ((t1 ++ t0 : Tag) >>> 8).setWidth 8 = t1 := by
  refine BitVec.eq_of_getLsbD_eq fun i hi => ?_
  rw [BitVec.getLsbD_setWidth, BitVec.getLsbD_ushiftRight, BitVec.getLsbD_append, if_neg (by omega), decide_eq_true hi,
    Bool.true_and, Nat.add_sub_cancel_left]

/-- The bytes of a record's body spell that body again. -/
theorem recordBody_bytes (kind notify t0 t1 : Byte) (params : List Byte) :
    recordBody kind { notify := notify, tag := t1 ++ t0 } params = kind :: notify :: t0 :: t1 :: params := by
  simp only [recordBody, tag_low_byte, tag_high_byte]

/-- The command read from a frame hands that frame on. -/
theorem handedFrame_commandOfFrame (f : Frame) : handedFrame (commandOfFrame f) = some f := by
  obtain ⟨kind, body⟩ := f
  cases kind with
  | cell => rfl
  | ctrl =>
    match body with
    | [] | [_] | [_, _] | [_, _, _] => rfl
    | kind :: notify :: t0 :: t1 :: params =>
      simp only [commandOfFrame]
      cases hk : RecordKind.ofCode kind with
      | none => simp only [handedFrame, recordBody_bytes]
      | some k => simp only [handedFrame_command, recordFrame, RecordKind.code_of_ofCode hk, recordBody_bytes]

/-- With the Interpreter FREE, the command of the frame at the head of the FIFO hands it on (R160). -/
theorem exec_commandOfFrame_head {u : State} {f : Frame} (hf : u.rx.fifo.head? = some f) (hfree : u.interp.state = .free) :
    exec (commandOfFrame f) u = .next (u.handOn f) := by
  rw [exec_of_handedFrame (handedFrame_commandOfFrame f), State.deliver_head _ _ hf, State.mayHandOn_free _ _ hfree,
    if_pos rfl]

/-! ## The handing on by the event that frees the Interpreter (R160) -/

/-- Whether an event from `s` to `u` frees the Interpreter for a CTRL frame at the head of the FIFO. -/
def Frees (s u : State) : Prop := s.interp.state ≠ .free ∧ u.interp.state = .free ∧ ctrlWaits u = true

/-- An event that frees the Interpreter for a waiting CTRL frame hands it on. -/
theorem handOnIfFreed_frees {s u : State} {f : Frame} (hfrees : Frees s u) (hf : u.rx.fifo.head? = some f) :
    u.handOnIfFreed s = u.handOn f := by
  obtain ⟨hbusy, hfree, hwaits⟩ := hfrees
  obtain ⟨rest, hfifo⟩ := List.head?_eq_some_iff.mp hf
  have hctrl : f.kind = .ctrl := by simpa [ctrlWaits, hf] using hwaits
  simp [State.handOnIfFreed, State.busy, hfifo, hbusy, hfree, hctrl]

/-- Any other event hands nothing on. -/
theorem handOnIfFreed_not_frees {s u : State} (hn : ¬ Frees s u) : u.handOnIfFreed s = u := by
  unfold State.handOnIfFreed
  split
  · next f rest hfifo =>
    refine if_neg fun hall => hn ?_
    simpa [Frees, State.busy, ctrlWaits, hfifo, and_assoc] using hall
  · rfl

/-- A command that ends with the handing on of what it frees does so in the words of the statements. -/
theorem endsThenHandsOn_of_handOnIfFreed {i : Instr} {s u : State} {post : State → Prop} (hpost : post u)
    (hexec : exec i s = .next (u.handOnIfFreed s)) : EndsThenHandsOn i s post := by
  refine ⟨u, hpost, ?_⟩
  split
  · next hfrees =>
    obtain ⟨-, hfree, -⟩ := id hfrees
    intro f hf
    rw [hexec, handOnIfFreed_frees hfrees hf, exec_commandOfFrame_head hf hfree]
  · next hn => rw [hexec, handOnIfFreed_not_frees hn]

/-! ## READ CAPTURE (R151) -/

/-- What a record's own rule leaves of the link, with the Interpreter STREAMING. -/
theorem leavesAndReplies_streams {s t : State} (hl : LinkKept s.leaveIntake t) (rb : Readback) :
    LeavesAndReplies s (s.latch (t.setInterp { t.interp with state := .streaming rb })) (.streams rb) s.interp.syncs := by
  have hinterp : t.interp = s.interp := hl.interp.trans (State.leaveIntake_interp s)
  obtain ⟨hpending, hrx, hmark, hannounced, hsending, hqueue, -⟩ := leavesAndReplies_silent hl
  rw [hinterp]
  exact ⟨hpending, hrx, hmark, hannounced, hsending, hqueue, rfl⟩

/-- A record at the head of the FIFO whose rule starts a readback. -/
theorem streams_atHead {s : State} {k : RecordKind} {h : Header} {p : List Byte} (ha : AtHead s k h p) (hk : k ≠ .reset)
    (hlen : k.lengthOk p = true) {rb : Readback}
    (hrule : ruleOf k h p s.leaveIntake =
      .later (s.leaveIntake.setInterp { s.leaveIntake.interp with state := .streaming rb })) :
    Completes (k.command h p) s fun t => Takes s t (worksOf s) 0 [] (.streams rb) s.interp.syncs := by
  refine ⟨_, exec_atHead ha hk hlen, ?_⟩
  rw [hrule, Verdict.conclude_later]
  exact ⟨worksOf_leaveIntake s, leavesAndReplies_streams (.refl _) rb,
    ((leaveIntake_signals s).silent_trans (.of_kept rfl rfl)).posts⟩

/-- READ CAPTURE of a capture on the list starts its readback. -/
theorem readCapture_streams {s : State} {h : Header} {p : List Byte} (ha : AtHead s .readCapture h p) (hlen : p.length = 1)
    {c : Capture} (hc : s.captureOf (u8At p 0) = some c) :
    Completes (.readCapture h p) s fun t =>
      Takes s t (worksOf s) 0 [] (.streams { id := c.id, tag := h.tag, n := c.entries.length, next := 0 })
        s.interp.syncs := by
  refine streams_atHead ha (by decide) (decide_eq_true hlen) ?_
  show ruleReadCapture h p s.leaveIntake = _
  rw [ruleReadCapture, captureOf_leaveIntake, hc]

theorem readCapture_refused {s : State} {h : Header} {p : List Byte} (ha : AtHead s .readCapture h p) (hlen : p.length = 1)
    (hc : s.captureOf (u8At p 0) = none) : Completes (.readCapture h p) s fun t => Refused s t 0x35 h .badValue := by
  refine refused_atHead ha (by decide) (decide_eq_true hlen) ?_
  show ruleReadCapture h p s.leaveIntake = _
  rw [ruleReadCapture, captureOf_leaveIntake, hc]
  rfl

/-! ## The frames of a readback (R151, R188) -/

/-- A captured entry's bytes in the words of the statement: its flags, added or joined, are one byte. -/
theorem entryBytes_eq (e : CaptureEntry) : entryBytes e = captureEntryBytes e := by
  have hflags : ∀ mark nocut depth drive : Bool,
      ((if mark then 1 else 0) ||| (if nocut then 2 else 0) ||| (if depth then 4 else 0) |||
          (if drive then 8 else 0) : Byte) =
        BitVec.ofNat 8 ((if mark then 1 else 0) + (if nocut then 2 else 0) + (if depth then 4 else 0) +
          (if drive then 8 else 0)) := by decide
  rw [entryBytes, hflags]
  rfl

theorem captureOf_id {s : State} {id : Nat} {c : Capture} (hc : s.captureOf id = some c) : c.id = id := by
  simpa using List.find?_some hc

/-- The model's next frame of a readback, and the Interpreter's state after it, are those of the statement. -/
theorem nextFrame_eq {s : State} {rb : Readback} {c : Capture} (hc : s.captureOf rb.id = some c) :
    nextFrame c rb = (s.readbackFrame rb, rb.afterFrame) := by
  have hread : s.readbackCapture rb = (c.entries, c.state) := by rw [State.readbackCapture, hc]
  unfold nextFrame State.readbackFrame Readback.afterFrame
  rw [hread, captureOf_id hc, show captureEntryBytes = entryBytes from funext fun e => (entryBytes_eq e).symm]
  split <;> rfl

/-! ## CAPTURE_DATA_PLACED (R151, R172) -/

theorem streamFrame_conditions (s : State) (rb : Readback) : (s.streamFrame rb).conditions = s.conditions := by
  unfold State.streamFrame
  split <;> rfl

section
variable {s : State} {rb : Readback} {c : Capture}

/-- A STREAMING readback comes to its next frame, and what is freed by it is handed on. -/
theorem exec_captureDataPlaced_streaming (hi : s.interp.state = .streaming rb) :
    exec .captureDataPlaced s = .next ((s.streamFrame rb).handOnIfFreed s) := by
  have hevent : (s.event fun t => t.streamFrame rb) = s.streamFrame rb :=
    State.latch_of_conditions s _ (streamFrame_conditions s rb)
  show execCaptureDataPlaced s = _
  rw [execCaptureDataPlaced, hi]
  exact congrArg (fun u : State => Host.Outcome.next (u.handOnIfFreed s)) hevent

/-- With an entry free the next frame is placed. -/
theorem streamFrame_placed (hc : s.captureOf rb.id = some c) (hroom : s.tx.queue.length < 64) :
    LinkOnly s (s.streamFrame rb) (s.tx.queue ++ [(nextFrame c rb).1]) s.tx.sending
      { s.interp with state := (nextFrame c rb).2 } := by
  have hplaced : s.streamFrame rb = s.placeReadback rb := if_pos (decide_eq_true hroom)
  rw [hplaced, nextFrame_eq hc]
  exact ⟨rfl, rfl, rfl, rfl, rfl, rfl, rfl, rfl, rfl, rfl⟩

/-- At a full queue the readback waits. -/
theorem streamFrame_waits (hfull : ¬ s.tx.queue.length < 64) :
    s.streamFrame rb = s.setInterp { s.interp with state := .waitingReadback rb } :=
  if_neg fun hroom => hfull (of_decide_eq_true hroom)

end

/-- Settles O46: READ CAPTURE by the capture of its id, and CAPTURE_DATA_PLACED by the room of the queue. -/
theorem captureIsStreamed : Obligations.CaptureIsStreamed := by
  refine fun s => ⟨fun h p hlen ha => ⟨fun c hc => readCapture_streams ha hlen hc, readCapture_refused ha hlen⟩,
    fun rb c hi hc => ?_⟩
  have hexec := exec_captureDataPlaced_streaming hi
  split
  · next hroom => exact endsThenHandsOn_of_handOnIfFreed (streamFrame_placed hc hroom) hexec
  · next hfull =>
    have hbusy : ¬ Frees s (s.streamFrame rb) := by
      rw [streamFrame_waits hfull]
      rintro ⟨-, hfree, -⟩
      cases hfree
    rw [handOnIfFreed_not_frees hbusy, streamFrame_waits hfull] at hexec
    exact ⟨_, hexec, rfl, rfl, rfl, rfl, rfl, rfl, rfl, rfl, rfl, rfl⟩

end Sys2Proof.Machine
end
-- ==== Sys2Proof/Proofs/LinkReception.lean ====
section
/-! SUPPORT. The Link Receiver: the loss and the return of synchronization (R159), the envelope of a frame and the tests on
its bytes (R152 to R154), and the joining of the Intake FIFO (R155 to R157). -/

namespace Sys2Proof.Machine

open Sys2Proof Sys2Proof.Claims

/-! ## LINK_DOWN (R159) -/

/-- An event that writes LINK_DOWN and nothing else. -/
theorem setDown_downOnly (s : State) (down : Bool) :
    DownOnly s (s.event fun t => t.setRx { t.rx with down := down }) down :=
  ⟨rfl, rfl, rfl, rfl, rfl, rfl, rfl, rfl, Signals.posts (.of_kept rfl rfl)⟩

/-- Settles O17: each of the two writes LINK_DOWN alone. -/
theorem linkSyncSetsAndClearsLinkDown : Obligations.LinkSyncSetsAndClearsLinkDown :=
  fun s => ⟨⟨_, rfl, setDown_downOnly s true⟩, ⟨_, rfl, setDown_downOnly s false⟩⟩

/-! ## The tests on the bytes of a frame (R154) -/

theorem getD_zero_eq_iff {bytes : List Byte} (hlen : 0 < bytes.length) (b : Byte) :
    bytes.getD 0 0 = b ↔ bytes.head? = some b := by
  cases bytes with
  | nil => cases hlen
  | cons a rest => simp

/-- The model's judgement of the bytes, in the words of the statement. -/
theorem judgeBytes_eq (bytes : List Byte) :
    judgeBytes bytes = match frameFault bytes with
      | some code => .error code
      | none => .ok (frameIn bytes) := by
  unfold judgeBytes frameFault
  dsimp only
  by_cases hform : bytes.length < 8 ∨ 4096 < u16At bytes 2 ∨ bytes.length ≠ 8 + u16At bytes 2
  · rw [if_pos hform, if_pos hform]
  have hend : bytes.length - 4 = 4 + u16At bytes 2 := by omega
  rw [if_neg hform, if_neg hform, hend]
  split
  · rfl
  have hkind := getD_zero_eq_iff (bytes := bytes) (by omega)
  simp only [hkind, DownKind.code, frameIn]
  by_cases hcell : bytes.head? = some 0x01#8
  · simp [hcell]
  · by_cases hctrl : bytes.head? = some 0x02#8 <;> simp [hcell, hctrl]

/-- Bytes that pass the tests are as long as the frame that they carry. -/
theorem frameIn_size {bytes : List Byte} (h : frameFault bytes = none) : (frameIn bytes).size = bytes.length := by
  unfold frameFault at h
  split at h
  · cases h
  · simp only [Frame.size, frameIn, List.length_take, List.length_drop]
    omega

/-! ## The envelope (R152, R186) -/

theorem u32At_drop (p : List Byte) (k i : Nat) : u32At (p.drop k) i = u32At p (k + i) := by
  simp only [u32At, u16At_drop, Nat.add_assoc]

theorem checkField_lt (bytes : List Byte) : checkField bytes < 4294967296 := BitVec.isLt _

section
variable (kind flags : Byte) (body : List Byte)

theorem envelopeHead_length : (envelopeHead kind flags body).length = 4 + body.length := by
  simp [envelopeHead]
  omega

theorem envelope_length : (envelope kind flags body).length = 8 + body.length := by
  simp [envelope, envelopeHead_length]
  omega

theorem envelope_bodyLength (hb : body.length < 65536) : u16At (envelope kind flags body) 2 = body.length :=
  u16At_of_drop hb (List.append_assoc _ _ _)

theorem envelope_take_head : (envelope kind flags body).take (4 + body.length) = envelopeHead kind flags body := by
  rw [envelope, ← envelopeHead_length kind flags body, List.take_left]

/-- The check field is read back behind the last body byte (R153). -/
theorem envelope_check :
    u32At (envelope kind flags body) (4 + body.length) = checkField (envelopeHead kind flags body) := by
  rw [← Nat.add_zero (4 + body.length), ← u32At_drop, envelope, ← envelopeHead_length kind flags body, List.drop_left,
    ← List.append_nil (leBytes 4 _), u32At_leBytes _ (checkField_lt _)]

theorem envelope_body : ((envelope kind flags body).drop 4).take body.length = body := List.take_left' rfl

theorem envelope_head : (envelope kind flags body).head? = some kind := rfl

end

/-- Settles O19: the tests find the length, the check and the kind as the envelope lays them out. -/
theorem envelopeCarriesTheFrame : Obligations.EnvelopeCarriesTheFrame := by
  refine fun kind flags body hb => ⟨?_, envelope_length ..⟩
  have hlen := envelope_bodyLength kind.code flags body (by omega)
  have hend : 8 + body.length - 4 = 4 + body.length := by omega
  have hfault : frameFault (envelope kind.code flags body) = none := by
    rw [frameFault, hlen, envelope_length, hend, envelope_take_head, envelope_check, envelope_head, if_neg (by omega),
      if_neg (not_not.mpr rfl)]
    cases kind <;> rfl
  rw [judgeBytes_eq, hfault, frameIn, hlen, envelope_body, envelope_head]
  cases kind <;> rfl

/-! ## The joining of the Intake FIFO (R154 to R157) -/

theorem fits_iff (s : State) (f : Frame) :
    f.size ≤ Config.intakeCapacity - s.fill ↔ s.fill + f.size ≤ 32768 := by
  have hpos : 0 < f.size := by simp [Frame.size]
  show f.size ≤ 32768 - s.fill ↔ _
  omega

/-- The state with a flow state that it has been judged to have, and the flow mark that this brings (R157). -/
def toFlow (s : State) (f : FlowState) : State :=
  { s with rx := { s.rx with flow := f }, tx := { s.tx with flowMark := markAfter s f } }

theorem toFlow_same (s : State) : toFlow s s.rx.flow = s := by
  unfold toFlow markAfter
  rw [if_pos rfl]

theorem toFlow_other {s : State} {f : FlowState} (h : f ≠ s.rx.flow) : toFlow s f = s.changeFlow f := by
  unfold toFlow markAfter
  rw [if_neg h]
  rfl

theorem judgeRise_eq_toFlow (s : State) : s.judgeRise = toFlow s (flowAfterRise s s.fill) := by
  rw [State.judgeRise_eq]
  unfold flowAfterRise
  split
  · next h => rw [toFlow_other (by rw [h.1]; exact FlowState.noConfusion)]
  · rw [toFlow_same]

theorem judgeFall_eq_toFlow (s : State) : s.judgeFall = toFlow s (flowAfterFall s s.fill) := by
  rw [State.judgeFall_eq]
  unfold flowAfterFall
  split
  · next h => rw [toFlow_other (by rw [h.1]; exact FlowState.noConfusion)]
  · rw [toFlow_same]

/-- A frame that fits joins the FIFO as the statements say. -/
theorem joinIntake_joins {s : State} {f : Frame} (hfit : s.fill + f.size ≤ 32768) :
    Joins s (s.event fun t => t.joinIntake f) f := by
  have hfill : State.fill { s with rx := { s.rx with fifo := s.rx.fifo ++ [f] } } = s.fill + f.size := by
    simp [State.fill]
  rw [State.event_eq, State.joinIntake_eq, if_pos ((fits_iff s f).mpr hfit), judgeRise_eq_toFlow, hfill]
  exact ⟨rfl, rfl, rfl, rfl, rfl, rfl, rfl, rfl, Signals.posts (.of_kept rfl rfl)⟩

/-- An event that posts one entry and does nothing else. -/
theorem post_event (s : State) (code : ErrorCode) : Event s (s.event fun t => t.post code) (worksOf s) 0 [entry s code] :=
  event_of_action (worksOf_post ..) (.post ..) (.post ..)

/-- A frame that does not fit is dropped (R154, R155). -/
theorem joinIntake_overrun {s : State} {f : Frame} (hfull : ¬ s.fill + f.size ≤ 32768) :
    (s.event fun t => t.joinIntake f) = s.event fun t => t.post .intakeOverrun := by
  rw [State.event_eq, State.joinIntake_eq, if_neg (mt (fits_iff s f).mp hfull)]
  rfl

/-! ## FRAME_RECEIVED (R154, R159) -/

theorem receive_eq (s : State) (bytes : List Byte) :
    s.receive bytes = match frameFault bytes with
      | some code => s.post code
      | none => s.joinIntake (frameIn bytes) := by
  rw [State.receive, judgeBytes_eq]
  cases frameFault bytes <;> rfl

/-- Settles O18: the tests on the bytes, and then the frame's fitting. -/
theorem receivedFrameIsJudged : Obligations.ReceivedFrameIsJudged := by
  refine fun s bytes => ⟨fun hdown => congrArg Host.Outcome.next (if_pos hdown), fun hup => ?_⟩
  have hexec : exec (.frameReceived bytes) s = .next (s.event fun t => t.receive bytes) :=
    congrArg Host.Outcome.next (if_neg (by rw [hup]; exact Bool.false_ne_true))
  refine ⟨_, hexec, ?_⟩
  simp only [receive_eq]
  cases hfault : frameFault bytes with
  | some code => exact post_event s code
  | none =>
    dsimp only
    rw [← frameIn_size hfault]
    split
    · next hfit => exact joinIntake_joins hfit
    · next hfull => rw [joinIntake_overrun hfull]; exact post_event s _

end Sys2Proof.Machine
end

