-- ==== Sys2Proof/Proofs/Arrivals.lean ====
section
/-! SUPPORT. The Frame Router (R160): what the taking of a frame leaves of the Intake FIFO, the chain of handings on that
follows an arrival, and the frames that wait. -/

namespace Sys2Proof.Machine

open Sys2Proof Sys2Proof.Claims

/-! ## A record's own rule leaves the FIFO -/

/-- The state that a verdict leaves, if it leaves one, has the FIFO given. -/
def Verdict.LeavesFifo (fifo : List Frame) : Verdict → Prop
  | .refused _ _ => True
  | .done t _ _ => t.rx.fifo = fifo
  | .later t => t.rx.fifo = fifo

theorem withOperands_leavesFifo {α : Type} {operands : Option α} {rule : α → Verdict} {fifo : List Frame}
    (h : ∀ a, (rule a).LeavesFifo fifo) : (withOperands operands rule).LeavesFifo fifo := by
  cases operands with
  | none => trivial
  | some a => exact h a

theorem Verdict.LeavesFifo.ite {c : Prop} [Decidable c] {v w : Verdict} {fifo : List Frame} (hv : v.LeavesFifo fifo)
    (hw : w.LeavesFifo fifo) : (if c then v else w).LeavesFifo fifo := by
  split
  · exact hv
  · exact hw

theorem Verdict.LeavesFifo.conclude {v : Verdict} {s : State} (hv : v.LeavesFifo s.rx.fifo) (kind : Byte)
    (always : Bool) (h : Header) : (v.conclude s kind always h).rx.fifo = s.rx.fifo := by
  cases v with
  | refused code payload => rw [Verdict.conclude_refused, State.answer_rx, State.raise_rx]
  | done t code payload =>
    rw [Verdict.conclude_done]
    split
    · rw [State.answer_rx]; exact hv
    · exact hv
  | later t => exact hv

/-- SET FLOW changes the flow state and the watermarks, and no frame (R158). -/
theorem ruleSetFlow_leavesFifo (p : List Byte) (s : State) : (ruleSetFlow p s).LeavesFifo s.rx.fifo := by
  refine withOperands_leavesFifo fun ⟨high, low⟩ => ?_
  show (State.rx _).fifo = s.rx.fifo
  split
  · exact State.judgeRise_rx_fifo _
  · exact State.judgeFall_rx_fifo _

/-- Every record's own rule but RESET's leaves the FIFO. -/
theorem ruleOf_leavesFifo {k : RecordKind} (hk : k ≠ .reset) (h : Header) (p : List Byte) (s : State) :
    (ruleOf k h p s).LeavesFifo s.rx.fifo := by
  have loaded : ∀ {v : Verdict} {c d : Prop} [Decidable c] [Decidable d], v.LeavesFifo s.rx.fifo →
      Verdict.LeavesFifo s.rx.fifo (if c then .refuse .slotBound else if d then .refuse .slotBusy else v) :=
    fun hv => .ite trivial (.ite trivial hv)
  cases k with
  | loadCurve => exact withOperands_leavesFifo fun _ => loaded (.ite trivial rfl)
  | loadTable => exact withOperands_leavesFifo fun _ => loaded rfl
  | readTable =>
    refine withOperands_leavesFifo fun slot => ?_
    split
    · exact rfl
    · trivial
  | clearTable => exact withOperands_leavesFifo fun _ => loaded rfl
  | setScreen => exact withOperands_leavesFifo fun _ => .ite trivial rfl
  | clearScreen => exact withOperands_leavesFifo fun _ => .ite trivial rfl
  | setHead => exact withOperands_leavesFifo fun _ => .ite trivial rfl
  | readHead => exact withOperands_leavesFifo fun _ => rfl
  | stylusChange => exact withOperands_leavesFifo fun _ => .ite trivial rfl
  | clearFault => exact withOperands_leavesFifo fun _ => .ite rfl trivial
  | setJob => exact withOperands_leavesFifo fun _ => .ite trivial rfl
  | planHead => exact withOperands_leavesFifo fun _ => .ite trivial rfl
  | clearPlan => exact withOperands_leavesFifo fun _ => .ite trivial rfl
  | arm =>
    refine Verdict.LeavesFifo.ite trivial ?_
    split
    · trivial
    · exact rfl
  | start => exact .ite trivial rfl
  | hold =>
    show (ruleHold s).LeavesFifo _
    unfold ruleHold
    split
    · exact rfl
    · exact rfl
    · trivial
  | resume =>
    refine withOperands_leavesFifo fun o => .ite ?_ trivial
    cases o with
    | repair => exact rfl
    | discard => exact rfl
  | abort => exact .ite (congrArg LinkReceiver.fifo (State.endJob_rx s .aborted)) trivial
  | setMarkCount => exact withOperands_leavesFifo fun _ => rfl
  | readTally => exact withOperands_leavesFifo fun _ => rfl
  | defineCapture => exact withOperands_leavesFifo fun _ => .ite trivial (.ite trivial rfl)
  | deleteCapture => exact .ite rfl trivial
  | listCaptures => exact rfl
  | readCapture =>
    show (ruleReadCapture h p s).LeavesFifo _
    unfold ruleReadCapture
    split
    · exact rfl
    · trivial
  | readStatus => exact rfl
  | setEnable => exact withOperands_leavesFifo fun _ => rfl
  | readError =>
    show (ruleReadError s).LeavesFifo _
    unfold ruleReadError
    split <;> exact rfl
  | setFlow => exact ruleSetFlow_leavesFifo p s
  | sync =>
    show (ruleSync h s).LeavesFifo _
    unfold ruleSync
    split
    · exact rfl
    · exact .ite rfl trivial
  | reset => exact absurd rfl hk

/-! ## The taking of a frame shortens the FIFO -/

theorem execute_fifo {k : RecordKind} (hk : k ≠ .reset) (h : Header) (p : List Byte) (s : State) :
    (s.execute k h p).rx.fifo = s.rx.fifo :=
  Verdict.LeavesFifo.conclude (v := checkedRule k h p s) (.ite trivial (.ite trivial (ruleOf_leavesFifo hk h p s))) _ _ _

theorem takeCells_rx (s : State) (body : List Byte) : (s.takeCells body).rx = s.rx := by
  unfold State.takeCells
  split
  · rfl
  split
  · rfl
  dsimp only
  split <;> rfl

/-- The Interpreter leaves the FIFO, or empties it at a RESET (R176). -/
theorem interpret_fifo (s before : State) (body : List Byte) :
    (s.interpret before body).rx.fifo = s.rx.fifo ∨ (s.interpret before body).rx.fifo = [] := by
  unfold State.interpret
  split
  · dsimp only
    split
    · exact .inl (Verdict.LeavesFifo.conclude (v := .refuse .unknownKind) trivial _ _ _)
    · exact .inr rfl
    · next k hreset _ => exact .inl (execute_fifo (fun hk => hreset (hk ▸ rfl)) _ _ s)
  · exact .inl rfl

/-- Once the frame at the head has been handed on, no more frames stand behind than stood behind it. -/
theorem handOn_fifo_length (s : State) (f : Frame) : (s.handOn f).rx.fifo.length ≤ s.rx.fifo.tail.length := by
  have hleft : s.leaveIntake.rx.fifo = s.rx.fifo.tail := State.leaveIntake_rx_fifo s
  unfold State.handOn
  split
  · rw [State.latch_rx, takeCells_rx, hleft]
  · obtain h | h := interpret_fifo s.leaveIntake s f.body <;> rw [h]
    · rw [hleft]
    · exact Nat.zero_le _

/-! ## The handing on, frame by frame (R160) -/

theorem mayHandOn_eq (s : State) (f : Frame) : s.mayHandOn f = mayLeave s f := by
  obtain ⟨kind, body⟩ := f
  cases kind <;> simp [State.mayHandOn, mayLeave, State.busy, Frame.isReset, RecordKind.code]

/-- A frame at the head that may be handed on is handed on by its own command. -/
theorem exec_of_mayLeave {s : State} {i : Instr} {f : Frame} (hi : handedFrame i = some f)
    (hf : s.rx.fifo.head? = some f) (hm : mayLeave s f = true) : exec i s = .next (s.handOn f) := by
  rw [exec_of_handedFrame hi, State.deliver_head _ _ hf, mayHandOn_eq, if_pos hm]

/-- A frame at the head that may not be handed on waits. -/
theorem exec_of_not_mayLeave {s : State} {i : Instr} {f : Frame} (hi : handedFrame i = some f)
    (hf : s.rx.fifo.head? = some f) (hm : mayLeave s f = false) : exec i s = .next s := by
  rw [exec_of_handedFrame hi, State.deliver_head _ _ hf, mayHandOn_eq, if_neg (by rw [hm]; exact Bool.false_ne_true)]

/-- With as many handings on allowed as frames stand in the FIFO, the Router goes on until one has to wait or none is
left. -/
theorem handOnUpTo_handsOn (n : Nat) {s : State} (hn : s.rx.fifo.length ≤ n) : HandsOn s (State.handOnUpTo n s) := by
  induction n generalizing s with
  | zero =>
    have hnil : s.rx.fifo = [] := List.length_eq_zero_iff.mp (Nat.le_zero.mp hn)
    exact .rest s fun f hf => by rw [hnil] at hf; cases hf
  | succ n ih =>
    cases hfifo : s.rx.fifo with
    | nil =>
      rw [State.handOnUpTo_nil s _ hfifo]
      exact .rest s fun f hf => by rw [hfifo] at hf; cases hf
    | cons g rest =>
      have hhead : s.rx.fifo.head? = some g := by rw [hfifo]; rfl
      rw [State.handOnUpTo_cons s n g rest hfifo, mayHandOn_eq]
      split
      · next hm =>
        have hshort : (s.handOn g).rx.fifo.length ≤ n := by
          have := handOn_fifo_length s g
          rw [hfifo] at this hn
          exact Nat.le_trans this (Nat.le_of_succ_le_succ hn)
        exact .next s _ _ g hhead hm (exec_of_mayLeave (handedFrame_commandOfFrame g) hhead hm) (ih hshort)
      · next hm =>
        refine .rest s fun f hf => ?_
        rw [hhead] at hf
        cases hf
        exact Bool.eq_false_iff.mpr hm

/-! ## An arrival (R154, R155, R160) -/

section
variable {s u : State} {f : Frame} (hjoins : Joins s u f)
include hjoins

theorem joins_fifo : u.rx.fifo = s.rx.fifo ++ [f] := by
  obtain ⟨-, -, hrx, -⟩ := hjoins
  rw [hrx]

theorem joins_mayLeave (g : Frame) : mayLeave u g = mayLeave s g := by
  obtain ⟨-, -, -, -, -, -, -, hinterp, -⟩ := hjoins
  unfold mayLeave
  rw [hinterp]

end

/-- A command that is its frame's arrival at a FIFO with room: the frame joins, and the Router hands on. -/
theorem exec_arrival {s : State} {i : Instr} {f : Frame} (hi : handedFrame i = some f) (hf : s.rx.fifo.head? ≠ some f)
    (hup : s.rx.down = false) (hb : f.body.length ≤ 4096) (hfit : s.fill + f.size ≤ 32768) :
    ∃ u, Joins s u f ∧ exec i s = .next (State.handOnUpTo u.rx.fifo.length u) :=
  ⟨_, joinIntake_joins hfit, by rw [exec_of_handedFrame hi, State.deliver_fits s f hf hup hb hfit]⟩

/-- Settles O21: the four ways of an arrival, and of the last the chain of handings on. -/
theorem arrivingFrameIsQueuedThenHandedOn : Obligations.ArrivingFrameIsQueuedThenHandedOn := by
  refine fun s i f hi hf => ⟨fun hdown => ?_, fun hup => ⟨fun hlong => ?_, fun hb hfull => ?_, fun hb hfit => ?_⟩⟩
  · rw [exec_of_handedFrame hi, State.deliver_down s f hf hdown]
  · exact ⟨_, by rw [exec_of_handedFrame hi, State.deliver_long s f hf hup hlong], post_event s _⟩
  · exact ⟨_, by rw [exec_of_handedFrame hi, State.deliver_overrun s f hf hup hb hfull], post_event s _⟩
  obtain ⟨u, hjoins, hexec⟩ := exec_arrival hi hf hup hb hfit
  refine ⟨u, hjoins, ⟨_, hexec, handOnUpTo_handsOn _ (Nat.le_refl _)⟩, fun hnil => ?_, fun g rest hfifo hm => ?_⟩
  · have hone : u.rx.fifo = [f] := by rw [joins_fifo hjoins, hnil, List.nil_append]
    have hhead : u.rx.fifo.head? = some f := by rw [hone]; rfl
    rw [hexec, exec_of_handedFrame hi, State.deliver_head u f hhead, hone, List.length_singleton,
      State.handOnUpTo_cons u 0 f [] hone, State.handOnUpTo_zero]
  · have hqueue : u.rx.fifo = g :: (rest ++ [f]) := by rw [joins_fifo hjoins, hfifo, List.cons_append]
    rw [hexec, hqueue, List.length_cons, State.handOnUpTo_cons u _ g _ hqueue, mayHandOn_eq, joins_mayLeave hjoins,
      if_neg (by rw [hm]; exact Bool.false_ne_true)]

/-! ## A CTRL frame that waits (R160) -/

/-- Settles O22: no reason to hand the frame on is left. -/
theorem busyInterpreterHoldsCtrlFrames : Obligations.BusyInterpreterHoldsCtrlFrames := by
  refine fun s i body hi hf hbusy hreset => exec_of_not_mayLeave hi hf (decide_eq_false ?_)
  rintro (hcell | hfree | hwhole)
  · cases hcell
  · exact hbusy hfree
  · exact hreset hwhole

end Sys2Proof.Machine
end

