-- ==== Sys2Proof/Proofs/FlowControl.lean ====
section
/-! SUPPORT. SET FLOW (R156 to R158): the watermarks that it takes, and the flow state judged at once against them. -/

namespace Sys2Proof.Machine

open Sys2Proof Sys2Proof.Claims

/-- The parameters hold watermarks that SET FLOW takes (R158). -/
abbrev WatermarksOk (p : List Byte) : Prop :=
  1024 ≤ u16At p 0 ∧ u16At p 0 ≤ 32768 ∧ u16At p 2 ≤ 32512 ∧ u16At p 0 % 256 = 0 ∧ u16At p 2 % 256 = 0 ∧
    u16At p 2 < u16At p 0

theorem setFlowOperands_none {p : List Byte} (hn : ¬ WatermarksOk p) : setFlowOperands p = none :=
  if_neg fun h => hn (of_decide_eq_true h)

theorem setFlowOperands_eq {p : List Byte} (h : WatermarksOk p) : setFlowOperands p = some (u16At p 0, u16At p 2) :=
  if_pos (decide_eq_true h)

/-- The flow state judged both ways against the watermarks given (R158). -/
def judgedFlow (s : State) (high low : Nat) : FlowState :=
  if s.rx.flow = .flowing ∧ high ≤ s.fill then .paused
  else if s.rx.flow = .paused ∧ s.fill ≤ low then .flowing else s.rx.flow

/-- Only one way of judging can change the flow state, so SET FLOW's rule judges both ways. -/
theorem ruleSetFlow_eq {p : List Byte} {high low : Nat} (hp : setFlowOperands p = some (high, low)) (s : State) :
    ruleSetFlow p s = .ok (toFlow (s.setRx { s.rx with high := high, low := low }) (judgedFlow s high low)) := by
  rw [ruleSetFlow, hp, withOperands_some]
  refine congrArg Verdict.ok ?_
  dsimp only
  split
  · next hflow =>
    have hrise : judgedFlow s high low = flowAfterRise (s.setRx { s.rx with high := high, low := low }) s.fill := by
      simp [judgedFlow, flowAfterRise, hflow]
    rw [judgeRise_eq_toFlow, hrise]
    rfl
  · next hflow =>
    have hfall : judgedFlow s high low = flowAfterFall (s.setRx { s.rx with high := high, low := low }) s.fill := by
      simp [judgedFlow, flowAfterFall, hflow]
    rw [judgeFall_eq_toFlow, hfall]
    rfl

/-- A flow mark that is exactly the unannounced flow state stays so at every change of it (R157). -/
theorem markAfter_exact {s : State} (hmark : s.FlowMarkExact) (f : FlowState) :
    markAfter s f = if f = s.tx.announced then none else some f := by
  unfold markAfter
  split
  · next hf => rw [hf]; exact hmark
  · rfl

theorem leaveIntake_exact {s : State} (hmark : s.FlowMarkExact) : s.leaveIntake.FlowMarkExact := by
  unfold State.FlowMarkExact
  rw [leaveIntake_flowMark, leaveIntake_rx, State.leaveIntake_tx_announced, markAfter_exact hmark]

theorem judgedFlow_leaveIntake (s : State) (high low : Nat) :
    judgedFlow s.leaveIntake high low = judgedFlow (leftIntake s) high low := by
  unfold judgedFlow State.fill
  rw [leaveIntake_rx]
  rfl

/-- The answer to a success, in the words of the statements (R170, R172). -/
theorem conclude_done_eq {s t u : State} {k : RecordKind} {h : Header} {code : Completion} {payload : List Byte}
    (hqueue : t.tx.queue = s.tx.queue) (hinterp : t.interp = s.interp) :
    (Verdict.done t code payload).conclude u k.code k.alwaysAnswered h =
      { t with
        tx := { t.tx with queue := queueAfter s (successReply k h code payload) }
        interp := { s.interp with state := interpAfter s (successReply k h code payload) } } := by
  rw [Verdict.conclude_done]
  unfold successReply
  split
  · rw [State.answer_eq, hqueue, hinterp]
    rfl
  · show t = _
    rw [show queueAfter s .silent = t.tx.queue from hqueue.symm,
      show { s.interp with state := interpAfter s .silent } = t.interp from hinterp.symm]

/-- SET FLOW at the head of the FIFO with watermarks that R158 takes. -/
theorem setFlow_completes {s : State} {h : Header} {p : List Byte} {high low : Nat} (ha : AtHead s .setFlow h p)
    (hlen : p.length = 4) (hp : setFlowOperands p = some (high, low)) (hmark : s.FlowMarkExact) :
    Completes (.setFlow h p) s fun t =>
      worksOf t = worksOf s ∧ t.pending = s.pending ∧
      t.rx = { s.rx with fifo := s.rx.fifo.tail, high := high, low := low, flow := judgedFlow (leftIntake s) high low } ∧
      t.tx.flowMark = (if judgedFlow (leftIntake s) high low = s.tx.announced then none
        else some (judgedFlow (leftIntake s) high low)) ∧
      t.tx.announced = s.tx.announced ∧ t.tx.sending = s.tx.sending ∧
      t.tx.queue = queueAfter s (successReply .setFlow h) ∧
      t.interp = { s.interp with state := interpAfter s (successReply .setFlow h) } ∧ Posts s t 0 [] := by
  refine ⟨_, exec_atHead ha (by decide) (decide_eq_true hlen), ?_⟩
  have hrule : ruleOf .setFlow h p s.leaveIntake = _ := ruleSetFlow_eq hp s.leaveIntake
  rw [hrule, judgedFlow_leaveIntake, Verdict.ok, conclude_done_eq (s := s)]
  case hqueue => exact State.leaveIntake_tx_queue s
  case hinterp => exact State.leaveIntake_interp s
  generalize judgedFlow (leftIntake s) high low = flow
  have hmarked : markAfter s.leaveIntake flow = if flow = s.tx.announced then none else some flow := by
    rw [markAfter_exact (leaveIntake_exact hmark), State.leaveIntake_tx_announced]
  have hrx : { s.leaveIntake.rx with high := high, low := low, flow := flow } =
      { s.rx with fifo := s.rx.fifo.tail, high := high, low := low, flow := flow } := by rw [leaveIntake_rx]
  exact ⟨worksOf_leaveIntake s, State.leaveIntake_pending s, hrx, hmarked, State.leaveIntake_tx_announced s,
    State.leaveIntake_tx_sending s, rfl, rfl, Signals.posts ((leaveIntake_signals s).silent_trans (.of_kept rfl rfl))⟩

/-- Settles O51: the operands in range or refused, and the flow state judged without the record's own frame. -/
theorem setFlowJudgesAtOnce : Obligations.SetFlowJudgesAtOnce := by
  refine fun s h p hlen ha => ⟨fun hn => ?_, fun hok hmark => setFlow_completes ha hlen (setFlowOperands_eq hok) hmark⟩
  refine refused_atHead ha (by decide) (decide_eq_true hlen) ?_
  show ruleSetFlow p s.leaveIntake = _
  rw [ruleSetFlow, setFlowOperands_none hn, withOperands_none]

end Sys2Proof.Machine
end

