-- ==== Sys2Proof/Proofs/Transmitter.lean ====
section
/-! SUPPORT. The Upstream Transmitter: its choice in the order of R163, and the claims on the entry that a frame of the
Upstream Queue frees (R162, R172). -/

namespace Sys2Proof.Machine

open Sys2Proof Sys2Proof.Claims

/-! ## The Transmitter's choice (R163) -/

/-- The lowest-numbered head with a pending ROOM mark is chosen, with its OPEN lane. -/
theorem roomChoice_eq {s : State} {h : HeadNo} {l : Lane} (hl : s.lanes[h] = some l) (hr : s.tx.room[h] = true)
    (hlow : ∀ g : HeadNo, g < h → s.tx.room[g] = false) : s.roomChoice = some (h, l) := by
  have hchosen : (if s.tx.room[h] then s.lanes[h].map fun m => (h, m) else none) = some (h, l) := by
    rw [if_pos hr, hl]
    rfl
  cases hfound : s.roomChoice with
  | none =>
    rw [List.findSome?_eq_none_iff.mp hfound h (mem_allHeads h)] at hchosen
    cases hchosen
  | some found =>
    obtain ⟨before, k, after, hheads, hk, hnone⟩ := List.findSome?_eq_some_iff.mp hfound
    have hroom : s.tx.room[k] = true := by
      by_contra hclear
      rw [if_neg hclear] at hk
      cases hk
    have horder : (before ++ k :: after).Pairwise (· < ·) := hheads ▸ List.pairwise_lt_finRange 8
    obtain ⟨-, hfrom, -⟩ := List.pairwise_append.mp horder
    have hmem : h ∈ before ++ k :: after := hheads ▸ mem_allHeads h
    obtain hbefore | hrest := List.mem_append.mp hmem
    · rw [hnone h hbefore] at hchosen
      cases hchosen
    obtain rfl | hafter := List.mem_cons.mp hrest
    · rw [← hk, hchosen]
    · have hlt : k < h := List.rel_of_pairwise_cons hfrom hafter
      rw [hlow k hlt] at hroom
      cases hroom

theorem roomChoice_none {s : State} (hr : ∀ h : HeadNo, s.tx.room[h] = false) : s.roomChoice = none :=
  List.findSome?_eq_none_iff.mpr fun h _ => if_neg (by rw [hr h]; exact Bool.false_ne_true)

section
variable {s : State}

theorem chooseFrame_flowMark {f : FlowState} (hm : s.tx.flowMark = some f) :
    s.chooseFrame =
      some ({ kind := .mark, body := flowMarkBody f }, s.setTx { s.tx with flowMark := none, announced := f }) := by
  rw [State.chooseFrame, hm]

theorem chooseFrame_room {h : HeadNo} {l : Lane} (hm : s.tx.flowMark = none) (hc : s.roomChoice = some (h, l)) :
    s.chooseFrame =
      some ({ kind := .mark, body := roomMarkBody l },
        s.setTx { s.tx with room := updAt s.tx.room h fun _ => false }) := by
  rw [State.chooseFrame, hm, hc]

variable (hm : s.tx.flowMark = none) (hr : ∀ h : HeadNo, s.tx.room[h] = false)
include hm hr

theorem chooseFrame_notice (hn : s.tx.notice = true) :
    s.chooseFrame = some ({ kind := .notice, body := s.noticeBody }, s.setTx { s.tx with notice := false }) := by
  rw [State.chooseFrame, hm, roomChoice_none hr]
  exact if_pos hn

theorem chooseFrame_queue (hn : s.tx.notice = false) {f : UpFrame} {rest : List UpFrame} (hq : s.tx.queue = f :: rest) :
    s.chooseFrame = some (f, s.setTx { s.tx with queue := rest }) := by
  simp [State.chooseFrame, hm, roomChoice_none hr, hn, hq]

theorem chooseFrame_none (hn : s.tx.notice = false) (hq : s.tx.queue = []) : s.chooseFrame = none := by
  simp [State.chooseFrame, hm, roomChoice_none hr, hn, hq]

end

theorem flowMark_frame (f : FlowState) :
    ({ kind := .mark, body := flowMarkBody f } : UpFrame) = markFrame [0, if f = .paused then 1 else 2, 0] := by
  cases f <;> rfl

theorem roomMark_frame (l : Lane) :
    ({ kind := .mark, body := roomMarkBody l } : UpFrame) = markFrame ([1, l.tag] ++
      code1 ((if l.slot0 = .free then 1 else 0) + (if l.slot1 = .free then 1 else 0))) := by
  unfold roomMarkBody Lane.freeSlots
  simp only [TrackSlot.isFree_iff]
  rfl

/-! ## The claims on the free entries (R162, R172) -/

section
variable {s : State}

theorem upstreamRoom_full (hfull : 64 ≤ s.tx.queue.length) : s.upstreamRoom = false :=
  decide_eq_false (Nat.not_lt.mpr hfull)

theorem claimExpansion_idle (hf : s.expander.finished = false) : s.claimExpansion = s := by
  rw [State.claimExpansion, hf]
  rfl

theorem claimExpansion_full (hfull : 64 ≤ s.tx.queue.length) : s.claimExpansion = s := by
  rw [State.claimExpansion, upstreamRoom_full hfull, Bool.and_false]
  rfl

theorem claimExpansion_completes (hf : s.expander.finished = true) (hroom : s.tx.queue.length < 64) :
    s.claimExpansion = s.completeExpansion :=
  if_pos (by rw [hf, State.upstreamRoom, decide_eq_true hroom]; rfl)

/-- With the first `n` due entries fitting, their answers are placed (R174). -/
theorem placeDueSyncs_eq {fit : List SyncEntry} (hfit : (dueOf s.interp.syncs).take (64 - s.tx.queue.length) = fit) :
    s.placeDueSyncs =
      { s with
        tx := { s.tx with queue := s.tx.queue ++ fit.map syncAnswer }
        interp := { s.interp with syncs := withoutDue fit.length s.interp.syncs } } := by
  subst hfit
  rw [withoutDue_eq_dropDue]
  rfl

theorem placeDueSyncs_nothing (hfit : (dueOf s.interp.syncs).take (64 - s.tx.queue.length) = []) :
    s.placeDueSyncs = s := by
  rw [placeDueSyncs_eq hfit, withoutDue_eq_dropDue, List.length_nil, dropDue_zero, List.map_nil, List.append_nil]

theorem placeDueSyncs_idle (hd : dueOf s.interp.syncs = []) : s.placeDueSyncs = s :=
  placeDueSyncs_nothing (by rw [hd, List.take_nil])

theorem placeDueSyncs_at_full (hfull : 64 ≤ s.tx.queue.length) : s.placeDueSyncs = s :=
  placeDueSyncs_nothing (by rw [Nat.sub_eq_zero_of_le hfull, List.take_zero])

theorem claimInterpreter_full (hfull : 64 ≤ s.tx.queue.length) : s.claimInterpreter = s :=
  if_neg (by rw [upstreamRoom_full hfull]; exact Bool.false_ne_true)

theorem claimInterpreter_idle (hr : s.interp.state.holdsResult = false) (hb : s.interp.state.holdsReadback = false) :
    s.claimInterpreter = s := by
  unfold State.claimInterpreter
  split
  · split
    · next h => rw [h] at hr; cases hr
    · next h => rw [h] at hb; cases hb
    · rfl
  · rfl

/-- With no claim or no free entry nothing is granted. -/
theorem grantEntries_nothing (hn : NoClaim s ∨ 64 ≤ s.tx.queue.length) : s.grantEntries = s := by
  unfold State.grantEntries
  obtain ⟨hf, hd, hr, hb⟩ | hfull := hn
  · rw [claimExpansion_idle hf, placeDueSyncs_idle hd, claimInterpreter_idle hr hb]
  · rw [claimExpansion_full hfull, placeDueSyncs_at_full hfull, claimInterpreter_full hfull]

end

/-! ## UPSTREAM_SEND_BEGIN (R163) -/

section
variable {s : State}

theorem exec_upstreamSendBegin (s : State) : exec .upstreamSendBegin s = .next (s.sendEvent.handOnIfFreed s) := rfl

theorem linkFree_iff (s : State) : s.linkFree = true ↔ linkIsFree s := by
  simp [State.linkFree, linkIsFree]

theorem handOnIfFreed_self (s : State) : s.handOnIfFreed s = s :=
  handOnIfFreed_not_frees fun ⟨hbusy, hfree, _⟩ => hbusy hfree

/-- An event that leaves the Interpreter's state frees nothing. -/
theorem handOnIfFreed_of_state {u : State} (h : u.interp.state = s.interp.state) : u.handOnIfFreed s = u :=
  handOnIfFreed_not_frees fun ⟨hbusy, hfree, _⟩ => hbusy (h ▸ hfree)

theorem sendEvent_busy (hlink : ¬ linkIsFree s) : s.sendEvent = s := if_neg (mt (linkFree_iff s).mp hlink)

theorem sendEvent_none (hlink : linkIsFree s) (hc : s.chooseFrame = none) : s.sendEvent = s := by
  have hbegin : s.beginSending = s := by rw [State.beginSending, hc]
  rw [State.sendEvent, if_pos ((linkFree_iff s).mpr hlink), State.event_eq, hbegin]
  exact State.latch_of_conditions s s rfl

/-- The frame chosen is being sent, and the claims that wait take the entry that it frees. -/
theorem sendEvent_eq (hlink : linkIsFree s) {f : UpFrame} {tx : Transmitter} (hc : s.chooseFrame = some (f, s.setTx tx)) :
    s.sendEvent = s.latch (State.grantEntries { s with tx := { tx with sending := some f } }) := by
  have hbegin : s.beginSending = State.grantEntries { s with tx := { tx with sending := some f } } := by
    rw [State.beginSending, hc]
    rfl
  rw [State.sendEvent, if_pos ((linkFree_iff s).mpr hlink), State.event_eq, hbegin]

/-- A choice at which no claim takes an entry changes the Transmitter alone. -/
theorem sendBegin_txOnly (hlink : linkIsFree s) {f : UpFrame} {tx : Transmitter}
    (hc : s.chooseFrame = some (f, s.setTx tx)) (hn : NoClaim s ∨ 64 ≤ tx.queue.length) :
    Completes .upstreamSendBegin s fun t => TxOnly s t { tx with sending := some f } := by
  have hevent : s.sendEvent = { s with tx := { tx with sending := some f } } := by
    rw [sendEvent_eq hlink hc, grantEntries_nothing hn]
    exact State.latch_of_conditions s _ rfl
  refine ⟨_, exec_upstreamSendBegin s, ?_⟩
  rw [hevent]
  exact handOnIfFreed_of_state rfl

end

/-- Settles O54: what is chosen at each place of the order, with nothing granted beside it. -/
theorem transmitterChoosesInOrder : Obligations.TransmitterChoosesInOrder := by
  refine fun s => ⟨rfl, fun hbusy => ?_, fun hlink hn => ⟨fun f hm => ?_, fun hm => ⟨fun h l hl hroom hlow => ?_,
    fun hr => ⟨fun hnotice => ?_, fun hnotice => ⟨fun hq => ?_, fun hclaim f rest hq => ?_⟩⟩⟩⟩⟩
  · rw [exec_upstreamSendBegin, sendEvent_busy hbusy, handOnIfFreed_self]
  · rw [← flowMark_frame]
    exact sendBegin_txOnly hlink (chooseFrame_flowMark hm) hn
  · rw [← roomMark_frame]
    exact sendBegin_txOnly hlink (chooseFrame_room hm (roomChoice_eq hl hroom hlow)) hn
  · exact sendBegin_txOnly hlink (chooseFrame_notice hm hr hnotice) hn
  · rw [exec_upstreamSendBegin, sendEvent_none hlink (chooseFrame_none hm hr hnotice hq), handOnIfFreed_self]
  · exact sendBegin_txOnly hlink (chooseFrame_queue hm hr hnotice hq) (.inl hclaim)

/-! ## The one free entry, and who takes it (R162, R172) -/

section
variable {b : State} (hlen : b.tx.queue.length = 63)
include hlen

theorem length_queue_append (r : UpFrame) : (b.tx.queue ++ [r]).length = 64 := by
  rw [List.length_append, hlen, List.length_singleton]

/-- The Expander's waiting completion comes first, and leaves no entry free (R32). -/
theorem grantEntries_expansion {load : Load} {loads : List Load} (hf : b.expander.finished = true)
    (hq : b.expander.queue = load :: loads) (hn : load.notify = true) : b.grantEntries = b.completeExpansion := by
  have hfull : 64 ≤ b.completeExpansion.tx.queue.length := by
    rw [completeExpansion_eq hq]
    show 64 ≤ (b.tx.queue ++ loadAnswer load).length
    rw [loadAnswer, if_pos hn, length_queue_append hlen]
  rw [State.grantEntries, claimExpansion_completes hf (by omega), placeDueSyncs_at_full hfull, claimInterpreter_full hfull]

/-- The first due SYNC answer comes next, and leaves no entry free (R174). -/
theorem grantEntries_sync {e : SyncEntry} {more : List SyncEntry} (hf : b.expander.finished = false)
    (hd : dueOf b.interp.syncs = e :: more) :
    b.grantEntries =
      { b with
        tx := { b.tx with queue := b.tx.queue ++ [syncAnswer e] }
        interp := { b.interp with syncs := withoutDue 1 b.interp.syncs } } := by
  have hfit : (dueOf b.interp.syncs).take (64 - b.tx.queue.length) = [e] := by rw [hd, hlen]; rfl
  rw [State.grantEntries, claimExpansion_idle hf, placeDueSyncs_eq hfit]
  exact claimInterpreter_full (Nat.le_of_eq (length_queue_append hlen _).symm)

variable (hf : b.expander.finished = false) (hd : dueOf b.interp.syncs = [])
include hf hd

/-- Then the RESULT of a WAITING Interpreter (R172). -/
theorem grantEntries_result {r : UpFrame} (hi : b.interp.state = .waiting r) :
    b.grantEntries = (b.place r).setInterp { b.interp with state := .free } := by
  have hroom : b.upstreamRoom = true := decide_eq_true (show b.tx.queue.length < 64 by omega)
  rw [State.grantEntries, claimExpansion_idle hf, placeDueSyncs_idle hd, State.claimInterpreter, if_pos hroom, hi]

/-- Or the frame of a readback that waits (R151, R172). -/
theorem grantEntries_readback {rb : Readback} (hi : b.interp.state = .waitingReadback rb) :
    b.grantEntries = b.placeReadback rb := by
  have hroom : b.upstreamRoom = true := decide_eq_true (show b.tx.queue.length < 64 by omega)
  rw [State.grantEntries, claimExpansion_idle hf, placeDueSyncs_idle hd, State.claimInterpreter, if_pos hroom, hi]

end

/-! ## The sending of a frame of a full Upstream Queue -/

/-- The state in which the oldest frame of the Upstream Queue has left it to be sent. -/
def dequeued (s : State) (f : UpFrame) (rest : List UpFrame) : State :=
  { s with tx := { s.tx with queue := rest, sending := some f } }

theorem sendEvent_queue {s : State} {f : UpFrame} {rest : List UpFrame} (hnext : queueIsNext s f rest) :
    s.sendEvent = s.latch (dequeued s f rest).grantEntries := by
  obtain ⟨hlink, hm, hr, hnotice, hq⟩ := hnext
  rw [sendEvent_eq hlink (chooseFrame_queue hm hr hnotice hq)]
  rfl

section
variable {s : State} {f : UpFrame} {rest : List UpFrame} (hnext : queueIsNext s f rest) (hlen : rest.length = 63)
include hnext hlen

/-- The freed entry goes to the Expander's waiting completion. -/
theorem sendBegin_expansion {load : Load} {loads : List Load} (hf : s.expander.finished = true)
    (hq : s.expander.queue = load :: loads) (hn : load.notify = true) :
    Completes .upstreamSendBegin s fun t =>
      worksOf t = completedWorks s load loads ∧ t.pending = s.pending ∧ t.rx = s.rx ∧
      t.tx.queue = rest ++ loadAnswer load ∧ t.tx.sending = some f ∧
      t.interp = { s.interp with syncs := nowDue load.slot s.interp.syncs } ∧
      t.tx.flowMark = none ∧ t.tx.announced = s.tx.announced ∧ Posts s t 0 [] := by
  obtain ⟨-, hm, -⟩ := id hnext
  have hevent : s.sendEvent = s.latch (dequeued s f rest).completeExpansion := by
    rw [sendEvent_queue hnext, grantEntries_expansion (b := dequeued s f rest) hlen hf hq hn]
  rw [completeExpansion_eq (s := dequeued s f rest) hq] at hevent
  have hkept : s.sendEvent.interp.state = s.interp.state := by rw [hevent]; rfl
  refine ⟨s.sendEvent, by rw [exec_upstreamSendBegin, handOnIfFreed_of_state hkept], ?_⟩
  rw [hevent]
  exact ⟨rfl, rfl, rfl, rfl, rfl, rfl, hm, rfl, Signals.posts (.of_kept rfl rfl)⟩

/-- The freed entry goes to the first due SYNC answer. -/
theorem sendEvent_sync {e : SyncEntry} {more : List SyncEntry} (hf : s.expander.finished = false)
    (hd : dueOf s.interp.syncs = e :: more) :
    s.sendEvent =
      { dequeued s f rest with
        tx := { s.tx with queue := rest ++ [syncAnswer e], sending := some f }
        interp := { s.interp with syncs := withoutDue 1 s.interp.syncs } } := by
  rw [sendEvent_queue hnext, grantEntries_sync (b := dequeued s f rest) hlen hf hd]
  exact State.latch_of_conditions s _ rfl

variable (hf : s.expander.finished = false) (hd : dueOf s.interp.syncs = [])
include hf hd

/-- The freed entry goes to the RESULT of the Interpreter. -/
theorem sendEvent_result {r : UpFrame} (hi : s.interp.state = .waiting r) :
    LinkOnly s s.sendEvent (rest ++ [r]) (some f) { s.interp with state := .free } := by
  have hevent : s.sendEvent = ((dequeued s f rest).place r).setInterp { s.interp with state := .free } := by
    rw [sendEvent_queue hnext, grantEntries_result (b := dequeued s f rest) hlen hf hd hi]
    exact State.latch_of_conditions s _ rfl
  rw [hevent]
  exact ⟨rfl, rfl, rfl, rfl, rfl, rfl, rfl, rfl, rfl, rfl⟩

/-- The freed entry goes to the next frame of a readback. -/
theorem sendEvent_readback {rb : Readback} {c : Capture} (hi : s.interp.state = .waitingReadback rb)
    (hc : s.captureOf rb.id = some c) :
    LinkOnly s s.sendEvent (rest ++ [(nextFrame c rb).1]) (some f) { s.interp with state := (nextFrame c rb).2 } := by
  have hevent : s.sendEvent = (dequeued s f rest).placeReadback rb := by
    rw [sendEvent_queue hnext, grantEntries_readback (b := dequeued s f rest) hlen hf hd hi]
    exact State.latch_of_conditions s _ rfl
  rw [hevent, nextFrame_eq hc]
  exact ⟨rfl, rfl, rfl, rfl, rfl, rfl, rfl, rfl, rfl, rfl⟩

end

/-! ## The names of a sending that frees an entry (R151, R172, R174) -/

/-- A set with a due entry is shorter without the first of them. -/
theorem withoutDue_one_length {syncs : List SyncEntry} (hd : dueOf syncs ≠ []) :
    (withoutDue 1 syncs).length < syncs.length := by
  rw [withoutDue_eq_dropDue]
  induction syncs with
  | nil => exact absurd rfl hd
  | cons e es ih =>
    rw [dropDue_succ]
    split
    · rw [dropDue_zero]
      exact Nat.lt_succ_self _
    · next hn => exact Nat.succ_lt_succ (ih fun hnil => hd ((List.filter_cons_of_neg hn).trans hnil))

section
variable {s : State}

theorem exec_syncAnswerPlaced_sends (hd : dueOf s.interp.syncs ≠ [])
    (hshort : s.sendEvent.interp.syncs.length < s.interp.syncs.length) :
    exec .syncAnswerPlaced s = exec .upstreamSendBegin s := by
  have hdue : s.interp.syncs.any SyncEntry.due = true := by
    obtain ⟨e, he⟩ := List.exists_mem_of_ne_nil _ hd
    obtain ⟨hmem, hload⟩ := List.mem_filter.mp he
    exact List.any_eq_true.mpr ⟨e, hmem, hload⟩
  exact congrArg Host.Outcome.next (if_pos (by rw [hdue, decide_eq_true hshort]; rfl))

theorem exec_resultPlaced_sends {r : UpFrame} (hi : s.interp.state = .waiting r)
    (hplaced : s.sendEvent.interp.state.holdsResult = false) :
    exec .resultPlaced s = exec .upstreamSendBegin s :=
  congrArg Host.Outcome.next (if_pos (by rw [hi, hplaced]; rfl))

theorem exec_captureDataPlaced_sends {rb : Readback} (hi : s.interp.state = .waitingReadback rb)
    (hplaced : s.sendEvent.interp.state.holdsReadback = false) :
    exec .captureDataPlaced s = exec .upstreamSendBegin s := by
  show execCaptureDataPlaced s = _
  rw [execCaptureDataPlaced, hi]
  exact congrArg Host.Outcome.next (if_pos (by rw [hplaced]; rfl))

/-- A readback whose frame has been placed waits no more. -/
theorem nextFrame_holdsReadback (c : Capture) (rb : Readback) : (nextFrame c rb).2.holdsReadback = false := by
  unfold nextFrame
  dsimp only
  split <;> rfl

end

/-- Settles O55: the claims in their order, each by what it makes of the one free entry. -/
theorem freedEntryGoesToTheFirstClaim : Obligations.FreedEntryGoesToTheFirstClaim := by
  refine fun s f rest hnext hlen => ⟨fun load loads hf hq hn => sendBegin_expansion hnext hlen hf hq hn,
    fun hf => ⟨fun e more hd => ?_, fun hd => ⟨fun r hi => ?_, fun rb c hi hc => ?_⟩⟩⟩
  · have hdue : dueOf s.interp.syncs ≠ [] := by rw [hd]; exact List.cons_ne_nil _ _
    have hevent := sendEvent_sync hnext hlen hf hd
    have hkept : s.sendEvent.interp.state = s.interp.state := by rw [hevent]
    have hbegin : exec .upstreamSendBegin s = .next s.sendEvent := by
      rw [exec_upstreamSendBegin, handOnIfFreed_of_state hkept]
    refine ⟨s.sendEvent, (exec_syncAnswerPlaced_sends hdue ?_).trans hbegin, hbegin, ?_⟩
    · rw [hevent]
      exact withoutDue_one_length hdue
    · rw [hevent]
      exact ⟨rfl, rfl, rfl, rfl, rfl, rfl, rfl, rfl, rfl, rfl⟩
  · have hlink := sendEvent_result hnext hlen hf hd hi
    obtain ⟨-, -, -, -, -, hinterp, -⟩ := id hlink
    have hexec := exec_resultPlaced_sends hi (congrArg (fun i => i.state.holdsResult) hinterp)
    exact ⟨hexec, endsThenHandsOn_of_handOnIfFreed hlink (hexec.trans (exec_upstreamSendBegin s))⟩
  · have hlink := sendEvent_readback hnext hlen hf hd hi hc
    obtain ⟨-, -, -, -, -, hinterp, -⟩ := id hlink
    have hexec := exec_captureDataPlaced_sends hi (by rw [hinterp]; exact nextFrame_holdsReadback c rb)
    exact ⟨hexec, endsThenHandsOn_of_handOnIfFreed hlink (hexec.trans (exec_upstreamSendBegin s))⟩

end Sys2Proof.Machine
end

