-- ==== Sys2Proof/Proofs/ControlRecords.lean ====
section
/-! SUPPORT. What holds of every control record before its own rule: it is read back whole from its frame (R166, R186), and
its form is checked first (R166, R169). -/

namespace Sys2Proof.Machine

open Sys2Proof Sys2Proof.Claims

/-! ## The command read from a frame (R166, R186) -/

theorem commandOfFrame_record (k : RecordKind) (h : Header) (p : List Byte) :
    commandOfFrame (recordFrame k h p) = k.command h p := by
  simp only [commandOfFrame, recordFrame, recordBody, RecordKind.ofCode_code, tag_of_bytes]

theorem commandOfFrame_unknown {kind : Byte} (hk : RecordKind.ofCode kind = none) (h : Header) (p : List Byte) :
    commandOfFrame { kind := .ctrl, body := recordBody kind h p } = .unknownKind kind h p := by
  simp only [commandOfFrame, recordBody, hk, tag_of_bytes]

theorem commandOfFrame_short {body : List Byte} (hb : body.length < 4) :
    commandOfFrame { kind := .ctrl, body := body } = .ctrlFrameNoHeader body := by
  match body, hb with
  | [], _ | [_], _ | [_, _], _ | [_, _, _], _ => rfl

/-- A well-formed command that hands a frame on is read back from it. Well-formedness keeps a CTRL_FRAME_NO_HEADER from
spelling a header, and an UNKNOWN_KIND from naming a kind of the catalogue. -/
theorem commandOfFrame_handedFrame {i : Instr} {f : Frame} (hi : i.wellFormed = true) (hf : handedFrame i = some f) :
    commandOfFrame f = i := by
  cases i with
  | cellFrame body => cases hf; rfl
  | ctrlFrameNoHeader body => cases hf; exact commandOfFrame_short (of_decide_eq_true hi)
  | unknownKind kind h p =>
    obtain ⟨hkind, -⟩ := Bool.and_eq_true_iff.mp hi
    cases hf
    exact commandOfFrame_unknown (Option.isNone_iff_eq_none.mp hkind) h p
  | powerOnReset | tick | index | internalTickGenerator | indexLost | stall | markStop | alarmLineChange
  | readyLineChange | linkSyncLost | linkSyncGained | frameReceived | expansionComplete | captureDataPlaced
  | syncAnswerPlaced | resultPlaced | upstreamSendBegin | upstreamSendEnd => cases hf
  | _ => cases hf; exact commandOfFrame_record _ _ _

/-- Settles O20: a command from its frame, and a frame from its command. -/
theorem commandsAndFramesAgree : Obligations.CommandsAndFramesAgree :=
  ⟨fun _ _ => commandOfFrame_handedFrame, handedFrame_commandOfFrame⟩

/-! ## The checks of form (R166, R169) -/

/-- With the Interpreter FREE, the command of the CTRL frame at the head of the FIFO is its being taken (R160). -/
theorem exec_ctrl_at_head {i : Instr} {body : List Byte} {s : State}
    (hi : handedFrame i = some { kind := .ctrl, body := body })
    (hhead : s.rx.fifo.head? = some { kind := .ctrl, body := body }) (hfree : s.interp.state = .free) :
    exec i s = .next (s.leaveIntake.interpret s body) := by
  rw [exec_of_handedFrame hi, State.deliver_head _ _ hhead, State.mayHandOn_free _ _ hfree, if_pos rfl, State.handOn_ctrl]

/-- A verdict of refusal on the frame that has left the FIFO is the record's refusal (R169, R170). -/
theorem conclude_refused_refuses (s : State) (kind : Byte) (always : Bool) (h : Header) (code : Completion)
    (payload : List Byte) :
    Refused s (s.latch ((Verdict.refused code payload).conclude s.leaveIntake kind always h)) kind h code payload := by
  rw [Verdict.conclude_refused]
  refine ⟨by simp, leavesAndReplies_result (.raise ..) _, Signals.posts ?_⟩
  exact ((leaveIntake_signals s).silent_trans (.raise ..)).trans_silent (answer_signals ..)

/-- A body without a header posts UNKNOWN_FRAME and is not answered (R166). -/
theorem noHeader_completes {s : State} {body : List Byte} (hshort : body.length < 4)
    (hhead : s.rx.fifo.head? = some { kind := .ctrl, body := body }) (hfree : s.interp.state = .free) :
    Completes (.ctrlFrameNoHeader body) s fun t =>
      Takes s t (worksOf s) 0 [entry s .unknownFrame] .silent s.interp.syncs := by
  refine ⟨_, exec_ctrl_at_head rfl hhead hfree, ?_⟩
  rw [State.interpret_short _ _ _ hshort, ← entry_leaveIntake]
  exact ⟨by simp, leavesAndReplies_silent (.post ..), ((leaveIntake_signals s).silent_trans (.post ..)).posts⟩

/-- A kind outside the catalogue is refused with UNKNOWN_KIND (R169 check 1). -/
theorem unknownKind_refused {s : State} {kind : Byte} {h : Header} {p : List Byte} (hkind : RecordKind.ofCode kind = none)
    (hhead : s.rx.fifo.head? = some { kind := .ctrl, body := recordBody kind h p }) (hfree : s.interp.state = .free) :
    Completes (.unknownKind kind h p) s fun t => Refused s t kind h .unknownKind := by
  refine ⟨_, exec_ctrl_at_head rfl hhead hfree, ?_⟩
  rw [State.interpret_unknown _ _ _ _ _ hkind]
  exact conclude_refused_refuses ..

/-- A record of the catalogue that a check before its own rule refuses (R169 checks 2 and 3). -/
theorem checkedRule_refused {s : State} {k : RecordKind} {h : Header} {p : List Byte} {code : Completion}
    (hk : k ≠ .reset) (hhead : s.rx.fifo.head? = some (recordFrame k h p)) (hfree : s.interp.state = .free)
    (hcheck : checkedRule k h p s.leaveIntake = .refused code []) :
    Completes (k.command h p) s fun t => Refused s t k.code h code := by
  refine ⟨_, exec_record_at_head k h p s hk hhead hfree, ?_⟩
  rw [hcheck]
  exact conclude_refused_refuses ..

/-- Settles O23: each check of form where it stands in the order of R169. -/
theorem formChecksComeFirst : Obligations.FormChecksComeFirst := by
  refine fun s hfree => ⟨fun body hshort hhead => noHeader_completes hshort hhead hfree,
    fun kind h p hkind hhead => unknownKind_refused hkind hhead hfree, fun k h p hk hhead => ⟨fun hlen => ?_,
      fun hlen hnotify => ?_⟩⟩
  · exact checkedRule_refused hk hhead hfree (checkedRule_badLength k h p _ hlen)
  · exact checkedRule_refused hk hhead hfree (checkedRule_badNotify k h p _ hlen hnotify)

end Sys2Proof.Machine
end

