-- ==== Sys2Proof/Proofs/SyncAndReset.lean ====
section
/-! SUPPORT. The Interpreter's own two records: SYNC, which waits for the load at the tail of the Expansion Queue (R173), and
RESET, which is taken in every state of the Interpreter (R175 to R177). -/

namespace Sys2Proof.Machine

open Sys2Proof Sys2Proof.Claims

/-! ## SYNC (R173) -/

section
variable {s : State} {load : Load} (h : Header)

theorem ruleSync_empty (hlast : s.expander.queue.getLast? = none) : ruleSync h s = .ok s := by rw [ruleSync, hlast]

theorem ruleSync_joins (hlast : s.expander.queue.getLast? = some load) (hroom : s.interp.syncs.length < 16) :
    ruleSync h s =
      .later (s.setInterp
        { s.interp with syncs := s.interp.syncs ++ [{ tag := h.tag, load := some load.slot }] }) := by
  simp only [ruleSync, hlast]
  exact if_pos hroom

theorem ruleSync_full (hlast : s.expander.queue.getLast? = some load) (hfull : ¬ s.interp.syncs.length < 16) :
    ruleSync h s = .refused .noSpace [] := by
  simp only [ruleSync, hlast]
  exact if_neg hfull

end

@[simp] theorem worksOf_setInterp (s : State) (i : Interpreter) : worksOf (s.setInterp i) = worksOf s := rfl

theorem setInterp_signals (s : State) (i : Interpreter) : Signals s (s.setInterp i) 0 [] := .of_kept rfl rfl

/-- What a record's own rule leaves of the link, with the outstanding SYNC set changed. -/
theorem leavesAndReplies_syncs {s t : State} (hl : LinkKept s.leaveIntake t) (syncs : List SyncEntry) :
    LeavesAndReplies s (s.latch (t.setInterp { t.interp with syncs := syncs })) .silent syncs := by
  have hinterp : t.interp = s.interp := hl.interp.trans (State.leaveIntake_interp s)
  obtain ⟨hpending, hrx, hmark, hannounced, hsending, hqueue, -⟩ := leavesAndReplies_silent hl
  rw [hinterp]
  exact ⟨hpending, hrx, hmark, hannounced, hsending, hqueue, rfl⟩

/-- A record at the head of the FIFO whose rule changes the outstanding SYNC set, and nothing else. -/
theorem joinsSyncs_atHead {s : State} {k : RecordKind} {h : Header} {p : List Byte} {syncs : List SyncEntry}
    (ha : AtHead s k h p) (hk : k ≠ .reset) (hlen : k.lengthOk p = true)
    (hrule : ruleOf k h p s.leaveIntake =
      .later (s.leaveIntake.setInterp { s.leaveIntake.interp with syncs := syncs })) :
    Completes (k.command h p) s fun t => Takes s t (worksOf s) 0 [] .silent syncs := by
  refine ⟨_, exec_atHead ha hk hlen, ?_⟩
  rw [hrule, Verdict.conclude_later]
  exact ⟨by simp, leavesAndReplies_syncs (.refl _) syncs,
    ((leaveIntake_signals s).silent_trans (setInterp_signals ..)).posts⟩

/-- Settles O52: the three ways of SYNC's rule. -/
theorem syncWaitsForTheLastLoad : Obligations.SyncWaitsForTheLastLoad := by
  intro s h ha
  cases hlast : s.expander.queue.getLast? with
  | none =>
    rw [← State.leaveIntake_expander s] at hlast
    rw [← worksOf_leaveIntake s]
    exact succeeds_atHead ha (by decide) rfl (ruleSync_empty h hlast) (.refl _) (.refl _)
  | some load =>
    rw [← State.leaveIntake_expander s] at hlast
    rw [← State.leaveIntake_interp s]
    by_cases hroom : s.leaveIntake.interp.syncs.length < 16
    · simp only [if_pos hroom]
      exact joinsSyncs_atHead ha (by decide) rfl (ruleSync_joins h hlast hroom)
    · simp only [if_neg hroom]
      exact refused_atHead ha (by decide) rfl (ruleSync_full h hlast hroom)

/-! ## RESET (R175 to R177) -/

/-- The end of a job, which RESET begins with if there is one, leaves the link (R131). -/
theorem endJobIfActive_kept (s : State) : LinkKept s (if s.seq.state.active then s.endJob .aborted else s) := by
  split
  · exact endJob_kept s .aborted
  · exact .refl s

/-- What RESET keeps of the link and the waiting commands, beside what it clears of them (R176, R177). -/
theorem softReset_link (s : State) (tag : Tag) :
    (s.softReset tag).pending = s.pending ∧ (s.softReset tag).rx = { s.rx with fifo := [], flow := .flowing } ∧
    (s.softReset tag).tx.sending = s.tx.sending := by
  have hkept := endJobIfActive_kept s
  unfold State.softReset
  generalize (if s.seq.state.active then s.endJob .aborted else s) = stopped at hkept ⊢
  rw [← hkept.pending, ← hkept.rx, ← hkept.sending]
  exact ⟨by simp, by simp, by simp⟩

/-- RESET clears the same works whether its frame still stands in the FIFO or not. -/
theorem resetWorks_leaveIntake (s : State) : resetWorks s.leaveIntake = resetWorks s := by
  simp only [resetWorks, State.leaveIntake_screens, State.leaveIntake_grads, State.leaveIntake_monitor,
    State.leaveIntake_seq, State.leaveIntake_ports, State.leaveIntake_tallies]

/-- RESET's RESULT counts the loads and the SYNC entries of the state in which its frame stands at the head (R177). -/
theorem softReset_leaveIntake_queue (s : State) (tag : Tag) :
    (s.leaveIntake.softReset tag).tx.queue =
      [resultFrame tag 0x5F .done (code1 s.expander.queue.length ++ code1 s.interp.syncs.length)] := by
  show [resetResult tag s.leaveIntake.expander.queue.length s.leaveIntake.interp.syncs.length] = _
  rw [State.leaveIntake_expander, State.leaveIntake_interp]
  rfl

/-- Settles O53: the works cleared, the link's side that is kept, and the RESULT alone; the rest is written as it stands. -/
theorem resetClearsAndAnswersAlone : Obligations.ResetClearsAndAnswersAlone := by
  intro s h p hhead
  obtain ⟨hpending, hrx, hsending⟩ := softReset_link s.leaveIntake h.tag
  refine ⟨_, exec_reset_at_head h p s hhead, ?_, ?_, ?_, rfl, rfl, rfl, rfl, rfl, ?_,
    softReset_leaveIntake_queue s h.tag⟩
  · rw [worksOf_softReset, resetWorks_leaveIntake]
  · rw [hpending, State.leaveIntake_pending]
  · rw [hrx, leaveIntake_rx]
  · rw [hsending, State.leaveIntake_tx_sending]

end Sys2Proof.Machine
end

