-- ==== Sys2Proof/Proofs/StatusUnit.lean ====
section
/-! SUPPORT. The Status Unit: the eight condition bits (R179), a post to the Error Queue (R183), and the records that read and
clear what the unit holds: READ STATUS and SET ENABLE (R182) and READ ERROR (R184). -/

namespace Sys2Proof.Machine

open Sys2Proof Sys2Proof.Claims

/-! ## The condition bits (R179) -/

theorem bitAt_getLsbD : ∀ (b : Bool) (i j : Fin 8), (bitAt b i.val).getLsbD j.val = (b && decide (i = j)) := by decide

/-- A bit of a word into which one bit after another is put is set if it was, or if one of those put in sets it. -/
theorem foldl_bitAt_getLsbD (b : Fin 8 → Bool) (j : Fin 8) (bits : List (Fin 8)) (w : BitVec 8) :
    (bits.foldl (fun w i => w ||| bitAt (b i) i.val) w).getLsbD j.val =
      (w.getLsbD j.val || bits.any fun i => b i && decide (i = j)) := by
  induction bits generalizing w with
  | nil => simp
  | cons i rest ih => rw [List.foldl_cons, ih, BitVec.getLsbD_or, bitAt_getLsbD, List.any_cons, Bool.or_assoc]

/-- A bit of the conditions is the condition of its number. -/
theorem conditions_getLsbD (s : State) (i : Fin 8) : s.conditions.getLsbD i.val = s.condition i := by
  have hone : ((List.finRange 8).any fun k => s.condition k && decide (k = i)) = s.condition i := by
    rw [Bool.eq_iff_iff]
    simp
  rw [State.conditions, foldl_bitAt_getLsbD, hone, BitVec.getLsbD_zero, Bool.false_or]

/-- Settles O47: each bit is the condition of its number, and each condition is read off its owner. -/
theorem conditionBitsMirrorTheirOwners : Obligations.ConditionBitsMirrorTheirOwners := by
  refine fun s => ⟨conditions_getLsbD s 0, conditions_getLsbD s 1, ?_, conditions_getLsbD s 3, conditions_getLsbD s 4,
    conditions_getLsbD s 5, ?_, conditions_getLsbD s 7, by decide⟩
  · have hfaulted : s.conditions.getLsbD 2 = allHeads.any fun h => s.seq.heads[h].state = .faulted := conditions_getLsbD s 2
    rw [hfaulted, allHeads_any]
    simp only [decide_eq_true_eq]
  · have hqueue : s.conditions.getLsbD 6 = !s.expander.queue.isEmpty := conditions_getLsbD s 6
    rw [hqueue, Bool.not_eq_true', List.isEmpty_eq_false_iff]

/-! ## Edges (R180) -/

/-- No edge is latched where no condition is set that was clear. -/
theorem risingEdges_eq_zero {s t : State} (h : ∀ i, t.condition i = true → s.condition i = true) :
    risingEdges s.conditions t.conditions = 0 := by
  have hnone : t.conditions &&& ~~~s.conditions = 0#8 := by
    refine BitVec.eq_of_getLsbD_eq fun i hi => ?_
    have hs := conditions_getLsbD s ⟨i, hi⟩
    have ht := conditions_getLsbD t ⟨i, hi⟩
    have hst := h ⟨i, hi⟩
    rw [← hs, ← ht] at hst
    simpa [hi] using hst
  rw [risingEdges, hnone]
  rfl

theorem flowAfterFall_paused {s : State} {fill : Nat} (h : flowAfterFall s fill = .paused) : s.rx.flow = .paused := by
  unfold flowAfterFall at h
  split at h
  · cases h
  · exact h

/-- The taking of a frame from the FIFO can end INTAKE_PAUSED, and sets no condition (R156, R179). -/
theorem leaveIntake_condition {s : State} (i : Fin 8) (h : s.leaveIntake.condition i = true) : s.condition i = true := by
  match i with
  | 0 | 1 | 2 | 3 | 6 | 7 => simpa [State.condition] using h
  | 4 =>
    have hpaused : s.leaveIntake.rx.flow = .paused := of_decide_eq_true h
    rw [leaveIntake_rx] at hpaused
    exact decide_eq_true (flowAfterFall_paused hpaused)
  | 5 =>
    have hdown : s.leaveIntake.rx.down = true := h
    rw [leaveIntake_rx] at hdown
    exact hdown

/-- The conditions are read off the works and the Link Receiver alone. -/
theorem conditions_congr {s t : State} (hw : worksOf t = worksOf s) (hrx : t.rx = s.rx) : t.conditions = s.conditions := by
  have hseq : t.seq = s.seq := congrArg Works.seq hw
  have hexpander : t.expander = s.expander := congrArg Works.expander hw
  have hmonitor : t.monitor = s.monitor := congrArg Works.monitor hw
  unfold State.conditions State.condition
  rw [hseq, hexpander, hmonitor, hrx]

/-- After a record that leaves the conditions, nothing is latched. -/
theorem latch_of_leaveIntake {s t : State} (h : t.conditions = s.leaveIntake.conditions) : s.latch t = t := by
  rw [State.latch_eq, h, risingEdges_eq_zero leaveIntake_condition]
  simp

/-! ## A post to the Error Queue (R183) -/

theorem postTo_overflowed {q : List ErrorEntry} {e : ErrorEntry}
    (hq : q.getLast?.map ErrorEntry.code = some .queueOverflow) : postTo q e = q := if_pos hq

theorem postTo_room {q : List ErrorEntry} {e : ErrorEntry} (hq : q.getLast?.map ErrorEntry.code ≠ some .queueOverflow)
    (hroom : q.length < 32) : postTo q e = q ++ [e] := (if_neg hq).trans (if_pos hroom)

theorem postTo_full {q : List ErrorEntry} {e : ErrorEntry} (hq : q.getLast?.map ErrorEntry.code ≠ some .queueOverflow)
    (hfull : 32 ≤ q.length) :
    postTo q e = q.dropLast ++ [{ code := .queueOverflow, revolution := e.revolution, head := none, lane := none,
                                  track := none, cell := none }] :=
  (if_neg hq).trans (if_neg (Nat.not_lt.mpr hfull))

/-- Settles O48: the queue by the three ways of a post, and the raising of ERROR_QUEUED, which is the same in each. -/
theorem postsKeepTheErrorQueueBounded : Obligations.PostsKeepTheErrorQueueBounded := by
  intro s code head lane track cell t e
  exact ⟨postTo_overflowed, fun hq => ⟨postTo_room hq, postTo_full hq⟩, rfl, rfl, rfl⟩

/-! ## Records of the Status Unit at the head of the FIFO -/

/-- A record whose rule succeeds at the head of the FIFO with an effect on the Status Unit and the notice alone leaves both as
its rule does, for nothing is latched after it. -/
theorem statusRecord_atHead {s t : State} {k : RecordKind} {h : Header} {p : List Byte} (ha : AtHead s k h p)
    (hk : k ≠ .reset) (hlen : k.lengthOk p = true) {code : Completion} {payload : List Byte}
    (hrule : ruleOf k h p s.leaveIntake = .done t code payload) (hl : LinkKept s.leaveIntake t)
    (hw : worksOf t = worksOf s.leaveIntake) :
    Completes (k.command h p) s fun u =>
      worksOf u = worksOf s ∧ LeavesAndReplies s u (successReply k h code payload) s.interp.syncs ∧
      u.status = t.status ∧ u.tx.notice = t.tx.notice := by
  have hconditions : t.conditions = s.leaveIntake.conditions := conditions_congr hw hl.rx
  have hworks : worksOf t = worksOf s := hw.trans (worksOf_leaveIntake s)
  refine ⟨_, exec_atHead ha hk hlen, ?_⟩
  rw [hrule, Verdict.conclude_done]
  unfold successReply
  split
  · have hlinked := leavesAndReplies_result hl (resultFrame h.tag k.code code payload)
    rw [latch_of_leaveIntake ((State.answer_conditions t _).trans hconditions)] at hlinked ⊢
    refine ⟨(worksOf_answer t _).trans hworks, hlinked, State.answer_status t _, ?_⟩
    rw [State.answer_eq]
  · have hlinked := leavesAndReplies_silent hl
    rw [latch_of_leaveIntake hconditions] at hlinked ⊢
    exact ⟨hworks, hlinked, rfl, rfl⟩

theorem writeStatus_kept (s : State) (events enable : BitVec 14) : LinkKept s (s.writeStatus events enable) :=
  ⟨rfl, rfl, rfl, rfl, rfl, rfl, rfl⟩

@[simp] theorem worksOf_writeStatus (s : State) (events enable : BitVec 14) :
    worksOf (s.writeStatus events enable) = worksOf s := rfl

/-- The register and the mask written once the record has left the FIFO. -/
theorem writeStatus_leaveIntake_status (s : State) (events enable : BitVec 14) :
    (s.leaveIntake.writeStatus events enable).status = { s.status with events := events, enable := enable } := by
  rw [State.writeStatus_eq, State.leaveIntake_status]

theorem writeStatus_leaveIntake_notice (s : State) (events enable : BitVec 14) :
    (s.leaveIntake.writeStatus events enable).tx.notice =
      noticeGoing s.summary (summaryOf events enable) s.tx.notice := by
  rw [State.writeStatus_eq, State.summary, State.leaveIntake_status, State.leaveIntake_tx_notice]
  rfl

/-! ## READ STATUS and SET ENABLE (R182) -/

/-- READ STATUS's payload in the words of the statement, formed once the record has left the FIFO (R182, R187). -/
theorem statusPayload_leaveIntake (s : State) : s.leaveIntake.statusPayload = statusBytes (leftIntake s) := by
  have hconditions : s.leaveIntake.conditions = (leftIntake s).conditions :=
    conditions_congr (worksOf_leaveIntake s) (leaveIntake_rx s)
  rw [State.statusPayload, hconditions, State.leaveIntake_status, State.leaveIntake_monitor, State.leaveIntake_seq]
  rfl

/-- With the event register clear the summary is clear. -/
theorem summaryOf_zero (enable : BitVec 14) : summaryOf 0 enable = false := by simp [summaryOf]

/-- The fall of the summary withdraws the notice (R181). -/
theorem noticeGoing_false (was notice : Bool) : noticeGoing was false notice = (notice && !was) := by
  cases was <;> simp [noticeGoing]

theorem readStatus_completes {s : State} {h : Header} (ha : AtHead s .readStatus h []) :
    Completes (.readStatus h []) s fun t =>
      worksOf t = worksOf s ∧
      LeavesAndReplies s t (.result (resultFrame h.tag 0x40 .done (statusBytes (leftIntake s)))) s.interp.syncs ∧
      t.status = { s.status with events := 0 } ∧ t.tx.notice = (s.tx.notice && !s.summary) := by
  obtain ⟨t, hexec, hworks, hlink, hstatus, hnotice⟩ :=
    statusRecord_atHead ha (by decide) rfl rfl (writeStatus_kept ..) (worksOf_writeStatus ..)
  rw [statusPayload_leaveIntake] at hlink
  rw [writeStatus_leaveIntake_status, State.leaveIntake_status] at hstatus
  rw [writeStatus_leaveIntake_notice, summaryOf_zero, noticeGoing_false] at hnotice
  exact ⟨t, hexec, hworks, hlink, hstatus, hnotice⟩

theorem ruleSetEnable_refused {p : List Byte} (hp : 16384 ≤ u16At p 0) (t : State) :
    ruleSetEnable p t = .refused .badValue [] := by
  rw [ruleSetEnable, setEnableOperand, decide_eq_false (Nat.not_lt.mpr hp), guardIn_false, withOperands_none]

theorem ruleSetEnable_ok {p : List Byte} (hp : ¬ 16384 ≤ u16At p 0) (t : State) :
    ruleSetEnable p t = .ok (t.writeStatus t.status.events (BitVec.ofNat 14 (u16At p 0))) := by
  rw [ruleSetEnable, setEnableOperand, decide_eq_true (Nat.not_le.mp hp), guardIn_true, withOperands_some]

theorem setEnable_completes {s : State} {h : Header} {p : List Byte} (ha : AtHead s .setEnable h p) (hlen : p.length = 2)
    (hp : ¬ 16384 ≤ u16At p 0) :
    Completes (.setEnable h p) s fun t =>
      worksOf t = worksOf s ∧ LeavesAndReplies s t (successReply .setEnable h) s.interp.syncs ∧
      t.status = { s.status with enable := BitVec.ofNat 14 (u16At p 0) } ∧ t.tx.notice = noticeAfter s t := by
  obtain ⟨t, hexec, hworks, hlink, hstatus, hnotice⟩ :=
    statusRecord_atHead ha (by decide) (decide_eq_true hlen) (ruleSetEnable_ok hp s.leaveIntake) (writeStatus_kept ..)
      (worksOf_writeStatus ..)
  rw [writeStatus_leaveIntake_status, State.leaveIntake_status] at hstatus
  rw [writeStatus_leaveIntake_notice, State.leaveIntake_status] at hnotice
  refine ⟨t, hexec, hworks, hlink, hstatus, ?_⟩
  rw [hnotice, noticeAfter, State.summary, State.summary, hstatus]
  rfl

/-- Settles O49: READ STATUS as its rule does it, and SET ENABLE by the range of its mask. -/
theorem statusIsReadAndEnabled : Obligations.StatusIsReadAndEnabled := by
  refine fun s h p => ⟨readStatus_completes, fun hlen ha => ?_⟩
  by_cases hp : 16384 ≤ u16At p 0
  · simp only [if_pos hp]
    exact refused_atHead ha (by decide) (decide_eq_true hlen) (ruleSetEnable_refused hp s.leaveIntake)
  · simp only [if_neg hp]
    exact setEnable_completes ha hlen hp

/-! ## READ ERROR (R184) -/

/-- READ ERROR's payload for an empty queue (R184). -/
theorem errorPayload_none : errorPayload none 0 = List.replicate 13 0 := by decide

theorem lane_byte (lane : Option Byte) : le1 (optionField BitVec.toNat lane) = [lane.getD 0] := by
  cases lane with
  | none => rfl
  | some tag => exact congrArg (fun x => [x]) (BitVec.ofNat_toNat 8 tag)

/-- READ ERROR's payload for an entry, in the words of the statement (R187). -/
theorem errorPayload_some (e : ErrorEntry) (left : Nat) : errorPayload (some e) left = errorBytes e left := by
  have htrack : optionField id e.track = e.track.getD 0 := by rw [optionField, Option.map_id]; rfl
  have hcell : optionField id e.cell = e.cell.getD 0 := by rw [optionField, Option.map_id]; rfl
  simp only [errorPayload]
  rw [lane_byte, htrack, hcell]
  rfl

/-- READ ERROR's own rule removes the oldest entry, if there is one (R184). -/
theorem ruleReadError_eq (t : State) :
    ruleReadError t = .done (t.setStatus { t.status with errors := t.status.errors.tail }) .done
      (match t.status.errors with
        | [] => List.replicate 13 0
        | e :: rest => errorBytes e rest.length) := by
  unfold ruleReadError
  cases herrors : t.status.errors with
  | nil =>
    have hsame : t.setStatus { t.status with errors := [] } = t := by rw [← herrors]; rfl
    rw [List.tail_nil, hsame]
    exact congrArg (Verdict.done t .done) errorPayload_none
  | cons e rest => exact congrArg (Verdict.done _ .done) (errorPayload_some e rest.length)

/-- Settles O50: READ ERROR's rule writes the Error Queue alone, so the register, and with it the notice, stay. -/
theorem errorsAreReadOldestFirst : Obligations.ErrorsAreReadOldestFirst := by
  intro s h ha
  obtain ⟨t, hexec, hworks, hlink, hstatus, hnotice⟩ :=
    statusRecord_atHead ha (by decide) rfl (ruleReadError_eq s.leaveIntake) ⟨rfl, rfl, rfl, rfl, rfl, rfl, rfl⟩ rfl
  rw [State.leaveIntake_status] at hlink hstatus
  exact ⟨t, hexec, hworks, hstatus, hnotice.trans (State.leaveIntake_tx_notice s), hlink⟩

end Sys2Proof.Machine
end

