-- ==== Sys2Proof/Proofs/StepQueue.lean ====
section
/-! SUPPORT. A step and the queue of commands, one equation for each form of the queue (log entry 1). -/

namespace Sys2Proof.Machine

open Sys2Proof Sys2Proof.Claims

/-- With no command waiting, the part idles. -/
theorem step_of_pending_nil {s : State} (hempty : s.pending = []) : step s = .next s := by
  rw [step, hempty]

/-- The front command runs on the state that holds the queue's rest, so it does not see itself in the queue. -/
theorem step_of_pending_cons {s : State} {c : Instr} {rest : List Instr} (hfront : s.pending = c :: rest) :
    step s = exec c { s with pending := rest } := by
  rw [step, hfront]

/-- Settles O1, by the two forms of the queue. -/
theorem stepRunsFrontCommand : Obligations.StepRunsFrontCommand := by
  intro s
  exact ⟨fun _ _ hfront => step_of_pending_cons hfront, step_of_pending_nil⟩

end Sys2Proof.Machine
end
